-- ==== Sys2Proof/Word.lean ====
section
/-! DEFINITION. The widths of the engine's values (R10, R11 of 00_scope.md): bytes of the link, 32-bit register
words, and bits. Bit `i` of a word is its bit `i` from the least significant (R11). -/

namespace Sys2Proof

/-- One byte of the link (R51). -/
abbrev Byte := BitVec 8

/-- A register data word, "data:u32" (R10). -/
abbrev Word := BitVec 32

/-- A 3-bit ack (R10). -/
abbrev Ack := BitVec 3

end Sys2Proof
end

