-- ==== Sys2Proof/Config.lean ====
section
/-! DEFINITION. The implementation parameters of R9 (00_scope.md), and the free values: opaque constants with no
body, so that no proof can see one and every claim holds whatever they are. -/

namespace Sys2Proof.Config

/-- `JTAG_RESET_CLOCKS` (R9): the TMS=1 clocks of reset_and_idle. -/
def jtagResetClocks : Nat := 5

/-- `SWD_RESET_BITS` (R9): the all-ones bits of an SWD reset. -/
def swdResetBits : Nat := 56

/-- `SWD_RESET_MIN` (R9): the protocol minimum of reset cycles. -/
def swdResetMin : Nat := 50

/-- `SWD_IDLE_BITS` (R9): the zero bits of an SWD idle. -/
def swdIdleBits : Nat := 8

/-- `JTAG_SWITCH_MAGIC` (R9): the JTAG-to-SWD sequence, 16 bits, LSB-first. -/
def jtagSwitchMagic : BitVec 16 := 0xE79E

/-- `IR_DPACC` (R9, R115). -/
def irDpacc : BitVec 4 := 0xA

/-- `IR_APACC` (R9, R115). -/
def irApacc : BitVec 4 := 0xB

/-- `DR_ACC_BITS` (R9): the length of the DPACC and APACC data registers. -/
def drAccBits : Nat := 35

/-- `JTAG_ACK_OK` (R9, R189). -/
def jtagAckOk : Ack := 2

/-- `SWD_ACK_OK` (R9, R211). -/
def swdAckOk : Ack := 1

/-- `MAX_SHIFT_BITS` (R9, D26): the largest write_ir or write_dr length. -/
def maxShiftBits : Nat := 64

/-- `JTAG_INIT_LEN` (R9, D11): the length field of the 0xD0 frame. -/
def jtagInitLen : Nat := 7

/-- The parameters of R9 that a rule reads and whose value is a machine's own: R9 gives `MAX_FRAME_BYTES`,
`MAX_CHAIN_WORDS` and `MAX_IR_SCAN_BITS` as OPEN, and `TDO_BIT` as a parameter with the value 0 (N-4: "must not
assume: bit 0"); and the model's own two slices. They stand in State (`State.par`), so that a claim about every state is a
claim about every value of them; no step writes them (assumption log 9, 10). -/
structure Params where
  /-- `MAX_FRAME_BYTES`: the size of the staging buffer; none is OPEN, "default unbounded" (D34). -/
  maxFrameBytes : Option Nat
  /-- `TDO_BIT`: the bit of a returned JTAG byte that holds TDO (R104). -/
  tdoBit : Fin 8
  /-- `MAX_CHAIN_WORDS`: the bound on the words of one discover_chain; none is unbounded. It is executor fuel: "Running out of
  fuel is no result, not an outcome of the engine" (D21). -/
  maxChainWords : Option PNat
  /-- `MAX_IR_SCAN_BITS`: the bound on the bits of one discover_ir_lengths, likewise (D21). -/
  maxIrScanBits : Option PNat
  /-- How many words of a chain scan one step scans: DESIGN CHOICE, the model's own and no bound (assumption log 10). -/
  chainSlice : PNat
  /-- How many bits of an IR scan one step scans: DESIGN CHOICE, likewise. -/
  irSlice : PNat
  deriving DecidableEq, Repr

/-- The defaults of R9. `TDO_BIT` is 0, `MAX_FRAME_BYTES` is open, `MAX_CHAIN_WORDS` and `MAX_IR_SCAN_BITS` are "default
unbounded". The two slices are DESIGN CHOICE: they only say how much of a loop one step runs, never what the loop does
(assumption log 10). -/
def Params.default : Params where
  maxFrameBytes := none
  tdoBit := 0
  maxChainWords := none
  maxIrScanBits := none
  chainSlice := 1024
  irSlice := 4096

/-- The free part of `TIMEOUT_MS` (R147, D46: OPEN, in 500..1000). -/
opaque timeoutOffset : Fin 501

/-- `TIMEOUT_MS`: some value of 500..1000. No rule reads it (R147). -/
def timeoutMs : Nat := 500 + timeoutOffset.val

/-- `SELECT_LAYOUT` (R254, N-24: "Must not assume: either layout"): the AP and the bank a SELECT word chooses. -/
opaque selectLayout : Word → Nat × Nat

/-- Free value: the outcome of the draw with this number where nothing fixes it (R57): 0 is success, 1 is
Timeout, 2 is DeviceGone. -/
opaque freeOutcome : Nat → Fin 3

/-- Free value: byte `i` of the answer of the draw with this number (R57, R69: "It may answer any bytes"). -/
opaque freeByte : Nat → Nat → Byte

/-- Free value: how many bytes one read returns where nothing fixes it (R144: "any len(a) >= 0"). -/
opaque freeLength : Nat → Nat

/-- Free value: a TDO sample outside the shift states (R60). -/
opaque freeBit : Nat → Bool

/-- Free value: a word the spec leaves "any value" (R64, R254). -/
opaque freeWord : Nat → Word

end Sys2Proof.Config
end

