-- ==== Sys2Proof/Syntax.lean ====
section
/-! DEFINITION. The whole of the engine's instructions: one constructor per row of spec/opcode_table.json, the 7
wire commands of R100 (30_encoding.md) and the 17 operations of 42_jtag_ops.md and 43_swd.md; the value types their
operands use (R20, 10_state.md); and the names under which the decoder rejects bytes. -/

namespace Sys2Proof

/-- `RegAddr` (R20): `DP(off)` or `AP(off)` with an 8-bit offset. -/
inductive RegAddr where
  | dp (off : Byte)
  | ap (off : Byte)
  deriving DecidableEq, Repr

/-- `Subcmd` (R20). -/
inductive Subcmd where
  | registerRead (addr : RegAddr)
  | registerWrite (addr : RegAddr) (data : Word)
  | rawSequence (nbits : BitVec 16) (bytes : List Byte)
  deriving DecidableEq, Repr

/-- One clock edge pair as it stands on the wire (R101): `cap` "is not sent". -/
structure WireUnit where
  tms : Bool
  tdi : Bool
  deriving DecidableEq, Repr

/-- The instructions. -/
inductive Instr where
  /-- F-D0, JTAG init frame (R102). -/
  | d0 (speed : Byte)
  /-- F-D2, JTAG clock batch (R103). -/
  | d2 (units : List WireUnit)
  /-- F-E5, SWD init frame (R105). -/
  | e5 (speed : Byte)
  /-- F-E8, SWD transaction batch (R106). -/
  | e8 (subs : List Subcmd)
  /-- S-A1, SWD raw sequence (R108). -/
  | a1 (nbits : BitVec 16) (bytes : List Byte)
  /-- S-A2, SWD register read (R109). -/
  | a2 (addr : RegAddr)
  /-- S-A0, SWD register write (R110). -/
  | a0 (addr : RegAddr) (data : Word)
  /-- `jtag_init(speed)` (R180). -/
  | jtagInit (speed : Byte)
  /-- `reset_and_idle()` (R181). -/
  | resetAndIdle
  /-- `discover_chain()` (R182). -/
  | discoverChain
  /-- `discover_ir_lengths()` (R183). -/
  | discoverIrLengths
  /-- `select_target(index)` (R184). -/
  | selectTarget (index : Nat)
  /-- `write_ir(value, length)` (R186). -/
  | writeIr (value : BitVec 64) (length : Nat)
  /-- `write_dr(value, length)` (R187). -/
  | writeDr (value : BitVec 64) (length : Nat)
  /-- `access_register(address, value)` (R188): none means read. -/
  | accessRegister (addr : RegAddr) (value : Option Word)
  /-- `swd_init(speed)` (R210). -/
  | swdInit (speed : Byte)
  /-- `push(g)` (R216). -/
  | push (g : Subcmd)
  /-- `flush()` (R217). -/
  | flush
  /-- `take()` (R218). -/
  | take
  /-- `swd_reset()` (R220). -/
  | swdReset
  /-- `jtag_to_swd()` (R221). -/
  | jtagToSwd
  /-- `swd_idle()` (R222). -/
  | swdIdle
  /-- `read_register(address, is_ap)` (R223). -/
  | readRegister (address : Byte) (isAp : Bool)
  /-- `write_register(address, is_ap, data)` (R224). -/
  | writeRegister (address : Byte) (isAp : Bool) (data : Word)
  deriving DecidableEq, Repr

/-- Why the decoder rejects bytes. -/
inductive Reject where
  /-- No byte at all. -/
  | empty
  /-- A first byte that starts no frame and no call (R119). -/
  | unknownOpcode
  /-- Fewer bytes than the frame's length (R118). -/
  | truncated
  /-- A byte the frame fixes has another value (R102, R105, R109, R110). -/
  | fixedByte
  /-- A D2 payload of odd length: not two bytes per clock unit (R103). -/
  | oddPayload
  /-- A D2 or E8 frame with no unit or no subcommand (R103, R106: n and k at least 1). -/
  | emptyBatch
  /-- "a clock byte with any of bits 2, 3, 5, 6 or 7 set" (R119), or a low phase with bit 0 set (R101). -/
  | reservedClockBits
  /-- A high-phase byte that is not its low-phase byte with bit 0 set (R101). -/
  | clockPair
  /-- "an SWD header that is not well-formed" (R119, R112). -/
  | header
  /-- A read header in S-A0 or a write header in S-A2 (R109, R110). -/
  | headerDirection
  /-- "an S-A0 parity byte other than popcount(data) mod 2" (R119). -/
  | parity
  /-- "a raw sequence with nbits = 0" (R119). -/
  | zeroBits
  /-- A 1 in an unused bit of a raw sequence's last byte (R108). -/
  | unusedBits
  /-- "a subcommand byte other than A0, A1 or A2" (R119). -/
  | unknownSubcommand
  /-- Bytes after the end of the frame or the call. -/
  | trailingBytes
  /-- Text that is no operation's name (R121). -/
  | unknownCall
  /-- An operation's name with operands not of its form (R121), or outside their width (R20). -/
  | operands
  deriving DecidableEq, Repr

end Sys2Proof
end

