-- ==== Sys2Proof/WellFormed.lean ====
section
/-! DEFINITION. Which terms of Instr are instructions. For a wire command this is what R102 to R110 ask of a frame
and R119 refuses (30_encoding.md). An operation is any term: its operands have the widths of R20 by their types, and
what it does with a bad length, offset or index is its rule's business at run time (R305 to R310). -/

namespace Sys2Proof

/-- The offset of a register address (R20). -/
def RegAddr.off : RegAddr → Byte
  | .dp off => off
  | .ap off => off

/-- An offset a frame can carry: it is sent as A[3:2] alone (R111), so its other bits are 0. -/
def RegAddr.wireForm (addr : RegAddr) : Bool :=
  addr.off &&& 0x0C == addr.off

/-- The bytes of a raw sequence of `nbits` bits (R108): `ceil(nbits / 8)`. -/
def rawByteCount (nbits : BitVec 16) : Nat := (nbits.toNat + 7) / 8

/-- A raw sequence as R108 has it: 1 to 0xFFFF bits, `ceil(nbits / 8)` bytes, the unused high bits 0. -/
def rawWellFormed (nbits : BitVec 16) (bytes : List Byte) : Bool :=
  nbits != 0 && bytes.length == rawByteCount nbits
    && (nbits.toNat % 8 == 0 || (bytes.getLast?.getD 0) >>> (nbits.toNat % 8) == 0)

/-- A subcommand a frame can carry. -/
def Subcmd.wireForm : Subcmd → Bool
  | .registerRead addr => addr.wireForm
  | .registerWrite addr _ => addr.wireForm
  | .rawSequence nbits bytes => rawWellFormed nbits bytes

/-- The length of a subcommand's frame (R212): 4, 9, or 3 + ceil(nbits / 8) bytes. -/
def Subcmd.wireLength : Subcmd → Nat
  | .registerRead _ => 4
  | .registerWrite _ _ => 9
  | .rawSequence nbits _ => 3 + rawByteCount nbits

/-- An instruction of the table. -/
def Instr.wf : Instr → Bool
  | .d0 _ => true
  | .d2 units => 1 ≤ units.length && units.length ≤ 32767
  | .e5 _ => true
  | .e8 subs => !subs.isEmpty && subs.all Subcmd.wireForm && (subs.map Subcmd.wireLength).sum ≤ 0xFFFF
  | .a1 nbits bytes => rawWellFormed nbits bytes
  | .a2 addr => addr.wireForm
  | .a0 addr _ => addr.wireForm
  | .jtagInit _ => true
  | .resetAndIdle => true
  | .discoverChain => true
  | .discoverIrLengths => true
  | .selectTarget _ => true
  | .writeIr _ _ => true
  | .writeDr _ _ => true
  | .accessRegister _ _ => true
  | .swdInit _ => true
  | .push _ => true
  | .flush => true
  | .take => true
  | .swdReset => true
  | .jtagToSwd => true
  | .swdIdle => true
  | .readRegister _ _ => true
  | .writeRegister _ _ _ => true

end Sys2Proof
end

