-- ==== Sys2Proof/Decode.lean ====
section
/-! DEFINITION. The byte-level contract (30_encoding.md): the bit and byte order helpers (R11, R12, R55, R56), the
decoder, total on any bytes and rejecting by name (R112, R118, R119, R121), then the encoder, written from R101 to
R111. Wire commands are the frames of R100. An operation has no frame of its own; its one written form in the spec is
the call syntax of R121, and that, as ASCII bytes, is what is decoded (assumption log 3). The two never meet: a
frame's first byte is at least 0x80, a call's is below it. -/

namespace Sys2Proof

/-! ### Bit and byte order -/

/-- `val(s)` (R12): the value a bit sequence denotes, bit 0 first. -/
def valBits : List Bool → Nat
  | [] => 0
  | b :: bs => b.toNat + 2 * valBits bs

/-- `bits_n(v)` (R12): the low `n` bits, bit 0 first. -/
def bitsOf (n : Nat) {w : Nat} (v : BitVec w) : List Bool :=
  (List.range n).map fun i => v.getLsbD i

/-- The byte whose bits are these, bit 0 first. -/
def byteOfBits (bits : List Bool) : Byte := BitVec.ofNat 8 (valBits bits)

/-- `le16(n)` (R12): `[lo(n), hi(n)]`. -/
def le16 (n : Nat) : List Byte := [BitVec.ofNat 8 n, BitVec.ofNat 8 (n / 256)]

/-- The value of a two-byte little-endian field (R55). -/
def ofLe16 (lo hi : Byte) : Nat := lo.toNat + 256 * hi.toNat

/-- `le32(v)` (R12). -/
def le32 (v : Word) : List Byte :=
  [v.extractLsb' 0 8, v.extractLsb' 8 8, v.extractLsb' 16 8, v.extractLsb' 24 8]

/-- The word of four little-endian bytes (R55, R213). -/
def ofLe32 (d0 d1 d2 d3 : Byte) : Word := d3 ++ d2 ++ d1 ++ d0

/-- `popcount(v)` (R11). -/
def popcount (v : Word) : Nat := ((bitsOf 32 v).map Bool.toNat).sum

/-- The write-data parity byte (R113): `popcount(data) mod 2`. -/
def parityByte (data : Word) : Byte := BitVec.ofNat 8 (popcount data % 2)

/-! ### Decoding frames -/

/-- A well-formed SWD header byte (R112). -/
def headerOk (h : Byte) : Bool :=
  h.getLsbD 0 && !h.getLsbD 6 && h.getLsbD 7
    && (h.getLsbD 5 == ((h.getLsbD 1 ^^ h.getLsbD 2) ^^ (h.getLsbD 3 ^^ h.getLsbD 4)))

/-- `rnw = h[2]` (R112). -/
def headerRnw (h : Byte) : Bool := h.getLsbD 2

/-- The register a header names (R112): `is_ap = h[1]`, `a = (h[4] << 3) | (h[3] << 2)`. -/
def headerAddr (h : Byte) : RegAddr :=
  if h.getLsbD 1 then .ap ((h >>> 1) &&& 0x0C) else .dp ((h >>> 1) &&& 0x0C)

/-- One subcommand frame off the front of the bytes (R108, R109, R110, R118). -/
def decodeSub (bs : List Byte) : Except Reject (Subcmd × List Byte) :=
  match bs with
  | [] => .error .truncated
  | op :: rest =>
    if op = 0xA2 then
      match rest with
      | x :: y :: h :: tail =>
        if x ≠ 0x22 ∨ y ≠ 0x00 then .error .fixedByte
        else if !headerOk h then .error .header
        else if !headerRnw h then .error .headerDirection
        else .ok (.registerRead (headerAddr h), tail)
      | _ => .error .truncated
    else if op = 0xA0 then
      match rest with
      | x :: y :: h :: b0 :: b1 :: b2 :: b3 :: par :: tail =>
        if x ≠ 0x29 ∨ y ≠ 0x00 then .error .fixedByte
        else if !headerOk h then .error .header
        else if headerRnw h then .error .headerDirection
        else if par ≠ parityByte (ofLe32 b0 b1 b2 b3) then .error .parity
        else .ok (.registerWrite (headerAddr h) (ofLe32 b0 b1 b2 b3), tail)
      | _ => .error .truncated
    else if op = 0xA1 then
      match rest with
      | lo :: hi :: tail =>
        let nbits := BitVec.ofNat 16 (ofLe16 lo hi)
        if nbits = 0 then .error .zeroBits
        else if tail.length < rawByteCount nbits then .error .truncated
        else if !rawWellFormed nbits (tail.take (rawByteCount nbits)) then .error .unusedBits
        else .ok (.rawSequence nbits (tail.take (rawByteCount nbits)), tail.drop (rawByteCount nbits))
      | _ => .error .truncated
    else .error .unknownSubcommand

/-- All the subcommand frames of an E8 payload, in order (R106). The first argument bounds their number: each has at
least one byte, so the payload's length is enough. -/
def decodeSubs : Nat → List Byte → Except Reject (List Subcmd)
  | _, [] => .ok []
  | 0, _ :: _ => .error .truncated
  | n + 1, b :: bs =>
    match decodeSub (b :: bs) with
    | .error e => .error e
    | .ok (g, rest) =>
      match decodeSubs n rest with
      | .error e => .error e
      | .ok gs => .ok (g :: gs)

/-- The clock units of a D2 payload (R101, R103), low phase first. -/
def decodeUnits : List Byte → Except Reject (List WireUnit)
  | [] => .ok []
  | [_] => .error .oddPayload
  | lo :: hi :: rest =>
    if lo &&& 0xED ≠ 0 then .error .reservedClockBits
    else if hi ≠ (lo ||| 0x01) then .error .clockPair
    else
      match decodeUnits rest with
      | .error e => .error e
      | .ok us => .ok (⟨lo.getLsbD 1, lo.getLsbD 4⟩ :: us)

/-- One frame off the front of the bytes (R118): the first byte gives its kind and, with its length field, its
length. -/
def decodeFrame (bs : List Byte) : Except Reject (Instr × List Byte) :=
  match bs with
  | [] => .error .empty
  | op :: rest =>
    if op = 0xD0 then
      if rest.length < 9 then .error .truncated
      else if rest.take 4 ≠ le16 Config.jtagInitLen ++ [0x00, 0x00]
          ∨ (rest.drop 5).take 4 ≠ [0x00, 0x00, 0x00, 0x00] then .error .fixedByte
      else .ok (.d0 (rest.getD 4 0), rest.drop 9)
    else if op = 0xE5 then
      if rest.length < 10 then .error .truncated
      else if rest.take 6 ≠ [0x08, 0x00, 0x40, 0x42, 0x0F, 0x00]
          ∨ (rest.drop 7).take 3 ≠ [0x00, 0x00, 0x00] then .error .fixedByte
      else .ok (.e5 (rest.getD 6 0), rest.drop 10)
    else if op = 0xD2 then
      match rest with
      | lo :: hi :: tail =>
        if tail.length < ofLe16 lo hi then .error .truncated
        else if ofLe16 lo hi = 0 then .error .emptyBatch
        else
          match decodeUnits (tail.take (ofLe16 lo hi)) with
          | .error e => .error e
          | .ok us => .ok (.d2 us, tail.drop (ofLe16 lo hi))
      | _ => .error .truncated
    else if op = 0xE8 then
      match rest with
      | lo :: hi :: tail =>
        if tail.length < ofLe16 lo hi then .error .truncated
        else if ofLe16 lo hi = 0 then .error .emptyBatch
        else
          match decodeSubs (ofLe16 lo hi) (tail.take (ofLe16 lo hi)) with
          | .error e => .error e
          | .ok gs => .ok (.e8 gs, tail.drop (ofLe16 lo hi))
      | _ => .error .truncated
    else if op = 0xA0 ∨ op = 0xA1 ∨ op = 0xA2 then
      match decodeSub (op :: rest) with
      | .error e => .error e
      | .ok (.registerRead addr, tail) => .ok (.a2 addr, tail)
      | .ok (.registerWrite addr data, tail) => .ok (.a0 addr data, tail)
      | .ok (.rawSequence nbits bytes, tail) => .ok (.a1 nbits bytes, tail)
    else .error .unknownOpcode

/-! ### Decoding calls (R121) -/

/-- The ASCII bytes of a text. -/
def ascii (s : String) : List Byte := s.toList.map fun c => BitVec.ofNat 8 c.toNat

/-- The ASCII codes of the opening and the closing brace (R20's notation `RegisterRead{addr}`). -/
def braceOpen : List Byte := [0x7B]

/-- See `braceOpen`. -/
def braceClose : List Byte := [0x7D]

/-- What follows the given bytes, if the text starts with them. -/
def lit (p bs : List Byte) : Option (List Byte) :=
  if p.isPrefixOf bs then some (bs.drop p.length) else none

/-- The value of a digit, hexadecimal ones in either case. -/
def digitValue (b : Byte) : Option Nat :=
  let n := b.toNat
  if 0x30 ≤ n ∧ n ≤ 0x39 then some (n - 0x30)
  else if 0x41 ≤ n ∧ n ≤ 0x46 then some (n - 0x37)
  else if 0x61 ≤ n ∧ n ≤ 0x66 then some (n - 0x57)
  else none

/-- The longest run of digits of a base off the front of the text, and its value if it is not empty. -/
def takeDigits (base : Nat) : List Byte → Option Nat → Option Nat × List Byte
  | [], acc => (acc, [])
  | b :: bs, acc =>
    match digitValue b with
    | none => (acc, b :: bs)
    | some d => if d < base then takeDigits base bs (some (acc.getD 0 * base + d)) else (acc, b :: bs)

/-- A literal: hexadecimal with `0x` (R121), or decimal, as the rules write lengths and indices. -/
def number (bs : List Byte) : Option (Nat × List Byte) :=
  match (match lit (ascii "0x") bs with
    | some rest => takeDigits 16 rest none
    | none => takeDigits 10 bs none) with
  | (some n, rest) => some (n, rest)
  | (none, _) => none

/-- A literal that fits in `w` bits (R20: widths). -/
def fixedNumber (w : Nat) (bs : List Byte) : Option (BitVec w × List Byte) :=
  match number bs with
  | some (n, rest) => if n < 2 ^ w then some (BitVec.ofNat w n, rest) else none
  | none => none

/-- `DP(off)` or `AP(off)`. -/
def regAddr (bs : List Byte) : Option (RegAddr × List Byte) :=
  match lit (ascii "DP(") bs with
  | some rest => do
    let (off, rest) ← fixedNumber 8 rest
    let rest ← lit (ascii ")") rest
    some (.dp off, rest)
  | none => do
    let rest ← lit (ascii "AP(") bs
    let (off, rest) ← fixedNumber 8 rest
    let rest ← lit (ascii ")") rest
    some (.ap off, rest)

/-- `true` or `false`. -/
def boolean (bs : List Byte) : Option (Bool × List Byte) :=
  match lit (ascii "true") bs with
  | some rest => some (true, rest)
  | none =>
    match lit (ascii "false") bs with
    | some rest => some (false, rest)
    | none => none

/-- The rest of a byte list after its first element, up to and with the closing bracket. -/
def moreBytes : Nat → List Byte → Option (List Byte × List Byte)
  | 0, _ => none
  | n + 1, bs =>
    match lit (ascii "]") bs with
    | some rest => some ([], rest)
    | none => do
      let rest ← lit (ascii ", ") bs
      let (b, rest) ← fixedNumber 8 rest
      let (more, rest) ← moreBytes n rest
      some (b :: more, rest)

/-- A byte list `[0xFF, 0x1F]` or `[]`. -/
def byteList (bs : List Byte) : Option (List Byte × List Byte) :=
  match lit (ascii "[]") bs with
  | some rest => some ([], rest)
  | none => do
    let rest ← lit (ascii "[") bs
    let (b, rest) ← fixedNumber 8 rest
    let (more, rest) ← moreBytes (rest.length + 1) rest
    some (b :: more, rest)

/-- A subcommand, in R20's notation. -/
def subcmd (bs : List Byte) : Option (Subcmd × List Byte) :=
  match lit (ascii "RegisterRead" ++ braceOpen) bs with
  | some rest => do
    let (addr, rest) ← regAddr rest
    let rest ← lit braceClose rest
    some (.registerRead addr, rest)
  | none =>
    match lit (ascii "RegisterWrite" ++ braceOpen) bs with
    | some rest => do
      let (addr, rest) ← regAddr rest
      let rest ← lit (ascii ", ") rest
      let (data, rest) ← fixedNumber 32 rest
      let rest ← lit braceClose rest
      some (.registerWrite addr data, rest)
    | none => do
      let rest ← lit (ascii "RawSequence" ++ braceOpen) bs
      let (nbits, rest) ← fixedNumber 16 rest
      let rest ← lit (ascii ", ") rest
      let (bytes, rest) ← byteList rest
      let rest ← lit braceClose rest
      some (.rawSequence nbits bytes, rest)

/-- `none` or a word: the value operand of access_register (R188). -/
def optionalWord (bs : List Byte) : Option (Option Word × List Byte) :=
  match lit (ascii "none") bs with
  | some rest => some (none, rest)
  | none => do
    let (v, rest) ← fixedNumber 32 bs
    some (some v, rest)

/-- The value and the length of a scan (R186, R187). -/
def scanOperands (bs : List Byte) : Option (BitVec 64 × Nat × List Byte) := do
  let (v, rest) ← fixedNumber 64 bs
  let rest ← lit (ascii ", ") rest
  let (n, rest) ← number rest
  some (v, n, rest)

/-- The operations by name, each with the reader of its operands, in the table's order. -/
def calls : List (List Byte × (List Byte → Option (Instr × List Byte))) :=
  [ (ascii "jtag_init(", fun bs => do
      let (sp, rest) ← fixedNumber 8 bs
      some (.jtagInit sp, rest)),
    (ascii "reset_and_idle(", fun bs => some (.resetAndIdle, bs)),
    (ascii "discover_chain(", fun bs => some (.discoverChain, bs)),
    (ascii "discover_ir_lengths(", fun bs => some (.discoverIrLengths, bs)),
    (ascii "select_target(", fun bs => do
      let (n, rest) ← number bs
      some (.selectTarget n, rest)),
    (ascii "write_ir(", fun bs => do
      let (v, n, rest) ← scanOperands bs
      some (.writeIr v n, rest)),
    (ascii "write_dr(", fun bs => do
      let (v, n, rest) ← scanOperands bs
      some (.writeDr v n, rest)),
    (ascii "access_register(", fun bs => do
      let (addr, rest) ← regAddr bs
      let rest ← lit (ascii ", ") rest
      let (v, rest) ← optionalWord rest
      some (.accessRegister addr v, rest)),
    (ascii "swd_init(", fun bs => do
      let (sp, rest) ← fixedNumber 8 bs
      some (.swdInit sp, rest)),
    (ascii "push(", fun bs => do
      let (g, rest) ← subcmd bs
      some (.push g, rest)),
    (ascii "flush(", fun bs => some (.flush, bs)),
    (ascii "take(", fun bs => some (.take, bs)),
    (ascii "swd_reset(", fun bs => some (.swdReset, bs)),
    (ascii "jtag_to_swd(", fun bs => some (.jtagToSwd, bs)),
    (ascii "swd_idle(", fun bs => some (.swdIdle, bs)),
    (ascii "read_register(", fun bs => do
      let (off, rest) ← fixedNumber 8 bs
      let rest ← lit (ascii ", ") rest
      let (isAp, rest) ← boolean rest
      some (.readRegister off isAp, rest)),
    (ascii "write_register(", fun bs => do
      let (off, rest) ← fixedNumber 8 bs
      let rest ← lit (ascii ", ") rest
      let (isAp, rest) ← boolean rest
      let rest ← lit (ascii ", ") rest
      let (data, rest) ← fixedNumber 32 rest
      some (.writeRegister off isAp data, rest)) ]

/-- The first operation of the list whose name the text starts with, its operands, and the closing parenthesis as
the last byte. -/
def decodeCallIn : List (List Byte × (List Byte → Option (Instr × List Byte))) → List Byte → Except Reject Instr
  | [], _ => .error .unknownCall
  | (name, operands) :: more, bs =>
    match lit name bs with
    | none => decodeCallIn more bs
    | some rest =>
      match operands rest with
      | none => .error .operands
      | some (i, rest) =>
        if rest = ascii ")" then .ok i
        else if (lit (ascii ")") rest).isSome then .error .trailingBytes
        else .error .operands

/-- The bytes of one operation, whole: a frame (R118) or a call (R121). -/
def decode (bs : List Byte) : Except Reject Instr :=
  match bs with
  | [] => .error .empty
  | b :: rest =>
    if b.getLsbD 7 then
      match decodeFrame (b :: rest) with
      | .error e => .error e
      | .ok (i, []) => .ok i
      | .ok (_, _ :: _) => .error .trailingBytes
    else decodeCallIn calls (b :: rest)

/-! ### Encoding frames -/

/-- `enc_lo(u)` (R101): bit 1 is TMS, bit 4 is TDI, the rest 0. -/
def encLo (u : WireUnit) : Byte := byteOfBits [false, u.tms, false, false, u.tdi]

/-- `enc(u)` (R101): the low phase, then the high phase with bit 0 set. -/
def encUnit (u : WireUnit) : List Byte := [encLo u, encLo u ||| 0x01]

/-- F-D0 (R102). -/
def frameD0 (speed : Byte) : List Byte :=
  [0xD0] ++ le16 Config.jtagInitLen ++ [0x00, 0x00, speed, 0x00, 0x00, 0x00, 0x00]

/-- F-D2 (R103): the length field counts the payload bytes. -/
def frameD2 (units : List WireUnit) : List Byte :=
  [0xD2] ++ le16 (2 * units.length) ++ units.flatMap encUnit

/-- F-E5 (R105). -/
def frameE5 (speed : Byte) : List Byte :=
  [0xE5, 0x08, 0x00, 0x40, 0x42, 0x0F, 0x00, speed, 0x00, 0x00, 0x00]

/-- `isap` (R212). -/
def RegAddr.isAp : RegAddr → Bool
  | .dp _ => false
  | .ap _ => true

/-- `hdr(ap, rnw, a)` (R111): start, APnDP, RnW, A[2], A[3], parity, stop, park, bit 0 first. -/
def header (addr : RegAddr) (rnw : Bool) : Byte :=
  let a2 := addr.off.getLsbD 2
  let a3 := addr.off.getLsbD 3
  byteOfBits [true, addr.isAp, rnw, a2, a3, (addr.isAp ^^ rnw) ^^ (a2 ^^ a3), false, true]

/-- `frame(g)` (R108, R109, R110, R212). -/
def encodeSub : Subcmd → List Byte
  | .registerRead addr => [0xA2, 0x22, 0x00, header addr true]
  | .registerWrite addr data => [0xA0, 0x29, 0x00, header addr false] ++ le32 data ++ [parityByte data]
  | .rawSequence nbits bytes => [0xA1] ++ le16 nbits.toNat ++ bytes

/-- The payload of a batch: its subcommands' frames in order (R106). -/
def batchPayload (subs : List Subcmd) : List Byte := subs.flatMap encodeSub

/-- F-E8 (R106): the length field counts the payload bytes. -/
def frameE8 (subs : List Subcmd) : List Byte :=
  [0xE8] ++ le16 (batchPayload subs).length ++ batchPayload subs

/-! ### Encoding calls (R121) -/

/-- A digit, hexadecimal ones in upper case. -/
def digit (n : Nat) : Byte := BitVec.ofNat 8 (if n < 10 then 0x30 + n else 0x37 + n)

/-- The last `k` hexadecimal digits of a number, most significant first. -/
def hexDigits : Nat → Nat → List Byte
  | 0, _ => []
  | k + 1, n => hexDigits k (n / 16) ++ [digit (n % 16)]

/-- A hexadecimal literal of `k` digits. -/
def hexText (k : Nat) {w : Nat} (v : BitVec w) : List Byte := ascii "0x" ++ hexDigits k v.toNat

/-- The decimal digits of a number, most significant first; the first argument bounds their count. -/
def decDigits : Nat → Nat → List Byte
  | 0, n => [digit (n % 10)]
  | k + 1, n => (if n < 10 then [] else decDigits k (n / 10)) ++ [digit (n % 10)]

/-- A decimal literal. -/
def decText (n : Nat) : List Byte := decDigits n n

/-- A register address. -/
def addrText : RegAddr → List Byte
  | .dp off => ascii "DP(" ++ hexText 2 off ++ ascii ")"
  | .ap off => ascii "AP(" ++ hexText 2 off ++ ascii ")"

/-- A truth value. -/
def boolText (b : Bool) : List Byte := if b then ascii "true" else ascii "false"

/-- A byte list. -/
def byteListText : List Byte → List Byte
  | [] => ascii "[]"
  | b :: bs => ascii "[" ++ hexText 2 b ++ bs.flatMap (fun x => ascii ", " ++ hexText 2 x) ++ ascii "]"

/-- A subcommand. -/
def subcmdText : Subcmd → List Byte
  | .registerRead addr => ascii "RegisterRead" ++ braceOpen ++ addrText addr ++ braceClose
  | .registerWrite addr data =>
    ascii "RegisterWrite" ++ braceOpen ++ addrText addr ++ ascii ", " ++ hexText 8 data ++ braceClose
  | .rawSequence nbits bytes =>
    ascii "RawSequence" ++ braceOpen ++ decText nbits.toNat ++ ascii ", " ++ byteListText bytes ++ braceClose

/-- The words of an instruction: a wire command's frame, an operation's call. -/
def encode : Instr → List Byte
  | .d0 speed => frameD0 speed
  | .d2 units => frameD2 units
  | .e5 speed => frameE5 speed
  | .e8 subs => frameE8 subs
  | .a1 nbits bytes => encodeSub (.rawSequence nbits bytes)
  | .a2 addr => encodeSub (.registerRead addr)
  | .a0 addr data => encodeSub (.registerWrite addr data)
  | .jtagInit speed => ascii "jtag_init(" ++ hexText 2 speed ++ ascii ")"
  | .resetAndIdle => ascii "reset_and_idle()"
  | .discoverChain => ascii "discover_chain()"
  | .discoverIrLengths => ascii "discover_ir_lengths()"
  | .selectTarget index => ascii "select_target(" ++ decText index ++ ascii ")"
  | .writeIr value length =>
    ascii "write_ir(" ++ hexText 16 value ++ ascii ", " ++ decText length ++ ascii ")"
  | .writeDr value length =>
    ascii "write_dr(" ++ hexText 16 value ++ ascii ", " ++ decText length ++ ascii ")"
  | .accessRegister addr none => ascii "access_register(" ++ addrText addr ++ ascii ", none)"
  | .accessRegister addr (some value) =>
    ascii "access_register(" ++ addrText addr ++ ascii ", " ++ hexText 8 value ++ ascii ")"
  | .swdInit speed => ascii "swd_init(" ++ hexText 2 speed ++ ascii ")"
  | .push g => ascii "push(" ++ subcmdText g ++ ascii ")"
  | .flush => ascii "flush()"
  | .take => ascii "take()"
  | .swdReset => ascii "swd_reset()"
  | .jtagToSwd => ascii "jtag_to_swd()"
  | .swdIdle => ascii "swd_idle()"
  | .readRegister address isAp =>
    ascii "read_register(" ++ hexText 2 address ++ ascii ", " ++ boolText isAp ++ ascii ")"
  | .writeRegister address isAp data =>
    ascii "write_register(" ++ hexText 2 address ++ ascii ", " ++ boolText isAp ++ ascii ", " ++ hexText 8 data
      ++ ascii ")"

/-! ### The table's words -/

/-- The `k` bytes of a number, the least significant first. -/
def bytesLow (k w : Nat) : List Byte := (List.range k).map fun i => BitVec.ofNat 8 (w / 256 ^ i)

/-- The bytes of a word of spec/opcode_table.json, first byte first. Its one-byte rows need no order. Its two 24-bit
rows (A2, A0) are written there as 0xA22200 and 0xA02900 with the FIRST byte, A2 or A0, the most significant; the
spec's words are `A2 22 00` and `A0 29 00` (R109, R110). So a word whose lowest byte is no first byte of R100 is read
from its other end (assumption log 4). -/
def tableBytes (nbits w : Nat) : List Byte :=
  let low := bytesLow (nbits / 8) w
  if (low.headD 0).getLsbD 7 then low else low.reverse

/-- The instruction of a table row whose operands are all zero. The table gives a row its first one or three bytes
alone; with zero bytes after them the bytes are no frame, since R102 and R105 fix a length field, R103, R106 and R108
ask for at least one unit, subcommand or bit, and R111 fixes a header's start and park bits. This is the shortest
frame the spec admits after those bytes with every operand bit 0 (assumption log 4). -/
def tableInstr (bs : List Byte) : Option Instr :=
  if bs = [0xD0] then some (.d0 0)
  else if bs = [0xD2] then some (.d2 [⟨false, false⟩])
  else if bs = [0xE5] then some (.e5 0)
  else if bs = [0xE8] then some (.e8 [.rawSequence 1 [0]])
  else if bs = [0xA1] then some (.a1 1 [0])
  else if bs = [0xA2, 0x22, 0x00] then some (.a2 (.dp 0))
  else if bs = [0xA0, 0x29, 0x00] then some (.a0 (.dp 0) 0)
  else none

/-- The bytes laid out for a table word: as they are with zero bytes after them where the decoder takes them, else
the row's shortest frame with zero operands. -/
def tableWordBytes (nbits w : Nat) : List Byte :=
  let bs := tableBytes nbits w
  match decode bs with
  | .ok _ => bs
  | .error _ =>
    match tableInstr bs with
    | some i => encode i
    | none => bs

/-- The instruction the decoder reads from a word of spec/opcode_table.json. -/
def decodeTableWord (nbits w : Nat) : Option Instr :=
  match decode (tableWordBytes nbits w) with
  | .ok i => some i
  | .error _ => none

end Sys2Proof
end

