-- ==== Sys2Proof/Machine/State.lean ====
section
/-! DEFINITION. The state: the engine's record of R22 (10_state.md), the position in the caller's operation sequence
(R37), what a run shows (R70, 20_memory.md), and the environment that answers the link (R57); and why a step stops.
Plain data throughout. -/

namespace Sys2Proof.Machine

/-- `TapState` (R21): the 16 controller states of IEEE 1149.1. -/
inductive TapState where
  | tlr | rti | selDR | capDR | shDR | ex1DR | pauseDR | ex2DR | updDR
  | selIR | capIR | shIR | ex1IR | pauseIR | ex2IR | updIR
  deriving DecidableEq, Repr

/-- The 16 states, in the order of R21: the document's "Unknown" (R17), and the order in which a set is held. -/
def TapState.all : List TapState :=
  [.tlr, .rti, .selDR, .capDR, .shDR, .ex1DR, .pauseDR, .ex2DR, .updDR,
    .selIR, .capIR, .shIR, .ex1IR, .pauseIR, .ex2IR, .updIR]

/-- `ClockUnit` (R20). -/
structure ClockUnit where
  tms : Bool
  tdi : Bool
  cap : Bool
  deriving DecidableEq, Repr

/-- `SResult` (R20). -/
inductive SResult where
  | readOk (v : Word)
  | writeOk
  | rawOk
  | ackErr (ack : Ack)
  deriving DecidableEq, Repr

/-- The bridge protocol last initialised (R23). -/
inductive Mode where
  | uninit | jtag | swd
  deriving DecidableEq, Repr

/-- The SWD line state (R33). -/
inductive LineState where
  | unknown | lineReset | ready
  deriving DecidableEq, Repr

/-- How a transfer fails (R57). -/
inductive FailKind where
  | timeout | deviceGone
  deriving DecidableEq, Repr

/-- The direction of a transfer (R301). -/
inductive Dir where
  | tx | rx
  deriving DecidableEq, Repr

/-- `Fail(kind, dir)` (R141, R142). -/
structure LinkFail where
  kind : FailKind
  dir : Dir
  deriving DecidableEq, Repr

/-- A link event (R35): `Out(bytes)`, `In(bytes)`, `Fail(kind, dir)`. -/
inductive Event where
  | out (bytes : List Byte)
  | inn (bytes : List Byte)
  | fail (f : LinkFail)
  deriving DecidableEq, Repr

/-- The typed errors (R300), which return to the caller. AccessFault is also called ProtocolAck (C1). The limit of a
BufferOverflow is `MAX_FRAME_BYTES`, none where it is open (assumption log 13). -/
inductive TypedError where
  | transport (f : LinkFail)
  | accessFault (ack : Ack)
  | indexOutOfRange (index count : Nat)
  | bufferOverflow (size : Nat) (limit : Option Nat)
  deriving DecidableEq, Repr

/-- The model faults (R300), which mark a program the spec refuses (R316). -/
inductive ModelFault where
  | modeViolation | tapStateViolation | invalidLength | misalignedAddress | malformedResponse | queueNotEmpty
  deriving DecidableEq, Repr

/-- The success value of an operation: nothing; discover_chain's identifiers; discover_ir_lengths' lengths; the bits
of a scan, bit 0 first; a register word; take's results. -/
inductive Value where
  | unit
  | ids (ws : List Word)
  | lengths (ns : List Nat)
  | bits (bs : List Bool)
  | word (w : Word)
  | results (rs : List SResult)
  deriving DecidableEq, Repr

/-- The result an operation returns (R70, R300). -/
inductive OpResult where
  | ok (v : Value)
  | err (e : TypedError)
  deriving DecidableEq, Repr

/-- Where an unbounded discovery loop stands (R182, R183): the identifiers found so far; or the loop variables `prev`,
`count`, `closed` and `L`. -/
inductive Progress where
  | chain (ids : List Word)
  | irLengths (prev : Bool) (count : Nat) (closed : Bool) (found : List Nat)
  deriving DecidableEq, Repr

/-! ### The environment (R57) -/

/-- The outcome of a coming write that the outside has fixed (R141). -/
inductive TxDraw where
  | ok
  | fail (kind : FailKind)
  deriving DecidableEq, Repr

/-- The outcome of a coming single read that the outside has fixed (R142, R144): some bytes, or a failure. -/
inductive RxDraw where
  | bytes (bs : List Byte)
  | fail (kind : FailKind)
  deriving DecidableEq, Repr

/-- One AP register of a reference target (R53): the AP and the bank SELECT chooses, A[3:2], and what it reads. -/
structure ApCell where
  place : Nat × Nat
  a : BitVec 2
  value : Word
  deriving DecidableEq, Repr

/-- A debug port of the target (R39, R254): what is fixed of its registers. none is a value the spec leaves "any value" at that
moment: what is read is what the environment draws. Each TAP of a reference chain, and the SWD line, has a debug port of its
own: DESIGN CHOICE, assumption log 20. -/
structure DebugPort where
  /-- DP 0x0 and DP 0x4. -/
  reg0 : Option Word
  reg4 : Option Word
  /-- SELECT, DP 0x8. -/
  select : Option Word
  /-- RDBUFF, DP 0xC: the one value latched by the last AP read (R65, R254); none only until it is drawn. -/
  rdbuff : Option Word
  /-- Whether an AP read has latched a result: "The first AP read returns any value" (R65). -/
  apLatched : Bool
  /-- The result of the previous JTAG access (R64). -/
  latch : Option Word
  /-- The AP registers it has been given. -/
  aps : List ApCell
  deriving DecidableEq, Repr

/-- A debug port of which nothing is fixed. -/
def DebugPort.unknown : DebugPort := ⟨none, none, none, none, false, none, []⟩

/-- What the data register an instruction selects does (R61, R64, R67). -/
inductive DrKind where
  /-- Captures its value; an update leaves it (IDCODE). -/
  | constant
  /-- Captures the value it last updated (the loopback fixture, R67). -/
  | loopback
  /-- DPACC (false) or APACC (true): captures `(result << 3) | ack` and issues an access on update (R64). -/
  | access (isAp : Bool)
  deriving DecidableEq, Repr

/-- A data register of a TAP: the instruction that selects it, its kind, and its bits, bit 0 first. -/
structure DataReg where
  code : List Bool
  kind : DrKind
  cell : List Bool
  deriving DecidableEq, Repr

/-- A TAP of the reference chain (R61); registers are bit sequences, bit 0 (the TDO end) first. -/
structure Tap where
  irsh : List Bool
  ir : List Bool
  ircap : List Bool
  rst : List Bool
  drsh : List Bool
  drs : List DataReg
  port : DebugPort
  deriving DecidableEq, Repr

/-- A reference target (R61): the chain `[T0, …]`, T0 nearest TDO, with its common TAP state. The DP registers reached over
JTAG (each TAP's `port`) and those reached over SWD (`Env.swd`) are separate, so that SELECT or RDBUFF written or latched over
one is not seen over the other. DESIGN CHOICE, assumption log 20: the spec speaks of the target's DP (R39, R50, R252, R345) and
does not say whether both transports reach the same registers. `Target.wf` (Target.lean) says which are as R61 has them. -/
structure Target where
  q : TapState
  chain : List Tap
  deriving DecidableEq, Repr

/-- The environment (R57, R69). Outcomes are drawn: from the scripts while they last, then from the reference target where
there is one, else from free values numbered by `draws` (assumption log 6, 7). Whichever they are drawn from, the answers to SWD
register transactions are bound by R65, through `swd`. -/
structure Env where
  /-- Outcomes of the coming writes. -/
  tx : List TxDraw
  /-- Outcomes of the coming single reads. -/
  rx : List RxDraw
  /-- The number of the next free draw: the model's own field. -/
  draws : Nat
  /-- The reference target, if this environment is one (R61: "optional"). -/
  target : Option Target
  /-- The answer the reference target has ready. -/
  inbox : List Byte
  /-- The debug port that the SWD line reaches: what the transactions so far fix of the coming answers (R65). -/
  swd : DebugPort
  /-- The subcommands of the F-E8 frame written and not yet answered (R58, R143). -/
  asked : List Subcmd
  deriving DecidableEq, Repr

/-! ### The state -/

/-- The state. The first part is the record of R22. -/
structure State where
  mode : Mode
  jspeed : Option Byte
  sspeed : Option Byte
  /-- A set, held as a list in the order of `TapState.all` (R25). -/
  tap : List TapState
  cq : List ClockUnit
  bb : List Bool
  taps : List Nat
  sel : Option Nat
  irPre : Nat
  irPos : Nat
  pre : Nat
  pos : Nat
  sq : List Subcmd
  rq : List SResult
  link : LineState
  fault : Option ModelFault
  hist : List Event
  /-- The index of the next operation (R37). -/
  pc : Nat
  /-- The caller's operation sequence, one byte string an operation (R37, R70). -/
  calls : List (List Byte)
  /-- The results of the operations so far (R70). -/
  results : List OpResult
  /-- A discovery loop in progress: the model's own field (assumption log 10). -/
  prog : Option Progress
  /-- The OPEN parameters of R9. -/
  par : Config.Params
  /-- The environment (R57). -/
  env : Env
  deriving DecidableEq, Repr

/-- The state right after the engine is created (R22, R340, R342). -/
def State.reset : State where
  mode := .uninit
  jspeed := none
  sspeed := none
  tap := TapState.all
  cq := []
  bb := []
  taps := []
  sel := none
  irPre := 0
  irPos := 0
  pre := 0
  pos := 0
  sq := []
  rq := []
  link := .unknown
  fault := none
  hist := []
  pc := 0
  calls := []
  results := []
  prog := none
  par := Config.Params.default
  env := { tx := [], rx := [], draws := 0, target := none, inbox := [], swd := .unknown, asked := [] }

/-- Why a step stops. -/
inductive Fault where
  /-- A model fault is set: "a state with fault ≠ none has no further step" (R34, R316). Raised by every meaning and
  by step. Safe: the run is over for the spec. -/
  | sticky (f : ModelFault)
  /-- A discovery loop is in progress, and "an operation runs to completion before the next is taken" (R37). Raised
  by every meaning when it is called in such a state; step never does. Safe. -/
  | busy
  /-- "The run ends when the sequence is exhausted" (R70): no operation is left. Raised by step. Safe. -/
  | runEnded
  /-- A discovery in progress has scanned all that MAX_CHAIN_WORDS or MAX_IR_SCAN_BITS allows: "Running out of fuel is no
  result, not an outcome of the engine" (R9, D21). Raised by step (DESIGN CHOICE, assumption log 10). Safe. -/
  | outOfFuel
  deriving DecidableEq, Repr

/-- Why a step has no meaning. -/
inductive Refusal where
  /-- An instruction without a meaning yet, by its mnemonic. Raised by exec alone. Safe. -/
  | notModelled (mnemonic : String)
  /-- The caller's bytes are no operation (R119: "the model refuses"). Raised by step. Safe. -/
  | undecodable (r : Reject)
  deriving DecidableEq, Repr

end Sys2Proof.Machine
end

