-- ==== Sys2Proof/Machine/Flags.lean ====
section
/-! DEFINITION. The engine has no flags or condition codes (R38, 10_state.md): every status is in an operation's
result. What stands here is what a result's status is computed from: the ack decoders (R114, R189, R211, R255) and the
outcome codes of R300. -/

namespace Sys2Proof.Machine

/-- The 3-bit SWD ack (R114): `ackbyte & 0x07`. -/
def swdAck (ackbyte : Byte) : Ack := ackbyte.extractLsb' 0 3

/-- The SWD OK test (R211, R255). -/
def swdAckIsOk (ack : Ack) : Bool := ack == Config.swdAckOk

/-- The JTAG ack of a captured access (R117): `c[2:0]`. -/
def jtagAck (c : BitVec 35) : Ack := c.extractLsb' 0 3

/-- The register value of a captured access (R117): `c[34:3]`. -/
def jtagValue (c : BitVec 35) : Word := c.extractLsb' 3 32

/-- The JTAG OK test (R189, R255). -/
def jtagAckIsOk (ack : Ack) : Bool := ack == Config.jtagAckOk

/-- The codes of the typed errors (R300). -/
def TypedError.code : TypedError → Nat
  | .transport f =>
    match f.kind with
    | .timeout => 1
    | .deviceGone => 2
  | .accessFault _ => 3
  | .indexOutOfRange _ _ => 4
  | .bufferOverflow _ _ => 5

/-- The codes of the model faults (R300). -/
def ModelFault.code : ModelFault → Nat
  | .modeViolation => 16
  | .tapStateViolation => 17
  | .invalidLength => 18
  | .misalignedAddress => 19
  | .malformedResponse => 20
  | .queueNotEmpty => 21

end Sys2Proof.Machine
end

