-- ==== Sys2Proof/Machine/Tap.lean ====
section
/-! DEFINITION. The TAP controller and the tracker (41_jtag_tap.md, R160 to R164). -/

namespace Sys2Proof.Machine

/-- δ(q, tms) (R160). -/
def delta : TapState → Bool → TapState
  | .tlr, false => .rti
  | .tlr, true => .tlr
  | .rti, false => .rti
  | .rti, true => .selDR
  | .selDR, false => .capDR
  | .selDR, true => .selIR
  | .capDR, false => .shDR
  | .capDR, true => .ex1DR
  | .shDR, false => .shDR
  | .shDR, true => .ex1DR
  | .ex1DR, false => .pauseDR
  | .ex1DR, true => .updDR
  | .pauseDR, false => .pauseDR
  | .pauseDR, true => .ex2DR
  | .ex2DR, false => .shDR
  | .ex2DR, true => .updDR
  | .updDR, false => .rti
  | .updDR, true => .selDR
  | .selIR, false => .capIR
  | .selIR, true => .tlr
  | .capIR, false => .shIR
  | .capIR, true => .ex1IR
  | .shIR, false => .shIR
  | .shIR, true => .ex1IR
  | .ex1IR, false => .pauseIR
  | .ex1IR, true => .updIR
  | .pauseIR, false => .pauseIR
  | .pauseIR, true => .ex2IR
  | .ex2IR, false => .shIR
  | .ex2IR, true => .updIR
  | .updIR, false => .rti
  | .updIR, true => .selDR

/-- δ*(Q, tms) (R160): the image of the set, in the order of R21. -/
def deltaSet (Q : List TapState) (tms : Bool) : List TapState :=
  TapState.all.filter fun q => Q.any fun p => delta p tms == q

/-- The tracker after a TMS sequence. -/
def deltaSeq (Q : List TapState) (seq : List Bool) : List TapState := seq.foldl deltaSet Q

/-- A legal tracker (R25): non-empty, and a set in the order of R21. -/
def tapSetOk (Q : List TapState) : Bool :=
  !Q.isEmpty && Q == TapState.all.filter fun q => Q.contains q

/-- A unit that only navigates or pads: TDI = 1, cap = 0 (R164, D7). -/
def nav (tms : Bool) : ClockUnit := ⟨tms, true, false⟩

/-- RTI to ShDR: TMS 1,0,0 (R163). -/
def enterShiftDR : List ClockUnit := [nav true, nav false, nav false]

/-- RTI to ShIR: TMS 1,1,0,0 (R163, D6). -/
def enterShiftIR : List ClockUnit := [nav true, nav true, nav false, nav false]

/-- ShDR or ShIR to RTI, via Ex1 and Upd: TMS 1,1,0 (R163). -/
def leaveShift : List ClockUnit := [nav true, nav true, nav false]

/-- Ex1 to RTI, via Upd: TMS 1,0 (R163). -/
def leaveExit1 : List ClockUnit := [nav true, nav false]

/-- Whether a unit shifts one bit: iff its pre-state is ShDR or ShIR (R167). -/
def shifts : TapState → Bool
  | .shDR => true
  | .shIR => true
  | _ => false

end Sys2Proof.Machine
end

