-- ==== Sys2Proof/Machine/Operands.lean ====
section
/-! DEFINITION. The operand forms: register addresses (R71, R250), the JTAG access request (R115, R116), the units of a
scan (R185), raw sequences (R108, R216), and the answer slice, the parser and the line state of a subcommand (R213 to
R215). The frames themselves are in Decode.lean. -/

namespace Sys2Proof.Machine

/-- "offsets are 4-byte aligned" (R71): bits [1:0] are 00. -/
def aligned (off : Byte) : Bool := !off.getLsbD 0 && !off.getLsbD 1

/-- The significant bits of an offset, A[3:2] (R52). -/
def addrA (off : Byte) : BitVec 2 := off.extractLsb' 2 2

/-- The register of read_register and write_register (R223): `AP(address)` if is_ap, else `DP(address)`. -/
def regOf (address : Byte) (isAp : Bool) : RegAddr := if isAp then .ap address else .dp address

/-- The JTAG access instruction (R115): DPACC or APACC. -/
def accessIr : RegAddr → BitVec 4
  | .dp _ => Config.irDpacc
  | .ap _ => Config.irApacc

/-- `req(rnw, a, d) = (d << 3) | (a[3] << 2) | (a[2] << 1) | rnw` (R116). -/
def accessReq (rnw : Bool) (off : Byte) (d : Word) : BitVec 35 :=
  (d.zeroExtend 35 <<< 3) ||| ((addrA off).zeroExtend 35 <<< 1) ||| (BitVec.ofBool rnw).zeroExtend 35

/-- The request of an access (R188): none means read, with data 0. -/
def accessRequest (off : Byte) : Option Word → BitVec 35
  | none => accessReq true off 0
  | some d => accessReq false off d

/-- `kind` of a scan (R185). -/
inductive ScanKind where
  | ir | dr
  deriving DecidableEq, Repr

/-- The data units of a scan (R185): LSB-first, captured; TMS=1 on the last one if no trailing padding follows. -/
def dataUnits (value : BitVec 64) (length : Nat) (trailing : Nat) : List ClockUnit :=
  (List.range length).map fun i => ⟨i + 1 == length && trailing == 0, value.getLsbD i, true⟩

/-- The trailing padding of a scan (R185): TDI=1, TMS=1 on the very last unit. -/
def trailingUnits (count : Nat) : List ClockUnit :=
  (List.range count).map fun j => nav (j + 1 == count)

/-- All the units of a scan (R185): entry, leading padding, data, trailing padding, Exit1 to Idle. -/
def scanUnits (kind : ScanKind) (value : BitVec 64) (length leading trailing : Nat) : List ClockUnit :=
  (match kind with
    | .ir => enterShiftIR
    | .dr => enterShiftDR)
    ++ List.replicate leading (nav false) ++ dataUnits value length trailing ++ trailingUnits trailing ++ leaveExit1

/-- The bits of a raw sequence, in wire order (R108, R56): bit `8j + i` is bit `i` of byte `j`. -/
def rawBits (nbits : BitVec 16) (bytes : List Byte) : List Bool :=
  (List.range nbits.toNat).map fun i => (bytes.getD (i / 8) 0).getLsbD (i % 8)

/-- R216's check of a raw sequence: not `nbits = 0`, `ceil(nbits / 8)` bytes, no unused bit of the last byte set. -/
def rawAccepted (nbits : BitVec 16) (bytes : List Byte) : Bool :=
  nbits != 0 && bytes.length == (nbits.toNat + 7) / 8
    && (nbits.toNat % 8 == 0 || (bytes.getLast?.getD 0) >>> (nbits.toNat % 8) == 0)

/-- R216's check of a subcommand's offset. -/
def subAligned : Subcmd → Bool
  | .registerRead addr => aligned addr.off
  | .registerWrite addr _ => aligned addr.off
  | .rawSequence _ _ => true

/-- R216's check of a subcommand's length. -/
def subLengthOk : Subcmd → Bool
  | .registerRead _ => true
  | .registerWrite _ _ => true
  | .rawSequence nbits bytes => rawAccepted nbits bytes

/-- The 56-bit line reset (R220). -/
def lineResetSeq : Subcmd := .rawSequence (BitVec.ofNat 16 Config.swdResetBits) (List.replicate 7 0xFF)

/-- The switch magic, 0xE79E LSB-first (R221). -/
def switchSeq : Subcmd := .rawSequence 16 (le16 Config.jtagSwitchMagic.toNat)

/-- The idle byte (R222). -/
def idleSeq : Subcmd := .rawSequence (BitVec.ofNat 16 Config.swdIdleBits) [0x00]

/-- `alen(g)` (R214): the length of a subcommand's answer slice. -/
def answerLength : Subcmd → Nat
  | .registerRead _ => 7
  | .registerWrite _ _ => 2
  | .rawSequence _ _ => 1

/-- `parse(g, h)` (R213); none is malformed. The read parity byte is not checked (R225). -/
def parseSlice : Subcmd → List Byte → Option SResult
  | .registerRead _, [op, ab, d0, d1, d2, d3, _] =>
    if op = 0xA2 then
      if swdAckIsOk (swdAck ab) then some (.readOk (ofLe32 d0 d1 d2 d3)) else some (.ackErr (swdAck ab))
    else none
  | .registerWrite _ _, [op, ab] =>
    if op = 0xA0 then
      if swdAckIsOk (swdAck ab) then some .writeOk else some (.ackErr (swdAck ab))
    else none
  | .rawSequence _ _, [op] => if op = 0xA1 then some .rawOk else none
  | _, _ => none

/-- The slices of a batch's answer, parsed in order (R217); none is malformed. -/
def parseSlices : List Subcmd → List Byte → Option (List SResult)
  | [], _ => some []
  | g :: gs, bytes =>
    match parseSlice g (bytes.take (answerLength g)), parseSlices gs (bytes.drop (answerLength g)) with
    | some r, some rs => some (r :: rs)
    | _, _ => none

/-- `lnk(ℓ, g)` (R215). -/
def lineNext (l : LineState) : Subcmd → LineState
  | .registerRead _ => l
  | .registerWrite _ _ => l
  | .rawSequence nbits bytes =>
    if Config.swdResetMin ≤ nbits.toNat ∧ (rawBits nbits bytes).all (fun b => b) then .lineReset
    else if (rawBits nbits bytes).all (fun b => !b) then
      match l with
      | .lineReset => .ready
      | .ready => .ready
      | .unknown => .unknown
    else .unknown

/-- The line state after a batch (R215). -/
def lineAfter (l : LineState) (gs : List Subcmd) : LineState := gs.foldl lineNext l

end Sys2Proof.Machine
end

