-- ==== Sys2Proof/Machine/Target.lean ====
section
/-! DEFINITION. What the target behind the bridge does (20_memory.md). First, its debug ports. Then the reference target: "an
optional instance of the environment", on which no engine rule depends (R61), with the JTAG access pipeline (R64) and the
loopback fixture (R67); it performs a frame the bridge has received, in submission order (R58), and has its answer ready; a
value the spec leaves "any value" is a free value with the number `d`, which each such use advances. Then the SWD access
pipeline (R65) and the line state (R66), which bind the answers of every environment. What is fixed beyond the spec is in the
assumption log, 7, 8, 20 to 23 and 25. -/

namespace Sys2Proof.Machine

/-- The AP register at A[3:2] in the AP and bank SELECT holds (R53, R252), if it has a known value. Which SELECT: that of the
port the transaction reaches (DESIGN CHOICE, assumption log 20). -/
def apRead (p : DebugPort) (a : BitVec 2) : Option Word :=
  match p.select with
  | none => none
  | some sel => (p.aps.find? fun c => c.place == Config.selectLayout sel && c.a == a).map ApCell.value

/-- A write of that AP register: what it then reads is not in the source, so the place has no known value (assumption log 8).
That every other register keeps its known value is the model's choice (DESIGN CHOICE, assumption log 23: the spec is silent). -/
def apWrite (p : DebugPort) (a : BitVec 2) : DebugPort :=
  match p.select with
  | none => { p with aps := [] }
  | some sel => { p with aps := p.aps.filter fun c => !(c.place == Config.selectLayout sel && c.a == a) }

/-- What DP register A[3:2] holds (R254). -/
def dpRead (p : DebugPort) (a : BitVec 2) : Option Word :=
  if a = 0 then p.reg0 else if a = 1 then p.reg4 else if a = 2 then p.select else p.rdbuff

/-- A write of DP register A[3:2]. SELECT holds the word; what DP 0x0 and 0x4 then read is not in the source (N-25); RDBUFF
is the result of the last AP read (R65, R254), so a write of it leaves it. That SELECT, RDBUFF and the AP registers keep what
they hold through a write of DP 0x0 or 0x4 is the model's choice (DESIGN CHOICE, assumption log 23: the spec is silent). -/
def dpWrite (p : DebugPort) (a : BitVec 2) (w : Word) : DebugPort :=
  if a = 2 then { p with select := some w }
  else if a = 3 then p
  else { p with reg0 := none, reg4 := none }

/-- The port after a read of a DP register other than RDBUFF. Which side effects the read has is not in the source, and they are
any value (R73, N-17, I-32), so no such register keeps a known value. The results of earlier accesses are latched (R64, R65) and
stay, and so do the AP registers: DESIGN CHOICE, assumption log 22. -/
def afterDpRead (p : DebugPort) : DebugPort := { p with reg0 := none, reg4 := none, select := none }

/-- A read of DP register A[3:2], with its word: what the register holds, or the word drawn where that is any value. RDBUFF is
one latched value (R65, R254), so a word drawn for it stays latched, and reading it changes nothing else (DESIGN CHOICE,
assumption log 22). -/
def readDp (p : DebugPort) (a : BitVec 2) (drawn : Word) : DebugPort × Word :=
  let w := (dpRead p a).getD drawn
  (if a = 3 then { p with rdbuff := some w } else afterDpRead p, w)

/-- The result of a read of AP register A[3:2] latched in RDBUFF (R65, R254); one of no known value is drawn where it is first
returned. That the read changes nothing else is the model's choice (DESIGN CHOICE, assumption log 23). -/
def latchAp (p : DebugPort) (result : Option Word) : DebugPort := { p with rdbuff := result, apLatched := true }

/-! ### The scan chain (R61) -/

/-- A clock's action on each TAP in chain order, the free draws counted on. -/
def eachTap (f : Tap → Nat → Tap × Nat) : List Tap → Nat → List Tap × Nat
  | [], d => ([], d)
  | t :: ts, d => ((f t d).1 :: (eachTap f ts (f t d).2).1, (eachTap f ts (f t d).2).2)

/-- The data register an instruction selects; none is BYPASS, which the all-ones instruction selects. -/
def selectedDr (t : Tap) : Option DataReg :=
  if t.ir.all (fun b => b) then none else t.drs.find? fun r => r.code == t.ir

/-- Entering Capture-IR's clock: the IR shift register takes its capture value. -/
def captureIr (t : Tap) : Tap := { t with irsh := t.ircap }

/-- The capture value of the DR that `ir` selects: BYPASS captures 0; an access register `(result << 3) | ack` with the
result of the previous access (R64). -/
def captureDr (t : Tap) (d : Nat) : Tap × Nat :=
  match selectedDr t with
  | none => ({ t with drsh := [false] }, d)
  | some r =>
    match r.kind with
    | .constant => ({ t with drsh := r.cell }, d)
    | .loopback => ({ t with drsh := r.cell }, d)
    | .access _ =>
      ({ t with drsh := bitsOf 3 Config.jtagAckOk ++ bitsOf 32 (t.port.latch.getD (Config.freeWord d)) }, d + 1)

/-- The DP issues an access when it enters UpdDR (R64): a read's result goes to the latch, an AP read's to RDBUFF too,
a result of no known value being drawn here, and after a write the next capture's value is any value. -/
def issueAccess (p : DebugPort) (isAp : Bool) (req : List Bool) (d : Nat) : DebugPort × Nat :=
  let rnw := req.getD 0 false
  let a := BitVec.ofNat 2 (valBits ((req.drop 1).take 2))
  let data : Word := BitVec.ofNat 32 (valBits ((req.drop 3).take 32))
  if rnw then
    let result := (apRead p a).getD (Config.freeWord d)
    let (p', w) := if isAp then (latchAp p (some result), result) else readDp p a (Config.freeWord d)
    ({ p' with latch := some w }, d + 1)
  else ({ (if isAp then apWrite p a else dpWrite p a data) with latch := none }, d)

/-- Entering UpdDR: the DR that `ir` selects takes its shift register. -/
def updateDr (t : Tap) (d : Nat) : Tap × Nat :=
  match selectedDr t with
  | none => (t, d)
  | some r =>
    match r.kind with
    | .constant => (t, d)
    | .loopback => ({ t with drs := t.drs.map fun x => if x.code == t.ir then { x with cell := t.drsh } else x }, d)
    | .access isAp => ({ t with port := (issueAccess t.port isAp t.drsh d).1 }, (issueAccess t.port isAp t.drsh d).2)

/-- One shift through concatenated registers, T0 first (R61): each takes the next one's bit 0 at its far end, the last
takes TDI. -/
def shiftThrough (tdi : Bool) : List (List Bool) → List (List Bool)
  | [] => []
  | [r] => [r.tail ++ [tdi]]
  | r :: r' :: rs => (r.tail ++ [r'.headD tdi]) :: shiftThrough tdi (r' :: rs)

/-- The bit at the TDO end of the path (R60); with no TAP, TDO is TDI. -/
def tdoBitOf (tdi : Bool) (path : List (List Bool)) : Bool :=
  match path with
  | [] => tdi
  | r :: _ => r.headD tdi

/-- What a unit does in its pre-state (R61), with the TDO sample; outside the shift states the sample is any value
(R60). -/
def clockPre (q : TapState) (ts : List Tap) (tdi : Bool) (d : Nat) : List Tap × Bool × Nat :=
  match q with
  | .capIR => (ts.map captureIr, Config.freeBit d, d + 1)
  | .capDR => ((eachTap captureDr ts (d + 1)).1, Config.freeBit d, (eachTap captureDr ts (d + 1)).2)
  | .shIR =>
    (List.zipWith (fun t r => { t with irsh := r }) ts (shiftThrough tdi (ts.map Tap.irsh)),
      tdoBitOf tdi (ts.map Tap.irsh), d)
  | .shDR =>
    (List.zipWith (fun t r => { t with drsh := r }) ts (shiftThrough tdi (ts.map Tap.drsh)),
      tdoBitOf tdi (ts.map Tap.drsh), d)
  | _ => (ts, Config.freeBit d, d + 1)

/-- What entering a state does (R61). -/
def clockPost (q : TapState) (ts : List Tap) (d : Nat) : List Tap × Nat :=
  match q with
  | .updIR => (ts.map fun t => { t with ir := t.irsh }, d)
  | .updDR => eachTap updateDr ts d
  | .tlr => (ts.map fun t => { t with ir := t.rst }, d)
  | _ => (ts, d)

/-- One clock unit of the chain (R61), with its TDO sample. -/
def clockChain (q : TapState) (ts : List Tap) (u : WireUnit) (d : Nat) : TapState × List Tap × Bool × Nat :=
  let (ts', tdo, d') := clockPre q ts u.tdi d
  let (ts'', d'') := clockPost (delta q u.tms) ts' d'
  (delta q u.tms, ts'', tdo, d'')

/-- The clock units of a batch, in order, with their samples (R58, R59). -/
def clockUnits : List WireUnit → TapState → List Tap → Nat → TapState × List Tap × List Bool × Nat
  | [], q, ts, d => (q, ts, [], d)
  | u :: us, q, ts, d =>
    let (q', ts', tdo, d') := clockChain q ts u d
    let (q'', ts'', tdos, d'') := clockUnits us q' ts' d'
    (q'', ts'', tdo :: tdos, d'')

/-- An answer byte with the TDO sample at `TDO_BIT` (R59, R104); its other bits are any value, those of `other`. -/
def tdoByte (tdoBit : Fin 8) (tdo : Bool) (other : Byte) : Byte :=
  if tdo then other ||| ((1 : Byte) <<< tdoBit.val) else other &&& ~~~((1 : Byte) <<< tdoBit.val)

/-- The answer to F-D2 (R104). -/
def answerD2 (tdoBit : Fin 8) (tdos : List Bool) (d : Nat) : List Byte :=
  [0xD2] ++ le16 tdos.length ++ tdos.zipIdx.map fun p => tdoByte tdoBit p.1 (Config.freeByte d p.2)

/-! ### Which targets are reference targets (R61) -/

/-- Whether a TAP state follows Capture-DR in a DR scan: there the DR shift register is the captured one. -/
def scanningDr : TapState → Bool
  | .shDR => true
  | .ex1DR => true
  | .pauseDR => true
  | .ex2DR => true
  | .updDR => true
  | _ => false

/-- The length of the DR that `ir` selects (R61: it "depends on `ir_k`"): 1 for BYPASS, 35 for an access register. -/
def drLength (t : Tap) : Nat :=
  match selectedDr t with
  | none => 1
  | some r =>
    match r.kind with
    | .constant => r.cell.length
    | .loopback => r.cell.length
    | .access _ => Config.drAccBits

/-- A data register of a TAP with this IR length: the all-ones instruction is BYPASS's, and a register has a bit. -/
def DataReg.wf (len : Nat) (r : DataReg) : Bool :=
  r.code.length == len && !(r.code.all fun b => b) &&
    match r.kind with
    | .constant => !r.cell.isEmpty
    | .loopback => !r.cell.isEmpty
    | .access _ => true

/-- A TAP as R61 has it: one IR length Lk, at least 2, of its shift register, latch, capture value and reset instruction;
`ircap_k[1:0] = 0b01`. -/
def Tap.wf (t : Tap) : Bool :=
  decide (2 ≤ t.ir.length) && t.irsh.length == t.ir.length && t.ircap.length == t.ir.length && t.rst.length == t.ir.length &&
    t.ircap.take 2 == [true, false] && t.drs.all (DataReg.wf t.ir.length)

/-- A reference target: its TAPs as R61 has them, and in a DR scan each DR shift register as long as its DR. -/
def Target.wf (g : Target) : Bool :=
  g.chain.all Tap.wf && (!scanningDr g.q || g.chain.all fun t => t.drsh.length == drLength t)

/-- The reference target of an environment, if it has one. A target that is not as R61 says is none. -/
def Env.reference (e : Env) : Option Target :=
  match e.target with
  | none => none
  | some g => if g.wf then some g else none

/-! ### The frames of the reference target -/

/-- The ack byte of an OK transaction: its bits 7:3 are any value (R114). -/
def okByte (d : Nat) : Byte := (Config.freeByte d 0).extractLsb' 3 5 ++ Config.swdAckOk

/-- The slice the reference target answers a subcommand with (R107): on a Ready line with the ack OK, else with any ack (R66).
The data of a read is drawn here, and bound by R65 where it is read (`boundAnswer`). -/
def drawnSlice (l : LineState) (g : Subcmd) (d : Nat) : List Byte :=
  let ack := if l = .ready then okByte d else Config.freeByte d 0
  match g with
  | .rawSequence _ _ => [0xA1]
  | .registerRead _ => [0xA2, ack] ++ (List.range 5).map fun i => Config.freeByte d (i + 1)
  | .registerWrite _ _ => [0xA0, ack]

/-- The slices of a batch, in order (R58, R215). -/
def drawnSlices : List Subcmd → LineState → Nat → List Byte
  | [], _, _ => []
  | g :: gs, l, d => drawnSlice l g d ++ drawnSlices gs (lineNext l g) (d + 1)

/-- The answer to F-E8 (R107). -/
def answerE8 (slices : List Byte) : List Byte := [0xE8] ++ le16 slices.length ++ slices

/-- The target after the bridge has performed a frame, with the answer. An init frame reaches no TAP (R180: "the TAP is not clocked"). -/
def performFrame (tdoBit : Fin 8) (l : LineState) (f : List Byte) (t : Target) (d : Nat) :
    Target × List Byte × Nat :=
  match decodeFrame f with
  | .ok (.d2 us, []) =>
    let (q, chain, tdos, d') := clockUnits us t.q t.chain d
    (⟨q, chain⟩, answerD2 tdoBit tdos d', d' + 1)
  | .ok (.e8 gs, []) => (t, answerE8 (drawnSlices gs l d), d + gs.length)
  | _ => (t, [], d)

/-! ### The SWD access pipeline (R65, R66), which binds the answers of every environment (R57, D43) -/

/-- A read on a Ready line, whose data was drawn as this word, with its data as R65 has it: an AP read returns the result latched
by the AP read before it, any value if it is the first, and its own result is latched; RDBUFF and the other DP registers return
what they hold. -/
def swdRead (p : DebugPort) (addr : RegAddr) (drawn : Word) : DebugPort × Word :=
  match addr with
  | .dp off => readDp p (addrA off) drawn
  | .ap off => (latchAp p (apRead p (addrA off)), if p.apLatched then p.rdbuff.getD drawn else drawn)

/-- A write on a Ready line. -/
def swdWrite (p : DebugPort) (addr : RegAddr) (w : Word) : DebugPort :=
  match addr with
  | .dp off => dpWrite p (addrA off) w
  | .ap off => apWrite p (addrA off)

/-- The port after a register transaction of which the spec does not say whether it was performed: on a line that is not Ready
(R66, R350), with an ack that is not OK, or after one in its batch (I-33). What it would have written or latched is any value;
that the rest is kept is the model's choice (DESIGN CHOICE, assumption log 21). -/
def unsureOf (p : DebugPort) (g : Subcmd) : DebugPort :=
  match g with
  | .registerRead (.dp off) => if addrA off = 3 then p else afterDpRead p
  | .registerRead (.ap _) => { p with rdbuff := none }
  | .registerWrite (.dp off) _ =>
    if addrA off = 2 then { p with select := none }
    else if addrA off = 3 then p
    else { p with reg0 := none, reg4 := none }
  | .registerWrite (.ap off) _ => apWrite p (addrA off)
  | .rawSequence _ _ => p

/-- A subcommand's slice as R65 has it, with the port after it: the data of an OK read on a Ready line is what R65 says, and every
other byte is as it was drawn. `sure` says that no slice before it was malformed or not OK: after one "every slice is answered by
a draw" (I-33). A raw sequence leaves the port: DESIGN CHOICE, assumption log 21. -/
def boundSlice (l : LineState) (sure : Bool) (p : DebugPort) (g : Subcmd) (h : List Byte) : DebugPort × List Byte :=
  if sure && decide (l = .ready) then
    match g, parseSlice g h with
    | .registerRead addr, some (.readOk v) =>
      ((swdRead p addr v).1, h.take 2 ++ le32 (swdRead p addr v).2 ++ h.drop 6)
    | .registerWrite addr w, some .writeOk => (swdWrite p addr w, h)
    | g, _ => (unsureOf p g, h)
  else (unsureOf p g, h)

/-- A slice that is well-formed, with the ack OK where it has one. -/
def sliceOk (g : Subcmd) (h : List Byte) : Bool :=
  match parseSlice g h with
  | some (.readOk _) => true
  | some .writeOk => true
  | some .rawOk => true
  | some (.ackErr _) => false
  | none => false

/-- The slices of a batch, in order (R58, R215), each taken off the front of the bytes drawn. -/
def boundSlices : List Subcmd → LineState → Bool → DebugPort → List Byte → DebugPort × List Byte
  | [], _, _, p, bytes => (p, bytes)
  | g :: gs, l, sure, p, bytes =>
    let h := bytes.take (answerLength g)
    let x := boundSlice l sure p g h
    let y := boundSlices gs (lineNext l g) (sure && sliceOk g h) x.1 (bytes.drop (answerLength g))
    (y.1, x.2 ++ y.2)

/-- Whether an answer has the header `[op] ++ le16(n)` (R120). -/
def answerHeaderOk (op : Byte) (n : Nat) (a : List Byte) : Bool :=
  a.getD 0 0 == op && ofLe16 (a.getD 1 0) (a.getD 2 0) == n

/-- Whether an E8 answer has its header (R107, R120). -/
def batchAnswerOk (n : Nat) (a : List Byte) : Bool := answerHeaderOk 0xE8 n a

/-- The slice bytes a batch's answer has (R214). -/
def answerTotal (gs : List Subcmd) : Nat := (gs.map answerLength).sum

/-- The answer to a batch, drawn as these bytes, as R65 has it, with the port after it. Of an answer without its header (R120)
nothing is bound. -/
def boundAnswer (l : LineState) (gs : List Subcmd) (p : DebugPort) (drawn : List Byte) : DebugPort × List Byte :=
  let x := boundSlices gs l (batchAnswerOk (answerTotal gs) drawn) p (drawn.drop 3)
  (x.1, drawn.take 3 ++ x.2)

/-- The subcommands of a frame; none where it is no F-E8. -/
def askedBy (f : List Byte) : List Subcmd :=
  if f.head? = some 0xE8 then
    match decodeFrame f with
    | .ok (.e8 gs, []) => gs
    | _ => []
  else []

end Sys2Proof.Machine
end

