-- ==== Sys2Proof/Machine/Ops.lean ====
section
/-! DEFINITION. The shared operations: how an operation ends (R300, R311, R316), the link (R141 to R145), the clock
queue and its flush (R161, R165, R168, R169), the SWD batch queue (R216 to R219), and the fetch of the next operation
(R37). -/

namespace Sys2Proof.Machine

/-! ### How an operation goes on or ends -/

/-- How a part of an operation ends (R300): with a value, a typed error or a model fault; or, inside a discovery loop, not
yet (the operation is in progress). -/
inductive Res (α : Type) where
  | ok (a : α)
  | err (e : TypedError)
  | halt (f : ModelFault)
  | running
  deriving DecidableEq, Repr

/-- A part of an operation. -/
abbrev Act (α : Type) := State → Res α × State

/-- `return v` (R13). -/
def Act.ret {α : Type} (a : α) : Act α := fun s => (.ok a, s)

/-- `raise E(info)` (R13): ends the operation with a typed error. -/
def Act.raise {α : Type} (e : TypedError) : Act α := fun s => (.err e, s)

/-- `fault F` (R13): ends the operation with a model fault. -/
def Act.halt {α : Type} (f : ModelFault) : Act α := fun s => (.halt f, s)

/-- One part, then the next. An error or a fault of the first ends the operation: "the composite operations do not catch
the errors of their parts" (R315). -/
def Act.bind {α β : Type} (m : Act α) (k : α → Act β) : Act β := fun s =>
  match m s with
  | (.ok a, s') => k a s'
  | (.err e, s') => (.err e, s')
  | (.halt f, s') => (.halt f, s')
  | (.running, s') => (.running, s')

/-- A change of the state. -/
def Act.change (f : State → State) : Act Unit := fun s => (.ok (), f s)

/-- A check: the fault where the test holds (R305 to R310). -/
def Act.faultIf (test : State → Bool) (f : ModelFault) : Act Unit := fun s =>
  if test s then (.halt f, s) else (.ok (), s)

/-- The result of an operation, and the position advanced by one (R37, R70). -/
def State.returned (s : State) (r : OpResult) : State := { s with results := s.results ++ [r], pc := s.pc + 1 }

/-- A model fault recorded (R316). -/
def State.faulted (s : State) (f : ModelFault) : State := { s with fault := some f }

/-- The end of an operation. A value or a typed error is its result, and the position advances by one (R37); a model fault
is recorded, sticky, and the position does not advance (R37, R316); the fields changed before it keep their values. An
operation in progress has no result yet. -/
def conclude (r : Res Value × State) : State :=
  match r.1 with
  | .ok v => r.2.returned (.ok v)
  | .err e => r.2.returned (.err e)
  | .halt f => r.2.faulted f
  | .running => r.2

/-- An operation run in a state: no step follows a model fault (R34), and an operation in progress runs to completion
before the next is taken (R37). -/
def operate (body : Act Value) (s : State) : Host.Outcome State Fault Refusal :=
  match s.fault with
  | some f => .fault (.sticky f)
  | none =>
    match s.prog with
    | some _ => .fault .busy
    | none => .next (conclude (body s))

/-! ### The link (40_transport.md) -/

/-- Link events appended to the history (R35), and the environment after them. -/
def State.traffic (s : State) (events : List Event) (e : Env) : State :=
  { s with hist := s.hist ++ events, env := e }

/-- The effect of a TransportError (R311), the engine's one exception entry: the session ends. -/
def State.lose (s : State) : State :=
  { s with cq := [], sq := [], tap := TapState.all, link := .unknown, mode := .uninit }

/-- A TransportError raised (R301, R311). -/
def raiseTransport {α : Type} (f : LinkFail) : Act α := fun s => (.err (.transport f), s.lose)

/-- The free outcome of a draw (R57): success, or one of the two failures. -/
def freeFailure (d : Nat) : Option FailKind :=
  if Config.freeOutcome d = 0 then none else if Config.freeOutcome d = 1 then some .timeout else some .deviceGone

/-- `n` free bytes (R69: "It may answer any bytes"). -/
def freeBytes (d n : Nat) : List Byte := (List.range n).map (Config.freeByte d)

/-- The outcome of a write (R57): fixed by the outside, or success for a reference target, or free. -/
def drawWrite (e : Env) : Option FailKind × Env :=
  match e.tx with
  | .ok :: rest => (none, { e with tx := rest })
  | .fail k :: rest => (some k, { e with tx := rest })
  | [] =>
    match e.reference with
    | some _ => (none, e)
    | none => (freeFailure e.draws, { e with draws := e.draws + 1 })

/-- The port of the SWD line after a frame on a target that is no reference chain: the clock units of an F-D2 may have been
accesses to the same registers, of any outcome (R60, R64), so nothing of them is fixed (assumption log 20). -/
def portAfter (f : List Byte) (p : DebugPort) : DebugPort := if f.head? = some 0xD2 then .unknown else p

/-- The environment performs a frame (R58): the reference target, if there is one, has its answer ready. -/
def performed (tdoBit : Fin 8) (l : LineState) (f : List Byte) (e : Env) : Env :=
  match e.reference with
  | none => { e with swd := portAfter f e.swd, asked := askedBy f }
  | some t =>
    let (t', answer, d) := performFrame tdoBit l f t e.draws
    { e with target := some t', inbox := answer, draws := d, asked := askedBy f }

/-- The environment after a failed transfer. "any prefix of f, from none of it to all of it, may have reached the bridge
and been performed" (R141), and "the bridge's shift state and the target's TAP state are undefined" (R311): no reference
target answers any more and nothing of the SWD port is fixed, so every later answer is a draw (I-4). -/
def Env.lost (e : Env) : Env := { e with target := none, inbox := [], swd := .unknown, asked := [] }

/-- The answer read, where these bytes were drawn: as R65 has it (R57, D43), with the environment after it. -/
def Env.answer (l : LineState) (drawn : List Byte) (e : Env) : List Byte × Env :=
  let x := boundAnswer l e.asked e.swd drawn
  (x.2, { e with swd := x.1, asked := [] })

/-- `LinkWrite(f)` (R141); none is Ok. -/
def linkWrite (f : List Byte) (s : State) : Option LinkFail × State :=
  match drawWrite s.env with
  | (none, e) => (none, s.traffic [.out f] (performed s.par.tdoBit s.link f e))
  | (some k, e) => (some ⟨k, .tx⟩, s.traffic [.out f, .fail ⟨k, .tx⟩] e.lost)

/-- What the single reads fixed by the outside give of an answer: all of it, part of it, or a failure. -/
inductive Gathered where
  | full (bytes : List Byte) (rest : List RxDraw)
  | short (bytes : List Byte) (missing : Nat)
  | failed (kind : FailKind) (rest : List RxDraw)
  deriving DecidableEq, Repr

/-- "The engine reads again until it has n bytes. If any read fails, LinkRead fails" (R142, D32). One read returns no more
than is asked of it. -/
def gather : List RxDraw → Nat → List Byte → Gathered
  | rx, 0, got => .full got rx
  | [], n + 1, got => .short got (n + 1)
  | .fail k :: rx, _ + 1, _ => .failed k rx
  | .bytes bs :: rx, n + 1, got => gather rx (n + 1 - (bs.take (n + 1)).length) (got ++ bs.take (n + 1))

/-- The bytes drawn of an answer that the outside has not fixed: the reference target's, or free ones. -/
def drawRest (e : Env) (got : List Byte) (missing : Nat) : Except FailKind (List Byte) × Env :=
  match e.reference with
  | some _ =>
    let have' := (e.inbox.drop got.length).take missing
    (.ok (got ++ have' ++ freeBytes e.draws (missing - have'.length)),
      { e with rx := [], inbox := [], draws := e.draws + 1 })
  | none =>
    match freeFailure e.draws with
    | none => (.ok (got ++ freeBytes e.draws missing), { e with rx := [], draws := e.draws + 1 })
    | some k => (.error k, { e with rx := [], draws := e.draws + 1 })

/-- The outcome of reading an answer of exactly `n` bytes (R142). -/
def drawRead (e : Env) (n : Nat) : Except FailKind (List Byte) × Env :=
  match gather e.rx n [] with
  | .full bytes rest => (.ok bytes, { e with rx := rest, inbox := [] })
  | .failed k rest => (.error k, { e with rx := rest, inbox := [] })
  | .short got missing => drawRest e got missing

/-- The outcome of one read of any length (R144). -/
def drawReadAny (e : Env) : Except FailKind (List Byte) × Env :=
  match e.rx with
  | .bytes bs :: rest => (.ok bs, { e with rx := rest, inbox := [] })
  | .fail k :: rest => (.error k, { e with rx := rest, inbox := [] })
  | [] =>
    match e.reference with
    | some _ =>
      (.ok (freeBytes e.draws (Config.freeLength e.draws)), { e with inbox := [], draws := e.draws + 1 })
    | none =>
      match freeFailure e.draws with
      | none => (.ok (freeBytes e.draws (Config.freeLength e.draws)), { e with draws := e.draws + 1 })
      | some k => (.error k, { e with draws := e.draws + 1 })

/-- A read's outcome, drawn so, recorded in the history (R142, R144); its bytes are bound by R65. -/
def recordRead (s : State) (r : Except FailKind (List Byte) × Env) : Except LinkFail (List Byte) × State :=
  match r.1 with
  | .ok drawn =>
    let x := r.2.answer s.link drawn
    (.ok x.1, s.traffic [.inn x.1] x.2)
  | .error k => (.error ⟨k, .rx⟩, s.traffic [.fail ⟨k, .rx⟩] r.2.lost)

/-- `LinkRead(n)` (R142). -/
def linkRead (n : Nat) (s : State) : Except LinkFail (List Byte) × State := recordRead s (drawRead s.env n)

/-- `LinkReadAny()` (R144). -/
def linkReadAny (s : State) : Except LinkFail (List Byte) × State := recordRead s (drawReadAny s.env)

/-- A frame written, and its answer read by `read`; "if the write fails, the engine does not read" (R143). -/
def exchange (f : List Byte) (read : State → Except LinkFail (List Byte) × State) (s : State) :
    Except LinkFail (List Byte) × State :=
  match linkWrite f s with
  | (some e, s') => (.error e, s')
  | (none, s') => read s'

/-- `Xfer(f, n)` (R145). -/
def xfer (f : List Byte) (n : Nat) (s : State) : Except LinkFail (List Byte) × State := exchange f (linkRead n) s

/-- An exchange whose failure is raised as a TransportError. -/
def transferring (x : State → Except LinkFail (List Byte) × State) : Act (List Byte) := fun s =>
  match x s with
  | (.error f, s') => raiseTransport f s'
  | (.ok a, s') => (.ok a, s')

/-- An init exchange (R180, R210): the frame written, one read, its bytes ignored. -/
def initExchange (f : List Byte) : Act (List Byte) := transferring (exchange f linkReadAny)

/-! ### The clock queue (41_jtag_tap.md) -/

/-- `Emit(tms, tdi, cap)` (R161). -/
def State.emit (s : State) (u : ClockUnit) : State :=
  { s with cq := s.cq ++ [u], tap := deltaSet s.tap u.tms }

/-- Several units emitted in order. -/
def State.emitAll (s : State) (us : List ClockUnit) : State := us.foldl State.emit s

/-- Several units emitted in order, as a part of an operation. -/
def emits (us : List ClockUnit) : Act Unit := Act.change fun s => s.emitAll us

/-- A clock unit as it is sent: `cap` is not (R101). -/
def ClockUnit.wire (u : ClockUnit) : WireUnit := ⟨u.tms, u.tdi⟩

/-- The frame of the queued clock units (R103, R165). -/
def State.clockFrame (s : State) : List Byte := frameD2 (s.cq.map ClockUnit.wire)

/-- The bits kept of a D2 answer (R165): of every unit with `cap = 1`, the TDO bit of its byte, in order. -/
def capturedBits (tdoBit : Fin 8) (us : List ClockUnit) (samples : List Byte) : List Bool :=
  ((us.zip samples).filter fun p => p.1.cap).map fun p => p.2.getLsbD tdoBit.val

/-- Whether a frame breaks the staging buffer or its 16-bit length field (R304, D34). -/
def overflows (par : Config.Params) (payload : Nat) : Bool :=
  decide (0xFFFF < payload) ||
    match par.maxFrameBytes with
    | none => false
    | some limit => decide (limit < 3 + payload)

/-- `BufferOverflow(size, limit)` for a frame with this payload (R304). -/
def overflowError (par : Config.Params) (payload : Nat) : TypedError :=
  .bufferOverflow (3 + payload) par.maxFrameBytes

/-- Whether a D2 answer has its header (R104, R120). -/
def clockAnswerOk (n : Nat) (a : List Byte) : Bool := answerHeaderOk 0xD2 n a

/-- The effect of a BufferOverflow in a JTAG flush (R304, R357): the queue emptied, the tracker reset. -/
def State.overflowed (s : State) : State := { s with cq := [], tap := TapState.all }

/-- The captured bits appended, the clock queue emptied (R165). -/
def State.captured (s : State) (bits : List Bool) : State := { s with bb := s.bb ++ bits, cq := [] }

/-- `JtagFlush()` (R165). -/
def jtagFlush : Act Unit := fun s =>
  if s.cq.length = 0 then (.ok (), s)
  else if overflows s.par (2 * s.cq.length) then
    (.err (overflowError s.par (2 * s.cq.length)), s.overflowed)
  else
    Act.bind (transferring (xfer s.clockFrame (3 + s.cq.length)))
      (fun a t =>
        if clockAnswerOk t.cq.length a then
          (.ok (), t.captured (capturedBits t.par.tdoBit t.cq (a.drop 3)))
        else (.halt .malformedResponse, t)) s

/-- The first `n` captured bits gone (R168). -/
def State.drained (s : State) (n : Nat) : State := { s with bb := s.bb.drop n }

/-- `Drain(n)` (R168). -/
def drain (n : Nat) : Act (List Bool) := fun s => (.ok (s.bb.take n), s.drained n)

/-- The mode check of a JTAG operation (R305). -/
def requireJtag : Act Unit := Act.faultIf (fun s => s.mode != .jtag) .modeViolation

/-- `RequireIdle()` (R169). -/
def requireIdle : Act Unit :=
  Act.bind requireJtag fun _ => Act.faultIf (fun s => s.tap != [.rti]) .tapStateViolation

/-- The selection and its counts cleared (R182, R183, D23). -/
def State.clearSelection (s : State) : State := { s with sel := none, irPre := 0, irPos := 0, pre := 0, pos := 0 }

/-- The padding counts of a scan (R185): the family's own. -/
def State.leading (s : State) : ScanKind → Nat
  | .ir => s.irPre
  | .dr => s.pre

/-- See `State.leading`. -/
def State.trailing (s : State) : ScanKind → Nat
  | .ir => s.irPos
  | .dr => s.pos

/-- `Scan(kind, value, length)` (R185). -/
def scan (kind : ScanKind) (value : BitVec 64) (length : Nat) : Act (List Bool) :=
  Act.bind requireIdle fun _ =>
  Act.bind (Act.faultIf (fun _ => length < 1 || Config.maxShiftBits < length) .invalidLength) fun _ =>
  Act.bind (Act.change fun s => s.emitAll (scanUnits kind value length (s.leading kind) (s.trailing kind))) fun _ =>
  Act.bind jtagFlush fun _ =>
  drain length

/-- How many clock units a scan of this length has (R185); the value does not matter. -/
def State.scanSize (s : State) (kind : ScanKind) (length : Nat) : Nat :=
  (scanUnits kind 0 length (s.leading kind) (s.trailing kind)).length

/-- The size check of a scan's frame before anything of the operation is sent (R313: BufferOverflow before the transfers; D39: "no
transfer before every check has passed"). It has the effect of a flush that overflows: DESIGN CHOICE, assumption log 24. -/
def scanFits (kind : ScanKind) (length : Nat) : Act Unit := fun s =>
  if overflows s.par (2 * s.scanSize kind length) then
    (.err (overflowError s.par (2 * s.scanSize kind length)), s.overflowed)
  else (.ok (), s)

/-! ### The SWD batch queue (43_swd.md) -/

/-- The mode check of an SWD operation (R305). -/
def requireSwd : Act Unit := Act.faultIf (fun s => s.mode != .swd) .modeViolation

/-- A subcommand queued (R216). -/
def State.queued (s : State) (g : Subcmd) : State := { s with sq := s.sq ++ [g] }

/-- `push(g)` (R216). -/
def pushSub (g : Subcmd) : Act Unit :=
  Act.bind requireSwd fun _ =>
  Act.bind (Act.faultIf (fun _ => !subAligned g) .misalignedAddress) fun _ =>
  Act.bind (Act.faultIf (fun _ => !subLengthOk g) .invalidLength) fun _ s =>
  if overflows s.par (batchPayload (s.sq ++ [g])).length then
    (.err (overflowError s.par (batchPayload (s.sq ++ [g])).length), s)
  else (.ok (), s.queued g)

/-- A batch performed (R217): its results, the line state after it, the queue empty. -/
def State.flushed (s : State) (rs : List SResult) : State :=
  { s with rq := s.rq ++ rs, link := lineAfter s.link s.sq, sq := [] }

/-- `flush()` (R217). -/
def flushBatch : Act Unit :=
  Act.bind requireSwd fun _ s =>
  if s.sq.length = 0 then (.ok (), s)
  else
    Act.bind (transferring (xfer (frameE8 s.sq) (3 + answerTotal s.sq)))
      (fun a t =>
        if batchAnswerOk (answerTotal t.sq) a then
          match parseSlices t.sq (a.drop 3) with
          | none => (.halt .malformedResponse, t)
          | some rs => (.ok (), t.flushed rs)
        else (.halt .malformedResponse, t)) s

/-- The result queue emptied (R218). -/
def State.taken (s : State) : State := { s with rq := [] }

/-- `take()` (R218). -/
def takeResults : Act (List SResult) :=
  Act.bind requireSwd fun _ s => (.ok s.rq, s.taken)

/-- The pushes of a batch, in order (R219). -/
def pushAll : List Subcmd → Act Unit
  | [] => Act.ret ()
  | g :: gs => Act.bind (pushSub g) fun _ => pushAll gs

/-- `Batch(g0 .. g(m-1))` (R219): the queue check, m pushes, one flush and one take. -/
def batch (gs : List Subcmd) : Act (List SResult) :=
  Act.bind requireSwd fun _ =>
  Act.bind (Act.faultIf (fun s => s.sq != [] || s.rq != []) .queueNotEmpty) fun _ =>
  Act.bind (pushAll gs) fun _ =>
  Act.bind flushBatch fun _ =>
  takeResults

/-- `Single(g)` (R219): a batch of one. -/
def single (g : Subcmd) : Act (List SResult) := batch [g]

/-! ### Fetch -/

/-- The bytes of the next operation of the caller's sequence (R37). -/
def fetch (s : State) : Option (List Byte) := s.calls[s.pc]?

end Sys2Proof.Machine
end

