-- ==== Sys2Proof/Machine/Jtag.lean ====
section
/-! DEFINITION. The JTAG operations (42_jtag_ops.md, R180 to R189), and how a discovery loop in progress goes on. -/

namespace Sys2Proof.Machine

/-- What a successful JTAG init leaves (R180): the mode and the speed byte, an unknown tracker, empty queues, an unknown
line. The descriptor stays (D30). -/
def State.jtagReady (s : State) (speed : Byte) : State :=
  { s with mode := .jtag, jspeed := some speed, tap := TapState.all, cq := [], bb := [], sq := [], rq := [],
           link := .unknown }

/-- `jtag_init(speed)` (R180). -/
def jtagInit (speed : Byte) : Act Value :=
  Act.bind (initExchange (frameD0 speed)) fun _ =>
  Act.bind (Act.change fun s => s.jtagReady speed) fun _ =>
  Act.ret .unit

/-- `jtag_init(speed)` (R180). -/
def execJtagInit (speed : Byte) (s : State) : Host.Outcome State Fault Refusal :=
  operate (jtagInit speed) s

/-- The units of reset_and_idle (R181): 5 with TMS=1, then 1 with TMS=0. -/
def resetUnits : List ClockUnit := List.replicate Config.jtagResetClocks (nav true) ++ [nav false]

/-- `reset_and_idle()` (R181): no tap precondition. -/
def resetAndIdle : Act Value :=
  Act.bind requireJtag fun _ =>
  Act.bind (emits resetUnits) fun _ =>
  Act.bind jtagFlush fun _ =>
  Act.ret .unit

/-- `reset_and_idle()` (R181). -/
def execResetAndIdle (s : State) : Host.Outcome State Fault Refusal :=
  operate resetAndIdle s

/-! ### discover_chain -/

/-- One word of the chain scan (R182): 32 captured units with TDI=1, a flush, and the word, bit 0 the first captured. -/
def chainWord : Act Word :=
  Act.bind (emits (List.replicate 32 ⟨false, true, true⟩)) fun _ =>
  Act.bind jtagFlush fun _ =>
  Act.bind (drain 32) fun bits =>
  Act.ret (BitVec.ofNat 32 (valBits bits))

/-- The end of the chain scan (R182): ShDR to RTI, a flush, the selection cleared; `taps` is not changed. -/
def chainEnd (ids : List Word) : Act Value :=
  Act.bind (emits leaveShift) fun _ =>
  Act.bind jtagFlush fun _ =>
  Act.bind (Act.change State.clearSelection) fun _ =>
  Act.ret (.ids ids)

/-- A discovery loop in progress (assumption log 10), or none. -/
def State.progress (s : State) (p : Option Progress) : State := { s with prog := p }

/-- How much a step may scan of a loop that has scanned `spent`: a slice, and no more than the bound leaves (R9, D21). -/
def fuelLeft (slice : PNat) (bound : Option PNat) (spent : Nat) : Nat :=
  match bound with
  | none => slice
  | some n => min slice (n - spent)

/-- How many words a step may scan of a chain scan that has scanned `words`. -/
def State.chainFuel (s : State) (words : Nat) : Nat := fuelLeft s.par.chainSlice s.par.maxChainWords words

/-- How many bits a step may scan of an IR scan that has scanned `bits`. -/
def State.irFuel (s : State) (bits : Nat) : Nat := fuelLeft s.par.irSlice s.par.maxIrScanBits bits

/-- How much a step may scan of a loop in progress. A chain scan has scanned its identifiers; an IR scan the bits of the
closed boundaries and of the open one, since each bit adds one to `count`, or closes a boundary and starts `count` at 1. -/
def State.fuel (s : State) (p : Progress) : Nat :=
  match p with
  | .chain ids => s.chainFuel ids.length
  | .irLengths _ count _ found => s.irFuel (found.sum + count)

/-- The loop of R182, which has no bound (D21). The fuel is how many words this step may scan; when it is used up the
operation stays in progress, with no result, and the next step goes on with it, if the bound leaves it any (assumption log 10). -/
def chainLoop : Nat → List Word → Act Value
  | 0, ids => fun s => (.running, s.progress (some (.chain ids)))
  | fuel + 1, ids =>
    Act.bind chainWord fun w =>
    if w = 0xFFFFFFFF then chainEnd ids else chainLoop fuel (ids ++ [w])

/-- `discover_chain()` (R182): the entry units go out with the first word (D20). -/
def discoverChain : Act Value :=
  Act.bind requireIdle fun _ =>
  Act.bind (emits enterShiftDR) fun _ s =>
  chainLoop (s.chainFuel 0) [] s

/-- `discover_chain()` (R182). -/
def execDiscoverChain (s : State) : Host.Outcome State Fault Refusal :=
  operate discoverChain s

/-! ### discover_ir_lengths -/

/-- One bit of the IR scan (R183). -/
def irBit : Act Bool :=
  Act.bind (emits [⟨false, true, true⟩]) fun _ =>
  Act.bind jtagFlush fun _ =>
  Act.bind (drain 1) fun bits =>
  Act.ret (bits.headD false)

/-- The descriptor written (R28). -/
def State.described (s : State) (found : List Nat) : State := { s with taps := found }

/-- The end of the IR scan (R183): ShIR to RTI, a flush, `taps` written and the selection cleared. -/
def irEnd (found : List Nat) : Act Value :=
  Act.bind (emits leaveShift) fun _ =>
  Act.bind jtagFlush fun _ =>
  Act.bind (Act.change fun s => (s.described found).clearSelection) fun _ =>
  Act.ret (.lengths found)

/-- The loop of R183 (D22): 0→1 closes a boundary, 1→1 after a closed boundary ends the scan, every other transition
increments. It has no bound (D21); the fuel, in bits, is as in `chainLoop`. -/
def irLoop : Nat → Bool → Nat → Bool → List Nat → Act Value
  | 0, prev, count, closed, found => fun s => (.running, s.progress (some (.irLengths prev count closed found)))
  | fuel + 1, prev, count, closed, found =>
    Act.bind irBit fun b =>
    if !prev && b then irLoop fuel b 1 true (found ++ [count])
    else if prev && b && closed then irEnd found
    else irLoop fuel b (count + 1) closed found

/-- `discover_ir_lengths()` (R183). Its first bit is one of the step's bits. -/
def discoverIrLengths : Act Value :=
  Act.bind requireIdle fun _ =>
  Act.bind (emits enterShiftIR) fun _ =>
  Act.bind irBit fun b s =>
  irLoop (s.irFuel 0 - 1) b 1 false [] s

/-- `discover_ir_lengths()` (R183). -/
def execDiscoverIrLengths (s : State) : Host.Outcome State Fault Refusal :=
  operate discoverIrLengths s

/-- A discovery loop in progress goes on. -/
def resumeLoop (p : Progress) : Act Value := fun s =>
  match p with
  | .chain ids => chainLoop (s.fuel p) ids (s.progress none)
  | .irLengths prev count closed found => irLoop (s.fuel p) prev count closed found (s.progress none)

/-! ### select_target, scans, access_register -/

/-- What selecting TAP `index` leaves (R184). -/
def State.selectTap (s : State) (index : Nat) : State :=
  { s with sel := some index
           irPre := (s.taps.take index).sum
           irPos := (s.taps.drop (index + 1)).sum
           pre := index
           pos := s.taps.length - 1 - index }

/-- `select_target(index)` (R184): no mode, no frame. -/
def selectTarget (index : Nat) : Act Value := fun s =>
  if s.taps.length ≤ index then (.err (.indexOutOfRange index s.taps.length), s)
  else (.ok .unit, s.selectTap index)

/-- `select_target(index)` (R184). -/
def execSelectTarget (index : Nat) (s : State) : Host.Outcome State Fault Refusal :=
  operate (selectTarget index) s

/-- `write_ir(value, length)` (R186). -/
def execWriteIr (value : BitVec 64) (length : Nat) (s : State) : Host.Outcome State Fault Refusal :=
  operate (Act.bind (scan .ir value length) fun bits => Act.ret (.bits bits)) s

/-- `write_dr(value, length)` (R187). -/
def execWriteDr (value : BitVec 64) (length : Nat) (s : State) : Host.Outcome State Fault Refusal :=
  operate (Act.bind (scan .dr value length) fun bits => Act.ret (.bits bits)) s

/-- The result of a captured access (R188, R189). -/
def accessResult (c : BitVec 35) : Act Value :=
  if jtagAckIsOk (jtagAck c) then Act.ret (.word (jtagValue c)) else Act.raise (.accessFault (jtagAck c))

/-- `access_register(address, value)` (R188). The sizes of both frames are checked before the first is written (R313, D39). -/
def accessRegister (addr : RegAddr) (value : Option Word) : Act Value :=
  Act.bind requireIdle fun _ =>
  Act.bind (Act.faultIf (fun _ => !aligned addr.off) .misalignedAddress) fun _ =>
  Act.bind (scanFits .ir 4) fun _ =>
  Act.bind (scanFits .dr Config.drAccBits) fun _ =>
  Act.bind (scan .ir ((accessIr addr).zeroExtend 64) 4) fun _ =>
  Act.bind (scan .dr ((accessRequest addr.off value).zeroExtend 64) Config.drAccBits) fun bits =>
  accessResult (BitVec.ofNat 35 (valBits bits))

/-- `access_register(address, value)` (R188). -/
def execAccessRegister (addr : RegAddr) (value : Option Word) (s : State) : Host.Outcome State Fault Refusal :=
  operate (accessRegister addr value) s

end Sys2Proof.Machine
end

