-- ==== Sys2Proof/Machine/Swd.lean ====
section
/-! DEFINITION. The SWD operations (43_swd.md, R210 to R227). -/

namespace Sys2Proof.Machine

/-- What a successful SWD init leaves (R210). -/
def State.swdReady (s : State) (speed : Byte) : State :=
  { s with mode := .swd, sspeed := some speed, tap := TapState.all, cq := [], bb := [], sq := [], rq := [],
           link := .unknown }

/-- `swd_init(speed)` (R210). -/
def swdInit (speed : Byte) : Act Value :=
  Act.bind (initExchange (frameE5 speed)) fun _ =>
  Act.bind (Act.change fun s => s.swdReady speed) fun _ =>
  Act.ret .unit

/-- `swd_init(speed)` (R210). -/
def execSwdInit (speed : Byte) (s : State) : Host.Outcome State Fault Refusal :=
  operate (swdInit speed) s

/-- `push(g)` (R216). -/
def execPush (g : Subcmd) (s : State) : Host.Outcome State Fault Refusal :=
  operate (Act.bind (pushSub g) fun _ => Act.ret .unit) s

/-- `flush()` (R217). -/
def execFlush (s : State) : Host.Outcome State Fault Refusal :=
  operate (Act.bind flushBatch fun _ => Act.ret .unit) s

/-- `take()` (R218). -/
def execTake (s : State) : Host.Outcome State Fault Refusal :=
  operate (Act.bind takeResults fun rs => Act.ret (.results rs)) s

/-- `swd_reset()` (R220). -/
def execSwdReset (s : State) : Host.Outcome State Fault Refusal :=
  operate (Act.bind (single lineResetSeq) fun _ => Act.ret .unit) s

/-- `jtag_to_swd()` (R221). -/
def execJtagToSwd (s : State) : Host.Outcome State Fault Refusal :=
  operate (Act.bind (batch [lineResetSeq, switchSeq, lineResetSeq]) fun _ => Act.ret .unit) s

/-- `swd_idle()` (R222). -/
def execSwdIdle (s : State) : Host.Outcome State Fault Refusal :=
  operate (Act.bind (single idleSeq) fun _ => Act.ret .unit) s

/-- The result of read_register (R223). A batch of one register read has one result, ReadOk or AckErr (R213, R217), so
the last case does not arise (assumption log 18). -/
def readResult (rs : List SResult) : Act Value :=
  match rs with
  | [.readOk v] => Act.ret (.word v)
  | [.ackErr ack] => Act.raise (.accessFault ack)
  | _ => Act.halt .malformedResponse

/-- `read_register(address, is_ap)` (R223). -/
def execReadRegister (address : Byte) (isAp : Bool) (s : State) : Host.Outcome State Fault Refusal :=
  operate (Act.bind (single (.registerRead (regOf address isAp))) readResult) s

/-- The result of write_register (R224); the last case as in `readResult`. -/
def writeResult (rs : List SResult) : Act Value :=
  match rs with
  | [.writeOk] => Act.ret .unit
  | [.ackErr ack] => Act.raise (.accessFault ack)
  | _ => Act.halt .malformedResponse

/-- `write_register(address, is_ap, data)` (R224). -/
def execWriteRegister (address : Byte) (isAp : Bool) (data : Word) (s : State) : Host.Outcome State Fault Refusal :=
  operate (Act.bind (single (.registerWrite (regOf address isAp) data)) writeResult) s

end Sys2Proof.Machine
end

