-- ==== Sys2Proof/Machine/Wire.lean ====
section
/-! DEFINITION. The wire commands as instructions (R8, R100): the engine transfers that one frame and does with its
answer what the frame's own rules say. What this comes to for each is the model's reading, assumption log 2. -/

namespace Sys2Proof.Machine

/-- F-D0 (R102): the init exchange, with what its sending records, "which bridge protocol was last initialised" (R23) and
"the speed byte of the last 0xD0 or 0xE5 frame the engine sent" (R24). -/
def execD0 (speed : Byte) (s : State) : Host.Outcome State Fault Refusal :=
  operate (jtagInit speed) s

/-- The clock unit of an edge pair of a D2 frame: its sample is kept. -/
def WireUnit.captured (u : WireUnit) : ClockUnit := ⟨u.tms, u.tdi, true⟩

/-- The clock batch of a D2 frame: its units emitted (R161), one flush (R165), and every sample of the answer drained
(R104, R168). It has no tap precondition: the tracker follows any TMS stream (R160). -/
def clockBatch (units : List WireUnit) : Act Value :=
  Act.bind requireJtag fun _ =>
  Act.bind (emits (units.map WireUnit.captured)) fun _ =>
  Act.bind jtagFlush fun _ =>
  Act.bind (drain units.length) fun bits =>
  Act.ret (.bits bits)

/-- F-D2 (R103, R104). -/
def execD2 (units : List WireUnit) (s : State) : Host.Outcome State Fault Refusal :=
  operate (clockBatch units) s

/-- F-E5 (R105), as `execD0`. -/
def execE5 (speed : Byte) (s : State) : Host.Outcome State Fault Refusal :=
  operate (swdInit speed) s

/-- F-E8 (R106, R107): its subcommands as a batch of their own (R219), with their results. -/
def execE8 (subs : List Subcmd) (s : State) : Host.Outcome State Fault Refusal :=
  operate (Act.bind (batch subs) fun rs => Act.ret (.results rs)) s

/-- S-A1 (R108), which goes out only inside an F-E8 (R100): a batch of one. -/
def execA1 (nbits : BitVec 16) (bytes : List Byte) (s : State) : Host.Outcome State Fault Refusal :=
  operate (Act.bind (single (.rawSequence nbits bytes)) fun rs => Act.ret (.results rs)) s

/-- S-A2 (R109), as `execA1`. -/
def execA2 (addr : RegAddr) (s : State) : Host.Outcome State Fault Refusal :=
  operate (Act.bind (single (.registerRead addr)) fun rs => Act.ret (.results rs)) s

/-- S-A0 (R110), as `execA1`. -/
def execA0 (addr : RegAddr) (data : Word) (s : State) : Host.Outcome State Fault Refusal :=
  operate (Act.bind (single (.registerWrite addr data)) fun rs => Act.ret (.results rs)) s

end Sys2Proof.Machine
end

