-- ==== Sys2Proof/Machine/Dispatch.lean ====
section
/-! DEFINITION. The dispatch: one arm per constructor of Instr, each one call of its meaning. -/

namespace Sys2Proof.Machine

def exec (i : Instr) (s : State) : Host.Outcome State Fault Refusal :=
  match i with
  | .d0 speed => Sys2Proof.Machine.execD0 speed s
  | .d2 units => Sys2Proof.Machine.execD2 units s
  | .e5 speed => Sys2Proof.Machine.execE5 speed s
  | .e8 subs => Sys2Proof.Machine.execE8 subs s
  | .a1 nbits bytes => Sys2Proof.Machine.execA1 nbits bytes s
  | .a2 addr => Sys2Proof.Machine.execA2 addr s
  | .a0 addr data => Sys2Proof.Machine.execA0 addr data s
  | .jtagInit speed => Sys2Proof.Machine.execJtagInit speed s
  | .resetAndIdle => Sys2Proof.Machine.execResetAndIdle s
  | .discoverChain => Sys2Proof.Machine.execDiscoverChain s
  | .discoverIrLengths => Sys2Proof.Machine.execDiscoverIrLengths s
  | .selectTarget index => Sys2Proof.Machine.execSelectTarget index s
  | .writeIr value length => Sys2Proof.Machine.execWriteIr value length s
  | .writeDr value length => Sys2Proof.Machine.execWriteDr value length s
  | .accessRegister addr value => Sys2Proof.Machine.execAccessRegister addr value s
  | .swdInit speed => Sys2Proof.Machine.execSwdInit speed s
  | .push g => Sys2Proof.Machine.execPush g s
  | .flush => Sys2Proof.Machine.execFlush s
  | .take => Sys2Proof.Machine.execTake s
  | .swdReset => Sys2Proof.Machine.execSwdReset s
  | .jtagToSwd => Sys2Proof.Machine.execJtagToSwd s
  | .swdIdle => Sys2Proof.Machine.execSwdIdle s
  | .readRegister address isAp => Sys2Proof.Machine.execReadRegister address isAp s
  | .writeRegister address isAp data => Sys2Proof.Machine.execWriteRegister address isAp data s

end Sys2Proof.Machine
end

