-- ==== Sys2Proof/Machine/Step.lean ====
section
/-! DEFINITION. One step: the engine takes the next operation of the caller's sequence (R37), or goes on with a
discovery loop in progress. -/

namespace Sys2Proof.Machine

/-- One step. No step follows a model fault (R34); a loop in progress goes on (R37), unless the
bound on it leaves it nothing to scan (R9, D21); when the sequence is exhausted the
run ends (R70); else the next operation is decoded and run. -/
def step (s : State) : Host.Outcome State Fault Refusal :=
  match s.fault with
  | some f => .fault (.sticky f)
  | none =>
    match s.prog with
    | some p => if s.fuel p = 0 then .fault .outOfFuel else .next (conclude (resumeLoop p s))
    | none =>
      match fetch s with
      | none => .fault .runEnded
      | some bytes =>
        match decode bytes with
        | .error r => .refused (.undecodable r)
        | .ok i => exec i s

/-- The caller's sequence with the bytes of a table word as the next operation: a program is loaded from outside (R341,
assumption log 5). -/
def State.withFetchWord (s : State) (nbits w : Nat) : State :=
  { s with calls := s.calls.take s.pc ++ List.replicate (s.pc - s.calls.length) [] ++ [tableWordBytes nbits w] }

end Sys2Proof.Machine
end

