-- ==== Sys2Proof/Safety.lean ====
section
/-! DEFINITION. What counts as a safe run, and the invariants of the state, in the terms claims use. -/

namespace Sys2Proof.Machine

/-- A state a successful run may be in: "A run that sets a model fault is never a successful end" (R70). -/
def Safe (s : State) : Prop := s.fault = none

/-- A state in which the engine takes its next operation: no model fault (R34), no operation in progress (R37). -/
def Idle (s : State) : Prop := s.fault = none ∧ s.prog = none

/-- The observation of a run (R70): the sequence of operation results together with `hist`. -/
def observe (s : State) : List OpResult × List Event := (s.results, s.hist)

/-- R25: the tracker is a non-empty set of states. -/
def TrackerOk (s : State) : Prop := tapSetOk s.tap = true

/-- R42: between two operations `cq = []` and `bb = []`. -/
def BuffersEmpty (s : State) : Prop := s.cq = [] ∧ s.bb = []

/-- R43: between two operations `tap` is {RTI} or a set of more than one state. -/
def TrackerSettled (s : State) : Prop := s.tap = [.rti] ∨ 1 < s.tap.length

/-- R28: every IR length of the descriptor is at least 1. -/
def LengthsOk (s : State) : Prop := ∀ n ∈ s.taps, 1 ≤ n

/-- R29, R30: a selection is an index of the descriptor with its padding counts; with none, the counts are 0. -/
def SelectionOk (s : State) : Prop :=
  match s.sel with
  | none => s.irPre = 0 ∧ s.irPos = 0 ∧ s.pre = 0 ∧ s.pos = 0
  | some k => k < s.taps.length ∧ s.irPre = (s.taps.take k).sum ∧ s.irPos = (s.taps.drop (k + 1)).sum
      ∧ s.pre = k ∧ s.pre + 1 + s.pos = s.taps.length

/-- R31, R216: queued subcommands are aligned, have a legal length, fit in one frame, and are queued in mode Swd. -/
def QueueOk (s : State) : Prop :=
  (∀ g ∈ s.sq, subAligned g = true ∧ subLengthOk g = true)
    ∧ (s.sq ≠ [] → overflows s.par (batchPayload s.sq).length = false ∧ s.mode = .swd)

/-- A discovery loop in progress stands in its shift state, in mode Jtag (R182, R183), with no model fault. -/
def ProgressOk (s : State) : Prop :=
  match s.prog with
  | none => True
  | some (.chain ids) => s.fault = none ∧ s.mode = .jtag ∧ s.tap = [.shDR] ∧ ∀ w ∈ ids, w ≠ 0xFFFFFFFF
  | some (.irLengths _ count _ found) =>
    s.fault = none ∧ s.mode = .jtag ∧ s.tap = [.shIR] ∧ 1 ≤ count ∧ ∀ n ∈ found, 1 ≤ n

/-- The invariant of the state. -/
structure Inv (s : State) : Prop where
  tracker : TrackerOk s
  buffers : s.fault = none → BuffersEmpty s
  lengths : LengthsOk s
  selection : SelectionOk s
  queue : QueueOk s
  progress : ProgressOk s

/-- A frame the engine may write (R119): one of the four outer kinds, well-formed, and nothing after it. -/
def frameLegal (f : List Byte) : Bool :=
  match decodeFrame f with
  | .ok (.d0 _, []) => true
  | .ok (.d2 _, []) => true
  | .ok (.e5 _, []) => true
  | .ok (.e8 _, []) => true
  | _ => false

/-- R119 over the history: every frame written is one the engine may write. -/
def FramesLegal (s : State) : Prop := ∀ f, Event.out f ∈ s.hist → frameLegal f = true

/-- R143 over a history: each `Out` is answered, by an `In` or a failure, before the next `Out`; the
argument says whether an answer is outstanding. -/
def pairedFrom : Bool → List Event → Bool
  | waiting, [] => !waiting
  | false, .out _ :: rest => pairedFrom true rest
  | true, .inn _ :: rest => pairedFrom false rest
  | true, .fail _ :: rest => pairedFrom false rest
  | _, _ => false

/-- R143: in the history every frame written is followed by its answer or a failure, before the next frame. -/
def HistoryPaired (s : State) : Prop := pairedFrom false s.hist = true

/-! ### What the environment answers -/

/-- A frame of the engine and the answer to it. -/
abbrev Exchange := List Byte × List Byte

/-- In this state the environment takes each of these frames in turn and answers it with the bytes beside it (R57). A
condition on the state alone: on its environment, with its parameters and its line state. -/
def answered : List Exchange → State → Bool
  | [], _ => true
  | (f, a) :: more, s => decide ((xfer f a.length s).1 = .ok a) && answered more (xfer f a.length s).2

/-- The environment after those exchanges. -/
def envAfter : List Exchange → State → Env
  | [], s => s.env
  | (f, a) :: more, s => envAfter more (xfer f a.length s).2

/-- The state after those exchanges and nothing else: the history has each frame and each answer, the environment has gone
on, and every other field is as before. -/
def State.exchanged (s : State) (talk : List Exchange) : State :=
  { s with hist := s.hist ++ talk.flatMap (fun x => [.out x.1, .inn x.2]), env := envAfter talk s }

/-- The environment takes this init frame and answers it with these bytes (R144). -/
def initAnswered (f a : List Byte) (s : State) : Bool := decide ((exchange f linkReadAny s).1 = .ok a)

/-- The state after an init exchange and nothing else. -/
def State.initExchanged (s : State) (f a : List Byte) : State :=
  { s with hist := s.hist ++ [.out f, .inn a], env := (exchange f linkReadAny s).2.env }

/-- A frame with this payload breaks neither the length field nor the staging buffer (R304). -/
def Fits (s : State) (payload : Nat) : Prop :=
  payload ≤ 0xFFFF ∧ ∀ limit, s.par.maxFrameBytes = some limit → 3 + payload ≤ limit

/-- An answer to F-D2 (R104). -/
def clockAnswer (samples : List Byte) : List Byte := [0xD2] ++ le16 samples.length ++ samples

/-- An answer to F-E8 (R107), of these slices. -/
def batchAnswer (slices : List (List Byte)) : List Byte := [0xE8] ++ le16 slices.flatten.length ++ slices.flatten

/-- The TDO sample in an answer byte (R104). -/
def State.tdoOf (s : State) (b : Byte) : Bool := b.getLsbD s.par.tdoBit.val

/-- The F-D2 frame of these clock units (R103). -/
def clocks (us : List ClockUnit) : List Byte := frameD2 (us.map ClockUnit.wire)

/-- Ready for a scan (R169), between two operations (R42). -/
def JtagReady (s : State) : Prop := Idle s ∧ BuffersEmpty s ∧ s.mode = .jtag ∧ s.tap = [.rti]

/-- Ready for a standalone SWD operation (R219). -/
def SwdReady (s : State) : Prop := Idle s ∧ s.mode = .swd ∧ s.sq = [] ∧ s.rq = []

/-- What R183's loop makes of the captured bits after the first, from its variables: the lengths, if the last bit, and none
before it, ends the scan. -/
def irWalk : Bool → Nat → Bool → List Nat → List Bool → Option (List Nat)
  | _, _, _, _, [] => none
  | prev, count, closed, found, b :: bs =>
    match prev, b, closed with
    | false, true, _ => irWalk true 1 true (found ++ [count]) bs
    | true, true, true => if bs = [] then some found else none
    | _, _, _ => irWalk b (count + 1) closed found bs

/-- The loop variables R183's loop has after these bits, if none of them ends the scan. -/
def irWalkOn : Bool → Nat → Bool → List Nat → List Bool → Option Progress
  | prev, count, closed, found, [] => some (.irLengths prev count closed found)
  | prev, count, closed, found, b :: bs =>
    match prev, b, closed with
    | false, true, _ => irWalkOn true 1 true (found ++ [count]) bs
    | true, true, true => none
    | _, _, _ => irWalkOn b (count + 1) closed found bs

/-- The clock units of one word of discover_chain (R182). -/
abbrev wordUnits : List ClockUnit := List.replicate 32 ⟨false, true, true⟩

/-- The clock unit of one bit of discover_ir_lengths (R183). -/
abbrev bitUnits : List ClockUnit := [⟨false, true, true⟩]

/-- The word in 32 answer bytes, bit 0 first (R182). -/
def wordOf (s : State) (b : List Byte) : Word := BitVec.ofNat 32 (valBits (b.map s.tdoOf))

/-- The exchanges of the words of a chain scan, but for a first one that carries the entry. -/
def wordTalk (blocks : List (List Byte)) : List Exchange := blocks.map fun b => (clocks wordUnits, clockAnswer b)

/-- The exchanges of the bits of an IR scan, but for a first one that carries the entry. -/
def bitTalk (samples : List Byte) : List Exchange := samples.map fun b => (clocks bitUnits, clockAnswer [b])

/-! ### Classes of instructions -/

/-- What an instruction needs before it does anything: `init` nothing (R180, R210); `clock` mode Jtag; `scan` mode Jtag and a
tracker of {RTI} (R169); `select` nothing (R184); `queue` mode Swd (R216 to R218); `standalone` mode Swd and empty queues
(R219). -/
inductive Class where
  | init | clock | scan | select | queue | standalone
  deriving DecidableEq, Repr

/-- The class of each instruction. -/
def classOf : Instr → Class
  | .d0 _ => .init
  | .d2 _ => .clock
  | .e5 _ => .init
  | .e8 _ => .standalone
  | .a1 _ _ => .standalone
  | .a2 _ => .standalone
  | .a0 _ _ => .standalone
  | .jtagInit _ => .init
  | .resetAndIdle => .clock
  | .discoverChain => .scan
  | .discoverIrLengths => .scan
  | .selectTarget _ => .select
  | .writeIr _ _ => .scan
  | .writeDr _ _ => .scan
  | .accessRegister _ _ => .scan
  | .swdInit _ => .init
  | .push _ => .queue
  | .flush => .queue
  | .take => .queue
  | .swdReset => .standalone
  | .jtagToSwd => .standalone
  | .swdIdle => .standalone
  | .readRegister _ _ => .standalone
  | .writeRegister _ _ _ => .standalone

/-- An operation of the upward interface, not a frame by itself (R8). -/
def isOperation : Instr → Bool
  | .d0 _ => false
  | .d2 _ => false
  | .e5 _ => false
  | .e8 _ => false
  | .a1 _ _ => false
  | .a2 _ => false
  | .a0 _ _ => false
  | .jtagInit _ => true
  | .resetAndIdle => true
  | .discoverChain => true
  | .discoverIrLengths => true
  | .selectTarget _ => true
  | .writeIr _ _ => true
  | .writeDr _ _ => true
  | .accessRegister _ _ => true
  | .swdInit _ => true
  | .push _ => true
  | .flush => true
  | .take => true
  | .swdReset => true
  | .jtagToSwd => true
  | .swdIdle => true
  | .readRegister _ _ => true
  | .writeRegister _ _ _ => true

/-- The frames written, in order. -/
def framesOf (h : List Event) : List (List Byte) :=
  h.filterMap fun e =>
    match e with
    | .out f => some f
    | .inn _ => none
    | .fail _ => none

/-! ### The next frame of an instruction, or of a discovery in progress -/

/-- What runs: an instruction's meaning, or a step with a discovery loop in progress. -/
inductive Run where
  | instr (i : Instr)
  | resumed
  deriving DecidableEq, Repr

/-- Its outcome. -/
def Run.outcome (run : Run) (s : State) : Host.Outcome State Fault Refusal :=
  match run with
  | .instr i => exec i s
  | .resumed => step s

/-- The operands pass the argument checks of a JTAG instruction (R308, R309), and a D2 frame has a unit (R103). -/
def ClockOperandsOk : Instr → Prop
  | .d0 _ => True
  | .d2 units => units ≠ []
  | .e5 _ => True
  | .e8 _ => True
  | .a1 _ _ => True
  | .a2 _ => True
  | .a0 _ _ => True
  | .jtagInit _ => True
  | .resetAndIdle => True
  | .discoverChain => True
  | .discoverIrLengths => True
  | .selectTarget _ => True
  | .writeIr _ length => 1 ≤ length ∧ length ≤ 64
  | .writeDr _ length => 1 ≤ length ∧ length ≤ 64
  | .accessRegister addr _ => addr.off.getLsbD 0 = false ∧ addr.off.getLsbD 1 = false
  | .swdInit _ => True
  | .push _ => True
  | .flush => True
  | .take => True
  | .swdReset => True
  | .jtagToSwd => True
  | .swdIdle => True
  | .readRegister _ _ => True
  | .writeRegister _ _ _ => True

/-- A JTAG instruction passes every check before its first frame: mode (R305), tracker (R307), operands. -/
structure StartsJtag (i : Instr) (s : State) : Prop where
  idle : Idle s
  buffers : BuffersEmpty s
  mode : s.mode = .jtag
  kind : classOf i = .clock ∨ classOf i = .scan
  tracker : classOf i = .scan → s.tap = [.rti]
  operands : ClockOperandsOk i

/-- The clock units of a JTAG instruction's first frame (R103, R181, R182, R183, R185, R188); none for the others. -/
def firstUnits (s : State) : Instr → List ClockUnit
  | .d0 _ => []
  | .d2 units => units.map WireUnit.captured
  | .e5 _ => []
  | .e8 _ => []
  | .a1 _ _ => []
  | .a2 _ => []
  | .a0 _ _ => []
  | .jtagInit _ => []
  | .resetAndIdle => resetUnits
  | .discoverChain => enterShiftDR ++ wordUnits
  | .discoverIrLengths => enterShiftIR ++ bitUnits
  | .selectTarget _ => []
  | .writeIr value length => scanUnits .ir value length s.irPre s.irPos
  | .writeDr value length => scanUnits .dr value length s.pre s.pos
  | .accessRegister addr _ => scanUnits .ir ((accessIr addr).zeroExtend 64) 4 s.irPre s.irPos
  | .swdInit _ => []
  | .push _ => []
  | .flush => []
  | .take => []
  | .swdReset => []
  | .jtagToSwd => []
  | .swdIdle => []
  | .readRegister _ _ => []
  | .writeRegister _ _ _ => []

/-- A chain scan that starts, with its first exchange and word, or one in progress that goes on, with none yet (R182); and how
many more words the step may scan. -/
inductive ChainStart (s : State) : Run → List Exchange → List Word → Nat → Prop
  | started (entry first : List Byte) (h : StartsJtag .discoverChain s) (he : entry.length = 3) (hl : first.length = 32) :
    ChainStart s (.instr .discoverChain) [(clocks (enterShiftDR ++ wordUnits), clockAnswer (entry ++ first))]
      [wordOf s first] (s.chainFuel 0 - 1)
  | resumed (old : List Word) (hf : s.fault = none) (hp : s.prog = some (.chain old)) (hb : BuffersEmpty s)
      (ht : s.tap = [.shDR]) : ChainStart s .resumed [] [] (s.chainFuel old.length)

/-- An IR scan that starts, with its first exchange, or one in progress that goes on; the loop's variables (R183); and how many
more bits the step may scan. -/
inductive IrStart (s : State) : Run → List Exchange → Bool → Nat → Bool → List Nat → Nat → Prop
  | started (entry : List Byte) (first : Byte) (h : StartsJtag .discoverIrLengths s) (he : entry.length = 4) :
    IrStart s (.instr .discoverIrLengths) [(clocks (enterShiftIR ++ bitUnits), clockAnswer (entry ++ [first]))]
      (s.tdoOf first) 1 false [] (s.irFuel 0 - 1)
  | resumed (prev : Bool) (count : Nat) (closed : Bool) (found : List Nat) (hf : s.fault = none)
      (hp : s.prog = some (.irLengths prev count closed found)) (hb : BuffersEmpty s) (ht : s.tap = [.shIR]) :
    IrStart s .resumed [] prev count closed found (s.irFuel (found.sum + count))

/-- The DR frame of access_register fits (R188). -/
def DrFits (s : State) : Prop := Fits s (2 * (3 + s.pre + 35 + s.pos + 2))

/-- `NextClocks s run talk T us`: where what runs from `s` has made the exchanges `talk`, the next frame it writes is that of the
units `us`, and the tracker is then `T`. One constructor for each frame of the JTAG instructions: the first of each; the DR
scan of access_register (R188); a later word and the exit of discover_chain (R182); a later bit and the exit of
discover_ir_lengths (R183). The bounds on words and bits are what one step may scan (assumption log 10). access_register
writes no frame where its DR frame does not fit (R313, D39). -/
inductive NextClocks (s : State) : Run → List Exchange → List TapState → List ClockUnit → Prop
  | first (i : Instr) (h : StartsJtag i s)
      (hd : ∀ addr value, i = .accessRegister addr value → Fits s (2 * (firstUnits s i).length) → DrFits s) : NextClocks s (.instr i) [] s.tap (firstUnits s i)
  | second (addr : RegAddr) (value : Option Word) (samples : List Byte) (h : StartsJtag (.accessRegister addr value) s)
      (hd : DrFits s) (hl : samples.length = (firstUnits s (.accessRegister addr value)).length) :
    NextClocks s (.instr (.accessRegister addr value))
      [(clocks (firstUnits s (.accessRegister addr value)), clockAnswer samples)] [.rti]
      (scanUnits .dr ((accessRequest addr.off value).zeroExtend 64) 35 s.pre s.pos)
  | word {run : Run} {head : List Exchange} {words : List Word} {fuel : Nat} (blocks : List (List Byte))
      (h : ChainStart s run head words fuel)
      (hb : ∀ b ∈ blocks, b.length = 32) (hw : ∀ w ∈ words ++ blocks.map (wordOf s), w ≠ 0xFFFFFFFF)
      (hn : blocks.length < fuel) :
    NextClocks s run (head ++ wordTalk blocks) [.shDR] wordUnits
  | chainExit {run : Run} {head : List Exchange} {words : List Word} {fuel : Nat} (blocks : List (List Byte)) (ids : List Word)
      (h : ChainStart s run head words fuel) (hb : ∀ b ∈ blocks, b.length = 32)
      (hw : words ++ blocks.map (wordOf s) = ids ++ [0xFFFFFFFF]) (hi : ∀ w ∈ ids, w ≠ 0xFFFFFFFF)
      (hn : blocks.length ≤ fuel) :
    NextClocks s run (head ++ wordTalk blocks) [.shDR] leaveShift
  | bit {run : Run} {head : List Exchange} {prev : Bool} {count : Nat} {closed : Bool} {found : List Nat} {fuel : Nat}
      (samples : List Byte) (h : IrStart s run head prev count closed found fuel)
      (hw : irWalkOn prev count closed found (samples.map s.tdoOf) ≠ none) (hn : samples.length < fuel) :
    NextClocks s run (head ++ bitTalk samples) [.shIR] bitUnits
  | irExit {run : Run} {head : List Exchange} {prev : Bool} {count : Nat} {closed : Bool} {found : List Nat} {fuel : Nat}
      (samples : List Byte) (lengths : List Nat) (h : IrStart s run head prev count closed found fuel)
      (hw : irWalk prev count closed found (samples.map s.tdoOf) = some lengths)
      (hn : samples.length ≤ fuel) :
    NextClocks s run (head ++ bitTalk samples) [.shIR] leaveShift

/-- The exchanges so far were of frames that fit, and the environment answered them. -/
def Exchanged (s : State) (talk : List Exchange) : Prop :=
  (∀ x ∈ talk, Fits s (x.1.length - 3)) ∧ answered talk s = true

/-- The subcommands of an SWD instruction that is a batch of its own (R106 to R110, R219 to R224); none for the others. -/
def batchOf : Instr → List Subcmd
  | .d0 _ => []
  | .d2 _ => []
  | .e5 _ => []
  | .e8 subs => subs
  | .a1 nbits bytes => [.rawSequence nbits bytes]
  | .a2 addr => [.registerRead addr]
  | .a0 addr data => [.registerWrite addr data]
  | .jtagInit _ => []
  | .resetAndIdle => []
  | .discoverChain => []
  | .discoverIrLengths => []
  | .selectTarget _ => []
  | .writeIr _ _ => []
  | .writeDr _ _ => []
  | .accessRegister _ _ => []
  | .swdInit _ => []
  | .push _ => []
  | .flush => []
  | .take => []
  | .swdReset => [lineResetSeq]
  | .jtagToSwd => [lineResetSeq, switchSeq, lineResetSeq]
  | .swdIdle => [idleSeq]
  | .readRegister address isAp => [.registerRead (regOf address isAp)]
  | .writeRegister address isAp data => [.registerWrite (regOf address isAp) data]

/-- The subcommands pass push's argument checks (R216). -/
def Pushable (gs : List Subcmd) : Prop := ∀ g ∈ gs, subAligned g = true ∧ subLengthOk g = true

end Sys2Proof.Machine
end

