-- ==== Sys2Proof/Certificates/Slice0/Obligations.lean ====
section
/-! DEFINITION. The statements for the provers, in the order of OBLIGATIONS.json: the encodings, the TAP and the link, where
each instruction completes and with what, what it leaves unchanged, the errors and faults, the step, the invariants, the
reference target. A next state is written out as the state before with the fields that change, so each completion is a
frame too. -/

open Sys2Proof Sys2Proof.Machine

/-! ### Encoding -/

/-- Every well-formed instruction is read back from its words, with every operand (R100 to R112, R118, R121). -/
def Obligations.DecodeEncodeAgree : Prop :=
  ∀ i : Instr, i.wf = true → decode (encode i) = .ok i

/-- The other direction, for frames: what the decoder takes off the front of some bytes is well-formed, and those bytes are
its encoding and no other (R100 to R112, R118, R119). -/
def Obligations.FrameHasOneReading : Prop :=
  ∀ (bs rest : List Byte) (i : Instr), decodeFrame bs = .ok (i, rest) → i.wf = true ∧ bs = encode i ++ rest

/-- What R119 says is never emitted is refused by name: another first byte, another subcommand byte, a clock byte with a
reserved bit, a header that is not well-formed, a wrong parity byte, a raw sequence of no bits. -/
def Obligations.ReservedEncodingsRefused : Prop :=
  (∀ (b : Byte) (bs : List Byte), b.getLsbD 7 = true → b ∉ [0xD0, 0xD2, 0xE5, 0xE8, 0xA0, 0xA1, 0xA2] →
    decode (b :: bs) = .error .unknownOpcode)
  ∧ (∀ (b : Byte) (bs : List Byte), b ∉ [0xA0, 0xA1, 0xA2] → decodeSub (b :: bs) = .error .unknownSubcommand)
  ∧ (∀ (lo hi : Byte) (bs : List Byte) (i : Nat), i ∈ [2, 3, 5, 6, 7] → lo.getLsbD i = true →
    decodeUnits (lo :: hi :: bs) = .error .reservedClockBits)
  ∧ (∀ (h : Byte) (bs : List Byte), ¬ (∃ (addr : RegAddr) (rnw : Bool), h = header addr rnw) →
    decodeSub (0xA2 :: 0x22 :: 0x00 :: h :: bs) = .error .header)
  ∧ (∀ (addr : RegAddr) (data : Word) (p : Byte) (bs : List Byte), p ≠ parityByte data →
    decodeSub ([0xA0, 0x29, 0x00, header addr false] ++ le32 data ++ p :: bs) = .error .parity)
  ∧ (∀ bs : List Byte, decodeSub (0xA1 :: 0x00 :: 0x00 :: bs) = .error .zeroBits)

/-- Four frames, written out from R102, R103, R105, R106 and R109. The last clause is one call: R121 gives its written form, and
that an operation's bytes are that form in ASCII is the model's choice, assumption log 3. -/
def Obligations.SampleWords : Prop :=
  decode [0xD0, 0x07, 0x00, 0x00, 0x00, 0x03, 0x00, 0x00, 0x00, 0x00] = .ok (.d0 0x03)
  ∧ decode [0xD2, 0x04, 0x00, 0x12, 0x13, 0x00, 0x01] = .ok (.d2 [⟨true, true⟩, ⟨false, false⟩])
  ∧ decode [0xE5, 0x08, 0x00, 0x40, 0x42, 0x0F, 0x00, 0x01, 0x00, 0x00, 0x00] = .ok (.e5 0x01)
  ∧ decode [0xE8, 0x08, 0x00, 0xA2, 0x22, 0x00, 0xBD, 0xA1, 0x01, 0x00, 0x01]
    = .ok (.e8 [.registerRead (.dp 0x0C), .rawSequence 1 [0x01]])
  ∧ decode (ascii "write_register(0x8, false, 0x000000F0)") = .ok (.writeRegister 0x08 false 0x000000F0)

/-- R101: the two bytes of a clock unit, its formula and its table. -/
def Obligations.ClockUnitPair : Prop :=
  (∀ tms tdi : Bool,
    let lo : Byte := ((BitVec.ofBool tms).zeroExtend 8 <<< 1) ||| ((BitVec.ofBool tdi).zeroExtend 8 <<< 4)
    encUnit ⟨tms, tdi⟩ = [lo, lo ||| 0x01])
  ∧ encUnit ⟨false, false⟩ = [0x00, 0x01] ∧ encUnit ⟨true, false⟩ = [0x02, 0x03]
  ∧ encUnit ⟨false, true⟩ = [0x10, 0x11] ∧ encUnit ⟨true, true⟩ = [0x12, 0x13]

/-- R111 and R112: the header's eight bits, which bytes are headers, and that decoding inverts encoding. -/
def Obligations.HeaderByte : Prop :=
  (∀ (addr : RegAddr) (rnw : Bool),
    let h := header addr rnw
    h.getLsbD 0 = true ∧ h.getLsbD 1 = addr.isAp ∧ h.getLsbD 2 = rnw ∧ h.getLsbD 3 = addr.off.getLsbD 2
      ∧ h.getLsbD 4 = addr.off.getLsbD 3
      ∧ h.getLsbD 5 = (addr.isAp ^^ rnw ^^ addr.off.getLsbD 2 ^^ addr.off.getLsbD 3)
      ∧ h.getLsbD 6 = false ∧ h.getLsbD 7 = true)
  ∧ (∀ h : Byte, headerOk h = true ↔
      h.getLsbD 0 = true ∧ h.getLsbD 6 = false ∧ h.getLsbD 7 = true
        ∧ h.getLsbD 5 = (h.getLsbD 1 ^^ h.getLsbD 2 ^^ h.getLsbD 3 ^^ h.getLsbD 4))
  ∧ (∀ h : Byte, headerOk h = true → header (headerAddr h) (headerRnw h) = h)

/-- R113: the parity byte is the population count of the data word modulo 2, in every register write's frame. -/
def Obligations.WriteParity : Prop :=
  (∀ (addr : RegAddr) (data : Word),
    (encodeSub (.registerWrite addr data)).getLast?
      = some (BitVec.ofNat 8 (((List.range 32).countP fun i => data.getLsbD i) % 2)))
  ∧ parityByte 0x00000000 = 0 ∧ parityByte 0xFFFFFFFF = 0

/-- R115: DPACC is 0xA and APACC is 0xB, and the bits their scan shifts. -/
def Obligations.AccessInstructions : Prop :=
  ∀ (off : Byte) (trailing : Nat),
    accessIr (.dp off) = 0xA ∧ accessIr (.ap off) = 0xB
    ∧ (dataUnits ((accessIr (.dp off)).zeroExtend 64) 4 trailing).map ClockUnit.tdi = [false, true, false, true]
    ∧ (dataUnits ((accessIr (.ap off)).zeroExtend 64) 4 trailing).map ClockUnit.tdi = [true, true, false, true]

/-- R116: the fields of the 35-bit request; a read's data field is 0. -/
def Obligations.AccessRequest : Prop :=
  ∀ (off : Byte) (value : Option Word),
    let r := accessRequest off value
    r.getLsbD 0 = value.isNone ∧ r.getLsbD 1 = off.getLsbD 2 ∧ r.getLsbD 2 = off.getLsbD 3
      ∧ r.extractLsb' 3 32 = value.getD 0

/-- R117: the ack is the low 3 bits of the capture, the value is the capture shifted right by 3. -/
def Obligations.CaptureFields : Prop :=
  ∀ c : BitVec 35, (jtagAck c).toNat = c.toNat % 8 ∧ (jtagValue c).toNat = (c >>> 3).toNat &&& 0xFFFFFFFF

/-- R212: the bytes of each subcommand's frame, its length, and that of an offset only bits [3:2] count. -/
def Obligations.SubcommandFrames : Prop :=
  (∀ addr : RegAddr, encodeSub (.registerRead addr) = [0xA2, 0x22, 0x00, header addr true])
  ∧ (∀ (addr : RegAddr) (data : Word),
      encodeSub (.registerWrite addr data)
        = [0xA0, 0x29, 0x00, header addr false,
            BitVec.ofNat 8 data.toNat, BitVec.ofNat 8 (data.toNat / 0x100), BitVec.ofNat 8 (data.toNat / 0x10000),
            BitVec.ofNat 8 (data.toNat / 0x1000000), BitVec.ofNat 8 (((List.range 32).countP fun i => data.getLsbD i) % 2)])
  ∧ (∀ (nbits : BitVec 16) (bytes : List Byte),
      encodeSub (.rawSequence nbits bytes)
        = 0xA1 :: BitVec.ofNat 8 nbits.toNat :: BitVec.ofNat 8 (nbits.toNat / 0x100) :: bytes)
  ∧ (∀ off : Byte, (RegAddr.ap off).isAp = true ∧ (RegAddr.dp off).isAp = false)
  ∧ (∀ (off off' : Byte) (rnw : Bool), addrA off = addrA off' →
      header (.dp off) rnw = header (.dp off') rnw ∧ header (.ap off) rnw = header (.ap off') rnw)
  ∧ (∀ g : Subcmd, g.wireForm = true →
      (encodeSub g).length = match g with
        | .registerRead _ => 4
        | .registerWrite _ _ => 9
        | .rawSequence nbits _ => 3 + (nbits.toNat + 7) / 8)

/-- R185: the TMS, TDI and capture of a scan's units. TMS is 1 on the last unit of the shift, data or padding, and on no
other; padding and navigation have TDI=1 and no capture; the data goes out bit 0 first. -/
def Obligations.ScanUnits : Prop :=
  ∀ (kind : ScanKind) (value : BitVec 64) (length leading trailing : Nat), 1 ≤ length →
    let entry := match kind with
      | .ir => [true, true, false, false]
      | .dr => [true, false, false]
    let us := scanUnits kind value length leading trailing
    us.map ClockUnit.tms = entry ++ List.replicate (leading + length + trailing - 1) false ++ [true, true, false]
    ∧ us.map ClockUnit.tdi
      = List.replicate (entry.length + leading) true ++ bitsOf length value ++ List.replicate (trailing + 2) true
    ∧ us.map ClockUnit.cap
      = List.replicate (entry.length + leading) false ++ List.replicate length true
        ++ List.replicate (trailing + 2) false

/-! ### The TAP -/

/-- R160, R163: the tracker moves by image, and the engine's navigation sequences reach the states they are for. -/
def Obligations.TrackerMoves : Prop :=
  (∀ (Q : List TapState) (tms : Bool) (q' : TapState), q' ∈ deltaSet Q tms ↔ ∃ q ∈ Q, delta q tms = q')
  ∧ deltaSeq [.rti] [true, false, false] = [.shDR] ∧ deltaSeq [.rti] [true, true, false, false] = [.shIR]
  ∧ deltaSeq [.shDR] [true] = [.ex1DR] ∧ deltaSeq [.shIR] [true] = [.ex1IR]
  ∧ deltaSeq [.ex1DR] [true, false] = [.rti] ∧ deltaSeq [.ex1IR] [true, false] = [.rti]
  ∧ deltaSeq [.shDR] [true, true, false] = [.rti] ∧ deltaSeq [.shIR] [true, true, false] = [.rti]

/-- R162: five units with TMS=1 take every tracker to {TLR}, one more with TMS=0 to {RTI}; and how the full set shrinks. -/
def Obligations.ResetFromAnyState : Prop :=
  (∀ Q : List TapState, tapSetOk Q = true →
    deltaSeq Q (List.replicate 5 true) = [.tlr] ∧ deltaSeq Q (List.replicate 5 true ++ [false]) = [.rti])
  ∧ (deltaSeq TapState.all (List.replicate 1 true)).length = 9
  ∧ (deltaSeq TapState.all (List.replicate 2 true)).length = 5
  ∧ (deltaSeq TapState.all (List.replicate 3 true)).length = 3
  ∧ (∀ q : TapState, q ∈ deltaSeq TapState.all (List.replicate 4 true) ↔ q = .selIR ∨ q = .tlr)

/-- R161: Emit queues the unit and moves the tracker, and nothing else; a tracker moved by a flush that then fails is reset. -/
def Obligations.EmitQueuesAndMoves : Prop :=
  (∀ (s : State) (u : ClockUnit), s.emit u = { s with cq := s.cq ++ [u], tap := deltaSet s.tap u.tms })
  ∧ (∀ (s t : State) (e : TypedError), jtagFlush s = (.err e, t) → t.tap = TapState.all ∧ t.cq = [])

/-! ### The link -/

/-- R57, R69: whatever frame the engine writes, the environment may answer it with any bytes, subject to R65 (the first clause:
any bytes that R65 leaves as they are where nothing of the port is fixed yet), or fail the write or the read in either way. R65 is
about the data of register reads alone, and on a line that is not Ready nothing is bound (R66): the second clause. -/
def Obligations.AnyAnswerPossible : Prop :=
  ∀ (s : State) (f : List Byte),
    (∀ a : List Byte, (boundAnswer s.link (askedBy f) .unknown a).2 = a →
      ∃ e : Env, answered [(f, a)] { s with env := e } = true)
    ∧ ((∀ addr : RegAddr, .registerRead addr ∉ askedBy f)
        ∨ (s.link ≠ .ready ∧ ∀ (nbits : BitVec 16) (bytes : List Byte), .rawSequence nbits bytes ∉ askedBy f) →
      ∀ a : List Byte, ∃ e : Env, answered [(f, a)] { s with env := e } = true)
    ∧ (∀ (n : Nat) (k : FailKind), ∃ e : Env,
        (xfer f n { s with env := e }).1 = .error ⟨k, .tx⟩
          ∧ (xfer f n { s with env := e }).2.hist = s.hist ++ [.out f, .fail ⟨k, .tx⟩])
    ∧ (∀ (n : Nat) (k : FailKind), 0 < n → ∃ e : Env,
        (xfer f n { s with env := e }).1 = .error ⟨k, .rx⟩
          ∧ (xfer f n { s with env := e }).2.hist = s.hist ++ [.out f, .fail ⟨k, .rx⟩])

/-- R142: short reads, of no byte too. Where the coming reads give pieces that make up n bytes, the last of them not empty,
LinkRead gives them joined, as one answer of n bytes; where a read fails before that, LinkRead fails and no part of the answer is
recorded. The bytes are the pieces as they are, but for the data that R65 fixes of a batch that waits for its answer
(`boundAnswer`). What this says of the environment is the model's: that the coming reads are a script in State (assumption
log 6), which R65 binds (assumption log 25), and what is left of the environment after a failed read (assumption log 7). -/
def Obligations.ShortReads : Prop :=
  ∀ (s : State) (pieces : List (List Byte)) (rest : List RxDraw),
    ((∀ p : List Byte, pieces.getLast? = some p → p ≠ []) → s.env.rx = pieces.map .bytes ++ rest →
      let answer := boundAnswer s.link s.env.asked s.env.swd pieces.flatten
      linkRead pieces.flatten.length s = (.ok answer.2,
        { s with
          hist := s.hist ++ [.inn answer.2]
          env := { s.env with rx := rest, inbox := [], swd := answer.1, asked := [] } })
      ∧ answer.2.length = pieces.flatten.length ∧ (s.env.asked = [] → answer = (s.env.swd, pieces.flatten)))
    ∧ (∀ (k : FailKind) (n : Nat), pieces.flatten.length < n → s.env.rx = pieces.map .bytes ++ .fail k :: rest →
      linkRead n s = (.error ⟨k, .rx⟩,
        { s with hist := s.hist ++ [.fail ⟨k, .rx⟩], env :=
          { s.env with rx := rest, target := none, inbox := [], swd := .unknown, asked := [] } }))

/-- R73, R166: a flush is all or nothing on the buffers. One that does not succeed leaves `bb`, or `rq`, as it was. One that
succeeds empties its queue, and appends exactly one bit for each unit with capture, or one result for each subcommand. -/
def Obligations.FlushAllOrNothing : Prop :=
  (∀ (s t : State) (r : Res Unit), jtagFlush s = (r, t) → r ≠ .ok () → t.bb = s.bb)
  ∧ (∀ s t : State, jtagFlush s = (.ok (), t) →
      t.cq = [] ∧ ∃ new : List Bool, t.bb = s.bb ++ new ∧ new.length = s.cq.countP ClockUnit.cap)
  ∧ (∀ (s t : State) (r : Res Unit), flushBatch s = (r, t) → r ≠ .ok () → t.rq = s.rq)
  ∧ (∀ s t : State, flushBatch s = (.ok (), t) →
      t.sq = [] ∧ ∃ new : List SResult, t.rq = s.rq ++ new ∧ new.length = s.sq.length)

/-- R215: what a raw sequence does to the line state. All ones, at least 50 of them, is a reset; all zeros takes a reset line
or a ready one to ready; any other loses it; a register access leaves it. -/
def Obligations.LineStateMoves : Prop :=
  (∀ (l : LineState) (addr : RegAddr) (data : Word),
    lineNext l (.registerRead addr) = l ∧ lineNext l (.registerWrite addr data) = l)
  ∧ (∀ (l : LineState) (nbits : BitVec 16) (bytes : List Byte), rawAccepted nbits bytes = true →
      let bit := fun i => (bytes.getD (i / 8) 0).getLsbD (i % 8)
      ((50 ≤ nbits.toNat ∧ ∀ i < nbits.toNat, bit i = true) → lineNext l (.rawSequence nbits bytes) = .lineReset)
      ∧ ((l = .lineReset ∨ l = .ready) → (∀ i < nbits.toNat, bit i = false) →
          lineNext l (.rawSequence nbits bytes) = .ready)
      ∧ (¬ (50 ≤ nbits.toNat ∧ ∀ i < nbits.toNat, bit i = true) →
          ¬ ((l = .lineReset ∨ l = .ready) ∧ ∀ i < nbits.toNat, bit i = false) →
          lineNext l (.rawSequence nbits bytes) = .unknown))

/-! ### Where each instruction completes, and with what -/

/-- R180, R210 (and R102, R105 for the frames by themselves): an init whose frame is taken and answered, by any bytes,
completes in every mode; the descriptor stays. -/
def Obligations.InitsComplete : Prop :=
  ∀ (speed : Byte) (a : List Byte) (s : State), Idle s →
    (initAnswered [0xD0, 0x07, 0x00, 0x00, 0x00, speed, 0x00, 0x00, 0x00, 0x00] a s = true →
      let t : State := { s.initExchanged [0xD0, 0x07, 0x00, 0x00, 0x00, speed, 0x00, 0x00, 0x00, 0x00] a with
        mode := .jtag, jspeed := some speed, tap := TapState.all, cq := [], bb := [], sq := [], rq := [],
        link := .unknown, results := s.results ++ [.ok .unit], pc := s.pc + 1 }
      exec (.jtagInit speed) s = .next t ∧ exec (.d0 speed) s = .next t)
    ∧ (initAnswered [0xE5, 0x08, 0x00, 0x40, 0x42, 0x0F, 0x00, speed, 0x00, 0x00, 0x00] a s = true →
      let t : State := { s.initExchanged [0xE5, 0x08, 0x00, 0x40, 0x42, 0x0F, 0x00, speed, 0x00, 0x00, 0x00] a with
        mode := .swd, sspeed := some speed, tap := TapState.all, cq := [], bb := [], sq := [], rq := [],
        link := .unknown, results := s.results ++ [.ok .unit], pc := s.pc + 1 }
      exec (.swdInit speed) s = .next t ∧ exec (.e5 speed) s = .next t)

/-- R181: from any tracker, reset_and_idle writes its one frame, discards the samples and leaves {RTI}. -/
def Obligations.ResetAndIdleCompletes : Prop :=
  ∀ (samples : List Byte) (s : State),
    let f : List Byte := [0xD2, 0x0C, 0x00, 0x12, 0x13, 0x12, 0x13, 0x12, 0x13, 0x12, 0x13, 0x12, 0x13, 0x10, 0x11]
    Idle s → BuffersEmpty s → TrackerOk s → s.mode = .jtag → Fits s 12 → samples.length = 6 →
    answered [(f, clockAnswer samples)] s = true →
      exec .resetAndIdle s = .next { s.exchanged [(f, clockAnswer samples)] with
        tap := [.rti], results := s.results ++ [.ok .unit], pc := s.pc + 1 }

/-- R186, R187 (R185): a scan writes one frame and returns the TDO bits of its data units, in order; the padding is of its
own family. -/
def Obligations.ScansComplete : Prop :=
  ∀ (value : BitVec 64) (length : Nat) (before data after : List Byte) (s : State),
    JtagReady s → 1 ≤ length → length ≤ 64 → data.length = length →
    (let f := clocks (scanUnits .ir value length s.irPre s.irPos)
      let a := clockAnswer (before ++ data ++ after);
      before.length = 4 + s.irPre → after.length = s.irPos + 2 →
      Fits s (2 * (4 + s.irPre + length + s.irPos + 2)) → answered [(f, a)] s = true →
        exec (.writeIr value length) s = .next { s.exchanged [(f, a)] with
          results := s.results ++ [.ok (.bits (data.map s.tdoOf))], pc := s.pc + 1 })
    ∧ (let f := clocks (scanUnits .dr value length s.pre s.pos)
      let a := clockAnswer (before ++ data ++ after);
      before.length = 3 + s.pre → after.length = s.pos + 2 →
      Fits s (2 * (3 + s.pre + length + s.pos + 2)) → answered [(f, a)] s = true →
        exec (.writeDr value length) s = .next { s.exchanged [(f, a)] with
          results := s.results ++ [.ok (.bits (data.map s.tdoOf))], pc := s.pc + 1 })

/-- R188, R189: an access writes two frames, the IR scan and the DR scan of the request; with the ack 2 it returns the
value of the capture, with any other the ack as an AccessFault. -/
def Obligations.AccessRegisterCompletes : Prop :=
  ∀ (addr : RegAddr) (value : Option Word) (irSamples before data after : List Byte) (s : State),
    JtagReady s → addr.off.getLsbD 0 = false → addr.off.getLsbD 1 = false →
    irSamples.length = 4 + s.irPre + 4 + s.irPos + 2 →
    before.length = 3 + s.pre → data.length = 35 → after.length = s.pos + 2 →
    Fits s (2 * (4 + s.irPre + 4 + s.irPos + 2)) → Fits s (2 * (3 + s.pre + 35 + s.pos + 2)) →
    let ir : BitVec 64 := match addr with
      | .dp _ => 0xA
      | .ap _ => 0xB
    let talk : List Exchange :=
      [(clocks (scanUnits .ir ir 4 s.irPre s.irPos), clockAnswer irSamples),
        (clocks (scanUnits .dr ((accessRequest addr.off value).zeroExtend 64) 35 s.pre s.pos),
          clockAnswer (before ++ data ++ after))]
    let c : BitVec 35 := BitVec.ofNat 35 (valBits (data.map s.tdoOf))
    answered talk s = true →
      exec (.accessRegister addr value) s = .next { s.exchanged talk with
        results := s.results ++
          [if c.extractLsb' 0 3 = 2 then .ok (.word (c.extractLsb' 3 32)) else .err (.accessFault (c.extractLsb' 0 3))]
        pc := s.pc + 1 }

/-- R182: discover_chain, where the environment answers identifiers, each not all-ones, and then the terminator: it returns
them in order, clears the selection and keeps `taps`. The hypothesis on their number is that one step may scan the words: the
slicing is the model's own, and `DiscoveryGoesOn` says what comes after (assumption log 10); the bound is R9's. -/
def Obligations.DiscoverChainCompletes : Prop :=
  ∀ (entry exit : List Byte) (first : List Byte) (blocks : List (List Byte)) (ids : List Word) (s : State),
    JtagReady s → entry.length = 3 → exit.length = 3 → (∀ b ∈ first :: blocks, b.length = 32) →
    (first :: blocks).map (fun b => BitVec.ofNat 32 (valBits (b.map s.tdoOf))) = ids ++ [0xFFFFFFFF] →
    (∀ w ∈ ids, w ≠ 0xFFFFFFFF) → ids.length < s.chainFuel 0 → Fits s 70 →
    let word : List ClockUnit := List.replicate 32 ⟨false, true, true⟩
    let talk : List Exchange :=
      (clocks (enterShiftDR ++ word), clockAnswer (entry ++ first))
        :: blocks.map (fun b => (clocks word, clockAnswer b)) ++ [(clocks leaveShift, clockAnswer exit)]
    answered talk s = true →
      exec .discoverChain s = .next { s.exchanged talk with
        sel := none, irPre := 0, irPos := 0, pre := 0, pos := 0
        results := s.results ++ [.ok (.ids ids)], pc := s.pc + 1 }

/-- R183: discover_ir_lengths, where the captured bits make R183's loop end with these lengths: it returns them, writes
`taps` and clears the selection. The hypothesis on the number of bits is that one step may scan them, as for
`DiscoverChainCompletes` (assumption log 10). -/
def Obligations.DiscoverIrLengthsCompletes : Prop :=
  ∀ (entry exit : List Byte) (first : Byte) (samples : List Byte) (found : List Nat) (s : State),
    JtagReady s → entry.length = 4 → exit.length = 3 →
    irWalk (s.tdoOf first) 1 false [] (samples.map s.tdoOf) = some found →
    samples.length < s.irFuel 0 → Fits s 10 →
    let bit : List ClockUnit := [⟨false, true, true⟩]
    let talk : List Exchange :=
      (clocks (enterShiftIR ++ bit), clockAnswer (entry ++ [first]))
        :: samples.map (fun b => (clocks bit, clockAnswer [b])) ++ [(clocks leaveShift, clockAnswer exit)]
    answered talk s = true →
      exec .discoverIrLengths s = .next { s.exchanged talk with
        taps := found, sel := none, irPre := 0, irPos := 0, pre := 0, pos := 0
        results := s.results ++ [.ok (.lengths found)], pc := s.pc + 1 }

/-- R183's example, for every chain: IR captures of 1 then zeros, one for each TAP, and then ones, give the TAPs' IR lengths,
each at least 2, in order (R10, R61: "an IR length at least 2"). -/
def Obligations.IrCaptureGivesLengths : Prop :=
  ∀ (l : Nat) (lengths : List Nat), (∀ n ∈ l :: lengths, 2 ≤ n) →
    irWalk true 1 false []
      (List.replicate (l - 1) false ++ lengths.flatMap (fun n => true :: List.replicate (n - 1) false) ++ [true, true])
      = some (l :: lengths)

/-- R37, I-9: a discovery loop that has scanned what one step may scan, without its end, is still in progress: no result, the
position where it was, the tracker in its shift state; and the next step goes on with the next word or bit and from the same
loop variables, whatever the caller's sequence holds: to the result, or, again without the end, to a state in progress. The
clauses are, for discover_chain and then for discover_ir_lengths: the step that starts it, the step that ends it, a step
between. The slicing into steps is the model's own (assumption log 10). That a step goes on takes that R9's bound leaves it a word
or bit; `StepStops` says what comes where it leaves none. -/
def Obligations.DiscoveryGoesOn : Prop :=
  (∀ (entry first : List Byte) (blocks : List (List Byte)) (s : State),
    JtagReady s → entry.length = 3 → (∀ b ∈ first :: blocks, b.length = 32) → blocks.length + 1 = s.chainFuel 0 →
    Fits s 70 →
    let ids := (first :: blocks).map (wordOf s)
    let talk : List Exchange := (clocks (enterShiftDR ++ wordUnits), clockAnswer (entry ++ first)) :: wordTalk blocks
    (∀ w ∈ ids, w ≠ 0xFFFFFFFF) → answered talk s = true →
      exec .discoverChain s = .next { s.exchanged talk with tap := [.shDR], prog := some (.chain ids) })
  ∧ (∀ (blocks : List (List Byte)) (exit : List Byte) (old ids : List Word) (s : State),
    s.fault = none → s.prog = some (.chain old) → BuffersEmpty s → s.tap = [.shDR] →
    (∀ b ∈ blocks, b.length = 32) → exit.length = 3 → blocks.map (wordOf s) = ids ++ [0xFFFFFFFF] →
    (∀ w ∈ ids, w ≠ 0xFFFFFFFF) → ids.length < s.chainFuel old.length → Fits s 64 →
    let talk : List Exchange := wordTalk blocks ++ [(clocks leaveShift, clockAnswer exit)]
    answered talk s = true →
      step s = .next { s.exchanged talk with
        tap := [.rti], sel := none, irPre := 0, irPos := 0, pre := 0, pos := 0, prog := none
        results := s.results ++ [.ok (.ids (old ++ ids))], pc := s.pc + 1 })
  ∧ (∀ (blocks : List (List Byte)) (old : List Word) (s : State),
    s.fault = none → s.prog = some (.chain old) → BuffersEmpty s → s.tap = [.shDR] →
    blocks ≠ [] → (∀ b ∈ blocks, b.length = 32) → blocks.length = s.chainFuel old.length → Fits s 64 →
    (∀ w ∈ blocks.map (wordOf s), w ≠ 0xFFFFFFFF) → answered (wordTalk blocks) s = true →
      step s = .next { s.exchanged (wordTalk blocks) with prog := some (.chain (old ++ blocks.map (wordOf s))) })
  ∧ (∀ (entry : List Byte) (first : Byte) (samples : List Byte) (p : Progress) (s : State),
    JtagReady s → entry.length = 4 → samples.length + 1 = s.irFuel 0 → Fits s 10 →
    irWalkOn (s.tdoOf first) 1 false [] (samples.map s.tdoOf) = some p →
    let talk : List Exchange := (clocks (enterShiftIR ++ bitUnits), clockAnswer (entry ++ [first])) :: bitTalk samples
    answered talk s = true →
      exec .discoverIrLengths s = .next { s.exchanged talk with tap := [.shIR], prog := some p })
  ∧ (∀ (samples exit : List Byte) (prev : Bool) (count : Nat) (closed : Bool) (old found : List Nat) (s : State),
    s.fault = none → s.prog = some (.irLengths prev count closed old) → BuffersEmpty s → s.tap = [.shIR] →
    exit.length = 3 → irWalk prev count closed old (samples.map s.tdoOf) = some found →
    samples.length ≤ s.irFuel (old.sum + count) → Fits s 6 →
    let talk : List Exchange := bitTalk samples ++ [(clocks leaveShift, clockAnswer exit)]
    answered talk s = true →
      step s = .next { s.exchanged talk with
        tap := [.rti], taps := found, sel := none, irPre := 0, irPos := 0, pre := 0, pos := 0, prog := none
        results := s.results ++ [.ok (.lengths found)], pc := s.pc + 1 })
  ∧ (∀ (samples : List Byte) (prev : Bool) (count : Nat) (closed : Bool) (old : List Nat) (p : Progress) (s : State),
    s.fault = none → s.prog = some (.irLengths prev count closed old) → BuffersEmpty s → s.tap = [.shIR] →
    samples ≠ [] → irWalkOn prev count closed old (samples.map s.tdoOf) = some p →
    samples.length = s.irFuel (old.sum + count) → Fits s 2 →
    answered (bitTalk samples) s = true →
      step s = .next { s.exchanged (bitTalk samples) with prog := some p })

/-- R184: select_target of an index below the count computes the four counts; it needs no mode and sends nothing. -/
def Obligations.SelectTargetCompletes : Prop :=
  ∀ (before after : List Nat) (len : Nat) (s : State), Idle s → s.taps = before ++ len :: after →
    exec (.selectTarget before.length) s = .next { s with
      sel := some before.length, irPre := before.sum, irPos := after.sum, pre := before.length, pos := after.length
      results := s.results ++ [.ok .unit], pc := s.pc + 1 }

/-- A D2 frame by itself (R103, R104; what running it does is the model's reading, assumption log 2): every sample's TDO bit,
in order, and the tracker moved by its TMS sequence (R160). -/
def Obligations.ClockBatchCompletes : Prop :=
  ∀ (units : List WireUnit) (samples : List Byte) (s : State),
    Idle s → BuffersEmpty s → s.mode = .jtag → 1 ≤ units.length → Fits s (2 * units.length) →
    samples.length = units.length → answered [(frameD2 units, clockAnswer samples)] s = true →
      exec (.d2 units) s = .next { s.exchanged [(frameD2 units, clockAnswer samples)] with
        tap := deltaSeq s.tap (units.map WireUnit.tms)
        results := s.results ++ [.ok (.bits (samples.map s.tdoOf))], pc := s.pc + 1 }

/-- R216, R217, R218, the batch interface. push of an aligned register access, or of a well-formed raw sequence, that fits
queues it and sends nothing. flush of an empty queue writes nothing; flush of a queue sends it as one frame, and where the
answer has one slice for each subcommand that parses (R213), the results are appended, a non-OK ack being a result like
another, and the line state moves (R215). take returns all of `rq`, in order, and empties it. -/
def Obligations.BatchInterfaceCompletes : Prop :=
  ∀ s : State, Idle s → s.mode = .swd →
    (∀ g : Subcmd, subAligned g = true → subLengthOk g = true → Fits s (batchPayload (s.sq ++ [g])).length →
      exec (.push g) s = .next { s with
        sq := s.sq ++ [g], results := s.results ++ [.ok .unit], pc := s.pc + 1 })
    ∧ (s.sq = [] → exec .flush s = .next { s with results := s.results ++ [.ok .unit], pc := s.pc + 1 })
    ∧ (∀ (slices : List (List Byte)) (rs : List SResult),
      s.sq ≠ [] → slices.length = s.sq.length → List.zipWith parseSlice s.sq slices = rs.map some →
      slices.flatten.length ≤ 0xFFFF → answered [(frameE8 s.sq, batchAnswer slices)] s = true →
        exec .flush s = .next { s.exchanged [(frameE8 s.sq, batchAnswer slices)] with
          sq := [], rq := s.rq ++ rs, link := lineAfter s.link s.sq
          results := s.results ++ [.ok .unit], pc := s.pc + 1 })
    ∧ exec .take s = .next { s with rq := [], results := s.results ++ [.ok (.results s.rq)], pc := s.pc + 1 }

/-- R220, R221, R222: the line operations, their frames byte for byte, and the line state they leave. -/
def Obligations.LineOperationsComplete : Prop :=
  ∀ s : State, SwdReady s →
    (let x : Exchange := ([0xE8, 0x0A, 0x00, 0xA1, 0x38, 0x00, 0xFF, 0xFF, 0xFF, 0xFF, 0xFF, 0xFF, 0xFF],
        [0xE8, 0x01, 0x00, 0xA1]);
      Fits s 10 → answered [x] s = true →
        exec .swdReset s = .next { s.exchanged [x] with
          link := .lineReset, results := s.results ++ [.ok .unit], pc := s.pc + 1 })
    ∧ (let x : Exchange := ([0xE8, 0x19, 0x00, 0xA1, 0x38, 0x00, 0xFF, 0xFF, 0xFF, 0xFF, 0xFF, 0xFF, 0xFF,
          0xA1, 0x10, 0x00, 0x9E, 0xE7, 0xA1, 0x38, 0x00, 0xFF, 0xFF, 0xFF, 0xFF, 0xFF, 0xFF, 0xFF],
        [0xE8, 0x03, 0x00, 0xA1, 0xA1, 0xA1]);
      Fits s 25 → answered [x] s = true →
        exec .jtagToSwd s = .next { s.exchanged [x] with
          link := .lineReset, results := s.results ++ [.ok .unit], pc := s.pc + 1 })
    ∧ (let x : Exchange := ([0xE8, 0x04, 0x00, 0xA1, 0x08, 0x00, 0x00], [0xE8, 0x01, 0x00, 0xA1]);
      Fits s 4 → answered [x] s = true →
        exec .swdIdle s = .next { s.exchanged [x] with
          link := if s.link = .unknown then .unknown else .ready
          results := s.results ++ [.ok .unit], pc := s.pc + 1 })

/-- R223, R224, R211, R225: one register read or write; the ack 1 is OK, whatever the ack byte's other bits and the read's
parity byte; any other ack is the operation's AccessFault. -/
def Obligations.RegisterOperationsComplete : Prop :=
  ∀ (off : Byte) (isAp : Bool) (data : Word) (ab d0 d1 d2 d3 pb : Byte) (s : State),
    SwdReady s → off.getLsbD 0 = false → off.getLsbD 1 = false →
    (let x : Exchange := ([0xE8, 0x04, 0x00, 0xA2, 0x22, 0x00, header (if isAp then .ap off else .dp off) true],
        [0xE8, 0x07, 0x00, 0xA2, ab, d0, d1, d2, d3, pb]);
      Fits s 4 → answered [x] s = true →
        exec (.readRegister off isAp) s = .next { s.exchanged [x] with
          results := s.results ++
            [if ab &&& 7 = 1 then .ok (.word (d3 ++ d2 ++ d1 ++ d0)) else .err (.accessFault (ab.extractLsb' 0 3))]
          pc := s.pc + 1 })
    ∧ (let x : Exchange := ([0xE8, 0x09, 0x00] ++ encodeSub (.registerWrite (if isAp then .ap off else .dp off) data),
        [0xE8, 0x02, 0x00, 0xA0, ab]);
      Fits s 9 → answered [x] s = true →
        exec (.writeRegister off isAp data) s = .next { s.exchanged [x] with
          results := s.results ++
            [if ab &&& 7 = 1 then .ok .unit else .err (.accessFault (ab.extractLsb' 0 3))]
          pc := s.pc + 1 })

/-- An E8 frame by itself, and each subcommand frame, which goes out only inside one (R100, R106 to R110; what running one does
is the model's reading, assumption log 2): one batch of its own (R219), with its results in order. -/
def Obligations.BatchFramesComplete : Prop :=
  (∀ (subs : List Subcmd) (slices : List (List Byte)) (rs : List SResult) (s : State),
    SwdReady s → subs ≠ [] → (∀ g ∈ subs, subAligned g = true ∧ subLengthOk g = true) →
    Fits s (batchPayload subs).length → slices.length = subs.length →
    List.zipWith parseSlice subs slices = rs.map some → slices.flatten.length ≤ 0xFFFF →
    answered [(frameE8 subs, batchAnswer slices)] s = true →
      exec (.e8 subs) s = .next { s.exchanged [(frameE8 subs, batchAnswer slices)] with
        link := lineAfter s.link subs, results := s.results ++ [.ok (.results rs)], pc := s.pc + 1 })
  ∧ (∀ (g : Subcmd) (slice : List Byte) (r : SResult) (s : State),
    SwdReady s → subAligned g = true → subLengthOk g = true → Fits s (encodeSub g).length →
    parseSlice g slice = some r → answered [(frameE8 [g], batchAnswer [slice])] s = true →
      exec (match g with
          | .rawSequence nbits bytes => .a1 nbits bytes
          | .registerRead addr => .a2 addr
          | .registerWrite addr data => .a0 addr data) s
        = .next { s.exchanged [(frameE8 [g], batchAnswer [slice])] with
          link := lineNext s.link g, results := s.results ++ [.ok (.results [r])], pc := s.pc + 1 })

/-! ### What instructions leave unchanged -/

/-- The frame of the JTAG instructions, whatever they answer: the speed bytes, `rq`, the caller's sequence and the parameters;
`taps`, but for discover_ir_lengths; the selection, but for the two discovery operations (R28, R29); and, unless the result is
a TransportError (R311), the mode, `sq` and the line state. What may change besides: the tracker, `cq`, `bb`, the history, the
environment, the result and the position, a model fault, a discovery in progress. -/
def Obligations.JtagFrame : Prop :=
  ∀ (i : Instr) (s t : State), classOf i = .clock ∨ classOf i = .scan → exec i s = .next t →
    t.jspeed = s.jspeed ∧ t.sspeed = s.sspeed ∧ t.rq = s.rq ∧ t.calls = s.calls ∧ t.par = s.par
    ∧ (i ≠ .discoverIrLengths → t.taps = s.taps)
    ∧ (i ≠ .discoverIrLengths → i ≠ .discoverChain →
        t.sel = s.sel ∧ t.irPre = s.irPre ∧ t.irPos = s.irPos ∧ t.pre = s.pre ∧ t.pos = s.pos)
    ∧ ((∃ l : LinkFail, t.results = s.results ++ [.err (.transport l)])
        ∨ (t.mode = s.mode ∧ t.sq = s.sq ∧ t.link = s.link))

/-- The frame of the SWD instructions: the speed bytes, `bb`, the descriptor and the selection, the caller's sequence, the
parameters, and no discovery comes to be in progress; and, unless the result is a TransportError (R311), the mode, the tracker
and `cq`. -/
def Obligations.SwdFrame : Prop :=
  ∀ (i : Instr) (s t : State), classOf i = .queue ∨ classOf i = .standalone → exec i s = .next t →
    t.jspeed = s.jspeed ∧ t.sspeed = s.sspeed ∧ t.bb = s.bb ∧ t.taps = s.taps
    ∧ t.sel = s.sel ∧ t.irPre = s.irPre ∧ t.irPos = s.irPos ∧ t.pre = s.pre ∧ t.pos = s.pos
    ∧ t.calls = s.calls ∧ t.par = s.par ∧ t.prog = s.prog
    ∧ ((∃ l : LinkFail, t.results = s.results ++ [.err (.transport l)])
        ∨ (t.mode = s.mode ∧ t.tap = s.tap ∧ t.cq = s.cq))

/-! ### Errors and faults -/

/-- R311: whatever instruction a TransportError ends, or discovery in progress, and whichever of its transfers failed, the
session is over, every field that rule names is as it says, the failure is the last event, and nothing after it was
written. -/
def Obligations.TransportErrorEffect : Prop :=
  ∀ (s t : State) (l : LinkFail), (∃ i : Instr, exec i s = .next t) ∨ step s = .next t →
    t.results = s.results ++ [.err (.transport l)] →
    t.mode = .uninit ∧ t.cq = [] ∧ t.sq = [] ∧ t.tap = TapState.all ∧ t.link = .unknown
    ∧ t.hist.getLast? = some (.fail l) ∧ t.fault = none ∧ t.prog = none
    ∧ t.rq = s.rq ∧ t.taps = s.taps ∧ t.sel = s.sel ∧ t.irPre = s.irPre ∧ t.irPos = s.irPos ∧ t.pre = s.pre
    ∧ t.pos = s.pos ∧ t.jspeed = s.jspeed ∧ t.sspeed = s.sspeed ∧ (BuffersEmpty s → t.bb = s.bb)

/-- R301, R311: where a transfer fails, in its write or in its read, the operation ends with that failure as its result, at that
transfer, and with that error's effect. The four clauses are: every frame of the JTAG instructions, the later frames of
access_register and of the two discovery operations among them, and a discovery in progress (`NextClocks`, Safety.lean); the
one frame of every SWD instruction that is a batch of its own; the inits; and flush. (Running a frame by itself, D0 to A2, is
the model's reading, assumption log 2; how much of a discovery one step scans is its choice, assumption log 10.) -/
def Obligations.FailedTransferEnds : Prop :=
  (∀ (s t : State) (run : Run) (talk : List Exchange) (T : List TapState) (us : List ClockUnit) (l : LinkFail),
    NextClocks s run talk T us → Exchanged s talk → Fits s (2 * us.length) →
    xfer (clocks us) (3 + us.length) (s.exchanged talk) = (.error l, t) →
      run.outcome s = .next { t.lose with
        results := s.results ++ [.err (.transport l)], pc := s.pc + 1, prog := none })
  ∧ (∀ (i : Instr) (s t : State) (l : LinkFail),
    SwdReady s → batchOf i ≠ [] → Pushable (batchOf i) → Fits s (batchPayload (batchOf i)).length →
    xfer (frameE8 (batchOf i)) (3 + ((batchOf i).map answerLength).sum) s = (.error l, t) →
      exec i s = .next { t.lose with results := s.results ++ [.err (.transport l)], pc := s.pc + 1 })
  ∧ (∀ (speed : Byte) (s t : State) (l : LinkFail), Idle s →
    let lost : State := { t.lose with results := s.results ++ [.err (.transport l)], pc := s.pc + 1 }
    (exchange (frameD0 speed) linkReadAny s = (.error l, t) →
      exec (.jtagInit speed) s = .next lost ∧ exec (.d0 speed) s = .next lost)
    ∧ (exchange (frameE5 speed) linkReadAny s = (.error l, t) →
      exec (.swdInit speed) s = .next lost ∧ exec (.e5 speed) s = .next lost))
  ∧ (∀ (s t : State) (l : LinkFail), Idle s → s.mode = .swd → s.sq ≠ [] →
    xfer (frameE8 s.sq) (3 + (s.sq.map answerLength).sum) s = (.error l, t) →
      exec .flush s = .next { t.lose with results := s.results ++ [.err (.transport l)], pc := s.pc + 1 })

/-- R312: a typed error other than a TransportError keeps the mode, and no typed error changes `taps` or the selection: of every
instruction, and of a discovery in progress. -/
def Obligations.TypedErrorsKeepTheSession : Prop :=
  ∀ (s t : State) (e : TypedError), (∃ i : Instr, exec i s = .next t) ∨ step s = .next t →
    t.results = s.results ++ [.err e] →
    ((∀ l : LinkFail, e ≠ .transport l) → t.mode = s.mode)
    ∧ t.taps = s.taps ∧ t.sel = s.sel ∧ t.irPre = s.irPre ∧ t.irPos = s.irPos ∧ t.pre = s.pre ∧ t.pos = s.pos

/-- R303: select_target of an index at or above the count is IndexOutOfRange, and changes no state but the result. -/
def Obligations.IndexOutOfRange : Prop :=
  ∀ (index : Nat) (s : State), Idle s → s.taps.length ≤ index →
    exec (.selectTarget index) s = .next { s with
      results := s.results ++ [.err (.indexOutOfRange index s.taps.length)], pc := s.pc + 1 }

/-- R304, R313, R357: a frame that would not fit is a BufferOverflow, and it is not written. The four clauses are: a JTAG flush, of
every frame of the JTAG instructions from any tracker they take (`NextClocks`, Safety.lean), where the queue is emptied and
the tracker reset; access_register whose IR frame fits and whose DR frame does not, where nothing at all is written; an SWD instruction that is a batch of its own, at the first of its pushes that does not fit, where the
subcommands before it stay queued (assumption log 14); and push, where the subcommand is not queued. That a D2, E8, A0, A1 or
A2 frame is run by itself at all is the model's reading, assumption log 2; how much of a discovery one step scans is its
choice, assumption log 10; that the limit is none where MAX_FRAME_BYTES is open is its choice, assumption log 13; and that
the tracker is reset where access_register sends nothing for the size of its DR frame is its choice, assumption log 24. -/
def Obligations.BufferOverflow : Prop :=
  (∀ (s : State) (run : Run) (talk : List Exchange) (T : List TapState) (us : List ClockUnit),
    NextClocks s run talk T us → Exchanged s talk → ¬ Fits s (2 * us.length) →
      run.outcome s = .next { s.exchanged talk with
        tap := TapState.all
        results := s.results ++ [.err (.bufferOverflow (3 + 2 * us.length) s.par.maxFrameBytes)]
        pc := s.pc + 1, prog := none })
  ∧ (∀ (addr : RegAddr) (value : Option Word) (s : State),
    StartsJtag (.accessRegister addr value) s → Fits s (2 * (4 + s.irPre + 4 + s.irPos + 2)) → ¬ DrFits s →
      exec (.accessRegister addr value) s = .next { s with
        tap := TapState.all
        results := s.results
          ++ [.err (.bufferOverflow (3 + 2 * (3 + s.pre + 35 + s.pos + 2)) s.par.maxFrameBytes)]
        pc := s.pc + 1 })
  ∧ (∀ (i : Instr) (before after : List Subcmd) (g : Subcmd) (s : State),
    SwdReady s → batchOf i = before ++ g :: after → Pushable (before ++ [g]) →
    Fits s (batchPayload before).length → ¬ Fits s (batchPayload (before ++ [g])).length →
      exec i s = .next { s with
        sq := before
        results := s.results ++ [.err (.bufferOverflow (3 + (batchPayload (before ++ [g])).length) s.par.maxFrameBytes)]
        pc := s.pc + 1 })
  ∧ (∀ (g : Subcmd) (s : State), Idle s → s.mode = .swd → subAligned g = true → subLengthOk g = true →
    ¬ Fits s (batchPayload (s.sq ++ [g])).length →
    exec (.push g) s = .next { s with
      results := s.results ++ [.err (.bufferOverflow (3 + (batchPayload (s.sq ++ [g])).length) s.par.maxFrameBytes)]
      pc := s.pc + 1 })

/-- R305: an instruction outside its bridge mode sets the model fault ModeViolation before anything else (R313, priority 1),
and nothing but the fault changes. -/
def Obligations.ModeViolation : Prop :=
  ∀ (i : Instr) (s : State), Idle s →
    ((classOf i = .clock ∨ classOf i = .scan) ∧ s.mode ≠ .jtag
      ∨ (classOf i = .queue ∨ classOf i = .standalone) ∧ s.mode ≠ .swd) →
    exec i s = .next { s with fault := some .modeViolation }

/-- R307 and R310, with their places in R313's order: in the right mode, a scan from a tracker other than {RTI} is a
TapStateViolation and a standalone SWD operation with a batch pending is a QueueNotEmpty, whatever the operands are. R310 lists
the five operations; that an E8, A0, A1 or A2 frame run by itself needs empty queues too is the model's reading, assumption
log 2. -/
def Obligations.StateChecksFault : Prop :=
  ∀ (i : Instr) (s : State), Idle s →
    (classOf i = .scan → s.mode = .jtag → s.tap ≠ [.rti] → exec i s = .next { s with fault := some .tapStateViolation })
    ∧ (classOf i = .standalone → s.mode = .swd → (s.sq ≠ [] ∨ s.rq ≠ []) →
      exec i s = .next { s with fault := some .queueNotEmpty })

/-- R308 and R309: a shift length outside 1 to 64, a raw sequence of no bits, of a wrong byte count or with a 1 in an unused
bit, and an offset with bit 0 or bit 1 set, are model faults, and nothing is sent. -/
def Obligations.ArgumentChecksFault : Prop :=
  (∀ (value : BitVec 64) (length : Nat) (s : State), JtagReady s → (length = 0 ∨ 64 < length) →
    exec (.writeIr value length) s = .next { s with fault := some .invalidLength }
    ∧ exec (.writeDr value length) s = .next { s with fault := some .invalidLength })
  ∧ (∀ (nbits : BitVec 16) (bytes : List Byte) (s : State), Idle s → s.mode = .swd →
    (nbits = 0 ∨ bytes.length ≠ (nbits.toNat + 7) / 8
      ∨ ∃ i, nbits.toNat ≤ i ∧ i < 8 * bytes.length ∧ (bytes.getD (i / 8) 0).getLsbD (i % 8) = true) →
    exec (.push (.rawSequence nbits bytes)) s = .next { s with fault := some .invalidLength })
  ∧ (∀ (addr : RegAddr) (value : Option Word) (s : State), JtagReady s →
    (addr.off.getLsbD 0 = true ∨ addr.off.getLsbD 1 = true) →
    exec (.accessRegister addr value) s = .next { s with fault := some .misalignedAddress })
  ∧ (∀ (addr : RegAddr) (data : Word) (s : State), Idle s → s.mode = .swd →
    (addr.off.getLsbD 0 = true ∨ addr.off.getLsbD 1 = true) →
    exec (.push (.registerRead addr)) s = .next { s with fault := some .misalignedAddress }
    ∧ exec (.push (.registerWrite addr data)) s = .next { s with fault := some .misalignedAddress })
  ∧ (∀ (off : Byte) (isAp : Bool) (data : Word) (s : State), SwdReady s →
    (off.getLsbD 0 = true ∨ off.getLsbD 1 = true) →
    exec (.readRegister off isAp) s = .next { s with fault := some .misalignedAddress }
    ∧ exec (.writeRegister off isAp data) s = .next { s with fault := some .misalignedAddress })

/-- R306, R120: an answer with a wrong first byte or a wrong length field, or a slice that does not parse, is the model fault
MalformedResponse; what changed before it stays (R316), and there is no result. The three clauses are: the answer to every
frame of the JTAG instructions (`NextClocks`, Safety.lean), the answer to every SWD instruction that is a batch of its own, and
flush. (Running a frame by itself, D2 or E8 to A2, is the model's reading, assumption log 2; how much of a discovery one step
scans is its choice, assumption log 10.) -/
def Obligations.MalformedResponse : Prop :=
  (∀ (s : State) (run : Run) (talk : List Exchange) (T : List TapState) (us : List ClockUnit) (a : List Byte),
    NextClocks s run talk T us → Exchanged s (talk ++ [(clocks us, a)]) → a.length = 3 + us.length →
    (a.getD 0 0 ≠ 0xD2 ∨ (a.getD 1 0).toNat + 256 * (a.getD 2 0).toNat ≠ us.length) →
      run.outcome s = .next { s.exchanged (talk ++ [(clocks us, a)]) with
        cq := us, tap := deltaSeq T (us.map ClockUnit.tms), fault := some .malformedResponse, prog := none })
  ∧ (∀ (i : Instr) (s : State) (a : List Byte),
    SwdReady s → batchOf i ≠ [] → Pushable (batchOf i) → Fits s (batchPayload (batchOf i)).length →
    a.length = 3 + ((batchOf i).map answerLength).sum →
    (a.getD 0 0 ≠ 0xE8 ∨ (a.getD 1 0).toNat + 256 * (a.getD 2 0).toNat ≠ ((batchOf i).map answerLength).sum
      ∨ parseSlices (batchOf i) (a.drop 3) = none) →
    answered [(frameE8 (batchOf i), a)] s = true →
      exec i s = .next { s.exchanged [(frameE8 (batchOf i), a)] with
        sq := batchOf i, fault := some .malformedResponse })
  ∧ (∀ (a : List Byte) (s : State), Idle s → s.mode = .swd → s.sq ≠ [] →
    a.length = 3 + (s.sq.map answerLength).sum →
    (a.getD 0 0 ≠ 0xE8 ∨ (a.getD 1 0).toNat + 256 * (a.getD 2 0).toNat ≠ (s.sq.map answerLength).sum
      ∨ parseSlices s.sq (a.drop 3) = none) →
    answered [(frameE8 s.sq, a)] s = true →
      exec .flush s = .next { s.exchanged [(frameE8 s.sq, a)] with fault := some .malformedResponse })

/-- R189: the JTAG ACK decoder. Of the eight acks only 2 is success; any other is returned unchanged in an AccessFault. There is no
retry: an access writes two frames at most. -/
def Obligations.JtagAckDecoder : Prop :=
  (∀ (c : BitVec 35) (s : State),
    accessResult c s = (if c.toNat % 8 = 2 then .ok (.word (c.extractLsb' 3 32))
      else .err (.accessFault (BitVec.ofNat 3 (c.toNat % 8))), s))
  ∧ (∀ (addr : RegAddr) (value : Option Word) (s t : State), exec (.accessRegister addr value) s = .next t →
    (framesOf t.hist).length ≤ (framesOf s.hist).length + 2)

/-- R211: the SWD ACK decoder. The ack is the low three bits; of the eight only 1 is success; the others are returned
unchanged, as AckErr in a batch, as an AccessFault from read_register and write_register. -/
def Obligations.SwdAckDecoder : Prop :=
  ∀ (addr : RegAddr) (data : Word) (ab d0 d1 d2 d3 pb : Byte) (s : State),
    let ack : Ack := BitVec.ofNat 3 (ab &&& 0x07).toNat
    parseSlice (.registerRead addr) [0xA2, ab, d0, d1, d2, d3, pb]
      = some (if ack = 1 then .readOk (d3 ++ d2 ++ d1 ++ d0) else .ackErr ack)
    ∧ parseSlice (.registerWrite addr data) [0xA0, ab] = some (if ack = 1 then .writeOk else .ackErr ack)
    ∧ readResult [.ackErr ack] s = (.err (.accessFault ack), s)
    ∧ writeResult [.ackErr ack] s = (.err (.accessFault ack), s)

/-! ### The step -/

/-- Where no model fault is set and no operation is in progress, a step decodes the bytes of the operation at the position and
runs it; `exec` is all of the step. For a wire command or a call as the encoder writes it, the step runs that instruction. R37
has the caller present operations one at a time, and says that "the engine fetches no instructions": that the operations are byte
strings in `calls` which the step decodes is the model's, assumption log 5; that the bytes of a call are its written form in ASCII,
assumption log 3; and that a frame is run by itself at all, assumption log 2. -/
def Obligations.StepRunsDecodedInstruction : Prop :=
  ∀ (s : State) (bytes : List Byte) (i : Instr), Idle s → s.calls[s.pc]? = some bytes →
    (decode bytes = .ok i → step s = exec i s)
    ∧ (i.wf = true → bytes = encode i → step s = exec i s)

/-- Where a step stops: at the end of the caller's sequence, at bytes that are no operation, and, in a discovery in progress,
where MAX_CHAIN_WORDS words or MAX_IR_SCAN_BITS bits have been scanned (an IR scan has scanned the sum of its closed lengths
and its count); with neither bound a step never stops so. The first two outcomes are the model's choice, assumption log 16: R70 says that the run ends when the sequence is exhausted, not that a step then gives the fault
outcome runEnded; R119 speaks of what the engine emits, and that undecodable bytes in the caller's sequence are a refusal under
the decoder's name is no rule of the spec. The third is its choice too, assumption log 10: R9 and D21 say that running out of
fuel is no result, not that a step then gives the fault outcome outOfFuel. -/
def Obligations.StepStops : Prop :=
  (∀ s : State, Idle s →
    (s.calls.length ≤ s.pc → step s = .fault .runEnded)
    ∧ (∀ (bytes : List Byte) (r : Reject), s.calls[s.pc]? = some bytes → decode bytes = .error r →
      step s = .refused (.undecodable r)))
  ∧ (∀ (s : State) (n : PNat), s.fault = none →
    (∀ ids : List Word, s.prog = some (.chain ids) → s.par.maxChainWords = some n →
      (step s = .fault .outOfFuel ↔ n ≤ ids.length))
    ∧ (∀ (prev : Bool) (count : Nat) (closed : Bool) (found : List Nat),
      s.prog = some (.irLengths prev count closed found) → s.par.maxIrScanBits = some n →
      (step s = .fault .outOfFuel ↔ n ≤ found.sum + count)))
  ∧ (∀ s : State, s.par.maxChainWords = none → s.par.maxIrScanBits = none → step s ≠ .fault .outOfFuel)

/-- R34: a model fault is sticky. A state with one has no further step, by `step` or by any instruction; reset has none. -/
def Obligations.FaultIsSticky : Prop :=
  (∀ (s : State) (f : ModelFault), s.fault = some f →
    step s = .fault (.sticky f) ∧ ∀ i : Instr, exec i s = .fault (.sticky f))
  ∧ State.reset.fault = none

/-- R37, R70: an instruction that returns, a value or a typed error, appends one result and advances the position by exactly
one; one that sets a model fault, or is still in progress, does neither; none changes the caller's sequence or the
parameters. -/
def Obligations.PositionAdvancesByOne : Prop :=
  ∀ (i : Instr) (s t : State), exec i s = .next t →
    t.calls = s.calls ∧ t.par = s.par
    ∧ ((t.fault = none ∧ t.prog = none ∧ t.pc = s.pc + 1 ∧ ∃ r : OpResult, t.results = s.results ++ [r])
      ∨ ((t.fault ≠ none ∨ t.prog ≠ none) ∧ t.pc = s.pc ∧ t.results = s.results))

/-- R35: the history. A write records its frame, and its failure; a read its answer, or its failure; a step only appends; and
reset has none. -/
def Obligations.HistoryOnlyGrows : Prop :=
  (∀ (f : List Byte) (s : State),
    (linkWrite f s).2.hist = s.hist ++ .out f :: (match (linkWrite f s).1 with
      | none => []
      | some e => [.fail e]))
  ∧ (∀ (n : Nat) (s : State),
    (linkRead n s).2.hist = s.hist ++ [match (linkRead n s).1 with
      | .ok a => .inn a
      | .error e => .fail e])
  ∧ (∀ s : State,
    (linkReadAny s).2.hist = s.hist ++ [match (linkReadAny s).1 with
      | .ok a => .inn a
      | .error e => .fail e])
  ∧ (∀ s t : State, step s = .next t → ∃ es : List Event, t.hist = s.hist ++ es)
  ∧ State.reset.hist = []

/-- R76, R227, R257: the engine inserts no frame and keeps none back. A step of a scan, a clock batch, an init or an SWD
instruction writes at most the frames its rule names: one, but two for access_register and none for select_target, push and
take. -/
def Obligations.NoFrameInserted : Prop :=
  ∀ (i : Instr) (s t : State), i ≠ .discoverChain → i ≠ .discoverIrLengths → exec i s = .next t →
    (framesOf t.hist).length ≤ (framesOf s.hist).length + (match i with
      | .accessRegister _ _ => 2
      | .selectTarget _ => 0
      | .push _ => 0
      | .take => 0
      | _ => 1)

/-! ### Invariants -/

/-- R22, R340, R341, R342: the record after reset, field by field, with nothing loaded; the discovery loops are unbounded (R9);
and it meets the invariant and both history invariants. (The model's own fields at reset are in assumption logs 6, 7, 9 and 10, and not here.) -/
def Obligations.ResetMeetsInvariants : Prop :=
  let s := State.reset
  (s.mode = .uninit ∧ s.jspeed = none ∧ s.sspeed = none ∧ (∀ q : TapState, q ∈ s.tap) ∧ s.tap.length = 16 ∧ s.cq = []
    ∧ s.bb = [] ∧ s.taps = [] ∧ s.sel = none ∧ s.irPre = 0 ∧ s.irPos = 0 ∧ s.pre = 0 ∧ s.pos = 0 ∧ s.sq = [] ∧ s.rq = []
    ∧ s.link = .unknown ∧ s.fault = none ∧ s.hist = [] ∧ s.pc = 0 ∧ s.calls = [] ∧ s.results = []
    ∧ s.par.maxChainWords = none ∧ s.par.maxIrScanBits = none)
  ∧ Inv s ∧ FramesLegal s ∧ HistoryPaired s

/-- Every step keeps the invariant: a legal tracker (R25), empty buffers between operations (R42), IR lengths of at least 1
(R28), a selection that matches the descriptor (R29, R30), a queue that fits in one frame in mode Swd (R31, R216), and a
discovery in progress in its shift state. -/
def Obligations.InvKept : Prop :=
  ∀ s t : State, Inv s → step s = .next t → Inv t

/-- R119: from every state that meets the invariant, a step writes only frames of the four outer kinds, well-formed to the last
byte. -/
def Obligations.FramesStayLegal : Prop :=
  ∀ s t : State, Inv s → FramesLegal s → step s = .next t → FramesLegal t

/-- R143: every frame written is followed by its answer or by a failure, and only then comes the next; after a failed write
nothing is read. -/
def Obligations.HistoryStaysPaired : Prop :=
  ∀ s t : State, HistoryPaired s → step s = .next t → HistoryPaired t

/-- R43, for the operations of the interface: between two of them the tracker is {RTI} or a set of more than one state; and so it
is where a discovery in progress ends in a later step. (A D2 frame by itself moves it as its TMS bits say; R43 is not about
that.) -/
def Obligations.TrackerStaysSettled : Prop :=
  (∀ (i : Instr) (s t : State), isOperation i = true → TrackerOk s → TrackerSettled s → exec i s = .next t →
    t.fault = none → t.prog = none → TrackerSettled t)
  ∧ (∀ s t : State, ProgressOk s → s.prog ≠ none → step s = .next t → t.fault = none → t.prog = none → TrackerSettled t)

/-! ### The reference target -/

/-- R62: a scan of any bits through a path of registers. The bits shifted in come to lie from the TDI end, the first of them
nearest TDO; the samples are the path's own bits from the TDO end, and then the bits shifted in themselves. -/
def Obligations.ChainPositions : Prop :=
  ∀ (path : List (List Bool)) (bits : List Bool), (∀ r ∈ path, r ≠ []) →
    let run := bits.foldl (fun (x : List (List Bool) × List Bool) tdi =>
      (shiftThrough tdi x.1, x.2 ++ [tdoBitOf tdi x.1])) (path, [])
    run.1.map List.length = path.map List.length
    ∧ run.1.flatten = (path.flatten ++ bits).drop bits.length
    ∧ run.2 = (path.flatten ++ bits).take bits.length

/-- R63, R67: on a chain whose other TAPs are in BYPASS, and whose selected TAP captures the value it last updated, a second
write_dr of the same length returns the first value masked to that length. -/
def Obligations.LoopbackReturnsValue : Prop :=
  ∀ (s : State) (g : Target) (nearTdo nearTdi : List Tap) (tap : Tap) (reg : DataReg) (v w : BitVec 64) (n : Nat),
    JtagReady s → s.env.tx = [] → s.env.rx = [] → s.env.target = some g → g.wf = true → g.q = .rti →
    g.chain = nearTdo ++ tap :: nearTdi → nearTdo.length = s.pre → nearTdi.length = s.pos →
    (∀ t ∈ nearTdo ++ nearTdi, selectedDr t = none) →
    selectedDr tap = some reg → reg.kind = .loopback → reg.cell.length = n → 1 ≤ n → n ≤ 64 →
    Fits s (2 * (3 + s.pre + n + s.pos + 2)) →
    ∃ t u : State, exec (.writeDr v n) s = .next t ∧ exec (.writeDr w n) t = .next u
      ∧ t.results = s.results ++ [.ok (.bits reg.cell)]
      ∧ u.results = s.results ++ [.ok (.bits reg.cell), .ok (.bits (bitsOf n v))]

/-- R65, R254: the SWD access pipeline on a Ready line, of every environment, whatever its draws are (R57, D43). An AP read that
is OK returns what the AP read before it latched, if there was one, and its own result is latched; an OK read of RDBUFF returns
the latch, and what it returned stays latched; an OK read of another DP register returns what it holds, and leaves the latch. So
in one batch too: what RDBUFF returns is what the next AP read returns, and what RDBUFF returns again. The last clause is that
with a reference target such a read is OK (its acks are the model's choice, assumption log 7). That a read of RDBUFF changes
nothing else on the port, and another DP read may change the DP registers but for the latch, is the model's choice, assumption
log 22; that an AP read changes nothing else, assumption log 23; and how R65 binds what is drawn, RDBUFF before any AP read too,
assumption log 25. -/
def Obligations.SwdPipeline : Prop :=
  ∀ s : State, SwdReady s → s.link = .ready →
    (∀ (off : Byte) (isAp : Bool) (t : State) (w : Word), exec (.readRegister off isAp) s = .next t →
      t.results = s.results ++ [.ok (.word w)] →
      let p := s.env.swd
      (isAp = true → (p.apLatched = true → ∀ v : Word, p.rdbuff = some v → w = v)
        ∧ t.env.swd = { p with rdbuff := apRead p (addrA off), apLatched := true })
      ∧ (isAp = false → addrA off = 3 → (∀ v : Word, p.rdbuff = some v → w = v)
        ∧ t.env.swd = { p with rdbuff := some w })
      ∧ (isAp = false → addrA off ≠ 3 → (∀ v : Word, dpRead p (addrA off) = some v → w = v)
        ∧ t.env.swd.rdbuff = p.rdbuff ∧ t.env.swd.apLatched = p.apLatched))
    ∧ (∀ (off off' : Byte) (t : State) (w₁ w₂ w₃ w₄ w₅ : Word),
      exec (.e8 [.registerRead (.ap off), .registerRead (.dp 0x0C), .registerRead (.ap off'), .registerRead (.dp 0x0C),
        .registerRead (.dp 0x0C)]) s = .next t →
      t.results = s.results ++ [.ok (.results [.readOk w₁, .readOk w₂, .readOk w₃, .readOk w₄, .readOk w₅])] →
      w₂ = w₃ ∧ w₄ = w₅)
    ∧ (∀ (off : Byte) (isAp : Bool) (g : Target), s.env.tx = [] → s.env.rx = [] → s.env.target = some g → g.wf = true →
      Fits s 4 → off.getLsbD 0 = false → off.getLsbD 1 = false →
      ∃ (t : State) (w : Word), exec (.readRegister off isAp) s = .next t ∧ t.results = s.results ++ [.ok (.word w)])
end

