-- ==== Sys2Proof/Laws/Codec.lean ====
section
/-! SUPPORT. The decoder on what the encoder writes: fields, subcommands, batches, literals and calls. -/

namespace Sys2Proof.Laws

/-! ### Fields -/

theorem ofLe16_le16 {n : Nat} (h : n < 65536) :
    ofLe16 (BitVec.ofNat 8 n) (BitVec.ofNat 8 (n / 256)) = n := by
  simp [ofLe16]
  omega

theorem ofLe32_le32 (v : Word) :
    ofLe32 (v.extractLsb' 0 8) (v.extractLsb' 8 8) (v.extractLsb' 16 8) (v.extractLsb' 24 8) = v := by
  apply BitVec.eq_of_getLsbD_eq
  intro i hi
  simp only [ofLe32, BitVec.getLsbD_append, BitVec.getLsbD_extractLsb']
  split
  · simp_all
  · split
    · rename_i h1 h2
      simp [h2]; congr 1; omega
    · split
      · rename_i h1 h2 h3
        simp [h3]; congr 1; omega
      · have : i - 8 - 8 - 8 < 8 := by omega
        simp [this]; congr 1; omega

/-- An offset with only A[3:2] is one of four. -/
theorem wireForm_off {addr : RegAddr} (h : addr.wireForm = true) :
    addr.off = 0x00 ∨ addr.off = 0x04 ∨ addr.off = 0x08 ∨ addr.off = 0x0C := by
  have key : ∀ b : Byte, (b &&& 0x0C == b) = true → b = 0x00 ∨ b = 0x04 ∨ b = 0x08 ∨ b = 0x0C := by decide +kernel
  exact key _ h

/-- The header of a register address decodes to it (R111, R112). -/
theorem header_decodes {addr : RegAddr} (h : addr.wireForm = true) (rnw : Bool) :
    headerOk (header addr rnw) = true ∧ headerRnw (header addr rnw) = rnw ∧ headerAddr (header addr rnw) = addr := by
  have := wireForm_off h
  cases addr <;> cases rnw <;> simp only [RegAddr.off] at this <;> rcases this with rfl | rfl | rfl | rfl <;> decide

/-! ### Subcommands and clock units -/

theorem rawWellFormed_length {nbits : BitVec 16} {bytes : List Byte} (h : rawWellFormed nbits bytes = true) :
    nbits ≠ 0 ∧ bytes.length = rawByteCount nbits := by
  simp [rawWellFormed] at h
  exact ⟨h.1.1, h.1.2⟩

/-- A subcommand's frame decodes to it, and what follows is left (R108 to R110, R118). -/
theorem decodeSub_encodeSub {g : Subcmd} (h : g.wireForm = true) (rest : List Byte) :
    decodeSub (encodeSub g ++ rest) = .ok (g, rest) := by
  cases g with
  | registerRead addr =>
    obtain ⟨h1, h2, h3⟩ := header_decodes h true
    simp [encodeSub, decodeSub, h1, h2, h3]
  | registerWrite addr data =>
    obtain ⟨h1, h2, h3⟩ := header_decodes h false
    simp [encodeSub, decodeSub, h1, h2, h3, le32, ofLe32_le32]
  | rawSequence nbits bytes =>
    obtain ⟨h1, h2⟩ := rawWellFormed_length h
    have hn : ofLe16 (BitVec.ofNat 8 nbits.toNat) (BitVec.ofNat 8 (nbits.toNat / 256)) = nbits.toNat :=
      ofLe16_le16 nbits.isLt
    have hw : rawWellFormed nbits bytes = true := h
    have he : BitVec.ofNat 16 (ofLe16 (BitVec.setWidth 8 nbits) (BitVec.ofNat 8 (nbits.toNat / 256))) = nbits := by
      have : BitVec.setWidth 8 nbits = BitVec.ofNat 8 nbits.toNat := by simp
      rw [this, hn]
      simp
    have h1' : ¬ nbits = 0#16 := h1
    simp [encodeSub, decodeSub, le16, he, h1', ← h2, hw]

theorem encodeSub_length {g : Subcmd} (h : g.wireForm = true) : (encodeSub g).length = g.wireLength := by
  cases g with
  | registerRead addr => rfl
  | registerWrite addr data => rfl
  | rawSequence nbits bytes =>
    simp [encodeSub, le16, Subcmd.wireLength, (rawWellFormed_length h).2]
    omega

theorem encodeSub_cons (g : Subcmd) : ∃ b bs, encodeSub g = b :: bs := by
  cases g <;> simp [encodeSub, le16]

/-- A batch's payload decodes to its subcommands (R106). -/
theorem decodeSubs_batchPayload {gs : List Subcmd} (h : gs.all Subcmd.wireForm = true) {n : Nat}
    (hn : gs.length ≤ n) : decodeSubs n (batchPayload gs) = .ok gs := by
  induction gs generalizing n with
  | nil => cases n <;> rfl
  | cons g gs ih =>
    simp only [List.all_cons, Bool.and_eq_true] at h
    cases n with
    | zero => simp at hn
    | succ n =>
      obtain ⟨b, bs, hb⟩ := encodeSub_cons g
      have hd := decodeSub_encodeSub h.1 (batchPayload gs)
      have hp : batchPayload (g :: gs) = b :: (bs ++ batchPayload gs) := by simp [batchPayload, hb]
      rw [hb] at hd
      rw [hp, decodeSubs]
      simp only [List.cons_append] at hd
      rw [hd]
      simp [ih h.2 (by simpa using hn)]

theorem batchPayload_length {gs : List Subcmd} (h : gs.all Subcmd.wireForm = true) :
    (batchPayload gs).length = (gs.map Subcmd.wireLength).sum := by
  induction gs with
  | nil => rfl
  | cons g gs ih =>
    simp only [List.all_cons, Bool.and_eq_true] at h
    have := ih h.2
    simp only [batchPayload] at this
    simp [batchPayload, encodeSub_length h.1, this]

theorem batchPayload_length_ge (gs : List Subcmd) : gs.length ≤ (batchPayload gs).length := by
  induction gs with
  | nil => simp
  | cons g gs ih =>
    obtain ⟨b, bs, hb⟩ := encodeSub_cons g
    have hp : batchPayload (g :: gs) = b :: (bs ++ batchPayload gs) := by simp [batchPayload, hb]
    rw [hp]
    simp only [List.length_cons, List.length_append]
    omega

/-- The clock units of a payload decode to it (R101, R103). -/
theorem decodeUnits_encUnits (us : List WireUnit) : decodeUnits (us.flatMap encUnit) = .ok us := by
  induction us with
  | nil => rfl
  | cons u us ih =>
    obtain ⟨tms, tdi⟩ := u
    cases tms <;> cases tdi <;> simp [decodeUnits, encUnit, encLo, byteOfBits, valBits, ih]

theorem encUnits_length (us : List WireUnit) : (us.flatMap encUnit).length = 2 * us.length := by
  induction us with
  | nil => rfl
  | cons u us ih => simp [encUnit, ih]; omega

/-! ### Frames -/

theorem decodeFrame_D2 (lo hi : Byte) (tail : List Byte) :
    decodeFrame (0xD2 :: lo :: hi :: tail) =
      if tail.length < ofLe16 lo hi then .error .truncated
      else if ofLe16 lo hi = 0 then .error .emptyBatch
      else
        match decodeUnits (tail.take (ofLe16 lo hi)) with
        | .error e => .error e
        | .ok us => .ok (.d2 us, tail.drop (ofLe16 lo hi)) := rfl

theorem decodeFrame_E8 (lo hi : Byte) (tail : List Byte) :
    decodeFrame (0xE8 :: lo :: hi :: tail) =
      if tail.length < ofLe16 lo hi then .error .truncated
      else if ofLe16 lo hi = 0 then .error .emptyBatch
      else
        match decodeSubs (ofLe16 lo hi) (tail.take (ofLe16 lo hi)) with
        | .error e => .error e
        | .ok gs => .ok (.e8 gs, tail.drop (ofLe16 lo hi)) := rfl

theorem decodeFrame_frameD0 (speed : Byte) (rest : List Byte) :
    decodeFrame (frameD0 speed ++ rest) = .ok (.d0 speed, rest) := by
  simp [frameD0, le16, Config.jtagInitLen, decodeFrame]

theorem decodeFrame_frameE5 (speed : Byte) (rest : List Byte) :
    decodeFrame (frameE5 speed ++ rest) = .ok (.e5 speed, rest) := by
  simp [frameE5, decodeFrame]

theorem decodeFrame_frameD2 {us : List WireUnit} (h0 : us ≠ []) (h : 2 * us.length < 65536) (rest : List Byte) :
    decodeFrame (frameD2 us ++ rest) = .ok (.d2 us, rest) := by
  show decodeFrame (0xD2 :: BitVec.ofNat 8 (2 * us.length) :: BitVec.ofNat 8 (2 * us.length / 256)
    :: (us.flatMap encUnit ++ rest)) = _
  have hn : ¬ 2 * us.length = 0 := by simpa using h0
  have ht : (us.flatMap encUnit ++ rest).take (2 * us.length) = us.flatMap encUnit := by
    rw [← encUnits_length us, List.take_left]
  have hd : (us.flatMap encUnit ++ rest).drop (2 * us.length) = rest := by
    rw [← encUnits_length us, List.drop_left]
  rw [decodeFrame_D2, ofLe16_le16 h, if_neg hn, ht, hd, decodeUnits_encUnits, if_neg]
  simp [encUnits_length us]

theorem decodeFrame_frameE8 {gs : List Subcmd} (h0 : gs ≠ []) (hw : gs.all Subcmd.wireForm = true)
    (h : (batchPayload gs).length < 65536) (rest : List Byte) :
    decodeFrame (frameE8 gs ++ rest) = .ok (.e8 gs, rest) := by
  show decodeFrame (0xE8 :: BitVec.ofNat 8 (batchPayload gs).length :: BitVec.ofNat 8 ((batchPayload gs).length / 256)
    :: (batchPayload gs ++ rest)) = _
  have hn : ¬ (batchPayload gs).length = 0 := by
    have := batchPayload_length_ge gs
    have : gs.length ≠ 0 := by simpa using h0
    omega
  rw [decodeFrame_E8, ofLe16_le16 h, if_neg hn, List.take_left, List.drop_left,
    decodeSubs_batchPayload hw (batchPayload_length_ge gs), if_neg]
  simp

/-! ### Texts (R121) -/

theorem lit_append (p rest : List Byte) : lit p (p ++ rest) = some rest := by
  simp [lit]

/-- The bytes a text begins with are no digits. -/
def StopsDigits (rest : List Byte) : Prop := ∀ b ∈ rest.head?, digitValue b = none

theorem digitValue_digit {n : Nat} (h : n < 16) : digitValue (digit n) = some n := by
  revert n
  decide

theorem takeDigits_stop {base : Nat} {rest : List Byte} (h : StopsDigits rest) (acc : Option Nat) :
    takeDigits base rest acc = (acc, rest) := by
  cases rest with
  | nil => rfl
  | cons b bs =>
    have : digitValue b = none := h b (by simp)
    simp [takeDigits, this]

theorem takeDigits_digit {base n : Nat} (h : n < base) (h16 : n < 16) (rest : List Byte) (acc : Option Nat) :
    takeDigits base (digit n :: rest) acc = takeDigits base rest (some (acc.getD 0 * base + n)) := by
  simp [takeDigits, digitValue_digit h16, h]

theorem takeDigits_hexDigits (k n : Nat) (rest : List Byte) (acc : Option Nat) :
    takeDigits 16 (hexDigits (k + 1) n ++ rest) acc
      = takeDigits 16 rest (some (acc.getD 0 * 16 ^ (k + 1) + n % 16 ^ (k + 1))) := by
  induction k generalizing n rest acc with
  | zero =>
    have : n % 16 < 16 := Nat.mod_lt _ (by omega)
    simp [hexDigits, takeDigits_digit this this]
  | succ k ih =>
    have h16 : n % 16 < 16 := Nat.mod_lt _ (by omega)
    rw [hexDigits, List.append_assoc, ih]
    rw [List.singleton_append, takeDigits_digit h16 h16]
    congr 2
    simp only [Option.getD_some]
    have : n % 16 ^ (k + 1 + 1) = 16 * (n / 16 % 16 ^ (k + 1)) + n % 16 := by
      rw [pow_succ 16 (k + 1), mul_comm (16 ^ (k + 1)) 16, Nat.mod_mul]
      omega
    rw [this]
    ring

/-- A hexadecimal literal reads back (R121). -/
theorem number_hexText {k w : Nat} (v : BitVec w) (hv : w ≤ 4 * (k + 1)) {rest : List Byte} (hr : StopsDigits rest) :
    number (hexText (k + 1) v ++ rest) = some (v.toNat, rest) := by
  have hlt : v.toNat % 16 ^ (k + 1) = v.toNat := by
    apply Nat.mod_eq_of_lt
    calc v.toNat < 2 ^ w := v.isLt
      _ ≤ 2 ^ (4 * (k + 1)) := Nat.pow_le_pow_right (by omega) hv
      _ = 16 ^ (k + 1) := by rw [pow_mul]; norm_num
  unfold number hexText
  rw [List.append_assoc, lit_append]
  simp only
  rw [takeDigits_hexDigits, takeDigits_stop hr]
  simp [hlt]

theorem fixedNumber_hexText {k w : Nat} (v : BitVec w) (hv : w ≤ 4 * (k + 1)) {rest : List Byte}
    (hr : StopsDigits rest) : fixedNumber w (hexText (k + 1) v ++ rest) = some (v, rest) := by
  simp [fixedNumber, number_hexText v hv hr, v.isLt]

theorem takeDigits_decDigits {k n : Nat} (h : n ≤ k) (rest : List Byte) :
    takeDigits 10 (decDigits k n ++ rest) none = takeDigits 10 rest (some n) := by
  induction k generalizing n rest with
  | zero =>
    have : n = 0 := by omega
    subst this
    simp [decDigits, takeDigits_digit]
  | succ k ih =>
    have h10 : n % 10 < 10 := Nat.mod_lt _ (by omega)
    by_cases hn : n < 10
    · simp [decDigits, hn, Nat.mod_eq_of_lt hn, takeDigits_digit hn (by omega)]
    · rw [decDigits, if_neg hn, List.append_assoc, ih (by omega), List.singleton_append,
        takeDigits_digit h10 (by omega)]
      congr 2
      simp only [Option.getD_some]
      omega

theorem digit_head_not_zero {k n : Nat} (h : n ≤ k) (h0 : n ≠ 0) :
    ∃ d bs, d < 10 ∧ d ≠ 0 ∧ decDigits k n = digit d :: bs := by
  induction k generalizing n with
  | zero => omega
  | succ k ih =>
    by_cases hn : n < 10
    · exact ⟨n, [], hn, h0, by simp [decDigits, hn, Nat.mod_eq_of_lt hn]⟩
    · obtain ⟨d, bs, h1, h2, h3⟩ := ih (n := n / 10) (by omega) (by omega)
      exact ⟨d, bs ++ [digit (n % 10)], h1, h2, by simp [decDigits, hn, h3]⟩

theorem digit_ne {d : Nat} (h : d < 10) (h0 : d ≠ 0) : digit d ≠ 0x30 := by
  have : ∀ d < 10, d ≠ 0 → digit d ≠ 0x30 := by decide
  exact this d h h0

theorem ascii_0x : ascii "0x" = [0x30, 0x78] := by decide

/-- A decimal literal reads back. -/
theorem number_decText (n : Nat) {rest : List Byte} (hr : StopsDigits rest) (hx : ∀ b ∈ rest.head?, b ≠ 0x78) :
    number (decText n ++ rest) = some (n, rest) := by
  have hl : lit (ascii "0x") (decText n ++ rest) = none := by
    by_cases h0 : n = 0
    · subst h0
      cases rest with
      | nil => decide
      | cons b bs =>
        have hb : b ≠ 0x78#8 := hx b (by simp)
        have hb' : ¬ 0x78#8 = b := fun e => hb e.symm
        simp [decText, decDigits, ascii_0x, lit, List.isPrefixOf, digit, hb']
    · obtain ⟨d, bs, h1, h2, h3⟩ := digit_head_not_zero (le_refl n) h0
      have hd : ¬ 0x30#8 = digit d := fun e => digit_ne h1 h2 e.symm
      rw [decText, h3, ascii_0x]
      simp [lit, List.isPrefixOf, hd]
  unfold number
  rw [hl]
  simp only
  rw [decText, takeDigits_decDigits (le_refl n), takeDigits_stop hr]

theorem fixedNumber_decText {w : Nat} (v : BitVec w) {rest : List Byte} (hr : StopsDigits rest)
    (hx : ∀ b ∈ rest.head?, b ≠ 0x78) : fixedNumber w (decText v.toNat ++ rest) = some (v, rest) := by
  simp [fixedNumber, number_decText v.toNat hr hx, v.isLt]

/-! ### Operands -/

/-- A text that ends a literal before it: its first byte is no digit and no `x`. -/
def Ends (p : List Byte) : Prop := p ≠ [] ∧ ∀ b ∈ p.head?, digitValue b = none ∧ b ≠ 0x78

theorem Ends.stops {p : List Byte} (h : Ends p) (rest : List Byte) : StopsDigits (p ++ rest) := by
  obtain ⟨hne, hb⟩ := h
  cases p with
  | nil => exact absurd rfl hne
  | cons b bs => intro x hx; exact (hb x (by simpa using hx)).1

theorem Ends.noX {p : List Byte} (h : Ends p) (rest : List Byte) : ∀ b ∈ (p ++ rest).head?, b ≠ 0x78 := by
  obtain ⟨hne, hb⟩ := h
  cases p with
  | nil => exact absurd rfl hne
  | cons b bs => intro x hx; exact (hb x (by simpa using hx)).2

theorem ends_paren : Ends (ascii ")") := by unfold Ends; decide

theorem ends_comma : Ends (ascii ", ") := by unfold Ends; decide

theorem ends_bracket : Ends (ascii "]") := by unfold Ends; decide

theorem ends_brace : Ends braceClose := by unfold Ends; decide

theorem regAddr_addrText (addr : RegAddr) (rest : List Byte) :
    regAddr (addrText addr ++ rest) = some (addr, rest) := by
  cases addr with
  | dp off =>
    simp only [addrText, List.append_assoc, regAddr, lit_append]
    rw [fixedNumber_hexText off (k := 1) (by omega) (ends_paren.stops rest)]
    simp [lit_append]
  | ap off =>
    have hn : ∀ rest, lit (ascii "DP(") (ascii "AP(" ++ rest) = none := fun _ => rfl
    simp only [addrText, List.append_assoc, regAddr, hn, lit_append]
    simp only [Option.bind_eq_bind, Option.bind_some]
    rw [fixedNumber_hexText off (k := 1) (by omega) (ends_paren.stops rest)]
    simp [lit_append]

theorem boolean_boolText (b : Bool) (rest : List Byte) : boolean (boolText b ++ rest) = some (b, rest) := by
  cases b
  · have hn : lit (ascii "true") (ascii "false" ++ rest) = none := rfl
    simp [boolText, boolean, hn, lit_append]
  · simp [boolText, boolean, lit_append]

theorem moreBytes_text (bs : List Byte) {n : Nat} (hn : bs.length < n) (rest : List Byte) :
    moreBytes n (bs.flatMap (fun x => ascii ", " ++ hexText 2 x) ++ (ascii "]" ++ rest)) = some (bs, rest) := by
  induction bs generalizing n with
  | nil =>
    cases n with
    | zero => simp at hn
    | succ n => simp [moreBytes, lit_append]
  | cons b bs ih =>
    cases n with
    | zero => simp at hn
    | succ n =>
      have hl : ∀ rest, lit (ascii "]") (ascii ", " ++ rest) = none := fun _ => rfl
      have hs : StopsDigits (bs.flatMap (fun x => ascii ", " ++ hexText 2 x) ++ (ascii "]" ++ rest)) := by
        cases bs with
        | nil => exact ends_bracket.stops rest
        | cons c cs =>
          simp only [List.flatMap_cons, List.append_assoc]
          exact ends_comma.stops _
      simp only [List.flatMap_cons, List.append_assoc, moreBytes, hl, lit_append, Option.bind_eq_bind,
        Option.bind_some]
      rw [fixedNumber_hexText b (k := 1) (by omega) hs]
      simp only [Option.bind_some]
      rw [ih (by simpa using hn)]
      rfl

theorem byteList_text (bs rest : List Byte) : byteList (byteListText bs ++ rest) = some (bs, rest) := by
  cases bs with
  | nil => simp [byteListText, byteList, lit_append]
  | cons b bs =>
    have hl : ∀ rest, lit (ascii "[]") (ascii "[" ++ (hexText 2 b ++ rest)) = none := fun _ => rfl
    have hs : StopsDigits (bs.flatMap (fun x => ascii ", " ++ hexText 2 x) ++ (ascii "]" ++ rest)) := by
      cases bs with
      | nil => exact ends_bracket.stops rest
      | cons c cs =>
        simp only [List.flatMap_cons, List.append_assoc]
        exact ends_comma.stops _
    have hlen : bs.length
        < (bs.flatMap (fun x => ascii ", " ++ hexText 2 x) ++ (ascii "]" ++ rest)).length + 1 := by
      have : ∀ cs : List Byte, cs.length ≤ (cs.flatMap (fun x => ascii ", " ++ hexText 2 x)).length := by
        intro cs
        induction cs with
        | nil => simp
        | cons c cs ih =>
          simp only [List.flatMap_cons, List.length_append, List.length_cons]
          have : (ascii ", ").length = 2 := by decide
          omega
      have := this bs
      simp only [List.length_append]
      omega
    simp only [byteListText, List.append_assoc, byteList, hl, lit_append, Option.bind_eq_bind, Option.bind_some]
    rw [fixedNumber_hexText b (k := 1) (by omega) hs]
    simp only [Option.bind_some]
    rw [moreBytes_text bs hlen]
    rfl

theorem subcmd_text (g : Subcmd) (rest : List Byte) : subcmd (subcmdText g ++ rest) = some (g, rest) := by
  have h1 : ∀ rest, lit (ascii "RegisterRead" ++ braceOpen) (ascii "RegisterWrite" ++ (braceOpen ++ rest)) = none :=
    fun _ => rfl
  have h2 : ∀ rest, lit (ascii "RegisterRead" ++ braceOpen) (ascii "RawSequence" ++ (braceOpen ++ rest)) = none :=
    fun _ => rfl
  have h3 : ∀ rest, lit (ascii "RegisterWrite" ++ braceOpen) (ascii "RawSequence" ++ (braceOpen ++ rest)) = none :=
    fun _ => rfl
  have h4 : ∀ p q rest, lit (p ++ q) (p ++ (q ++ rest)) = some rest := fun p q rest => by
    rw [← List.append_assoc, lit_append]
  cases g with
  | registerRead addr =>
    simp only [subcmdText, List.append_assoc, subcmd, h4, Option.bind_eq_bind]
    rw [regAddr_addrText]
    simp [lit_append]
  | registerWrite addr data =>
    simp only [subcmdText, List.append_assoc, subcmd, h1, h4, Option.bind_eq_bind]
    rw [regAddr_addrText]
    simp only [Option.bind_some, lit_append]
    rw [fixedNumber_hexText data (k := 7) (by omega) (ends_brace.stops rest)]
    simp [lit_append]
  | rawSequence nbits bytes =>
    simp only [subcmdText, List.append_assoc, subcmd, h2, h3, h4, Option.bind_eq_bind, Option.bind_some]
    rw [fixedNumber_decText nbits (ends_comma.stops _) (ends_comma.noX _)]
    simp only [Option.bind_some, lit_append]
    rw [byteList_text]
    simp [lit_append]

theorem scanOperands_text (v : BitVec 64) (n : Nat) {p : List Byte} (hp : Ends p) (rest : List Byte) :
    scanOperands (hexText 16 v ++ (ascii ", " ++ (decText n ++ (p ++ rest)))) = some (v, n, p ++ rest) := by
  unfold scanOperands
  rw [fixedNumber_hexText v (k := 15) (by omega) (ends_comma.stops _)]
  simp only [Option.bind_eq_bind, Option.bind_some, lit_append]
  rw [number_decText n (hp.stops rest) (hp.noX rest)]
  rfl

theorem optionalWord_none (rest : List Byte) : optionalWord (ascii "none" ++ rest) = some (none, rest) := by
  simp [optionalWord, lit_append]

theorem optionalWord_hexText (v : Word) {p : List Byte} (hp : Ends p) (rest : List Byte) :
    optionalWord (hexText 8 v ++ (p ++ rest)) = some (some v, p ++ rest) := by
  have hn : lit (ascii "none") (hexText 8 v ++ (p ++ rest)) = none := rfl
  simp only [optionalWord, hn, Option.bind_eq_bind]
  rw [fixedNumber_hexText v (k := 7) (by omega) (hp.stops rest)]
  rfl

/-! ### Calls -/

/-- Two names neither of which begins the other. -/
def clash (p q : List Byte) : Bool := !p.isPrefixOf q && !q.isPrefixOf p

theorem lit_of_clash {p q : List Byte} (h : clash p q = true) (rest : List Byte) : lit p (q ++ rest) = none := by
  unfold clash at h
  simp only [Bool.and_eq_true, Bool.not_eq_true'] at h
  have : p.isPrefixOf (q ++ rest) = false := by
    rw [Bool.eq_false_iff]
    intro hp
    rw [List.isPrefixOf_iff_prefix] at hp
    rcases List.prefix_or_prefix_of_prefix hp (List.prefix_append q rest) with h' | h'
    · rw [← List.isPrefixOf_iff_prefix, h.1] at h'
      cases h'
    · rw [← List.isPrefixOf_iff_prefix, h.2] at h'
      cases h'
  simp [lit, this]

theorem decodeCallIn_of {cs : List (List Byte × (List Byte → Option (Instr × List Byte)))} {k : Nat} {name : List Byte}
    {operands : List Byte → Option (Instr × List Byte)} (hk : cs[k]? = some (name, operands))
    (hs : ((cs.take k).map Prod.fst).all (fun p => clash p name) = true) {rest : List Byte} {i : Instr}
    (hf : operands rest = some (i, ascii ")")) : decodeCallIn cs (name ++ rest) = .ok i := by
  induction cs generalizing k with
  | nil => simp at hk
  | cons c cs ih =>
    obtain ⟨n, f⟩ := c
    cases k with
    | zero =>
      simp only [List.getElem?_cons_zero, Option.some.injEq, Prod.mk.injEq] at hk
      obtain ⟨rfl, rfl⟩ := hk
      simp [decodeCallIn, lit_append, hf]
    | succ k =>
      simp only [List.take_succ_cons, List.map_cons, List.all_cons, Bool.and_eq_true] at hs
      simp only [decodeCallIn, lit_of_clash hs.1]
      exact ih (by simpa using hk) hs.2

/-- A call decodes to the operation its name and operands give (R121). -/
theorem decode_call {k : Nat} {name : List Byte} {operands : List Byte → Option (Instr × List Byte)}
    (hk : calls[k]? = some (name, operands))
    (hs : ((calls.take k).map Prod.fst).all (fun p => clash p name) = true)
    (hb : name.head?.any (fun b => !b.getLsbD 7) = true) {rest : List Byte} {i : Instr}
    (hf : operands rest = some (i, ascii ")")) : decode (name ++ rest) = .ok i := by
  have h := decodeCallIn_of hk hs hf
  cases name with
  | nil => simp at hb
  | cons b bs =>
    have hb' : b.getLsbD 7 = false := by simpa using hb
    simp only [List.cons_append] at h ⊢
    simp only [decode, hb']
    exact h

end Sys2Proof.Laws
end

