-- ==== Sys2Proof/Laws/Pipeline.lean ====
section
/-! SUPPORT. What R65 makes of the bytes drawn for an answer: as many, the same where nothing is bound, and the values it binds. -/

namespace Sys2Proof.Laws

open Sys2Proof.Machine

/-- A slice that parses has its subcommand's length (R214). -/
theorem parseSlice_length {g : Subcmd} {h : List Byte} {r : SResult} (hp : parseSlice g h = some r) :
    h.length = answerLength g := by
  unfold parseSlice at hp
  split at hp <;> first | rfl | simp at hp

/-- A slice is bound in place. -/
theorem boundSlice_length (l : LineState) (sure : Bool) (p : DebugPort) (g : Subcmd) (h : List Byte) :
    (boundSlice l sure p g h).2.length = h.length := by
  unfold boundSlice
  split
  · split
    · next hp =>
      have := parseSlice_length hp
      simp [answerLength] at this
      simp [le32, this]
    · rfl
    · rfl
  · rfl

theorem boundSlices_length (gs : List Subcmd) (l : LineState) (sure : Bool) (p : DebugPort) (bytes : List Byte) :
    (boundSlices gs l sure p bytes).2.length = bytes.length := by
  induction gs generalizing l sure p bytes with
  | nil => rfl
  | cons g gs ih => simp [boundSlices, boundSlice_length, ih]; omega

/-- An answer is bound in place: as many bytes are read as were drawn. -/
@[simp] theorem boundAnswer_length (l : LineState) (gs : List Subcmd) (p : DebugPort) (drawn : List Byte) :
    (boundAnswer l gs p drawn).2.length = drawn.length := by
  simp [boundAnswer, boundSlices_length]; omega

@[simp] theorem boundAnswer_nil (l : LineState) (p : DebugPort) (drawn : List Byte) :
    boundAnswer l [] p drawn = (p, drawn) := by
  simp [boundAnswer, boundSlices]

@[simp] theorem answer_length (l : LineState) (drawn : List Byte) (e : Env) :
    (e.answer l drawn).1.length = drawn.length := boundAnswer_length ..

/-- Where no register read is asked for, or the line is not Ready and stays so, the bytes are as they were drawn (R66). -/
theorem boundSlices_free {gs : List Subcmd} {l : LineState}
    (h : (∀ addr : RegAddr, .registerRead addr ∉ gs)
      ∨ (l ≠ .ready ∧ ∀ (nbits : BitVec 16) (bytes : List Byte), .rawSequence nbits bytes ∉ gs))
    (sure : Bool) (p : DebugPort) (bytes : List Byte) : (boundSlices gs l sure p bytes).2 = bytes := by
  induction gs generalizing l sure p bytes with
  | nil => rfl
  | cons g gs ih =>
    have hs : ∀ x : List Byte, (boundSlice l sure p g x).2 = x := by
      intro x
      unfold boundSlice
      split
      · next hl =>
        simp only [Bool.and_eq_true, decide_eq_true_eq] at hl
        split
        · rcases h with h | h
          · exact absurd (List.mem_cons_self ..) (h _)
          · exact absurd hl.2 h.1
        · rfl
        · rfl
      · rfl
    have ht : (∀ addr : RegAddr, .registerRead addr ∉ gs)
        ∨ (lineNext l g ≠ .ready ∧ ∀ (nbits : BitVec 16) (bytes : List Byte), .rawSequence nbits bytes ∉ gs) := by
      rcases h with h | h
      · exact .inl fun addr hm => h addr (List.mem_cons_of_mem _ hm)
      · refine .inr ⟨?_, fun n b hm => h.2 n b (List.mem_cons_of_mem _ hm)⟩
        cases g with
        | registerRead _ => exact h.1
        | registerWrite _ _ => exact h.1
        | rawSequence n b => exact absurd (List.mem_cons_self ..) (h.2 n b)
    simp [boundSlices, hs, ih ht]

theorem boundAnswer_free {gs : List Subcmd} {l : LineState}
    (h : (∀ addr : RegAddr, .registerRead addr ∉ gs)
      ∨ (l ≠ .ready ∧ ∀ (nbits : BitVec 16) (bytes : List Byte), .rawSequence nbits bytes ∉ gs))
    (p : DebugPort) (drawn : List Byte) : (boundAnswer l gs p drawn).2 = drawn := by
  simp [boundAnswer, boundSlices_free h]

/-! ### The values R65 binds -/

theorem boundAnswer_header (l : LineState) (gs : List Subcmd) (p : DebugPort) (drawn : List Byte) (n : Nat) :
    batchAnswerOk n (boundAnswer l gs p drawn).2 = batchAnswerOk n drawn := by
  have hl := boundSlices_length gs l (batchAnswerOk (answerTotal gs) drawn) p (drawn.drop 3)
  match drawn with
  | [] => simpa [boundAnswer] using congrArg (batchAnswerOk n) (List.length_eq_zero_iff.1 hl)
  | [a] => simpa [boundAnswer] using congrArg (fun x => batchAnswerOk n (a :: x)) (List.length_eq_zero_iff.1 hl)
  | [a, b] => simpa [boundAnswer] using congrArg (fun x => batchAnswerOk n (a :: b :: x)) (List.length_eq_zero_iff.1 hl)
  | a :: b :: c :: rest => rfl

/-- An answer with its header, whose slices are bound from the first on. -/
theorem boundAnswer_slices {l : LineState} {gs : List Subcmd} {p : DebugPort} {drawn : List Byte}
    (h : batchAnswerOk (answerTotal gs) drawn = true) :
    (boundAnswer l gs p drawn).1 = (boundSlices gs l true p (drawn.drop 3)).1
      ∧ (boundAnswer l gs p drawn).2.drop 3 = (boundSlices gs l true p (drawn.drop 3)).2 := by
  refine ⟨by simp [boundAnswer, h], ?_⟩
  by_cases hl : 3 ≤ drawn.length
  · simp only [boundAnswer, h]
    rw [List.drop_append_of_le_length (by simp; omega)]
    simp
  · have h0 : drawn.drop 3 = [] := List.drop_eq_nil_of_le (by omega)
    have h1 := boundSlices_length gs l true p []
    simp only [boundAnswer, h, h0]
    rw [List.length_eq_zero_iff.1 h1]
    exact List.drop_eq_nil_of_le (by simp)

/-- A slice that parses as an OK read is `0xA2`, an ack byte, the word's bytes and a parity byte (R213). -/
theorem parseSlice_readOk {addr : RegAddr} {h : List Byte} {w : Word}
    (hp : parseSlice (.registerRead addr) h = some (.readOk w)) :
    ∃ ab d0 d1 d2 d3 pb : Byte, h = [0xA2, ab, d0, d1, d2, d3, pb] ∧ swdAckIsOk (swdAck ab) = true
      ∧ ofLe32 d0 d1 d2 d3 = w := by
  unfold parseSlice at hp
  split at hp
  · next hg =>
    split at hp
    · next ho =>
      split at hp
      · next ha =>
        cases hg
        simp only [Option.some.injEq, SResult.readOk.injEq] at hp
        exact ⟨_, _, _, _, _, _, by rw [ho], ha, hp⟩
      · simp at hp
    · simp at hp
  · next hg => cases hg
  · next hg => cases hg
  · simp at hp

/-- A register read at the front of a batch on a Ready line, whose bound slice parses as OK: its word is what R65 makes of some
drawn one, and the rest of the batch goes on from the port after it. -/
theorem boundSlices_read {addr : RegAddr} {gs : List Subcmd} {p : DebugPort} {bytes : List Byte} {w : Word} {rs : List SResult}
    (h : parseSlices (.registerRead addr :: gs) (boundSlices (.registerRead addr :: gs) .ready true p bytes).2
      = some (.readOk w :: rs)) :
    ∃ v : Word, (swdRead p addr v).2 = w
      ∧ (boundSlices (.registerRead addr :: gs) .ready true p bytes).1
        = (boundSlices gs .ready true (swdRead p addr v).1 (bytes.drop 7)).1
      ∧ parseSlices gs (boundSlices gs .ready true (swdRead p addr v).1 (bytes.drop 7)).2 = some rs := by
  have hx := boundSlice_length .ready true p (.registerRead addr) (bytes.take 7)
  have split : ∀ x y : List Byte, x.length = (bytes.take 7).length → y.length = (bytes.drop 7).length →
      parseSlices (.registerRead addr :: gs) (x ++ y) = some (.readOk w :: rs) →
      parseSlice (.registerRead addr) x = some (.readOk w) ∧ parseSlices gs y = some rs := by
    intro x y hl hy hp
    simp only [parseSlices, answerLength] at hp
    split at hp
    · next r rs' h1 h2 =>
      simp only [Option.some.injEq, List.cons.injEq] at hp
      obtain ⟨rfl, rfl⟩ := hp
      have h7 := parseSlice_length h1
      simp only [answerLength, List.length_take, List.length_append, List.length_drop] at h7 hl hy
      have hx7 : x.length = 7 := by omega
      rw [List.take_left' hx7] at h1
      rw [List.drop_left' hx7] at h2
      exact ⟨h1, h2⟩
    · simp at hp
  simp only [boundSlices, answerLength] at h ⊢
  obtain ⟨h1, h2⟩ := split _ _ hx (boundSlices_length ..) h
  cases hd : parseSlice (.registerRead addr) (bytes.take 7) with
  | none => simp [boundSlice, hd] at h1
  | some r =>
    cases r with
    | readOk v =>
      obtain ⟨ab, d0, d1, d2, d3, pb, hb, ha, hv⟩ := parseSlice_readOk hd
      refine ⟨v, ?_, ?_, ?_⟩
      · simp only [boundSlice, hd] at h1
        rw [hb] at h1
        simpa [le32, parseSlice, ha, ofLe32_le32] using h1
      · simp [boundSlice, hd, sliceOk, lineNext]
      · simpa [boundSlice, hd, sliceOk, lineNext] using h2
    | writeOk => simp [boundSlice, hd] at h1
    | rawOk => simp [boundSlice, hd] at h1
    | ackErr a => simp [boundSlice, hd] at h1

end Sys2Proof.Laws
end

