-- ==== Sys2Proof/Laws/State.lean ====
section
/-! SUPPORT. The fields of the state, and of its environment, after each named update, one lemma per field per update, so that no proof unfolds a
record update. -/

namespace Sys2Proof.Machine

/-! ### Link events appended (R35). -/

@[simp] theorem State.traffic_mode (s : State) (es : List Event) (e : Env) : (s.traffic es e).mode = s.mode := rfl
@[simp] theorem State.traffic_jspeed (s : State) (es : List Event) (e : Env) : (s.traffic es e).jspeed = s.jspeed := rfl
@[simp] theorem State.traffic_sspeed (s : State) (es : List Event) (e : Env) : (s.traffic es e).sspeed = s.sspeed := rfl
@[simp] theorem State.traffic_tap (s : State) (es : List Event) (e : Env) : (s.traffic es e).tap = s.tap := rfl
@[simp] theorem State.traffic_cq (s : State) (es : List Event) (e : Env) : (s.traffic es e).cq = s.cq := rfl
@[simp] theorem State.traffic_bb (s : State) (es : List Event) (e : Env) : (s.traffic es e).bb = s.bb := rfl
@[simp] theorem State.traffic_taps (s : State) (es : List Event) (e : Env) : (s.traffic es e).taps = s.taps := rfl
@[simp] theorem State.traffic_sel (s : State) (es : List Event) (e : Env) : (s.traffic es e).sel = s.sel := rfl
@[simp] theorem State.traffic_irPre (s : State) (es : List Event) (e : Env) : (s.traffic es e).irPre = s.irPre := rfl
@[simp] theorem State.traffic_irPos (s : State) (es : List Event) (e : Env) : (s.traffic es e).irPos = s.irPos := rfl
@[simp] theorem State.traffic_pre (s : State) (es : List Event) (e : Env) : (s.traffic es e).pre = s.pre := rfl
@[simp] theorem State.traffic_pos (s : State) (es : List Event) (e : Env) : (s.traffic es e).pos = s.pos := rfl
@[simp] theorem State.traffic_sq (s : State) (es : List Event) (e : Env) : (s.traffic es e).sq = s.sq := rfl
@[simp] theorem State.traffic_rq (s : State) (es : List Event) (e : Env) : (s.traffic es e).rq = s.rq := rfl
@[simp] theorem State.traffic_link (s : State) (es : List Event) (e : Env) : (s.traffic es e).link = s.link := rfl
@[simp] theorem State.traffic_fault (s : State) (es : List Event) (e : Env) : (s.traffic es e).fault = s.fault := rfl
@[simp] theorem State.traffic_hist (s : State) (es : List Event) (e : Env) : (s.traffic es e).hist = s.hist ++ es := rfl
@[simp] theorem State.traffic_pc (s : State) (es : List Event) (e : Env) : (s.traffic es e).pc = s.pc := rfl
@[simp] theorem State.traffic_calls (s : State) (es : List Event) (e : Env) : (s.traffic es e).calls = s.calls := rfl
@[simp] theorem State.traffic_results (s : State) (es : List Event) (e : Env) : (s.traffic es e).results = s.results := rfl
@[simp] theorem State.traffic_prog (s : State) (es : List Event) (e : Env) : (s.traffic es e).prog = s.prog := rfl
@[simp] theorem State.traffic_par (s : State) (es : List Event) (e : Env) : (s.traffic es e).par = s.par := rfl
@[simp] theorem State.traffic_env (s : State) (es : List Event) (e : Env) : (s.traffic es e).env = e := rfl

/-! ### An operation's result (R37). -/

@[simp] theorem State.returned_mode (s : State) (r : OpResult) : (s.returned r).mode = s.mode := rfl
@[simp] theorem State.returned_jspeed (s : State) (r : OpResult) : (s.returned r).jspeed = s.jspeed := rfl
@[simp] theorem State.returned_sspeed (s : State) (r : OpResult) : (s.returned r).sspeed = s.sspeed := rfl
@[simp] theorem State.returned_tap (s : State) (r : OpResult) : (s.returned r).tap = s.tap := rfl
@[simp] theorem State.returned_cq (s : State) (r : OpResult) : (s.returned r).cq = s.cq := rfl
@[simp] theorem State.returned_bb (s : State) (r : OpResult) : (s.returned r).bb = s.bb := rfl
@[simp] theorem State.returned_taps (s : State) (r : OpResult) : (s.returned r).taps = s.taps := rfl
@[simp] theorem State.returned_sel (s : State) (r : OpResult) : (s.returned r).sel = s.sel := rfl
@[simp] theorem State.returned_irPre (s : State) (r : OpResult) : (s.returned r).irPre = s.irPre := rfl
@[simp] theorem State.returned_irPos (s : State) (r : OpResult) : (s.returned r).irPos = s.irPos := rfl
@[simp] theorem State.returned_pre (s : State) (r : OpResult) : (s.returned r).pre = s.pre := rfl
@[simp] theorem State.returned_pos (s : State) (r : OpResult) : (s.returned r).pos = s.pos := rfl
@[simp] theorem State.returned_sq (s : State) (r : OpResult) : (s.returned r).sq = s.sq := rfl
@[simp] theorem State.returned_rq (s : State) (r : OpResult) : (s.returned r).rq = s.rq := rfl
@[simp] theorem State.returned_link (s : State) (r : OpResult) : (s.returned r).link = s.link := rfl
@[simp] theorem State.returned_fault (s : State) (r : OpResult) : (s.returned r).fault = s.fault := rfl
@[simp] theorem State.returned_hist (s : State) (r : OpResult) : (s.returned r).hist = s.hist := rfl
@[simp] theorem State.returned_pc (s : State) (r : OpResult) : (s.returned r).pc = s.pc + 1 := rfl
@[simp] theorem State.returned_calls (s : State) (r : OpResult) : (s.returned r).calls = s.calls := rfl
@[simp] theorem State.returned_results (s : State) (r : OpResult) : (s.returned r).results = s.results ++ [r] := rfl
@[simp] theorem State.returned_prog (s : State) (r : OpResult) : (s.returned r).prog = s.prog := rfl
@[simp] theorem State.returned_par (s : State) (r : OpResult) : (s.returned r).par = s.par := rfl
@[simp] theorem State.returned_env (s : State) (r : OpResult) : (s.returned r).env = s.env := rfl

/-! ### A model fault recorded (R316). -/

@[simp] theorem State.faulted_mode (s : State) (f : ModelFault) : (s.faulted f).mode = s.mode := rfl
@[simp] theorem State.faulted_jspeed (s : State) (f : ModelFault) : (s.faulted f).jspeed = s.jspeed := rfl
@[simp] theorem State.faulted_sspeed (s : State) (f : ModelFault) : (s.faulted f).sspeed = s.sspeed := rfl
@[simp] theorem State.faulted_tap (s : State) (f : ModelFault) : (s.faulted f).tap = s.tap := rfl
@[simp] theorem State.faulted_cq (s : State) (f : ModelFault) : (s.faulted f).cq = s.cq := rfl
@[simp] theorem State.faulted_bb (s : State) (f : ModelFault) : (s.faulted f).bb = s.bb := rfl
@[simp] theorem State.faulted_taps (s : State) (f : ModelFault) : (s.faulted f).taps = s.taps := rfl
@[simp] theorem State.faulted_sel (s : State) (f : ModelFault) : (s.faulted f).sel = s.sel := rfl
@[simp] theorem State.faulted_irPre (s : State) (f : ModelFault) : (s.faulted f).irPre = s.irPre := rfl
@[simp] theorem State.faulted_irPos (s : State) (f : ModelFault) : (s.faulted f).irPos = s.irPos := rfl
@[simp] theorem State.faulted_pre (s : State) (f : ModelFault) : (s.faulted f).pre = s.pre := rfl
@[simp] theorem State.faulted_pos (s : State) (f : ModelFault) : (s.faulted f).pos = s.pos := rfl
@[simp] theorem State.faulted_sq (s : State) (f : ModelFault) : (s.faulted f).sq = s.sq := rfl
@[simp] theorem State.faulted_rq (s : State) (f : ModelFault) : (s.faulted f).rq = s.rq := rfl
@[simp] theorem State.faulted_link (s : State) (f : ModelFault) : (s.faulted f).link = s.link := rfl
@[simp] theorem State.faulted_fault (s : State) (f : ModelFault) : (s.faulted f).fault = some f := rfl
@[simp] theorem State.faulted_hist (s : State) (f : ModelFault) : (s.faulted f).hist = s.hist := rfl
@[simp] theorem State.faulted_pc (s : State) (f : ModelFault) : (s.faulted f).pc = s.pc := rfl
@[simp] theorem State.faulted_calls (s : State) (f : ModelFault) : (s.faulted f).calls = s.calls := rfl
@[simp] theorem State.faulted_results (s : State) (f : ModelFault) : (s.faulted f).results = s.results := rfl
@[simp] theorem State.faulted_prog (s : State) (f : ModelFault) : (s.faulted f).prog = s.prog := rfl
@[simp] theorem State.faulted_par (s : State) (f : ModelFault) : (s.faulted f).par = s.par := rfl
@[simp] theorem State.faulted_env (s : State) (f : ModelFault) : (s.faulted f).env = s.env := rfl

/-! ### A discovery loop in progress (log 10). -/

@[simp] theorem State.progress_mode (s : State) (p : Option Progress) : (s.progress p).mode = s.mode := rfl
@[simp] theorem State.progress_jspeed (s : State) (p : Option Progress) : (s.progress p).jspeed = s.jspeed := rfl
@[simp] theorem State.progress_sspeed (s : State) (p : Option Progress) : (s.progress p).sspeed = s.sspeed := rfl
@[simp] theorem State.progress_tap (s : State) (p : Option Progress) : (s.progress p).tap = s.tap := rfl
@[simp] theorem State.progress_cq (s : State) (p : Option Progress) : (s.progress p).cq = s.cq := rfl
@[simp] theorem State.progress_bb (s : State) (p : Option Progress) : (s.progress p).bb = s.bb := rfl
@[simp] theorem State.progress_taps (s : State) (p : Option Progress) : (s.progress p).taps = s.taps := rfl
@[simp] theorem State.progress_sel (s : State) (p : Option Progress) : (s.progress p).sel = s.sel := rfl
@[simp] theorem State.progress_irPre (s : State) (p : Option Progress) : (s.progress p).irPre = s.irPre := rfl
@[simp] theorem State.progress_irPos (s : State) (p : Option Progress) : (s.progress p).irPos = s.irPos := rfl
@[simp] theorem State.progress_pre (s : State) (p : Option Progress) : (s.progress p).pre = s.pre := rfl
@[simp] theorem State.progress_pos (s : State) (p : Option Progress) : (s.progress p).pos = s.pos := rfl
@[simp] theorem State.progress_sq (s : State) (p : Option Progress) : (s.progress p).sq = s.sq := rfl
@[simp] theorem State.progress_rq (s : State) (p : Option Progress) : (s.progress p).rq = s.rq := rfl
@[simp] theorem State.progress_link (s : State) (p : Option Progress) : (s.progress p).link = s.link := rfl
@[simp] theorem State.progress_fault (s : State) (p : Option Progress) : (s.progress p).fault = s.fault := rfl
@[simp] theorem State.progress_hist (s : State) (p : Option Progress) : (s.progress p).hist = s.hist := rfl
@[simp] theorem State.progress_pc (s : State) (p : Option Progress) : (s.progress p).pc = s.pc := rfl
@[simp] theorem State.progress_calls (s : State) (p : Option Progress) : (s.progress p).calls = s.calls := rfl
@[simp] theorem State.progress_results (s : State) (p : Option Progress) : (s.progress p).results = s.results := rfl
@[simp] theorem State.progress_prog (s : State) (p : Option Progress) : (s.progress p).prog = p := rfl
@[simp] theorem State.progress_par (s : State) (p : Option Progress) : (s.progress p).par = s.par := rfl
@[simp] theorem State.progress_env (s : State) (p : Option Progress) : (s.progress p).env = s.env := rfl

/-! ### A BufferOverflow in a JTAG flush (R304). -/

@[simp] theorem State.overflowed_mode (s : State) : (s.overflowed).mode = s.mode := rfl
@[simp] theorem State.overflowed_jspeed (s : State) : (s.overflowed).jspeed = s.jspeed := rfl
@[simp] theorem State.overflowed_sspeed (s : State) : (s.overflowed).sspeed = s.sspeed := rfl
@[simp] theorem State.overflowed_tap (s : State) : (s.overflowed).tap = TapState.all := rfl
@[simp] theorem State.overflowed_cq (s : State) : (s.overflowed).cq = [] := rfl
@[simp] theorem State.overflowed_bb (s : State) : (s.overflowed).bb = s.bb := rfl
@[simp] theorem State.overflowed_taps (s : State) : (s.overflowed).taps = s.taps := rfl
@[simp] theorem State.overflowed_sel (s : State) : (s.overflowed).sel = s.sel := rfl
@[simp] theorem State.overflowed_irPre (s : State) : (s.overflowed).irPre = s.irPre := rfl
@[simp] theorem State.overflowed_irPos (s : State) : (s.overflowed).irPos = s.irPos := rfl
@[simp] theorem State.overflowed_pre (s : State) : (s.overflowed).pre = s.pre := rfl
@[simp] theorem State.overflowed_pos (s : State) : (s.overflowed).pos = s.pos := rfl
@[simp] theorem State.overflowed_sq (s : State) : (s.overflowed).sq = s.sq := rfl
@[simp] theorem State.overflowed_rq (s : State) : (s.overflowed).rq = s.rq := rfl
@[simp] theorem State.overflowed_link (s : State) : (s.overflowed).link = s.link := rfl
@[simp] theorem State.overflowed_fault (s : State) : (s.overflowed).fault = s.fault := rfl
@[simp] theorem State.overflowed_hist (s : State) : (s.overflowed).hist = s.hist := rfl
@[simp] theorem State.overflowed_pc (s : State) : (s.overflowed).pc = s.pc := rfl
@[simp] theorem State.overflowed_calls (s : State) : (s.overflowed).calls = s.calls := rfl
@[simp] theorem State.overflowed_results (s : State) : (s.overflowed).results = s.results := rfl
@[simp] theorem State.overflowed_prog (s : State) : (s.overflowed).prog = s.prog := rfl
@[simp] theorem State.overflowed_par (s : State) : (s.overflowed).par = s.par := rfl
@[simp] theorem State.overflowed_env (s : State) : (s.overflowed).env = s.env := rfl

/-! ### The captured bits appended (R165). -/

@[simp] theorem State.captured_mode (s : State) (bits : List Bool) : (s.captured bits).mode = s.mode := rfl
@[simp] theorem State.captured_jspeed (s : State) (bits : List Bool) : (s.captured bits).jspeed = s.jspeed := rfl
@[simp] theorem State.captured_sspeed (s : State) (bits : List Bool) : (s.captured bits).sspeed = s.sspeed := rfl
@[simp] theorem State.captured_tap (s : State) (bits : List Bool) : (s.captured bits).tap = s.tap := rfl
@[simp] theorem State.captured_cq (s : State) (bits : List Bool) : (s.captured bits).cq = [] := rfl
@[simp] theorem State.captured_bb (s : State) (bits : List Bool) : (s.captured bits).bb = s.bb ++ bits := rfl
@[simp] theorem State.captured_taps (s : State) (bits : List Bool) : (s.captured bits).taps = s.taps := rfl
@[simp] theorem State.captured_sel (s : State) (bits : List Bool) : (s.captured bits).sel = s.sel := rfl
@[simp] theorem State.captured_irPre (s : State) (bits : List Bool) : (s.captured bits).irPre = s.irPre := rfl
@[simp] theorem State.captured_irPos (s : State) (bits : List Bool) : (s.captured bits).irPos = s.irPos := rfl
@[simp] theorem State.captured_pre (s : State) (bits : List Bool) : (s.captured bits).pre = s.pre := rfl
@[simp] theorem State.captured_pos (s : State) (bits : List Bool) : (s.captured bits).pos = s.pos := rfl
@[simp] theorem State.captured_sq (s : State) (bits : List Bool) : (s.captured bits).sq = s.sq := rfl
@[simp] theorem State.captured_rq (s : State) (bits : List Bool) : (s.captured bits).rq = s.rq := rfl
@[simp] theorem State.captured_link (s : State) (bits : List Bool) : (s.captured bits).link = s.link := rfl
@[simp] theorem State.captured_fault (s : State) (bits : List Bool) : (s.captured bits).fault = s.fault := rfl
@[simp] theorem State.captured_hist (s : State) (bits : List Bool) : (s.captured bits).hist = s.hist := rfl
@[simp] theorem State.captured_pc (s : State) (bits : List Bool) : (s.captured bits).pc = s.pc := rfl
@[simp] theorem State.captured_calls (s : State) (bits : List Bool) : (s.captured bits).calls = s.calls := rfl
@[simp] theorem State.captured_results (s : State) (bits : List Bool) : (s.captured bits).results = s.results := rfl
@[simp] theorem State.captured_prog (s : State) (bits : List Bool) : (s.captured bits).prog = s.prog := rfl
@[simp] theorem State.captured_par (s : State) (bits : List Bool) : (s.captured bits).par = s.par := rfl
@[simp] theorem State.captured_env (s : State) (bits : List Bool) : (s.captured bits).env = s.env := rfl

/-! ### Captured bits handed out (R168). -/

@[simp] theorem State.drained_mode (s : State) (n : Nat) : (s.drained n).mode = s.mode := rfl
@[simp] theorem State.drained_jspeed (s : State) (n : Nat) : (s.drained n).jspeed = s.jspeed := rfl
@[simp] theorem State.drained_sspeed (s : State) (n : Nat) : (s.drained n).sspeed = s.sspeed := rfl
@[simp] theorem State.drained_tap (s : State) (n : Nat) : (s.drained n).tap = s.tap := rfl
@[simp] theorem State.drained_cq (s : State) (n : Nat) : (s.drained n).cq = s.cq := rfl
@[simp] theorem State.drained_bb (s : State) (n : Nat) : (s.drained n).bb = s.bb.drop n := rfl
@[simp] theorem State.drained_taps (s : State) (n : Nat) : (s.drained n).taps = s.taps := rfl
@[simp] theorem State.drained_sel (s : State) (n : Nat) : (s.drained n).sel = s.sel := rfl
@[simp] theorem State.drained_irPre (s : State) (n : Nat) : (s.drained n).irPre = s.irPre := rfl
@[simp] theorem State.drained_irPos (s : State) (n : Nat) : (s.drained n).irPos = s.irPos := rfl
@[simp] theorem State.drained_pre (s : State) (n : Nat) : (s.drained n).pre = s.pre := rfl
@[simp] theorem State.drained_pos (s : State) (n : Nat) : (s.drained n).pos = s.pos := rfl
@[simp] theorem State.drained_sq (s : State) (n : Nat) : (s.drained n).sq = s.sq := rfl
@[simp] theorem State.drained_rq (s : State) (n : Nat) : (s.drained n).rq = s.rq := rfl
@[simp] theorem State.drained_link (s : State) (n : Nat) : (s.drained n).link = s.link := rfl
@[simp] theorem State.drained_fault (s : State) (n : Nat) : (s.drained n).fault = s.fault := rfl
@[simp] theorem State.drained_hist (s : State) (n : Nat) : (s.drained n).hist = s.hist := rfl
@[simp] theorem State.drained_pc (s : State) (n : Nat) : (s.drained n).pc = s.pc := rfl
@[simp] theorem State.drained_calls (s : State) (n : Nat) : (s.drained n).calls = s.calls := rfl
@[simp] theorem State.drained_results (s : State) (n : Nat) : (s.drained n).results = s.results := rfl
@[simp] theorem State.drained_prog (s : State) (n : Nat) : (s.drained n).prog = s.prog := rfl
@[simp] theorem State.drained_par (s : State) (n : Nat) : (s.drained n).par = s.par := rfl
@[simp] theorem State.drained_env (s : State) (n : Nat) : (s.drained n).env = s.env := rfl

/-! ### A subcommand queued (R216). -/

@[simp] theorem State.queued_mode (s : State) (g : Subcmd) : (s.queued g).mode = s.mode := rfl
@[simp] theorem State.queued_jspeed (s : State) (g : Subcmd) : (s.queued g).jspeed = s.jspeed := rfl
@[simp] theorem State.queued_sspeed (s : State) (g : Subcmd) : (s.queued g).sspeed = s.sspeed := rfl
@[simp] theorem State.queued_tap (s : State) (g : Subcmd) : (s.queued g).tap = s.tap := rfl
@[simp] theorem State.queued_cq (s : State) (g : Subcmd) : (s.queued g).cq = s.cq := rfl
@[simp] theorem State.queued_bb (s : State) (g : Subcmd) : (s.queued g).bb = s.bb := rfl
@[simp] theorem State.queued_taps (s : State) (g : Subcmd) : (s.queued g).taps = s.taps := rfl
@[simp] theorem State.queued_sel (s : State) (g : Subcmd) : (s.queued g).sel = s.sel := rfl
@[simp] theorem State.queued_irPre (s : State) (g : Subcmd) : (s.queued g).irPre = s.irPre := rfl
@[simp] theorem State.queued_irPos (s : State) (g : Subcmd) : (s.queued g).irPos = s.irPos := rfl
@[simp] theorem State.queued_pre (s : State) (g : Subcmd) : (s.queued g).pre = s.pre := rfl
@[simp] theorem State.queued_pos (s : State) (g : Subcmd) : (s.queued g).pos = s.pos := rfl
@[simp] theorem State.queued_sq (s : State) (g : Subcmd) : (s.queued g).sq = s.sq ++ [g] := rfl
@[simp] theorem State.queued_rq (s : State) (g : Subcmd) : (s.queued g).rq = s.rq := rfl
@[simp] theorem State.queued_link (s : State) (g : Subcmd) : (s.queued g).link = s.link := rfl
@[simp] theorem State.queued_fault (s : State) (g : Subcmd) : (s.queued g).fault = s.fault := rfl
@[simp] theorem State.queued_hist (s : State) (g : Subcmd) : (s.queued g).hist = s.hist := rfl
@[simp] theorem State.queued_pc (s : State) (g : Subcmd) : (s.queued g).pc = s.pc := rfl
@[simp] theorem State.queued_calls (s : State) (g : Subcmd) : (s.queued g).calls = s.calls := rfl
@[simp] theorem State.queued_results (s : State) (g : Subcmd) : (s.queued g).results = s.results := rfl
@[simp] theorem State.queued_prog (s : State) (g : Subcmd) : (s.queued g).prog = s.prog := rfl
@[simp] theorem State.queued_par (s : State) (g : Subcmd) : (s.queued g).par = s.par := rfl
@[simp] theorem State.queued_env (s : State) (g : Subcmd) : (s.queued g).env = s.env := rfl

/-! ### A batch performed (R217). -/

@[simp] theorem State.flushed_mode (s : State) (rs : List SResult) : (s.flushed rs).mode = s.mode := rfl
@[simp] theorem State.flushed_jspeed (s : State) (rs : List SResult) : (s.flushed rs).jspeed = s.jspeed := rfl
@[simp] theorem State.flushed_sspeed (s : State) (rs : List SResult) : (s.flushed rs).sspeed = s.sspeed := rfl
@[simp] theorem State.flushed_tap (s : State) (rs : List SResult) : (s.flushed rs).tap = s.tap := rfl
@[simp] theorem State.flushed_cq (s : State) (rs : List SResult) : (s.flushed rs).cq = s.cq := rfl
@[simp] theorem State.flushed_bb (s : State) (rs : List SResult) : (s.flushed rs).bb = s.bb := rfl
@[simp] theorem State.flushed_taps (s : State) (rs : List SResult) : (s.flushed rs).taps = s.taps := rfl
@[simp] theorem State.flushed_sel (s : State) (rs : List SResult) : (s.flushed rs).sel = s.sel := rfl
@[simp] theorem State.flushed_irPre (s : State) (rs : List SResult) : (s.flushed rs).irPre = s.irPre := rfl
@[simp] theorem State.flushed_irPos (s : State) (rs : List SResult) : (s.flushed rs).irPos = s.irPos := rfl
@[simp] theorem State.flushed_pre (s : State) (rs : List SResult) : (s.flushed rs).pre = s.pre := rfl
@[simp] theorem State.flushed_pos (s : State) (rs : List SResult) : (s.flushed rs).pos = s.pos := rfl
@[simp] theorem State.flushed_sq (s : State) (rs : List SResult) : (s.flushed rs).sq = [] := rfl
@[simp] theorem State.flushed_rq (s : State) (rs : List SResult) : (s.flushed rs).rq = s.rq ++ rs := rfl
@[simp] theorem State.flushed_link (s : State) (rs : List SResult) : (s.flushed rs).link = lineAfter s.link s.sq := rfl
@[simp] theorem State.flushed_fault (s : State) (rs : List SResult) : (s.flushed rs).fault = s.fault := rfl
@[simp] theorem State.flushed_hist (s : State) (rs : List SResult) : (s.flushed rs).hist = s.hist := rfl
@[simp] theorem State.flushed_pc (s : State) (rs : List SResult) : (s.flushed rs).pc = s.pc := rfl
@[simp] theorem State.flushed_calls (s : State) (rs : List SResult) : (s.flushed rs).calls = s.calls := rfl
@[simp] theorem State.flushed_results (s : State) (rs : List SResult) : (s.flushed rs).results = s.results := rfl
@[simp] theorem State.flushed_prog (s : State) (rs : List SResult) : (s.flushed rs).prog = s.prog := rfl
@[simp] theorem State.flushed_par (s : State) (rs : List SResult) : (s.flushed rs).par = s.par := rfl
@[simp] theorem State.flushed_env (s : State) (rs : List SResult) : (s.flushed rs).env = s.env := rfl

/-! ### The result queue emptied (R218). -/

@[simp] theorem State.taken_mode (s : State) : (s.taken).mode = s.mode := rfl
@[simp] theorem State.taken_jspeed (s : State) : (s.taken).jspeed = s.jspeed := rfl
@[simp] theorem State.taken_sspeed (s : State) : (s.taken).sspeed = s.sspeed := rfl
@[simp] theorem State.taken_tap (s : State) : (s.taken).tap = s.tap := rfl
@[simp] theorem State.taken_cq (s : State) : (s.taken).cq = s.cq := rfl
@[simp] theorem State.taken_bb (s : State) : (s.taken).bb = s.bb := rfl
@[simp] theorem State.taken_taps (s : State) : (s.taken).taps = s.taps := rfl
@[simp] theorem State.taken_sel (s : State) : (s.taken).sel = s.sel := rfl
@[simp] theorem State.taken_irPre (s : State) : (s.taken).irPre = s.irPre := rfl
@[simp] theorem State.taken_irPos (s : State) : (s.taken).irPos = s.irPos := rfl
@[simp] theorem State.taken_pre (s : State) : (s.taken).pre = s.pre := rfl
@[simp] theorem State.taken_pos (s : State) : (s.taken).pos = s.pos := rfl
@[simp] theorem State.taken_sq (s : State) : (s.taken).sq = s.sq := rfl
@[simp] theorem State.taken_rq (s : State) : (s.taken).rq = [] := rfl
@[simp] theorem State.taken_link (s : State) : (s.taken).link = s.link := rfl
@[simp] theorem State.taken_fault (s : State) : (s.taken).fault = s.fault := rfl
@[simp] theorem State.taken_hist (s : State) : (s.taken).hist = s.hist := rfl
@[simp] theorem State.taken_pc (s : State) : (s.taken).pc = s.pc := rfl
@[simp] theorem State.taken_calls (s : State) : (s.taken).calls = s.calls := rfl
@[simp] theorem State.taken_results (s : State) : (s.taken).results = s.results := rfl
@[simp] theorem State.taken_prog (s : State) : (s.taken).prog = s.prog := rfl
@[simp] theorem State.taken_par (s : State) : (s.taken).par = s.par := rfl
@[simp] theorem State.taken_env (s : State) : (s.taken).env = s.env := rfl

/-! ### The descriptor written (R28). -/

@[simp] theorem State.described_mode (s : State) (ns : List Nat) : (s.described ns).mode = s.mode := rfl
@[simp] theorem State.described_jspeed (s : State) (ns : List Nat) : (s.described ns).jspeed = s.jspeed := rfl
@[simp] theorem State.described_sspeed (s : State) (ns : List Nat) : (s.described ns).sspeed = s.sspeed := rfl
@[simp] theorem State.described_tap (s : State) (ns : List Nat) : (s.described ns).tap = s.tap := rfl
@[simp] theorem State.described_cq (s : State) (ns : List Nat) : (s.described ns).cq = s.cq := rfl
@[simp] theorem State.described_bb (s : State) (ns : List Nat) : (s.described ns).bb = s.bb := rfl
@[simp] theorem State.described_taps (s : State) (ns : List Nat) : (s.described ns).taps = ns := rfl
@[simp] theorem State.described_sel (s : State) (ns : List Nat) : (s.described ns).sel = s.sel := rfl
@[simp] theorem State.described_irPre (s : State) (ns : List Nat) : (s.described ns).irPre = s.irPre := rfl
@[simp] theorem State.described_irPos (s : State) (ns : List Nat) : (s.described ns).irPos = s.irPos := rfl
@[simp] theorem State.described_pre (s : State) (ns : List Nat) : (s.described ns).pre = s.pre := rfl
@[simp] theorem State.described_pos (s : State) (ns : List Nat) : (s.described ns).pos = s.pos := rfl
@[simp] theorem State.described_sq (s : State) (ns : List Nat) : (s.described ns).sq = s.sq := rfl
@[simp] theorem State.described_rq (s : State) (ns : List Nat) : (s.described ns).rq = s.rq := rfl
@[simp] theorem State.described_link (s : State) (ns : List Nat) : (s.described ns).link = s.link := rfl
@[simp] theorem State.described_fault (s : State) (ns : List Nat) : (s.described ns).fault = s.fault := rfl
@[simp] theorem State.described_hist (s : State) (ns : List Nat) : (s.described ns).hist = s.hist := rfl
@[simp] theorem State.described_pc (s : State) (ns : List Nat) : (s.described ns).pc = s.pc := rfl
@[simp] theorem State.described_calls (s : State) (ns : List Nat) : (s.described ns).calls = s.calls := rfl
@[simp] theorem State.described_results (s : State) (ns : List Nat) : (s.described ns).results = s.results := rfl
@[simp] theorem State.described_prog (s : State) (ns : List Nat) : (s.described ns).prog = s.prog := rfl
@[simp] theorem State.described_par (s : State) (ns : List Nat) : (s.described ns).par = s.par := rfl
@[simp] theorem State.described_env (s : State) (ns : List Nat) : (s.described ns).env = s.env := rfl

/-! ### The effect of a TransportError (R311). -/

@[simp] theorem State.lose_mode (s : State) : (s.lose).mode = .uninit := rfl
@[simp] theorem State.lose_jspeed (s : State) : (s.lose).jspeed = s.jspeed := rfl
@[simp] theorem State.lose_sspeed (s : State) : (s.lose).sspeed = s.sspeed := rfl
@[simp] theorem State.lose_tap (s : State) : (s.lose).tap = TapState.all := rfl
@[simp] theorem State.lose_cq (s : State) : (s.lose).cq = [] := rfl
@[simp] theorem State.lose_bb (s : State) : (s.lose).bb = s.bb := rfl
@[simp] theorem State.lose_taps (s : State) : (s.lose).taps = s.taps := rfl
@[simp] theorem State.lose_sel (s : State) : (s.lose).sel = s.sel := rfl
@[simp] theorem State.lose_irPre (s : State) : (s.lose).irPre = s.irPre := rfl
@[simp] theorem State.lose_irPos (s : State) : (s.lose).irPos = s.irPos := rfl
@[simp] theorem State.lose_pre (s : State) : (s.lose).pre = s.pre := rfl
@[simp] theorem State.lose_pos (s : State) : (s.lose).pos = s.pos := rfl
@[simp] theorem State.lose_sq (s : State) : (s.lose).sq = [] := rfl
@[simp] theorem State.lose_rq (s : State) : (s.lose).rq = s.rq := rfl
@[simp] theorem State.lose_link (s : State) : (s.lose).link = .unknown := rfl
@[simp] theorem State.lose_fault (s : State) : (s.lose).fault = s.fault := rfl
@[simp] theorem State.lose_hist (s : State) : (s.lose).hist = s.hist := rfl
@[simp] theorem State.lose_pc (s : State) : (s.lose).pc = s.pc := rfl
@[simp] theorem State.lose_calls (s : State) : (s.lose).calls = s.calls := rfl
@[simp] theorem State.lose_results (s : State) : (s.lose).results = s.results := rfl
@[simp] theorem State.lose_prog (s : State) : (s.lose).prog = s.prog := rfl
@[simp] theorem State.lose_par (s : State) : (s.lose).par = s.par := rfl
@[simp] theorem State.lose_env (s : State) : (s.lose).env = s.env := rfl

/-! ### One clock unit emitted (R161). -/

@[simp] theorem State.emit_mode (s : State) (u : ClockUnit) : (s.emit u).mode = s.mode := rfl
@[simp] theorem State.emit_jspeed (s : State) (u : ClockUnit) : (s.emit u).jspeed = s.jspeed := rfl
@[simp] theorem State.emit_sspeed (s : State) (u : ClockUnit) : (s.emit u).sspeed = s.sspeed := rfl
@[simp] theorem State.emit_tap (s : State) (u : ClockUnit) : (s.emit u).tap = deltaSet s.tap u.tms := rfl
@[simp] theorem State.emit_cq (s : State) (u : ClockUnit) : (s.emit u).cq = s.cq ++ [u] := rfl
@[simp] theorem State.emit_bb (s : State) (u : ClockUnit) : (s.emit u).bb = s.bb := rfl
@[simp] theorem State.emit_taps (s : State) (u : ClockUnit) : (s.emit u).taps = s.taps := rfl
@[simp] theorem State.emit_sel (s : State) (u : ClockUnit) : (s.emit u).sel = s.sel := rfl
@[simp] theorem State.emit_irPre (s : State) (u : ClockUnit) : (s.emit u).irPre = s.irPre := rfl
@[simp] theorem State.emit_irPos (s : State) (u : ClockUnit) : (s.emit u).irPos = s.irPos := rfl
@[simp] theorem State.emit_pre (s : State) (u : ClockUnit) : (s.emit u).pre = s.pre := rfl
@[simp] theorem State.emit_pos (s : State) (u : ClockUnit) : (s.emit u).pos = s.pos := rfl
@[simp] theorem State.emit_sq (s : State) (u : ClockUnit) : (s.emit u).sq = s.sq := rfl
@[simp] theorem State.emit_rq (s : State) (u : ClockUnit) : (s.emit u).rq = s.rq := rfl
@[simp] theorem State.emit_link (s : State) (u : ClockUnit) : (s.emit u).link = s.link := rfl
@[simp] theorem State.emit_fault (s : State) (u : ClockUnit) : (s.emit u).fault = s.fault := rfl
@[simp] theorem State.emit_hist (s : State) (u : ClockUnit) : (s.emit u).hist = s.hist := rfl
@[simp] theorem State.emit_pc (s : State) (u : ClockUnit) : (s.emit u).pc = s.pc := rfl
@[simp] theorem State.emit_calls (s : State) (u : ClockUnit) : (s.emit u).calls = s.calls := rfl
@[simp] theorem State.emit_results (s : State) (u : ClockUnit) : (s.emit u).results = s.results := rfl
@[simp] theorem State.emit_prog (s : State) (u : ClockUnit) : (s.emit u).prog = s.prog := rfl
@[simp] theorem State.emit_par (s : State) (u : ClockUnit) : (s.emit u).par = s.par := rfl
@[simp] theorem State.emit_env (s : State) (u : ClockUnit) : (s.emit u).env = s.env := rfl

/-! ### The selection cleared (D23). -/

@[simp] theorem State.clearSelection_mode (s : State) : (s.clearSelection).mode = s.mode := rfl
@[simp] theorem State.clearSelection_jspeed (s : State) : (s.clearSelection).jspeed = s.jspeed := rfl
@[simp] theorem State.clearSelection_sspeed (s : State) : (s.clearSelection).sspeed = s.sspeed := rfl
@[simp] theorem State.clearSelection_tap (s : State) : (s.clearSelection).tap = s.tap := rfl
@[simp] theorem State.clearSelection_cq (s : State) : (s.clearSelection).cq = s.cq := rfl
@[simp] theorem State.clearSelection_bb (s : State) : (s.clearSelection).bb = s.bb := rfl
@[simp] theorem State.clearSelection_taps (s : State) : (s.clearSelection).taps = s.taps := rfl
@[simp] theorem State.clearSelection_sel (s : State) : (s.clearSelection).sel = none := rfl
@[simp] theorem State.clearSelection_irPre (s : State) : (s.clearSelection).irPre = 0 := rfl
@[simp] theorem State.clearSelection_irPos (s : State) : (s.clearSelection).irPos = 0 := rfl
@[simp] theorem State.clearSelection_pre (s : State) : (s.clearSelection).pre = 0 := rfl
@[simp] theorem State.clearSelection_pos (s : State) : (s.clearSelection).pos = 0 := rfl
@[simp] theorem State.clearSelection_sq (s : State) : (s.clearSelection).sq = s.sq := rfl
@[simp] theorem State.clearSelection_rq (s : State) : (s.clearSelection).rq = s.rq := rfl
@[simp] theorem State.clearSelection_link (s : State) : (s.clearSelection).link = s.link := rfl
@[simp] theorem State.clearSelection_fault (s : State) : (s.clearSelection).fault = s.fault := rfl
@[simp] theorem State.clearSelection_hist (s : State) : (s.clearSelection).hist = s.hist := rfl
@[simp] theorem State.clearSelection_pc (s : State) : (s.clearSelection).pc = s.pc := rfl
@[simp] theorem State.clearSelection_calls (s : State) : (s.clearSelection).calls = s.calls := rfl
@[simp] theorem State.clearSelection_results (s : State) : (s.clearSelection).results = s.results := rfl
@[simp] theorem State.clearSelection_prog (s : State) : (s.clearSelection).prog = s.prog := rfl
@[simp] theorem State.clearSelection_par (s : State) : (s.clearSelection).par = s.par := rfl
@[simp] theorem State.clearSelection_env (s : State) : (s.clearSelection).env = s.env := rfl

/-! ### A TAP selected (R184). -/

@[simp] theorem State.selectTap_mode (s : State) (k : Nat) : (s.selectTap k).mode = s.mode := rfl
@[simp] theorem State.selectTap_jspeed (s : State) (k : Nat) : (s.selectTap k).jspeed = s.jspeed := rfl
@[simp] theorem State.selectTap_sspeed (s : State) (k : Nat) : (s.selectTap k).sspeed = s.sspeed := rfl
@[simp] theorem State.selectTap_tap (s : State) (k : Nat) : (s.selectTap k).tap = s.tap := rfl
@[simp] theorem State.selectTap_cq (s : State) (k : Nat) : (s.selectTap k).cq = s.cq := rfl
@[simp] theorem State.selectTap_bb (s : State) (k : Nat) : (s.selectTap k).bb = s.bb := rfl
@[simp] theorem State.selectTap_taps (s : State) (k : Nat) : (s.selectTap k).taps = s.taps := rfl
@[simp] theorem State.selectTap_sel (s : State) (k : Nat) : (s.selectTap k).sel = some k := rfl
@[simp] theorem State.selectTap_irPre (s : State) (k : Nat) : (s.selectTap k).irPre = (s.taps.take k).sum := rfl
@[simp] theorem State.selectTap_irPos (s : State) (k : Nat) : (s.selectTap k).irPos = (s.taps.drop (k + 1)).sum := rfl
@[simp] theorem State.selectTap_pre (s : State) (k : Nat) : (s.selectTap k).pre = k := rfl
@[simp] theorem State.selectTap_pos (s : State) (k : Nat) : (s.selectTap k).pos = s.taps.length - 1 - k := rfl
@[simp] theorem State.selectTap_sq (s : State) (k : Nat) : (s.selectTap k).sq = s.sq := rfl
@[simp] theorem State.selectTap_rq (s : State) (k : Nat) : (s.selectTap k).rq = s.rq := rfl
@[simp] theorem State.selectTap_link (s : State) (k : Nat) : (s.selectTap k).link = s.link := rfl
@[simp] theorem State.selectTap_fault (s : State) (k : Nat) : (s.selectTap k).fault = s.fault := rfl
@[simp] theorem State.selectTap_hist (s : State) (k : Nat) : (s.selectTap k).hist = s.hist := rfl
@[simp] theorem State.selectTap_pc (s : State) (k : Nat) : (s.selectTap k).pc = s.pc := rfl
@[simp] theorem State.selectTap_calls (s : State) (k : Nat) : (s.selectTap k).calls = s.calls := rfl
@[simp] theorem State.selectTap_results (s : State) (k : Nat) : (s.selectTap k).results = s.results := rfl
@[simp] theorem State.selectTap_prog (s : State) (k : Nat) : (s.selectTap k).prog = s.prog := rfl
@[simp] theorem State.selectTap_par (s : State) (k : Nat) : (s.selectTap k).par = s.par := rfl
@[simp] theorem State.selectTap_env (s : State) (k : Nat) : (s.selectTap k).env = s.env := rfl

/-! ### Exchanges and nothing else (R35). -/

@[simp] theorem State.exchanged_mode (s : State) (talk : List Exchange) : (s.exchanged talk).mode = s.mode := rfl
@[simp] theorem State.exchanged_jspeed (s : State) (talk : List Exchange) : (s.exchanged talk).jspeed = s.jspeed := rfl
@[simp] theorem State.exchanged_sspeed (s : State) (talk : List Exchange) : (s.exchanged talk).sspeed = s.sspeed := rfl
@[simp] theorem State.exchanged_tap (s : State) (talk : List Exchange) : (s.exchanged talk).tap = s.tap := rfl
@[simp] theorem State.exchanged_cq (s : State) (talk : List Exchange) : (s.exchanged talk).cq = s.cq := rfl
@[simp] theorem State.exchanged_bb (s : State) (talk : List Exchange) : (s.exchanged talk).bb = s.bb := rfl
@[simp] theorem State.exchanged_taps (s : State) (talk : List Exchange) : (s.exchanged talk).taps = s.taps := rfl
@[simp] theorem State.exchanged_sel (s : State) (talk : List Exchange) : (s.exchanged talk).sel = s.sel := rfl
@[simp] theorem State.exchanged_irPre (s : State) (talk : List Exchange) : (s.exchanged talk).irPre = s.irPre := rfl
@[simp] theorem State.exchanged_irPos (s : State) (talk : List Exchange) : (s.exchanged talk).irPos = s.irPos := rfl
@[simp] theorem State.exchanged_pre (s : State) (talk : List Exchange) : (s.exchanged talk).pre = s.pre := rfl
@[simp] theorem State.exchanged_pos (s : State) (talk : List Exchange) : (s.exchanged talk).pos = s.pos := rfl
@[simp] theorem State.exchanged_sq (s : State) (talk : List Exchange) : (s.exchanged talk).sq = s.sq := rfl
@[simp] theorem State.exchanged_rq (s : State) (talk : List Exchange) : (s.exchanged talk).rq = s.rq := rfl
@[simp] theorem State.exchanged_link (s : State) (talk : List Exchange) : (s.exchanged talk).link = s.link := rfl
@[simp] theorem State.exchanged_fault (s : State) (talk : List Exchange) : (s.exchanged talk).fault = s.fault := rfl
@[simp] theorem State.exchanged_hist (s : State) (talk : List Exchange) : (s.exchanged talk).hist = s.hist ++ talk.flatMap (fun x => [.out x.1, .inn x.2]) := rfl
@[simp] theorem State.exchanged_pc (s : State) (talk : List Exchange) : (s.exchanged talk).pc = s.pc := rfl
@[simp] theorem State.exchanged_calls (s : State) (talk : List Exchange) : (s.exchanged talk).calls = s.calls := rfl
@[simp] theorem State.exchanged_results (s : State) (talk : List Exchange) : (s.exchanged talk).results = s.results := rfl
@[simp] theorem State.exchanged_prog (s : State) (talk : List Exchange) : (s.exchanged talk).prog = s.prog := rfl
@[simp] theorem State.exchanged_par (s : State) (talk : List Exchange) : (s.exchanged talk).par = s.par := rfl
@[simp] theorem State.exchanged_env (s : State) (talk : List Exchange) : (s.exchanged talk).env = envAfter talk s := rfl

/-! ### An init exchange and nothing else (R144). -/

@[simp] theorem State.initExchanged_mode (s : State) (f a : List Byte) : (s.initExchanged f a).mode = s.mode := rfl
@[simp] theorem State.initExchanged_jspeed (s : State) (f a : List Byte) : (s.initExchanged f a).jspeed = s.jspeed := rfl
@[simp] theorem State.initExchanged_sspeed (s : State) (f a : List Byte) : (s.initExchanged f a).sspeed = s.sspeed := rfl
@[simp] theorem State.initExchanged_tap (s : State) (f a : List Byte) : (s.initExchanged f a).tap = s.tap := rfl
@[simp] theorem State.initExchanged_cq (s : State) (f a : List Byte) : (s.initExchanged f a).cq = s.cq := rfl
@[simp] theorem State.initExchanged_bb (s : State) (f a : List Byte) : (s.initExchanged f a).bb = s.bb := rfl
@[simp] theorem State.initExchanged_taps (s : State) (f a : List Byte) : (s.initExchanged f a).taps = s.taps := rfl
@[simp] theorem State.initExchanged_sel (s : State) (f a : List Byte) : (s.initExchanged f a).sel = s.sel := rfl
@[simp] theorem State.initExchanged_irPre (s : State) (f a : List Byte) : (s.initExchanged f a).irPre = s.irPre := rfl
@[simp] theorem State.initExchanged_irPos (s : State) (f a : List Byte) : (s.initExchanged f a).irPos = s.irPos := rfl
@[simp] theorem State.initExchanged_pre (s : State) (f a : List Byte) : (s.initExchanged f a).pre = s.pre := rfl
@[simp] theorem State.initExchanged_pos (s : State) (f a : List Byte) : (s.initExchanged f a).pos = s.pos := rfl
@[simp] theorem State.initExchanged_sq (s : State) (f a : List Byte) : (s.initExchanged f a).sq = s.sq := rfl
@[simp] theorem State.initExchanged_rq (s : State) (f a : List Byte) : (s.initExchanged f a).rq = s.rq := rfl
@[simp] theorem State.initExchanged_link (s : State) (f a : List Byte) : (s.initExchanged f a).link = s.link := rfl
@[simp] theorem State.initExchanged_fault (s : State) (f a : List Byte) : (s.initExchanged f a).fault = s.fault := rfl
@[simp] theorem State.initExchanged_hist (s : State) (f a : List Byte) : (s.initExchanged f a).hist = s.hist ++ [.out f, .inn a] := rfl
@[simp] theorem State.initExchanged_pc (s : State) (f a : List Byte) : (s.initExchanged f a).pc = s.pc := rfl
@[simp] theorem State.initExchanged_calls (s : State) (f a : List Byte) : (s.initExchanged f a).calls = s.calls := rfl
@[simp] theorem State.initExchanged_results (s : State) (f a : List Byte) : (s.initExchanged f a).results = s.results := rfl
@[simp] theorem State.initExchanged_prog (s : State) (f a : List Byte) : (s.initExchanged f a).prog = s.prog := rfl
@[simp] theorem State.initExchanged_par (s : State) (f a : List Byte) : (s.initExchanged f a).par = s.par := rfl
@[simp] theorem State.initExchanged_env (s : State) (f a : List Byte) : (s.initExchanged f a).env = (exchange f linkReadAny s).2.env := rfl

/-! ### A JTAG init done (R180). -/

@[simp] theorem State.jtagReady_mode (s : State) (sp : Byte) : (s.jtagReady sp).mode = .jtag := rfl
@[simp] theorem State.jtagReady_jspeed (s : State) (sp : Byte) : (s.jtagReady sp).jspeed = some sp := rfl
@[simp] theorem State.jtagReady_sspeed (s : State) (sp : Byte) : (s.jtagReady sp).sspeed = s.sspeed := rfl
@[simp] theorem State.jtagReady_tap (s : State) (sp : Byte) : (s.jtagReady sp).tap = TapState.all := rfl
@[simp] theorem State.jtagReady_cq (s : State) (sp : Byte) : (s.jtagReady sp).cq = [] := rfl
@[simp] theorem State.jtagReady_bb (s : State) (sp : Byte) : (s.jtagReady sp).bb = [] := rfl
@[simp] theorem State.jtagReady_taps (s : State) (sp : Byte) : (s.jtagReady sp).taps = s.taps := rfl
@[simp] theorem State.jtagReady_sel (s : State) (sp : Byte) : (s.jtagReady sp).sel = s.sel := rfl
@[simp] theorem State.jtagReady_irPre (s : State) (sp : Byte) : (s.jtagReady sp).irPre = s.irPre := rfl
@[simp] theorem State.jtagReady_irPos (s : State) (sp : Byte) : (s.jtagReady sp).irPos = s.irPos := rfl
@[simp] theorem State.jtagReady_pre (s : State) (sp : Byte) : (s.jtagReady sp).pre = s.pre := rfl
@[simp] theorem State.jtagReady_pos (s : State) (sp : Byte) : (s.jtagReady sp).pos = s.pos := rfl
@[simp] theorem State.jtagReady_sq (s : State) (sp : Byte) : (s.jtagReady sp).sq = [] := rfl
@[simp] theorem State.jtagReady_rq (s : State) (sp : Byte) : (s.jtagReady sp).rq = [] := rfl
@[simp] theorem State.jtagReady_link (s : State) (sp : Byte) : (s.jtagReady sp).link = .unknown := rfl
@[simp] theorem State.jtagReady_fault (s : State) (sp : Byte) : (s.jtagReady sp).fault = s.fault := rfl
@[simp] theorem State.jtagReady_hist (s : State) (sp : Byte) : (s.jtagReady sp).hist = s.hist := rfl
@[simp] theorem State.jtagReady_pc (s : State) (sp : Byte) : (s.jtagReady sp).pc = s.pc := rfl
@[simp] theorem State.jtagReady_calls (s : State) (sp : Byte) : (s.jtagReady sp).calls = s.calls := rfl
@[simp] theorem State.jtagReady_results (s : State) (sp : Byte) : (s.jtagReady sp).results = s.results := rfl
@[simp] theorem State.jtagReady_prog (s : State) (sp : Byte) : (s.jtagReady sp).prog = s.prog := rfl
@[simp] theorem State.jtagReady_par (s : State) (sp : Byte) : (s.jtagReady sp).par = s.par := rfl
@[simp] theorem State.jtagReady_env (s : State) (sp : Byte) : (s.jtagReady sp).env = s.env := rfl

/-! ### An SWD init done (R210). -/

@[simp] theorem State.swdReady_mode (s : State) (sp : Byte) : (s.swdReady sp).mode = .swd := rfl
@[simp] theorem State.swdReady_jspeed (s : State) (sp : Byte) : (s.swdReady sp).jspeed = s.jspeed := rfl
@[simp] theorem State.swdReady_sspeed (s : State) (sp : Byte) : (s.swdReady sp).sspeed = some sp := rfl
@[simp] theorem State.swdReady_tap (s : State) (sp : Byte) : (s.swdReady sp).tap = TapState.all := rfl
@[simp] theorem State.swdReady_cq (s : State) (sp : Byte) : (s.swdReady sp).cq = [] := rfl
@[simp] theorem State.swdReady_bb (s : State) (sp : Byte) : (s.swdReady sp).bb = [] := rfl
@[simp] theorem State.swdReady_taps (s : State) (sp : Byte) : (s.swdReady sp).taps = s.taps := rfl
@[simp] theorem State.swdReady_sel (s : State) (sp : Byte) : (s.swdReady sp).sel = s.sel := rfl
@[simp] theorem State.swdReady_irPre (s : State) (sp : Byte) : (s.swdReady sp).irPre = s.irPre := rfl
@[simp] theorem State.swdReady_irPos (s : State) (sp : Byte) : (s.swdReady sp).irPos = s.irPos := rfl
@[simp] theorem State.swdReady_pre (s : State) (sp : Byte) : (s.swdReady sp).pre = s.pre := rfl
@[simp] theorem State.swdReady_pos (s : State) (sp : Byte) : (s.swdReady sp).pos = s.pos := rfl
@[simp] theorem State.swdReady_sq (s : State) (sp : Byte) : (s.swdReady sp).sq = [] := rfl
@[simp] theorem State.swdReady_rq (s : State) (sp : Byte) : (s.swdReady sp).rq = [] := rfl
@[simp] theorem State.swdReady_link (s : State) (sp : Byte) : (s.swdReady sp).link = .unknown := rfl
@[simp] theorem State.swdReady_fault (s : State) (sp : Byte) : (s.swdReady sp).fault = s.fault := rfl
@[simp] theorem State.swdReady_hist (s : State) (sp : Byte) : (s.swdReady sp).hist = s.hist := rfl
@[simp] theorem State.swdReady_pc (s : State) (sp : Byte) : (s.swdReady sp).pc = s.pc := rfl
@[simp] theorem State.swdReady_calls (s : State) (sp : Byte) : (s.swdReady sp).calls = s.calls := rfl
@[simp] theorem State.swdReady_results (s : State) (sp : Byte) : (s.swdReady sp).results = s.results := rfl
@[simp] theorem State.swdReady_prog (s : State) (sp : Byte) : (s.swdReady sp).prog = s.prog := rfl
@[simp] theorem State.swdReady_par (s : State) (sp : Byte) : (s.swdReady sp).par = s.par := rfl
@[simp] theorem State.swdReady_env (s : State) (sp : Byte) : (s.swdReady sp).env = s.env := rfl

/-! ### Several units emitted -/

@[simp] theorem State.emitAll_nil (s : State) : s.emitAll [] = s := rfl

@[simp] theorem State.emitAll_cons (s : State) (u : ClockUnit) (us : List ClockUnit) :
    s.emitAll (u :: us) = (s.emit u).emitAll us := rfl

theorem State.emitAll_append (s : State) (us vs : List ClockUnit) :
    s.emitAll (us ++ vs) = (s.emitAll us).emitAll vs := List.foldl_append ..

@[simp] theorem State.emitAll_mode (s : State) (us : List ClockUnit) : (s.emitAll us).mode = s.mode := by
  induction us generalizing s with
  | nil => rfl
  | cons u us ih => simp [ih]

@[simp] theorem State.emitAll_jspeed (s : State) (us : List ClockUnit) : (s.emitAll us).jspeed = s.jspeed := by
  induction us generalizing s with
  | nil => rfl
  | cons u us ih => simp [ih]

@[simp] theorem State.emitAll_sspeed (s : State) (us : List ClockUnit) : (s.emitAll us).sspeed = s.sspeed := by
  induction us generalizing s with
  | nil => rfl
  | cons u us ih => simp [ih]

@[simp] theorem State.emitAll_bb (s : State) (us : List ClockUnit) : (s.emitAll us).bb = s.bb := by
  induction us generalizing s with
  | nil => rfl
  | cons u us ih => simp [ih]

@[simp] theorem State.emitAll_taps (s : State) (us : List ClockUnit) : (s.emitAll us).taps = s.taps := by
  induction us generalizing s with
  | nil => rfl
  | cons u us ih => simp [ih]

@[simp] theorem State.emitAll_sel (s : State) (us : List ClockUnit) : (s.emitAll us).sel = s.sel := by
  induction us generalizing s with
  | nil => rfl
  | cons u us ih => simp [ih]

@[simp] theorem State.emitAll_irPre (s : State) (us : List ClockUnit) : (s.emitAll us).irPre = s.irPre := by
  induction us generalizing s with
  | nil => rfl
  | cons u us ih => simp [ih]

@[simp] theorem State.emitAll_irPos (s : State) (us : List ClockUnit) : (s.emitAll us).irPos = s.irPos := by
  induction us generalizing s with
  | nil => rfl
  | cons u us ih => simp [ih]

@[simp] theorem State.emitAll_pre (s : State) (us : List ClockUnit) : (s.emitAll us).pre = s.pre := by
  induction us generalizing s with
  | nil => rfl
  | cons u us ih => simp [ih]

@[simp] theorem State.emitAll_pos (s : State) (us : List ClockUnit) : (s.emitAll us).pos = s.pos := by
  induction us generalizing s with
  | nil => rfl
  | cons u us ih => simp [ih]

@[simp] theorem State.emitAll_sq (s : State) (us : List ClockUnit) : (s.emitAll us).sq = s.sq := by
  induction us generalizing s with
  | nil => rfl
  | cons u us ih => simp [ih]

@[simp] theorem State.emitAll_rq (s : State) (us : List ClockUnit) : (s.emitAll us).rq = s.rq := by
  induction us generalizing s with
  | nil => rfl
  | cons u us ih => simp [ih]

@[simp] theorem State.emitAll_link (s : State) (us : List ClockUnit) : (s.emitAll us).link = s.link := by
  induction us generalizing s with
  | nil => rfl
  | cons u us ih => simp [ih]

@[simp] theorem State.emitAll_fault (s : State) (us : List ClockUnit) : (s.emitAll us).fault = s.fault := by
  induction us generalizing s with
  | nil => rfl
  | cons u us ih => simp [ih]

@[simp] theorem State.emitAll_hist (s : State) (us : List ClockUnit) : (s.emitAll us).hist = s.hist := by
  induction us generalizing s with
  | nil => rfl
  | cons u us ih => simp [ih]

@[simp] theorem State.emitAll_pc (s : State) (us : List ClockUnit) : (s.emitAll us).pc = s.pc := by
  induction us generalizing s with
  | nil => rfl
  | cons u us ih => simp [ih]

@[simp] theorem State.emitAll_calls (s : State) (us : List ClockUnit) : (s.emitAll us).calls = s.calls := by
  induction us generalizing s with
  | nil => rfl
  | cons u us ih => simp [ih]

@[simp] theorem State.emitAll_results (s : State) (us : List ClockUnit) : (s.emitAll us).results = s.results := by
  induction us generalizing s with
  | nil => rfl
  | cons u us ih => simp [ih]

@[simp] theorem State.emitAll_prog (s : State) (us : List ClockUnit) : (s.emitAll us).prog = s.prog := by
  induction us generalizing s with
  | nil => rfl
  | cons u us ih => simp [ih]

@[simp] theorem State.emitAll_par (s : State) (us : List ClockUnit) : (s.emitAll us).par = s.par := by
  induction us generalizing s with
  | nil => rfl
  | cons u us ih => simp [ih]

@[simp] theorem State.emitAll_env (s : State) (us : List ClockUnit) : (s.emitAll us).env = s.env := by
  induction us generalizing s with
  | nil => rfl
  | cons u us ih => simp [ih]

@[simp] theorem State.emitAll_cq (s : State) (us : List ClockUnit) : (s.emitAll us).cq = s.cq ++ us := by
  induction us generalizing s with
  | nil => simp
  | cons u us ih => simp [ih]

@[simp] theorem State.emitAll_tap (s : State) (us : List ClockUnit) :
    (s.emitAll us).tap = deltaSeq s.tap (us.map ClockUnit.tms) := by
  induction us generalizing s with
  | nil => rfl
  | cons u us ih => simp [ih, deltaSeq]

/-- Two pieces of traffic are one. -/
@[simp] theorem State.traffic_traffic (s : State) (es es' : List Event) (e e' : Env) :
    (s.traffic es e).traffic es' e' = s.traffic (es ++ es') e' := by simp [State.traffic]

/-- Emitting changes the clock queue and the tracker, and nothing else. -/
theorem State.emitAll_eq (s : State) (us : List ClockUnit) :
    s.emitAll us = { s with cq := s.cq ++ us, tap := deltaSeq s.tap (us.map ClockUnit.tms) } := by
  induction us generalizing s with
  | nil => simp [deltaSeq]
  | cons u us ih => rw [State.emitAll_cons, ih]; simp [State.emit, deltaSeq]

/-! ### The environment: after a failed transfer, and after an answer (R65). -/

@[simp] theorem Env.lost_tx (e : Env) : e.lost.tx = e.tx := rfl
@[simp] theorem Env.lost_rx (e : Env) : e.lost.rx = e.rx := rfl
@[simp] theorem Env.lost_draws (e : Env) : e.lost.draws = e.draws := rfl
@[simp] theorem Env.lost_target (e : Env) : e.lost.target = none := rfl
@[simp] theorem Env.lost_inbox (e : Env) : e.lost.inbox = [] := rfl
@[simp] theorem Env.lost_swd (e : Env) : e.lost.swd = .unknown := rfl
@[simp] theorem Env.lost_asked (e : Env) : e.lost.asked = [] := rfl

@[simp] theorem Env.answer_tx (l : LineState) (drawn : List Byte) (e : Env) : (e.answer l drawn).2.tx = e.tx := rfl
@[simp] theorem Env.answer_rx (l : LineState) (drawn : List Byte) (e : Env) : (e.answer l drawn).2.rx = e.rx := rfl
@[simp] theorem Env.answer_draws (l : LineState) (drawn : List Byte) (e : Env) : (e.answer l drawn).2.draws = e.draws := rfl
@[simp] theorem Env.answer_target (l : LineState) (drawn : List Byte) (e : Env) : (e.answer l drawn).2.target = e.target := rfl
@[simp] theorem Env.answer_inbox (l : LineState) (drawn : List Byte) (e : Env) : (e.answer l drawn).2.inbox = e.inbox := rfl
@[simp] theorem Env.answer_swd (l : LineState) (drawn : List Byte) (e : Env) : (e.answer l drawn).2.swd = (boundAnswer l e.asked e.swd drawn).1 := rfl
@[simp] theorem Env.answer_asked (l : LineState) (drawn : List Byte) (e : Env) : (e.answer l drawn).2.asked = [] := rfl
@[simp] theorem Env.answer_bytes (l : LineState) (drawn : List Byte) (e : Env) :
    (e.answer l drawn).1 = (boundAnswer l e.asked e.swd drawn).2 := rfl

end Sys2Proof.Machine
end

