-- ==== Sys2Proof/Laws/Ops.lean ====
section
/-! SUPPORT. One lemma per shared operation, saying once everything it can do; provers cite these and do not unfold the
operations. -/

namespace Sys2Proof.Laws

open Sys2Proof.Machine

/-! ### Sequencing -/

@[simp] theorem ret_apply {α : Type} (a : α) (s : State) : Act.ret a s = (.ok a, s) := rfl

@[simp] theorem raise_apply {α : Type} (e : TypedError) (s : State) : (Act.raise e : Act α) s = (.err e, s) := rfl

@[simp] theorem halt_apply {α : Type} (f : ModelFault) (s : State) : (Act.halt f : Act α) s = (.halt f, s) := rfl

@[simp] theorem change_apply (f : State → State) (s : State) : Act.change f s = (.ok (), f s) := rfl

@[simp] theorem emits_apply (us : List ClockUnit) (s : State) : emits us s = (.ok (), s.emitAll us) := rfl

@[simp] theorem drain_apply (n : Nat) (s : State) :
    drain n s = (.ok (s.bb.take n), s.drained n) := rfl

theorem bind_of_ok {α β : Type} {m : Act α} {k : α → Act β} {s s' : State} {a : α} (h : m s = (.ok a, s')) :
    Act.bind m k s = k a s' := by simp [Act.bind, h]

theorem bind_of_err {α β : Type} {m : Act α} {k : α → Act β} {s s' : State} {e : TypedError}
    (h : m s = (.err e, s')) : Act.bind m k s = (.err e, s') := by simp [Act.bind, h]

theorem bind_of_halt {α β : Type} {m : Act α} {k : α → Act β} {s s' : State} {f : ModelFault}
    (h : m s = (.halt f, s')) : Act.bind m k s = (.halt f, s') := by simp [Act.bind, h]

theorem bind_of_running {α β : Type} {m : Act α} {k : α → Act β} {s s' : State} (h : m s = (.running, s')) :
    Act.bind m k s = (.running, s') := by simp [Act.bind, h]

@[simp] theorem bind_ret {α β : Type} (a : α) (k : α → Act β) (s : State) : Act.bind (Act.ret a) k s = k a s := rfl

@[simp] theorem bind_change {β : Type} (f : State → State) (k : Unit → Act β) (s : State) :
    Act.bind (Act.change f) k s = k () (f s) := rfl

@[simp] theorem bind_emits {β : Type} (us : List ClockUnit) (k : Unit → Act β) (s : State) :
    Act.bind (emits us) k s = k () (s.emitAll us) := rfl

@[simp] theorem bind_drain {β : Type} (n : Nat) (k : List Bool → Act β) (s : State) :
    Act.bind (drain n) k s = k (s.bb.take n) (s.drained n) := rfl

theorem bind_faultIf_pass {β : Type} {test : State → Bool} {f : ModelFault} {k : Unit → Act β} {s : State}
    (h : test s = false) : Act.bind (Act.faultIf test f) k s = k () s := by simp [Act.bind, Act.faultIf, h]

theorem bind_faultIf_stop {β : Type} {test : State → Bool} {f : ModelFault} {k : Unit → Act β} {s : State}
    (h : test s = true) : Act.bind (Act.faultIf test f) k s = (.halt f, s) := by simp [Act.bind, Act.faultIf, h]

/-- How a part that leaves a relation true of the state before and the state after goes through a sequence: if the first
part relates them, and the second does from wherever the first leaves off, the whole does. -/
theorem bind_rel {α β : Type} {R : State → State → Prop} (trans : ∀ {a b c}, R a b → R b c → R a c)
    {m : Act α} {k : α → Act β} {s : State} (hm : R s (m s).2) (hk : ∀ a s', R s s' → R s' (k a s').2) :
    R s (Act.bind m k s).2 := by
  unfold Act.bind
  split
  case h_1 a s' e =>
    rw [e] at hm
    exact trans hm (hk a s' hm)
  all_goals rename_i e; rw [e] at hm; exact hm

/-! ### An operation -/

theorem operate_of_idle {body : Act Value} {s : State} (h : Idle s) : operate body s = .next (conclude (body s)) := by
  simp [operate, h.1, h.2]

/-- An operation answers a next state exactly where no model fault is set and none is in progress. -/
theorem operate_eq_next {body : Act Value} {s t : State} :
    operate body s = .next t ↔ Idle s ∧ t = conclude (body s) := by
  unfold operate Idle
  cases s.fault with
  | some f => simp
  | none =>
    cases s.prog with
    | some p => simp
    | none => simp [eq_comm]

/-- A model fault is sticky for every operation (R34). -/
theorem operate_of_fault {body : Act Value} {s : State} {f : ModelFault} (h : s.fault = some f) :
    operate body s = .fault (.sticky f) := by simp [operate, h]

/-! ### The link -/

/-- Only the history and the environment differ. -/
def LinkOnly (s s' : State) : Prop := s' = { s with hist := s'.hist, env := s'.env }

/-- A write appends the frame and, where it fails, the failure; nothing else of the engine changes (R141). -/
theorem linkWrite_cases (f : List Byte) (s : State) :
    (∃ e, linkWrite f s = (none, s.traffic [.out f] e)) ∨
    (∃ k e, linkWrite f s = (some ⟨k, .tx⟩, s.traffic [.out f, .fail ⟨k, .tx⟩] e)) := by
  unfold linkWrite
  split
  · exact .inl ⟨_, rfl⟩
  · exact .inr ⟨_, _, rfl⟩

theorem gather_full_length {rx : List RxDraw} {n : Nat} {got bytes : List Byte} {rest : List RxDraw}
    (h : gather rx n got = .full bytes rest) : bytes.length = got.length + n := by
  induction rx generalizing n got with
  | nil =>
    cases n with
    | zero => simp [gather] at h; simp [h.1]
    | succ n => simp [gather] at h
  | cons d rx ih =>
    cases n with
    | zero => simp [gather] at h; simp [h.1]
    | succ n =>
      cases d with
      | fail k => simp [gather] at h
      | bytes bs =>
        have := ih (by simpa [gather] using h)
        simp at this
        omega

theorem gather_short_length {rx : List RxDraw} {n missing : Nat} {got bytes : List Byte}
    (h : gather rx n got = .short bytes missing) : bytes.length + missing = got.length + n := by
  induction rx generalizing n got with
  | nil =>
    cases n with
    | zero => simp [gather] at h
    | succ n => simp [gather] at h; simp [h.1, ← h.2]
  | cons d rx ih =>
    cases n with
    | zero => simp [gather] at h
    | succ n =>
      cases d with
      | fail k => simp [gather] at h
      | bytes bs =>
        have := ih (by simpa [gather] using h)
        simp at this
        omega

theorem freeBytes_length (d n : Nat) : (freeBytes d n).length = n := by simp [freeBytes]

/-- A successful draw for a read of `n` bytes gives exactly `n` bytes (R142, D32). -/
theorem drawRead_length {e : Env} {n : Nat} {a : List Byte} (h : (drawRead e n).1 = .ok a) : a.length = n := by
  unfold drawRead at h
  split at h
  · rename_i hg
    have := gather_full_length hg
    simp at h
    simp [← h, this]
  · simp at h
  · rename_i hg
    have hl := gather_short_length hg
    unfold drawRest at h
    split at h
    · simp only [Except.ok.injEq] at h
      simp at hl
      rw [← h]
      simp [freeBytes_length]
      omega
    · split at h
      · simp only [Except.ok.injEq] at h
        simp at hl
        rw [← h]
        simp [freeBytes_length, hl]
      · simp at h

/-- A read of `n` bytes appends the whole answer or the failure; nothing else of the engine changes (R142). -/
theorem linkRead_cases (n : Nat) (s : State) :
    (∃ a e, a.length = n ∧ linkRead n s = (.ok a, s.traffic [.inn a] e)) ∨
    (∃ k e, linkRead n s = (.error ⟨k, .rx⟩, s.traffic [.fail ⟨k, .rx⟩] e)) := by
  unfold linkRead recordRead
  split
  · next drawn h => exact .inl ⟨_, _, by rw [answer_length]; exact drawRead_length h, rfl⟩
  · exact .inr ⟨_, _, rfl⟩

/-- One read of any length (R144). -/
theorem linkReadAny_cases (s : State) :
    (∃ a e, linkReadAny s = (.ok a, s.traffic [.inn a] e)) ∨
    (∃ k e, linkReadAny s = (.error ⟨k, .rx⟩, s.traffic [.fail ⟨k, .rx⟩] e)) := by
  unfold linkReadAny recordRead
  split
  · exact .inl ⟨_, _, rfl⟩
  · exact .inr ⟨_, _, rfl⟩

/-- An exchange ends in the answer, or in a failed write (nothing is read, R143), or in a failed read. -/
theorem xfer_cases (f : List Byte) (n : Nat) (s : State) :
    (∃ a e, a.length = n ∧ xfer f n s = (.ok a, s.traffic [.out f, .inn a] e)) ∨
    (∃ l e, xfer f n s = (.error l, s.traffic [.out f, .fail l] e)) := by
  unfold xfer exchange
  rcases linkWrite_cases f s with ⟨e, h⟩ | ⟨k, e, h⟩
  · rw [h]
    rcases linkRead_cases n (s.traffic [.out f] e) with ⟨a, e', hl, h'⟩ | ⟨k, e', h'⟩
    · exact .inl ⟨a, e', hl, by simp [h']⟩
    · exact .inr ⟨⟨k, .rx⟩, e', by simp [h']⟩
  · exact .inr ⟨⟨k, .tx⟩, e, by simp [h]⟩

/-- The init exchange likewise, its answer of any length (R144). -/
theorem initExchange_cases (f : List Byte) (s : State) :
    (∃ a e, initExchange f s = (.ok a, s.traffic [.out f, .inn a] e)) ∨
    (∃ l e, initExchange f s
      = (.err (.transport l), (s.traffic [.out f, .fail l] e).lose)) := by
  unfold initExchange transferring exchange
  rcases linkWrite_cases f s with ⟨e, h⟩ | ⟨k, e, h⟩
  · rw [h]
    rcases linkReadAny_cases (s.traffic [.out f] e) with ⟨a, e', h'⟩ | ⟨k, e', h'⟩
    · exact .inl ⟨a, e', by simp [h']⟩
    · exact .inr ⟨⟨k, .rx⟩, e', by simp [h', raiseTransport]⟩
  · exact .inr ⟨⟨k, .tx⟩, e, by simp [h, raiseTransport]⟩

theorem linkWrite_env_congr (f : List Byte) {s s' : State} (he : s'.env = s.env) (hp : s'.par = s.par)
    (hl : s'.link = s.link) :
    (linkWrite f s').1 = (linkWrite f s).1 ∧ (linkWrite f s').2.env = (linkWrite f s).2.env := by
  unfold linkWrite
  rw [he]
  split <;> simp_all

/-- What an exchange answers, and what it leaves of the environment, depends on the environment, the line state and the
parameters alone. -/
theorem xfer_env_congr (f : List Byte) (n : Nat) {s s' : State} (he : s'.env = s.env) (hp : s'.par = s.par)
    (hl : s'.link = s.link) :
    (xfer f n s').1 = (xfer f n s).1 ∧ (xfer f n s').2.env = (xfer f n s).2.env := by
  obtain ⟨h1, h2⟩ := linkWrite_env_congr f he hp hl
  have key : ∀ t t' : State, t'.env = t.env → t'.link = t.link →
      (linkRead n t').1 = (linkRead n t).1 ∧ (linkRead n t').2.env = (linkRead n t).2.env := by
    intro t t' h hl
    unfold linkRead recordRead
    rw [h, hl]
    split <;> simp
  have keeps : ∀ t : State, (linkWrite f t).2.link = t.link := by
    intro t
    rcases linkWrite_cases f t with ⟨e, h⟩ | ⟨k, e, h⟩ <;> simp [h]
  unfold xfer exchange
  rcases hw : linkWrite f s with ⟨r, t⟩
  rcases hw' : linkWrite f s' with ⟨r', t'⟩
  have hk := keeps s
  have hk' := keeps s'
  rw [hw, hw'] at h1 h2
  rw [hw] at hk
  rw [hw'] at hk'
  simp only at h1 h2 hk hk'
  subst h1
  cases r' with
  | none => simpa using key t t' h2 (by rw [hk', hk, hl])
  | some e => simpa using h2

/-- An exchange that gives an answer, as an equation. -/
theorem xfer_of_answer {f a : List Byte} {n : Nat} {s : State} (h : (xfer f n s).1 = .ok a) :
    xfer f n s = (.ok a, s.traffic [.out f, .inn a] (xfer f n s).2.env) := by
  rcases xfer_cases f n s with ⟨b, e, _, h'⟩ | ⟨l, e, h'⟩
  · rw [h'] at h ⊢
    simp only [Except.ok.injEq] at h
    simp [h]
  · rw [h'] at h
    simp at h

/-- A draw leaves the SWD port and the batch that waits for its answer. -/
theorem drawWrite_keeps (e : Env) : (drawWrite e).2.swd = e.swd ∧ (drawWrite e).2.asked = e.asked := by
  unfold drawWrite
  split <;> (try split) <;> exact ⟨rfl, rfl⟩

theorem drawRead_keeps (e : Env) (n : Nat) : (drawRead e n).2.swd = e.swd ∧ (drawRead e n).2.asked = e.asked := by
  unfold drawRead
  split
  · exact ⟨rfl, rfl⟩
  · exact ⟨rfl, rfl⟩
  · unfold drawRest
    split
    · exact ⟨rfl, rfl⟩
    · split <;> exact ⟨rfl, rfl⟩

@[simp] theorem performed_asked (tdoBit : Fin 8) (l : LineState) (f : List Byte) (e : Env) :
    (performed tdoBit l f e).asked = askedBy f := by
  unfold performed
  split <;> rfl

theorem performed_swd {tdoBit : Fin 8} {l : LineState} {f : List Byte} {e : Env} (h : f.head? ≠ some 0xD2) :
    (performed tdoBit l f e).swd = e.swd := by
  unfold performed
  split
  · exact if_neg h
  · rfl

/-- The answer to a frame, but for clock units, is what R65 makes of some bytes drawn; the SWD port is as that leaves it. -/
theorem xfer_bound {f a : List Byte} {n : Nat} {s t : State} (hf : f.head? ≠ some 0xD2) (h : xfer f n s = (.ok a, t)) :
    ∃ drawn : List Byte, boundAnswer s.link (askedBy f) s.env.swd drawn = (t.env.swd, a) ∧ t.env.asked = [] := by
  unfold xfer exchange linkWrite at h
  split at h
  · simp at h
  · next hw =>
    split at hw
    · next e he =>
      simp only [Prod.mk.injEq, true_and] at hw
      subst hw
      have hk := drawWrite_keeps s.env
      rw [he] at hk
      unfold linkRead recordRead at h
      split at h
      · next drawn hd =>
        have hr := drawRead_keeps (performed s.par.tdoBit s.link f e) n
        simp only [Prod.mk.injEq, Except.ok.injEq, State.traffic_env, State.traffic_link, Env.answer] at h hd
        rw [hr.1, hr.2, performed_asked, performed_swd hf, hk.1] at h
        obtain ⟨rfl, rfl⟩ := h
        exact ⟨drawn, by simp, by simp⟩
      · simp at h
    · simp at hw

/-! ### The clock queue -/

/-- Everything a JTAG flush can do (R165): nothing, for an empty queue; a BufferOverflow, with the queue emptied and the
tracker reset and nothing written; a TransportError (R311); a malformed answer; or the capture. -/
theorem jtagFlush_cases (s : State) :
    (s.cq = [] ∧ jtagFlush s = (.ok (), s)) ∨
    (s.cq ≠ [] ∧ overflows s.par (2 * s.cq.length) = true ∧
      jtagFlush s = (.err (overflowError s.par (2 * s.cq.length)), s.overflowed)) ∨
    (s.cq ≠ [] ∧ overflows s.par (2 * s.cq.length) = false ∧ ∃ l e,
      jtagFlush s = (.err (.transport l),
        (s.traffic [.out s.clockFrame, .fail l] e).lose)) ∨
    (s.cq ≠ [] ∧ overflows s.par (2 * s.cq.length) = false ∧ ∃ a e, a.length = 3 + s.cq.length ∧
      clockAnswerOk s.cq.length a = false ∧
      jtagFlush s = (.halt .malformedResponse,
        s.traffic [.out s.clockFrame, .inn a] e)) ∨
    (s.cq ≠ [] ∧ overflows s.par (2 * s.cq.length) = false ∧ ∃ a e, a.length = 3 + s.cq.length ∧
      clockAnswerOk s.cq.length a = true ∧
      jtagFlush s = (.ok (),
        (s.traffic [.out s.clockFrame, .inn a] e).captured (capturedBits s.par.tdoBit s.cq (a.drop 3)))) := by
  by_cases h0 : s.cq = []
  · exact .inl ⟨h0, by simp [jtagFlush, h0]⟩
  · have h0' : ¬ s.cq.length = 0 := by simpa using h0
    by_cases ho : overflows s.par (2 * s.cq.length) = true
    · exact .inr (.inl ⟨h0, ho, by simp [jtagFlush, h0, ho]⟩)
    · simp only [Bool.not_eq_true] at ho
      refine .inr (.inr ?_)
      rcases xfer_cases s.clockFrame (3 + s.cq.length) s with ⟨a, e, hl, h⟩ | ⟨l, e, h⟩
      · by_cases hh : clockAnswerOk s.cq.length a = true
        · refine .inr (.inr ⟨h0, ho, a, e, hl, hh, ?_⟩)
          simp [jtagFlush, h0, ho, Act.bind, transferring, h, hh]
        · simp only [Bool.not_eq_true] at hh
          refine .inr (.inl ⟨h0, ho, a, e, hl, hh, ?_⟩)
          simp [jtagFlush, h0, ho, Act.bind, transferring, h, hh]
      · refine .inl ⟨h0, ho, l, e, ?_⟩
        simp [jtagFlush, h0, ho, Act.bind, transferring, h, raiseTransport]

/-- A flush whose answer is well framed (R165). -/
theorem jtagFlush_of_answer {s : State} {a : List Byte} (h0 : s.cq ≠ [])
    (ho : overflows s.par (2 * s.cq.length) = false)
    (h : (xfer s.clockFrame (3 + s.cq.length) s).1 = .ok a) (hh : clockAnswerOk s.cq.length a = true) :
    jtagFlush s = (.ok (),
      (s.traffic [.out s.clockFrame, .inn a] (xfer s.clockFrame (3 + s.cq.length) s).2.env).captured
        (capturedBits s.par.tdoBit s.cq (a.drop 3))) := by
  have h0' : ¬ s.cq.length = 0 := by simpa using h0
  have h' := xfer_of_answer h
  simp only [jtagFlush, h0', if_false, ho, Act.bind, transferring]
  rw [h']
  simp [hh]

/-- The mode check (R305). -/
theorem requireJtag_of {s : State} (h : s.mode = .jtag) : requireJtag s = (.ok (), s) := by
  simp [requireJtag, Act.faultIf, h]

theorem requireJtag_fault {s : State} (h : s.mode ≠ .jtag) : requireJtag s = (.halt .modeViolation, s) := by
  simp [requireJtag, Act.faultIf, h]

/-- Everything RequireIdle can do (R169): it never changes the state. -/
theorem requireIdle_cases (s : State) :
    (s.mode = .jtag ∧ s.tap = [.rti] ∧ requireIdle s = (.ok (), s)) ∨
    (s.mode ≠ .jtag ∧ requireIdle s = (.halt .modeViolation, s)) ∨
    (s.mode = .jtag ∧ s.tap ≠ [.rti] ∧ requireIdle s = (.halt .tapStateViolation, s)) := by
  by_cases hm : s.mode = .jtag
  · by_cases ht : s.tap = [.rti]
    · exact .inl ⟨hm, ht, by simp [requireIdle, bind_of_ok (requireJtag_of hm), Act.faultIf, ht]⟩
    · exact .inr (.inr ⟨hm, ht, by simp [requireIdle, bind_of_ok (requireJtag_of hm), Act.faultIf, ht]⟩)
  · exact .inr (.inl ⟨hm, by simp [requireIdle, bind_of_halt (requireJtag_fault hm)]⟩)

theorem requireIdle_of {s : State} (hm : s.mode = .jtag) (ht : s.tap = [.rti]) : requireIdle s = (.ok (), s) := by
  simp [requireIdle, bind_of_ok (requireJtag_of hm), Act.faultIf, ht]

/-! ### The SWD batch queue -/

theorem requireSwd_of {s : State} (h : s.mode = .swd) : requireSwd s = (.ok (), s) := by
  simp [requireSwd, Act.faultIf, h]

theorem requireSwd_fault {s : State} (h : s.mode ≠ .swd) : requireSwd s = (.halt .modeViolation, s) := by
  simp [requireSwd, Act.faultIf, h]

/-- Everything push can do (R216): a fault or an overflow that leaves the queue, or the subcommand queued. -/
theorem pushSub_cases (g : Subcmd) (s : State) :
    (s.mode ≠ .swd ∧ pushSub g s = (.halt .modeViolation, s)) ∨
    (s.mode = .swd ∧ subAligned g = false ∧ pushSub g s = (.halt .misalignedAddress, s)) ∨
    (s.mode = .swd ∧ subAligned g = true ∧ subLengthOk g = false ∧ pushSub g s = (.halt .invalidLength, s)) ∨
    (s.mode = .swd ∧ subAligned g = true ∧ subLengthOk g = true ∧
      overflows s.par (batchPayload (s.sq ++ [g])).length = true ∧
      pushSub g s = (.err (overflowError s.par (batchPayload (s.sq ++ [g])).length), s)) ∨
    (s.mode = .swd ∧ subAligned g = true ∧ subLengthOk g = true ∧
      overflows s.par (batchPayload (s.sq ++ [g])).length = false ∧
      pushSub g s = (.ok (), s.queued g)) := by
  by_cases hm : s.mode = .swd
  · simp only [pushSub, bind_of_ok (requireSwd_of hm)]
    cases ha : subAligned g
    · exact .inr (.inl ⟨hm, rfl, by rw [bind_faultIf_stop (by simp)]⟩)
    · rw [bind_faultIf_pass (by simp)]
      cases hl : subLengthOk g
      · exact .inr (.inr (.inl ⟨hm, rfl, rfl, by rw [bind_faultIf_stop (by simp)]⟩))
      · rw [bind_faultIf_pass (by simp)]
        cases ho : overflows s.par (batchPayload (s.sq ++ [g])).length
        · exact .inr (.inr (.inr (.inr ⟨hm, rfl, rfl, rfl, by simp⟩)))
        · exact .inr (.inr (.inr (.inl ⟨hm, rfl, rfl, rfl, by simp⟩)))
  · exact .inl ⟨hm, by simp [pushSub, bind_of_halt (requireSwd_fault hm)]⟩

/-- Everything an SWD flush can do (R217). -/
theorem flushBatch_cases (s : State) :
    (s.mode ≠ .swd ∧ flushBatch s = (.halt .modeViolation, s)) ∨
    (s.mode = .swd ∧ s.sq = [] ∧ flushBatch s = (.ok (), s)) ∨
    (s.mode = .swd ∧ s.sq ≠ [] ∧ ∃ l e,
      flushBatch s = (.err (.transport l),
        (s.traffic [.out (frameE8 s.sq), .fail l] e).lose)) ∨
    (s.mode = .swd ∧ s.sq ≠ [] ∧ ∃ a e, a.length = 3 + answerTotal s.sq ∧
      (batchAnswerOk (answerTotal s.sq) a = false ∨ parseSlices s.sq (a.drop 3) = none) ∧
      flushBatch s = (.halt .malformedResponse,
        s.traffic [.out (frameE8 s.sq), .inn a] e)) ∨
    (s.mode = .swd ∧ s.sq ≠ [] ∧ ∃ a e rs, a.length = 3 + answerTotal s.sq ∧
      batchAnswerOk (answerTotal s.sq) a = true ∧ parseSlices s.sq (a.drop 3) = some rs ∧
      flushBatch s = (.ok (),
        (s.traffic [.out (frameE8 s.sq), .inn a] e).flushed rs)) := by
  by_cases hm : s.mode = .swd
  · simp only [flushBatch, bind_of_ok (requireSwd_of hm)]
    by_cases h0 : s.sq = []
    · exact .inr (.inl ⟨hm, h0, by simp [h0]⟩)
    · have h0' : ¬ s.sq.length = 0 := by simpa using h0
      simp only [h0', if_false]
      refine .inr (.inr ?_)
      rcases xfer_cases (frameE8 s.sq) (3 + answerTotal s.sq) s with ⟨a, e, hl, h⟩ | ⟨l, e, h⟩
      · cases hh : batchAnswerOk (answerTotal s.sq) a
        · exact .inr (.inl ⟨hm, h0, a, e, hl, .inl hh, by simp [Act.bind, transferring, h, hh]⟩)
        · cases hp : parseSlices s.sq (a.drop 3) with
          | none => exact .inr (.inl ⟨hm, h0, a, e, hl, .inr hp, by simp [Act.bind, transferring, h, hh, hp]⟩)
          | some rs => exact .inr (.inr ⟨hm, h0, a, e, rs, hl, hh, hp, by simp [Act.bind, transferring, h, hh, hp]⟩)
      · exact .inl ⟨hm, h0, l, e, by simp [Act.bind, transferring, h, raiseTransport]⟩
  · exact .inl ⟨hm, by simp [flushBatch, bind_of_halt (requireSwd_fault hm)]⟩

/-- A batch's flush whose answer is well framed (R217). -/
theorem flushBatch_of_answer {s : State} {a : List Byte} {rs : List SResult} (hm : s.mode = .swd) (h0 : s.sq ≠ [])
    (h : (xfer (frameE8 s.sq) (3 + answerTotal s.sq) s).1 = .ok a)
    (hh : batchAnswerOk (answerTotal s.sq) a = true) (hp : parseSlices s.sq (a.drop 3) = some rs) :
    flushBatch s = (.ok (),
      (s.traffic [.out (frameE8 s.sq), .inn a] (xfer (frameE8 s.sq) (3 + answerTotal s.sq) s).2.env).flushed rs) := by
  have h0' : ¬ s.sq.length = 0 := by simpa using h0
  have h' := xfer_of_answer h
  rw [flushBatch, bind_of_ok (requireSwd_of hm), if_neg h0']
  simp only [Act.bind, transferring]
  rw [h']
  simp [hh, hp]

/-- take returns the results and empties the queue (R218). -/
theorem takeResults_of {s : State} (h : s.mode = .swd) : takeResults s = (.ok s.rq, s.taken) := by
  simp [takeResults, bind_of_ok (requireSwd_of h)]

end Sys2Proof.Laws
end

