-- ==== Sys2Proof/Laws/Answers.lean ====
section
/-! SUPPORT. What the shared operations do where the environment answers: the exchanges of a state carried past changes
that the environment does not see, the flushes, and the captured bits. -/

namespace Sys2Proof.Laws

open Sys2Proof.Machine

/-! ### Answers -/

/-- Two states the environment cannot tell apart. -/
def SameEnv (s s' : State) : Prop := s'.env = s.env ∧ s'.par = s.par ∧ s'.link = s.link

theorem xfer_keeps (f : List Byte) (n : Nat) (s : State) :
    (xfer f n s).2.par = s.par ∧ (xfer f n s).2.link = s.link := by
  rcases xfer_cases f n s with ⟨a, e, _, h⟩ | ⟨l, e, h⟩ <;> simp [h]

theorem SameEnv.xfer {s s' : State} (h : SameEnv s s') (f : List Byte) (n : Nat) :
    SameEnv (Machine.xfer f n s).2 (Machine.xfer f n s').2 :=
  ⟨(xfer_env_congr f n h.1 h.2.1 h.2.2).2, by rw [(xfer_keeps f n s').1, (xfer_keeps f n s).1, h.2.1],
    by rw [(xfer_keeps f n s').2, (xfer_keeps f n s).2, h.2.2]⟩

theorem answered_congr (talk : List Exchange) {s s' : State} (h : SameEnv s s') : answered talk s' = answered talk s := by
  induction talk generalizing s s' with
  | nil => rfl
  | cons x talk ih =>
    obtain ⟨f, a⟩ := x
    simp only [answered, (xfer_env_congr f a.length h.1 h.2.1 h.2.2).1, ih (h.xfer f a.length)]

theorem envAfter_congr (talk : List Exchange) {s s' : State} (h : SameEnv s s') : envAfter talk s' = envAfter talk s := by
  induction talk generalizing s s' with
  | nil => exact h.1
  | cons x talk ih =>
    obtain ⟨f, a⟩ := x
    exact ih (h.xfer f a.length)

/-- After its exchanges a state is one that the environment cannot tell from the state the last transfer left. -/
theorem answered_cons {f a : List Byte} {talk : List Exchange} {s : State} (h : answered ((f, a) :: talk) s = true) :
    (xfer f a.length s).1 = .ok a ∧ answered talk (s.exchanged [(f, a)]) = true
      ∧ envAfter ((f, a) :: talk) s = envAfter talk (s.exchanged [(f, a)]) := by
  simp only [answered, Bool.and_eq_true, decide_eq_true_eq] at h
  have hs : SameEnv (xfer f a.length s).2 (s.exchanged [(f, a)]) :=
    ⟨rfl, ((xfer_keeps f a.length s).1).symm, ((xfer_keeps f a.length s).2).symm⟩
  exact ⟨h.1, by rw [answered_congr talk hs]; exact h.2, (envAfter_congr talk hs).symm⟩

theorem exchanged_cons {f a : List Byte} {talk : List Exchange} {s : State} (h : answered ((f, a) :: talk) s = true) :
    s.exchanged ((f, a) :: talk) = (s.exchanged [(f, a)]).exchanged talk := by
  have := (answered_cons h).2.2
  simp [State.exchanged, this]

theorem xfer_of_answered {f a : List Byte} {s : State} (h : answered [(f, a)] s = true) :
    xfer f a.length s = (.ok a, s.exchanged [(f, a)]) := by
  simp only [answered, Bool.and_true, decide_eq_true_eq] at h
  rw [xfer_of_answer h]
  simp [State.exchanged, State.traffic, envAfter]

theorem initExchange_of_answered {f a : List Byte} {s : State} (h : initAnswered f a s = true) :
    initExchange f s = (.ok a, s.initExchanged f a) := by
  simp only [initAnswered, decide_eq_true_eq] at h
  simp only [initExchange, transferring]
  rcases linkWrite_cases f s with ⟨e, hw⟩ | ⟨k, e, hw⟩
  · rcases linkReadAny_cases (s.traffic [.out f] e) with ⟨b, e', hr⟩ | ⟨k, e', hr⟩
    · have hx : exchange f linkReadAny s = (.ok b, s.traffic [.out f, .inn b] e') := by simp [exchange, hw, hr]
      rw [hx] at h
      simp only [Except.ok.injEq] at h
      subst h
      simp [hx, State.initExchanged, State.traffic]
    · simp [exchange, hw, hr] at h
  · simp [exchange, hw] at h

/-! ### The header and the bits of an answer -/

theorem overflows_of_fits {s : State} {n : Nat} (h : Fits s n) : overflows s.par n = false := by
  obtain ⟨h1, h2⟩ := h
  unfold overflows
  cases hm : s.par.maxFrameBytes with
  | none => simp; omega
  | some limit =>
    have := h2 limit hm
    simp
    omega

theorem fits_of_overflows {s : State} {n : Nat} (h : overflows s.par n = false) : Fits s n := by
  unfold overflows at h
  simp only [Bool.or_eq_false_iff, decide_eq_false_iff_not] at h
  refine ⟨by omega, fun limit hm => ?_⟩
  have := h.2
  rw [hm] at this
  simp at this
  omega

theorem overflows_iff {s : State} {n : Nat} : overflows s.par n = false ↔ Fits s n :=
  ⟨fits_of_overflows, overflows_of_fits⟩

theorem answerHeader (op : Byte) {n : Nat} (h : n < 65536) (rest : List Byte) :
    answerHeaderOk op n ([op] ++ le16 n ++ rest) = true := by
  have : ofLe16 (BitVec.ofNat 8 n) (BitVec.ofNat 8 (n / 256)) = n := by simp [ofLe16]; omega
  simp [answerHeaderOk, le16] at this ⊢
  exact this

theorem clockAnswer_ok {samples : List Byte} (h : samples.length < 65536) :
    clockAnswerOk samples.length (clockAnswer samples) = true := answerHeader 0xD2 h samples

theorem clockAnswer_drop (samples : List Byte) : (clockAnswer samples).drop 3 = samples := by simp [clockAnswer, le16]

theorem clockAnswer_length (samples : List Byte) : (clockAnswer samples).length = 3 + samples.length := by
  simp [clockAnswer, le16]
  omega

theorem batchAnswer_ok {slices : List (List Byte)} (h : slices.flatten.length < 65536) :
    batchAnswerOk slices.flatten.length (batchAnswer slices) = true := answerHeader 0xE8 h slices.flatten

theorem batchAnswer_drop (slices : List (List Byte)) : (batchAnswer slices).drop 3 = slices.flatten := by
  simp [batchAnswer, le16]

theorem batchAnswer_length (slices : List (List Byte)) : (batchAnswer slices).length = 3 + slices.flatten.length := by
  simp [batchAnswer, le16]
  omega

theorem capturedBits_append (tb : Fin 8) {us vs : List ClockUnit} {as bs : List Byte} (h : us.length = as.length) :
    capturedBits tb (us ++ vs) (as ++ bs) = capturedBits tb us as ++ capturedBits tb vs bs := by
  simp [capturedBits, List.zip_append h]

theorem capturedBits_none (tb : Fin 8) {us : List ClockUnit} (as : List Byte) (h : ∀ u ∈ us, u.cap = false) :
    capturedBits tb us as = [] := by
  simp only [capturedBits, List.map_eq_nil_iff, List.filter_eq_nil_iff]
  rintro ⟨u, b⟩ hp
  simp [h u (List.of_mem_zip hp).1]

theorem capturedBits_all (tb : Fin 8) {us : List ClockUnit} {as : List Byte} (hl : us.length = as.length)
    (h : ∀ u ∈ us, u.cap = true) : capturedBits tb us as = as.map fun b => b.getLsbD tb.val := by
  induction us generalizing as with
  | nil => cases as <;> simp_all [capturedBits]
  | cons u us ih =>
    cases as with
    | nil => simp at hl
    | cons b bs =>
      have := ih (as := bs) (by simpa using hl) fun u hu => h u (by simp [hu])
      simp only [capturedBits] at this
      simp only [capturedBits, List.zip_cons_cons, List.filter_cons, h u (by simp), if_true, List.map_cons, this]

/-! ### Flushes that the environment answers -/

/-- A JTAG flush of queued units that the environment answers (R165). -/
theorem jtagFlush_answered {s : State} {samples : List Byte} (h0 : s.cq ≠ []) (hl : samples.length = s.cq.length)
    (hf : Fits s (2 * s.cq.length)) (ha : answered [(clocks s.cq, clockAnswer samples)] s = true) :
    jtagFlush s = (.ok (),
      (s.exchanged [(clocks s.cq, clockAnswer samples)]).captured (capturedBits s.par.tdoBit s.cq samples)) := by
  have hx := xfer_of_answered ha
  rw [clockAnswer_length, hl] at hx
  have hx' : (xfer s.clockFrame (3 + s.cq.length) s).1 = .ok (clockAnswer samples) := by
    show (xfer (clocks s.cq) _ s).1 = _
    rw [hx]
  have hn := hf.1
  rw [jtagFlush_of_answer h0 (overflows_of_fits hf) hx' (by rw [← hl]; exact clockAnswer_ok (by omega)),
    clockAnswer_drop]
  show (_, State.captured (State.traffic _ _ (xfer (clocks s.cq) _ s).2.env) _) = _
  rw [hx]
  rfl

/-- Units emitted into an empty queue, and flushed, where the environment answers: what is left differs from the state
before in the history, the environment, the tracker and the captured bits. -/
theorem emit_flush_answered {s : State} {us : List ClockUnit} {samples : List Byte} (hq : s.cq = []) (h0 : us ≠ [])
    (hl : samples.length = us.length) (hf : Fits s (2 * us.length))
    (ha : answered [(clocks us, clockAnswer samples)] s = true) :
    jtagFlush (s.emitAll us) = (.ok (),
      { s.exchanged [(clocks us, clockAnswer samples)] with
        tap := deltaSeq s.tap (us.map ClockUnit.tms), bb := s.bb ++ capturedBits s.par.tdoBit us samples }) := by
  have hc : (s.emitAll us).cq = us := by simp [hq]
  have hs : SameEnv s (s.emitAll us) := ⟨by simp, by simp, by simp⟩
  have := jtagFlush_answered (s := s.emitAll us) (samples := samples) (by rw [hc]; exact h0) (by rw [hc]; exact hl)
    (by rw [hc]; simpa [Fits] using hf) (by rw [hc, answered_congr _ hs]; exact ha)
  rw [this, hc]
  have he := envAfter_congr [(clocks us, clockAnswer samples)] hs
  simp only [State.exchanged, he]
  simp only [State.emitAll_eq, hq, State.captured]

/-- Slices that parse, one by one, parse as a batch (R217). -/
theorem parseSlices_flatten {gs : List Subcmd} {slices : List (List Byte)} {rs : List SResult}
    (hl : slices.length = gs.length) (h : List.zipWith parseSlice gs slices = rs.map some) :
    parseSlices gs slices.flatten = some rs ∧ slices.flatten.length = answerTotal gs := by
  induction gs generalizing slices rs with
  | nil =>
    cases slices with
    | nil => cases rs <;> simp_all [parseSlices, answerTotal]
    | cons x xs => simp at hl
  | cons g gs ih =>
    cases slices with
    | nil => simp at hl
    | cons x xs =>
      cases rs with
      | nil => simp at h
      | cons r rs =>
        simp only [List.zipWith_cons_cons, List.map_cons, List.cons.injEq] at h
        obtain ⟨h1, h2⟩ := ih (by simpa using hl) h.2
        have hx : x.length = answerLength g := by
          have := h.1
          unfold parseSlice at this
          split at this <;> first | rfl | simp at this
        refine ⟨?_, ?_⟩
        · simp only [List.flatten_cons, parseSlices]
          rw [← hx, List.take_left, List.drop_left, h.1, h1]
        · simp only [List.flatten_cons, List.length_append, hx, h2, answerTotal, List.map_cons, List.sum_cons]

/-- An SWD flush of queued subcommands that the environment answers (R217). -/
theorem flushBatch_answered {s : State} {slices : List (List Byte)} {rs : List SResult} (hm : s.mode = .swd)
    (h0 : s.sq ≠ []) (hl : slices.length = s.sq.length) (hp : List.zipWith parseSlice s.sq slices = rs.map some)
    (hn : slices.flatten.length ≤ 0xFFFF) (ha : answered [(frameE8 s.sq, batchAnswer slices)] s = true) :
    flushBatch s = (.ok (), (s.exchanged [(frameE8 s.sq, batchAnswer slices)]).flushed rs) := by
  obtain ⟨h1, h2⟩ := parseSlices_flatten hl hp
  have hx := xfer_of_answered ha
  rw [batchAnswer_length, h2] at hx
  rw [flushBatch_of_answer (a := batchAnswer slices) (rs := rs) hm h0 (by rw [hx])
    (by rw [← h2]; exact batchAnswer_ok (by omega)) (by rw [batchAnswer_drop]; exact h1), hx]
  rfl

/-! ### Batches that the environment answers -/

theorem batchPayload_append (a b : List Subcmd) : batchPayload (a ++ b) = batchPayload a ++ batchPayload b := by
  simp [batchPayload]

theorem fits_mono {s : State} {m n : Nat} (h : Fits s n) (hl : m ≤ n) : Fits s m :=
  ⟨by have := h.1; omega, fun l hm => by have := h.2 l hm; omega⟩

/-- Subcommands that all fit are all queued (R216, R219). -/
theorem pushAll_fits {gs : List Subcmd} {s : State} (hm : s.mode = .swd)
    (ho : ∀ g ∈ gs, subAligned g = true ∧ subLengthOk g = true) (hf : Fits s (batchPayload (s.sq ++ gs)).length) :
    pushAll gs s = (.ok (), { s with sq := s.sq ++ gs }) := by
  induction gs generalizing s with
  | nil => simp [pushAll]
  | cons g gs ih =>
    have h1 : pushSub g s = (.ok (), s.queued g) := by
      have hf' : Fits s (batchPayload (s.sq ++ [g])).length := fits_mono hf (by simp [batchPayload])
      have hg := ho g (by simp)
      rcases pushSub_cases g s with h | h | h | h | h
      · exact absurd hm h.1
      · simp [hg] at h
      · simp [hg] at h
      · simp [overflows_of_fits hf'] at h
      · exact h.2.2.2.2
    rw [pushAll, bind_of_ok h1, ih (s := s.queued g) hm (fun g hg => ho g (by simp [hg]))]
    · simp [State.queued]
    · simpa [Fits] using hf

/-- A batch that the environment answers (R219): what is left differs from the state before in the history, the environment
and the line state. -/
theorem batch_answered {gs : List Subcmd} {slices : List (List Byte)} {rs : List SResult} {s : State} (hr : SwdReady s)
    (h0 : gs ≠ []) (ho : ∀ g ∈ gs, subAligned g = true ∧ subLengthOk g = true) (hf : Fits s (batchPayload gs).length)
    (hl : slices.length = gs.length) (hp : List.zipWith parseSlice gs slices = rs.map some)
    (hn : slices.flatten.length ≤ 0xFFFF) (ha : answered [(frameE8 gs, batchAnswer slices)] s = true) :
    batch gs s = (.ok rs, { s.exchanged [(frameE8 gs, batchAnswer slices)] with link := lineAfter s.link gs }) := by
  obtain ⟨hi, hm, hs, hq⟩ := hr
  unfold batch
  rw [bind_of_ok (requireSwd_of hm), bind_faultIf_pass (by simp [hs, hq]),
    bind_of_ok (pushAll_fits hm ho (by rw [hs]; exact hf))]
  have hse : SameEnv s { s with sq := gs } := ⟨rfl, rfl, rfl⟩
  simp only [hs, List.nil_append]
  rw [bind_of_ok (flushBatch_answered (slices := slices) (rs := rs) (s := { s with sq := gs }) hm h0 hl hp hn
    (by rw [answered_congr _ hse]; exact ha)), takeResults_of (by simp [hm])]
  have he := envAfter_congr [(frameE8 gs, batchAnswer slices)] hse
  simp only [State.taken, State.flushed, State.exchanged, he]
  simp [hq, hs]

/-- The SWD OK test in terms of the ack byte (R211). -/
theorem swdAckIsOk_iff : ∀ ab : Byte, swdAckIsOk (swdAck ab) = true ↔ ab &&& 7 = 1 := by decide +kernel

end Sys2Proof.Laws
end

