-- ==== Sys2Proof/Laws/Tap.lean ====
section
/-! SUPPORT. The tracker: its moves by image, and legal trackers. -/

namespace Sys2Proof.Laws

open Sys2Proof.Machine

theorem deltaSeq_append (Q : List TapState) (a b : List Bool) : deltaSeq Q (a ++ b) = deltaSeq (deltaSeq Q a) b :=
  List.foldl_append ..

/-- Units with TMS=0 keep a shift state. -/
theorem deltaSeq_shift {q : TapState} (h : shifts q = true) (n : Nat) :
    deltaSeq [q] (List.replicate n false) = [q] := by
  induction n with
  | zero => rfl
  | succ n ih =>
    rw [List.replicate_succ]
    show deltaSeq (deltaSet [q] false) _ = _
    have : deltaSet [q] false = [q] := by revert h; cases q <;> decide
    rw [this, ih]

theorem mem_all (q : TapState) : q ∈ TapState.all := by cases q <;> decide

theorem mem_deltaSet {Q : List TapState} {tms : Bool} {q : TapState} : q ∈ deltaSet Q tms ↔ ∃ p ∈ Q, delta p tms = q := by
  simp [deltaSet, mem_all]

/-- The state a TMS sequence reaches from one state. -/
def deltaPath (q : TapState) (seq : List Bool) : TapState := seq.foldl delta q

theorem mem_deltaSeq {Q : List TapState} {seq : List Bool} {q : TapState} :
    q ∈ deltaSeq Q seq ↔ ∃ p ∈ Q, deltaPath p seq = q := by
  induction seq generalizing Q with
  | nil => simp [deltaSeq, deltaPath]
  | cons b seq ih =>
    show q ∈ deltaSeq (deltaSet Q b) seq ↔ _
    rw [ih]
    constructor
    · rintro ⟨p, hp, h⟩
      obtain ⟨p', hp', rfl⟩ := mem_deltaSet.1 hp
      exact ⟨p', hp', h⟩
    · rintro ⟨p, hp, h⟩
      exact ⟨delta p b, mem_deltaSet.2 ⟨p, hp, rfl⟩, h⟩

/-- A legal tracker is a non-empty set in the order of R21 (R25). -/
theorem tapSetOk_iff {Q : List TapState} : tapSetOk Q = true ↔ Q ≠ [] ∧ ∃ p : TapState → Bool, Q = TapState.all.filter p := by
  simp only [tapSetOk, Bool.and_eq_true, Bool.not_eq_true', beq_iff_eq]
  constructor
  · rintro ⟨h, h'⟩
    exact ⟨by simpa using h, _, h'⟩
  · rintro ⟨h, p, rfl⟩
    refine ⟨by simpa using h, List.filter_congr fun q hq => ?_⟩
    simp [hq]

theorem tapSetOk_deltaSet {Q : List TapState} (h : tapSetOk Q = true) (tms : Bool) : tapSetOk (deltaSet Q tms) = true := by
  obtain ⟨h1, -⟩ := tapSetOk_iff.1 h
  refine tapSetOk_iff.2 ⟨?_, _, rfl⟩
  obtain ⟨q, hq⟩ := List.exists_mem_of_ne_nil Q h1
  exact List.ne_nil_of_mem (mem_deltaSet.2 ⟨q, hq, rfl⟩)

theorem tapSetOk_deltaSeq {Q : List TapState} (h : tapSetOk Q = true) (seq : List Bool) :
    tapSetOk (deltaSeq Q seq) = true := by
  induction seq generalizing Q with
  | nil => exact h
  | cons b seq ih => exact ih (tapSetOk_deltaSet h b)

/-- Two legal trackers with the same states are equal. -/
theorem tapSet_ext {Q R : List TapState} (hQ : tapSetOk Q = true) (hR : tapSetOk R = true)
    (h : ∀ q, q ∈ Q ↔ q ∈ R) : Q = R := by
  obtain ⟨-, p, rfl⟩ := tapSetOk_iff.1 hQ
  obtain ⟨-, r, rfl⟩ := tapSetOk_iff.1 hR
  refine List.filter_congr fun q hq => ?_
  have := h q
  simp only [List.mem_filter, hq, true_and] at this
  exact Bool.eq_iff_iff.2 this

/-- A TMS sequence that takes every state to one takes every legal tracker to it (R162). -/
theorem deltaSeq_const {Q : List TapState} (h : tapSetOk Q = true) {seq : List Bool} {q : TapState}
    (hq : ∀ p, deltaPath p seq = q) : deltaSeq Q seq = [q] := by
  refine tapSet_ext (tapSetOk_deltaSeq h seq) (by cases q <;> decide) fun x => ?_
  obtain ⟨p, hp⟩ := List.exists_mem_of_ne_nil Q (tapSetOk_iff.1 h).1
  rw [mem_deltaSeq, List.mem_singleton]
  constructor
  · rintro ⟨p', -, h'⟩
    rw [← h', hq]
  · rintro rfl
    exact ⟨p, hp, hq p⟩

/-- Five units with TMS=1 and one with TMS=0 take every legal tracker to Run-Test/Idle (R162). -/
theorem deltaSeq_reset {Q : List TapState} (h : tapSetOk Q = true) :
    deltaSeq Q (resetUnits.map ClockUnit.tms) = [.rti] :=
  deltaSeq_const h (by intro p; cases p <;> rfl)

end Sys2Proof.Laws
end

