-- ==== Sys2Proof/Laws/Scan.lean ====
section
/-! SUPPORT. The units of a scan, and a scan that the environment answers. -/

namespace Sys2Proof.Laws

open Sys2Proof.Machine

/-! ### The units of a scan -/

/-- The number of units that enter a shift state (R163). -/
def entryLength : ScanKind → Nat
  | .ir => 4
  | .dr => 3

theorem dataUnits_length (value : BitVec 64) (n q : Nat) : (dataUnits value n q).length = n := by simp [dataUnits]

theorem trailingUnits_length (q : Nat) : (trailingUnits q).length = q := by simp [trailingUnits]

theorem scanUnits_length (kind : ScanKind) (value : BitVec 64) (n p q : Nat) :
    (scanUnits kind value n p q).length = entryLength kind + p + n + q + 2 := by
  cases kind <;> simp [entryLength, scanUnits, dataUnits_length, trailingUnits_length, enterShiftIR, enterShiftDR, leaveExit1] <;> omega

theorem scanSize_eq (s : State) (kind : ScanKind) (value : BitVec 64) (n : Nat) :
    s.scanSize kind n = (scanUnits kind value n (s.leading kind) (s.trailing kind)).length := by
  simp only [State.scanSize, scanUnits_length]

/-- The size check of a scan: the frame fits and nothing happens, or it does not. -/
theorem scanFits_cases (kind : ScanKind) (n : Nat) (s : State) :
    (overflows s.par (2 * s.scanSize kind n) = false ∧ scanFits kind n s = (.ok (), s)) ∨
    (overflows s.par (2 * s.scanSize kind n) = true ∧
      scanFits kind n s = (.err (overflowError s.par (2 * s.scanSize kind n)), s.overflowed)) := by
  unfold scanFits
  cases h : overflows s.par (2 * s.scanSize kind n)
  · exact .inl ⟨rfl, rfl⟩
  · exact .inr ⟨rfl, rfl⟩

theorem lastOnly {m : Nat} (h : 1 ≤ m) (b : Bool) :
    (List.range m).map (fun i => i + 1 == m && b) = List.replicate (m - 1) false ++ [b] := by
  obtain ⟨m, rfl⟩ : ∃ k, m = k + 1 := ⟨m - 1, by omega⟩
  rw [List.range_succ, List.map_append]
  simp only [Nat.add_sub_cancel, List.map_cons, List.map_nil, beq_self_eq_true, Bool.true_and, List.append_cancel_right_eq]
  apply List.ext_getElem (by simp)
  intro i h1 h2
  simp at h1 ⊢
  intro
  omega

theorem dataUnits_tms (value : BitVec 64) {n : Nat} (h : 1 ≤ n) (q : Nat) :
    (dataUnits value n q).map ClockUnit.tms = List.replicate (n - 1) false ++ [q == 0] := by
  rw [← lastOnly h (q == 0)]
  simp [dataUnits, Function.comp_def]

theorem trailingUnits_tms {q : Nat} (h : 1 ≤ q) :
    (trailingUnits q).map ClockUnit.tms = List.replicate (q - 1) false ++ [true] := by
  rw [← lastOnly h true]
  simp [trailingUnits, nav, Function.comp_def]

/-- A scan goes from Run-Test/Idle back to it (R163, R185). -/
theorem scanUnits_tap (kind : ScanKind) (value : BitVec 64) {n : Nat} (h : 1 ≤ n) (p q : Nat) :
    deltaSeq [.rti] ((scanUnits kind value n p q).map ClockUnit.tms) = [.rti] := by
  have key : ∀ (sh ex : TapState), shifts sh = true → deltaSet [sh] true = [ex] →
      deltaSeq [sh] ((List.replicate p (nav false)).map ClockUnit.tms ++ (dataUnits value n q).map ClockUnit.tms
        ++ (trailingUnits q).map ClockUnit.tms) = [ex] := by
    intro sh ex hs he
    have hn : (List.replicate p (nav false)).map ClockUnit.tms = List.replicate p false := by simp [nav]
    have h1 : deltaSeq [sh] [true] = [ex] := he
    rw [deltaSeq_append, deltaSeq_append, hn, deltaSeq_shift hs, dataUnits_tms value h, deltaSeq_append,
      deltaSeq_shift hs]
    by_cases hq : q = 0
    · subst hq
      rw [show ([0 == 0] : List Bool) = [true] from rfl, h1]
      rfl
    · have : (q == 0) = false := by simpa using hq
      rw [this, trailingUnits_tms (by omega), show ([false] : List Bool) = List.replicate 1 false from rfl,
        deltaSeq_shift hs, deltaSeq_append, deltaSeq_shift hs, h1]
  cases kind with
  | ir =>
    have hin : deltaSeq [.rti] (enterShiftIR.map ClockUnit.tms) = [.shIR] := by decide
    have hout : deltaSeq [.ex1IR] (leaveExit1.map ClockUnit.tms) = [.rti] := by decide
    simp only [scanUnits, List.map_append, List.append_assoc]
    rw [deltaSeq_append, hin, ← List.append_assoc, ← List.append_assoc, deltaSeq_append, key .shIR .ex1IR rfl (by decide), hout]
  | dr =>
    have hin : deltaSeq [.rti] (enterShiftDR.map ClockUnit.tms) = [.shDR] := by decide
    have hout : deltaSeq [.ex1DR] (leaveExit1.map ClockUnit.tms) = [.rti] := by decide
    simp only [scanUnits, List.map_append, List.append_assoc]
    rw [deltaSeq_append, hin, ← List.append_assoc, ← List.append_assoc, deltaSeq_append, key .shDR .ex1DR rfl (by decide), hout]

/-- The bits a scan's answer keeps are the TDO bits of its data units (R165, R185). -/
theorem scanUnits_captured (tb : Fin 8) (kind : ScanKind) (value : BitVec 64) {n p q : Nat}
    {before data after : List Byte} (hb : before.length = entryLength kind + p)
    (hd : data.length = n) :
    capturedBits tb (scanUnits kind value n p q) (before ++ data ++ after) = data.map fun b => b.getLsbD tb.val := by
  have h1 : ∀ entry : List ClockUnit, (∀ u ∈ entry, u.cap = false) → before.length = entry.length + p →
      capturedBits tb (entry ++ List.replicate p (nav false) ++ dataUnits value n q ++ trailingUnits q ++ leaveExit1)
        (before ++ data ++ after) = data.map fun b => b.getLsbD tb.val := by
    intro entry he hl
    rw [List.append_assoc (entry ++ _ ++ _), capturedBits_append tb (by simp [dataUnits_length, hl, hd]; omega),
      capturedBits_append tb (by simp [hl]), capturedBits_none, capturedBits_all tb (by simp [dataUnits_length, hd]),
      capturedBits_none]
    · simp
    · intro u hu
      simp only [List.mem_append, trailingUnits, List.mem_map, leaveExit1, List.mem_cons, List.not_mem_nil, or_false] at hu
      rcases hu with ⟨_, _, rfl⟩ | rfl | rfl <;> rfl
    · intro u hu
      simp only [dataUnits, List.mem_map] at hu
      obtain ⟨_, _, rfl⟩ := hu
      rfl
    · intro u hu
      simp only [List.mem_append, List.mem_replicate] at hu
      rcases hu with hu | ⟨_, rfl⟩
      · exact he u hu
      · rfl
  cases kind with
  | ir => exact h1 enterShiftIR (by decide) hb
  | dr => exact h1 enterShiftDR (by decide) hb

/-- A scan that the environment answers (R185): what is left differs from the state before in the history and the
environment. -/
theorem scan_answered {kind : ScanKind} {value : BitVec 64} {n : Nat} {before data after : List Byte} {s : State}
    (hm : s.mode = .jtag) (ht : s.tap = [.rti]) (hbuf : BuffersEmpty s) (h1 : 1 ≤ n) (h64 : n ≤ 64)
    (hb : before.length = entryLength kind + s.leading kind) (hd : data.length = n)
    (ha : after.length = s.trailing kind + 2)
    (hf : Fits s (2 * (entryLength kind + s.leading kind + n + s.trailing kind + 2)))
    (hans : answered [(clocks (scanUnits kind value n (s.leading kind) (s.trailing kind)),
      clockAnswer (before ++ data ++ after))] s = true) :
    scan kind value n s = (.ok (data.map s.tdoOf),
      s.exchanged [(clocks (scanUnits kind value n (s.leading kind) (s.trailing kind)),
        clockAnswer (before ++ data ++ after))]) := by
  have hlen := scanUnits_length kind value n (s.leading kind) (s.trailing kind)
  have hne : scanUnits kind value n (s.leading kind) (s.trailing kind) ≠ [] := by
    intro h
    rw [h] at hlen
    simp at hlen
  have hsl : (before ++ data ++ after).length = (scanUnits kind value n (s.leading kind) (s.trailing kind)).length := by
    rw [hlen]
    simp only [List.length_append]
    omega
  have hlegal : (decide (n < 1) || decide (Config.maxShiftBits < n)) = false := by
    have a1 : ¬ n < 1 := by omega
    have a2 : ¬ Config.maxShiftBits < n := by show ¬ 64 < n; omega
    simp [a1, a2]
  unfold scan
  rw [bind_of_ok (requireIdle_of hm ht), bind_faultIf_pass hlegal, bind_change,
    bind_of_ok (emit_flush_answered hbuf.1 hne hsl (by rw [hlen]; exact hf) hans)]
  rw [drain_apply, ht, scanUnits_tap kind value h1, scanUnits_captured s.par.tdoBit kind value hb hd, hbuf.2]
  have hlen' : n = (data.map s.tdoOf).length := by simp [hd]
  have hmap : (data.map fun b => b.getLsbD s.par.tdoBit.val) = data.map s.tdoOf := rfl
  simp only [List.nil_append, hmap, State.drained]
  rw [hlen', List.take_length, List.drop_length]
  obtain ⟨hcq, hbb⟩ := hbuf
  simp only [State.exchanged, ← ht, ← hbb]

end Sys2Proof.Laws
end

