-- ==== Sys2Proof/Laws/Discovery.lean ====
section
/-! SUPPORT. The discovery loops where the environment answers (R182, R183): one word or bit, the end of a scan, a whole
loop, and a loop that has used up what one step scans. -/

namespace Sys2Proof.Laws

open Sys2Proof.Machine

/-! ### What a step may scan of a discovery -/

theorem fuelLeft_pos (slice : PNat) (bound : Option PNat) : 0 < fuelLeft slice bound 0 := by
  unfold fuelLeft
  cases bound with
  | none => exact slice.pos
  | some n => exact Nat.lt_min.2 ⟨slice.pos, n.pos⟩

/-- A step that starts a chain scan may scan a word. -/
theorem chainFuel_pos (s : State) : 0 < s.chainFuel 0 := fuelLeft_pos _ _

/-- A step that starts an IR scan may scan a bit. -/
theorem irFuel_pos (s : State) : 0 < s.irFuel 0 := fuelLeft_pos _ _

/-- Where the bound leaves nothing, and only there, a step may scan nothing (R9). -/
theorem fuelLeft_eq_zero {slice : PNat} {bound : Option PNat} {spent : Nat} :
    fuelLeft slice bound spent = 0 ↔ ∃ n, bound = some n ∧ n ≤ spent := by
  have := slice.pos
  unfold fuelLeft
  cases bound with
  | none => simp
  | some n => simp; omega

@[simp] theorem emitAll_chainFuel (us : List ClockUnit) (s : State) (n : Nat) : (s.emitAll us).chainFuel n = s.chainFuel n := by
  simp [State.chainFuel]

@[simp] theorem emitAll_irFuel (us : List ClockUnit) (s : State) (n : Nat) : (s.emitAll us).irFuel n = s.irFuel n := by
  simp [State.irFuel]

/-- The bits of an IR scan: each adds one to what its loop variables count. -/
theorem irWalkOn_spent {prev prev' closed closed' : Bool} {count count' : Nat} {found found' : List Nat} {bs : List Bool}
    (h : irWalkOn prev count closed found bs = some (.irLengths prev' count' closed' found')) :
    found'.sum + count' = found.sum + count + bs.length := by
  induction bs generalizing prev count closed found with
  | nil => simp [irWalkOn] at h; obtain ⟨rfl, rfl, rfl, rfl⟩ := h; rfl
  | cons b bs ih =>
    cases b <;> cases prev <;> cases closed <;> simp only [irWalkOn, reduceCtorEq] at h <;>
      (have := ih h; simp at this ⊢; omega)

/-- A step with a discovery in progress that the bound leaves something to scan. -/
theorem step_resumed {s : State} {p : Progress} (hf : s.fault = none) (hp : s.prog = some p) (h : 0 < s.fuel p) :
    step s = .next (conclude (resumeLoop p s)) := by
  simp only [step, hf, hp]
  rw [if_neg (by omega)]

/-! ### One word or bit, and the loops -/

/-- One exchange is answered where its transfer gives the answer. -/
theorem answered_single {f a : List Byte} {s : State} (h : (xfer f a.length s).1 = .ok a) :
    answered [(f, a)] s = true := by
  simp only [answered, h, decide_true, Bool.and_self]

/-- Captured units after navigation, flushed and drained, where the environment answers. -/
theorem word_answered {s : State} {entry : List ClockUnit} {n : Nat} {before data : List Byte}
    (hbuf : s.cq = entry) (hbb : s.bb = []) (he : ∀ u ∈ entry, u.cap = false) (hb : before.length = entry.length)
    (h1 : 1 ≤ n) (hd : data.length = n) (hf : Fits s (2 * (entry.length + n)))
    (ha : answered [(clocks (entry ++ List.replicate n ⟨false, true, true⟩), clockAnswer (before ++ data))] s = true) :
    Act.bind (emits (List.replicate n ⟨false, true, true⟩)) (fun _ => Act.bind jtagFlush fun _ => drain n) s
      = (.ok (data.map s.tdoOf),
        { s.exchanged [(clocks (entry ++ List.replicate n ⟨false, true, true⟩), clockAnswer (before ++ data))] with
          cq := [], tap := deltaSeq s.tap (List.replicate n false) }) := by
  have hs : SameEnv { s with cq := [] } s := ⟨rfl, rfl, rfl⟩
  have hc : (s.emitAll (List.replicate n ⟨false, true, true⟩)).cq = entry ++ List.replicate n ⟨false, true, true⟩ := by
    simp [hbuf]
  have hs : SameEnv s (s.emitAll (List.replicate n ⟨false, true, true⟩)) := ⟨by simp, by simp, by simp⟩
  have h := jtagFlush_answered (s := s.emitAll (List.replicate n ⟨false, true, true⟩)) (samples := before ++ data)
    (by rw [hc]; simp; omega) (by rw [hc]; simp [hb, hd]) (by rw [hc]; simpa [Fits] using hf)
    (by rw [hc, answered_congr _ hs]; exact ha)
  rw [bind_emits, bind_of_ok h, drain_apply, hc]
  have hcap : capturedBits s.par.tdoBit (entry ++ List.replicate n ⟨false, true, true⟩) (before ++ data) = data.map s.tdoOf := by
    rw [capturedBits_append _ hb.symm, capturedBits_none _ _ he, capturedBits_all _ (by simp [hd]) (by simp)]
    rfl
  have htms : (List.replicate n (⟨false, true, true⟩ : ClockUnit)).map ClockUnit.tms = List.replicate n false := by simp
  have hlen : n = (data.map s.tdoOf).length := by simp [hd]
  have hex := envAfter_congr [(clocks (entry ++ List.replicate n ⟨false, true, true⟩), clockAnswer (before ++ data))] hs
  simp only [State.emitAll_par, hcap, State.captured_bb, State.exchanged_bb, State.emitAll_bb, hbb, List.nil_append]
  have ht : (data.map s.tdoOf).take n = data.map s.tdoOf := List.take_of_length_le (by omega)
  rw [ht]
  simp only [State.drained, State.captured, State.exchanged, hex]
  simp only [State.emitAll_eq, htms, hbb, List.nil_append]
  have : (data.map s.tdoOf).drop n = [] := List.drop_of_length_le (by omega)
  rw [this]

/-- The end of a discovery scan: three units out of a shift state, and a flush. -/
theorem leave_answered {s : State} {exit : List Byte} (hcq : s.cq = [])
    (ht : s.tap = [.shDR] ∨ s.tap = [.shIR]) (hl : exit.length = 3) (hf : Fits s 6)
    (ha : answered [(clocks leaveShift, clockAnswer exit)] s = true) :
    jtagFlush (s.emitAll leaveShift)
      = (.ok (), { s.exchanged [(clocks leaveShift, clockAnswer exit)] with tap := [.rti] }) := by
  rw [emit_flush_answered (us := leaveShift) hcq (by decide) hl hf ha, capturedBits_none _ _ (by decide)]
  have : deltaSeq s.tap (leaveShift.map ClockUnit.tms) = [.rti] := by rcases ht with h | h <;> rw [h] <;> decide
  rw [this]
  simp [State.exchanged]

/-- One word of a chain scan, after `entry`. -/
theorem chainWord_answered {s : State} {entry : List ClockUnit} {before data : List Byte}
    (hcq : s.cq = entry) (hbb : s.bb = []) (ht : s.tap = [.shDR]) (he : ∀ u ∈ entry, u.cap = false)
    (hb : before.length = entry.length) (hd : data.length = 32) (hf : Fits s (2 * (entry.length + 32)))
    (ha : answered [(clocks (entry ++ List.replicate 32 ⟨false, true, true⟩), clockAnswer (before ++ data))] s = true) :
    chainWord s = (.ok (wordOf s data),
      { s.exchanged [(clocks (entry ++ List.replicate 32 ⟨false, true, true⟩), clockAnswer (before ++ data))] with
        cq := [] }) := by
  have h := word_answered (n := 32) hcq hbb he hb (by omega) hd hf ha
  simp only [bind_emits] at h
  have hs : deltaSeq s.tap (List.replicate 32 false) = s.tap := by rw [ht]; exact deltaSeq_shift rfl 32
  rw [hs] at h
  unfold chainWord
  rw [bind_emits]
  unfold Act.bind at h ⊢
  revert h
  generalize jtagFlush (s.emitAll (List.replicate 32 ⟨false, true, true⟩)) = x
  obtain ⟨r, u⟩ := x
  cases r <;> simp only [drain_apply, ret_apply] <;> intro h <;> simp_all
  rfl

theorem wordOf_exchanged (s : State) (talk : List Exchange) (b : List Byte) : wordOf (s.exchanged talk) b = wordOf s b := rfl

/-- One word of a chain scan, with nothing queued before it. -/
theorem chainWord_next {s : State} {data : List Byte} (hcq : s.cq = []) (hbb : s.bb = []) (ht : s.tap = [.shDR])
    (hd : data.length = 32) (hf : Fits s 64) (ha : answered [(clocks wordUnits, clockAnswer data)] s = true) :
    chainWord s = (.ok (wordOf s data), s.exchanged [(clocks wordUnits, clockAnswer data)]) := by
  rw [chainWord_answered (entry := []) (before := []) hcq hbb ht (by simp) rfl hd hf ha]
  simp only [List.nil_append, State.exchanged, hcq]

/-- The loop of R182 over answers that hold the terminator. -/
theorem chainLoop_answered {blocks : List (List Byte)} {exit : List Byte} {ids old : List Word} {s : State} {fuel : Nat}
    (hcq : s.cq = []) (hbb : s.bb = []) (ht : s.tap = [.shDR]) (hd : ∀ b ∈ blocks, b.length = 32) (hx : exit.length = 3)
    (hw : blocks.map (wordOf s) = ids ++ [0xFFFFFFFF]) (hi : ∀ w ∈ ids, w ≠ 0xFFFFFFFF) (hn : ids.length < fuel)
    (hf : Fits s 64)
    (ha : answered (wordTalk blocks ++ [(clocks leaveShift, clockAnswer exit)]) s = true) :
    chainLoop fuel old s = (.ok (.ids (old ++ ids)),
      { s.exchanged (wordTalk blocks ++ [(clocks leaveShift, clockAnswer exit)]) with
        tap := [.rti], sel := none, irPre := 0, irPos := 0, pre := 0, pos := 0 }) := by
  induction blocks generalizing s ids old fuel with
  | nil => simp at hw
  | cons b blocks ih =>
    cases fuel with
    | zero => omega
    | succ fuel =>
      simp only [wordTalk, List.map_cons, List.cons_append] at ha
      obtain ⟨a1, a2, a3⟩ := answered_cons ha
      rw [chainLoop, bind_of_ok (chainWord_next hcq hbb ht (hd b (by simp)) hf (answered_single a1))]
      have hex := exchanged_cons ha
      simp only [wordTalk, List.map_cons, List.cons_append]
      rw [hex]
      cases ids with
      | nil =>
        simp only [List.map_cons, List.nil_append, List.cons.injEq, List.map_eq_nil_iff] at hw
        obtain ⟨hw1, rfl⟩ := hw
        rw [if_pos hw1, chainEnd, bind_emits]
        rw [bind_of_ok (leave_answered (s := s.exchanged _) hcq (.inl ht) hx (fits_mono hf (by omega)) a2)]
        simp
        rfl
      | cons w ids =>
        simp only [List.map_cons, List.cons_append, List.cons.injEq] at hw
        have hne : wordOf s b ≠ 0xFFFFFFFF := by rw [hw.1]; exact hi w (by simp)
        rw [if_neg hne, hw.1]
        rw [ih (ids := ids) (old := old ++ [w]) (s := s.exchanged _) hcq hbb ht (fun b hb => hd b (by simp [hb])) hw.2
          (fun w hw => hi w (by simp [hw])) (by simpa using hn) hf a2]
        simp only [List.append_assoc, List.singleton_append]
        rfl



/-- The exchanges do not see the tracker. -/
theorem exchanged_tap (s : State) (T : List TapState) (talk : List Exchange) :
    ({ s with tap := T } : State).exchanged talk = { s.exchanged talk with tap := T } := by
  have h : SameEnv s { s with tap := T } := ⟨rfl, rfl, rfl⟩
  simp only [State.exchanged, envAfter_congr talk h]

/-- The first word of discover_chain, which carries the entry. -/
theorem chainFirst_answered {entry first : List Byte} {s : State} (hid : JtagReady s) (he : entry.length = 3)
    (hd : first.length = 32) (hf : Fits s 70)
    (ha : answered [(clocks (enterShiftDR ++ List.replicate 32 ⟨false, true, true⟩), clockAnswer (entry ++ first))] s = true) :
    chainWord (s.emitAll enterShiftDR) = (.ok (wordOf s first),
      { s.exchanged [(clocks (enterShiftDR ++ List.replicate 32 ⟨false, true, true⟩), clockAnswer (entry ++ first))] with
        tap := [.shDR] }) := by
  obtain ⟨-, hbuf, -, ht⟩ := hid
  have hst : (s.emitAll enterShiftDR).tap = [.shDR] := by simp [ht]; decide
  have hse : SameEnv s (s.emitAll enterShiftDR) := ⟨by simp, by simp, by simp⟩
  rw [chainWord_answered (s := s.emitAll enterShiftDR) (entry := enterShiftDR) (before := entry) (data := first)
    (by simp [hbuf.1]) (by simp [hbuf.2]) hst (by decide) he hd hf (by rw [answered_congr _ hse]; exact ha)]
  have hwo : wordOf (s.emitAll enterShiftDR) first = wordOf s first := by unfold wordOf State.tdoOf; simp
  have he := envAfter_congr [(clocks (enterShiftDR ++ List.replicate 32 ⟨false, true, true⟩), clockAnswer (entry ++ first))] hse
  simp only [State.exchanged] at he ⊢
  rw [hwo, he, ← hst]
  simp only [State.emitAll_eq, hbuf.1]

/-- One bit of an IR scan, after `entry`. -/
theorem irBit_answered {s : State} {entry : List ClockUnit} {before : List Byte} {b : Byte}
    (hcq : s.cq = entry) (hbb : s.bb = []) (ht : s.tap = [.shIR]) (he : ∀ u ∈ entry, u.cap = false)
    (hb : before.length = entry.length) (hf : Fits s (2 * (entry.length + 1)))
    (ha : answered [(clocks (entry ++ [⟨false, true, true⟩]), clockAnswer (before ++ [b]))] s = true) :
    irBit s = (.ok (s.tdoOf b),
      { s.exchanged [(clocks (entry ++ [⟨false, true, true⟩]), clockAnswer (before ++ [b]))] with cq := [] }) := by
  have h := word_answered (n := 1) (data := [b]) hcq hbb he hb (by omega) rfl hf ha
  simp only [bind_emits] at h
  have hs : deltaSeq s.tap (List.replicate 1 false) = s.tap := by rw [ht]; rfl
  rw [hs] at h
  unfold irBit
  rw [bind_emits]
  unfold Act.bind at h ⊢
  revert h
  rw [show List.replicate 1 (⟨false, true, true⟩ : ClockUnit) = [⟨false, true, true⟩] from rfl]
  generalize jtagFlush (s.emitAll [⟨false, true, true⟩]) = x
  obtain ⟨r, u⟩ := x
  cases r <;> simp only [drain_apply, ret_apply] <;> intro h <;> simp_all

/-- One bit of an IR scan, with nothing queued before it. -/
theorem irBit_next {s : State} {b : Byte} (hcq : s.cq = []) (hbb : s.bb = []) (ht : s.tap = [.shIR]) (hf : Fits s 2)
    (ha : answered [(clocks bitUnits, clockAnswer [b])] s = true) :
    irBit s = (.ok (s.tdoOf b), s.exchanged [(clocks bitUnits, clockAnswer [b])]) := by
  rw [irBit_answered (entry := []) (before := []) hcq hbb ht (by simp) rfl hf ha]
  simp only [List.nil_append, State.exchanged, hcq]

/-- The loop of R183 over answers that end it. -/
theorem irLoop_answered {samples exit : List Byte} {prev : Bool} {count : Nat} {closed : Bool} {old found : List Nat}
    {s : State} {fuel : Nat}
    (hcq : s.cq = []) (hbb : s.bb = []) (ht : s.tap = [.shIR]) (hx : exit.length = 3)
    (hw : irWalk prev count closed old (samples.map s.tdoOf) = some found) (hn : samples.length ≤ fuel) (hf : Fits s 6)
    (ha : answered (bitTalk samples ++ [(clocks leaveShift, clockAnswer exit)]) s = true) :
    irLoop fuel prev count closed old s = (.ok (.lengths found),
      { s.exchanged (bitTalk samples ++ [(clocks leaveShift, clockAnswer exit)]) with
        tap := [.rti], taps := found, sel := none, irPre := 0, irPos := 0, pre := 0, pos := 0 }) := by
  induction samples generalizing s prev count closed old fuel with
  | nil => simp [irWalk] at hw
  | cons b samples ih =>
    cases fuel with
    | zero => simp at hn
    | succ fuel =>
      simp only [bitTalk, List.map_cons, List.cons_append] at ha
      obtain ⟨a1, a2, a3⟩ := answered_cons ha
      rw [irLoop, bind_of_ok (irBit_next hcq hbb ht (fits_mono hf (by omega)) (answered_single a1))]
      have hex := exchanged_cons ha
      simp only [bitTalk, List.map_cons, List.cons_append]
      rw [hex]
      have go := fun prev' count' closed' old' hw' =>
        ih (prev := prev') (count := count') (closed := closed') (old := old') (s := s.exchanged [(clocks [⟨false, true, true⟩], clockAnswer [b])])
          (fuel := fuel) hcq hbb ht hw' (by simpa using hn) hf a2
      simp only [List.map_cons] at hw
      cases hb : s.tdoOf b <;> cases prev <;> cases closed <;> simp only [irWalk, hb] at hw <;>
        simp only [Bool.not_true, Bool.not_false, Bool.and_true, Bool.and_false, Bool.and_self,
          Bool.false_eq_true, if_true, if_false]
      all_goals first
        | exact go _ _ _ _ hw
        | skip
      split at hw
      · simp only [Option.some.injEq] at hw
        simp only [List.map_eq_nil_iff] at *
        rename_i hnil
        subst hnil hw
        rw [irEnd, bind_emits]
        rw [bind_of_ok (leave_answered (s := s.exchanged _) hcq (.inr ht) hx hf a2)]
        simp
        rfl
      · simp at hw

/-- Words that are not the terminator are passed over (R182). -/
theorem chainLoop_skip {blocks : List (List Byte)} {old : List Word} {s : State} (fuel : Nat)
    (hcq : s.cq = []) (hbb : s.bb = []) (ht : s.tap = [.shDR]) (hd : ∀ b ∈ blocks, b.length = 32)
    (hi : ∀ w ∈ blocks.map (wordOf s), w ≠ 0xFFFFFFFF) (hf : blocks ≠ [] → Fits s 64)
    (ha : answered (wordTalk blocks) s = true) :
    chainLoop (blocks.length + fuel) old s
      = chainLoop fuel (old ++ blocks.map (wordOf s)) (s.exchanged (wordTalk blocks)) := by
  induction blocks generalizing s old with
  | nil => simp [State.exchanged, wordTalk, envAfter]
  | cons b blocks ih =>
    simp only [wordTalk, List.map_cons] at ha
    obtain ⟨a1, a2, a3⟩ := answered_cons ha
    rw [show (b :: blocks).length + fuel = (blocks.length + fuel) + 1 by simp; omega, chainLoop,
      bind_of_ok (chainWord_next hcq hbb ht (hd b (by simp)) (hf (by simp)) (answered_single a1)), if_neg (hi _ (by simp))]
    rw [ih (old := old ++ [wordOf s b]) (s := s.exchanged _) hcq hbb ht (fun b hb => hd b (by simp [hb]))
      (fun w hw => hi w (by rw [List.map_cons]; exact List.mem_cons_of_mem _ hw)) (fun _ => hf (by simp)) a2]
    have hex := exchanged_cons ha
    simp only [wordTalk, List.map_cons] at hex ⊢
    rw [hex, List.append_assoc]
    rfl

/-- The loop of R182 over as many words as one step scans, none of them the terminator. -/
theorem chainLoop_goesOn {blocks : List (List Byte)} {old : List Word} {s : State} {fuel : Nat}
    (hcq : s.cq = []) (hbb : s.bb = []) (ht : s.tap = [.shDR]) (hd : ∀ b ∈ blocks, b.length = 32)
    (hi : ∀ w ∈ blocks.map (wordOf s), w ≠ 0xFFFFFFFF) (hn : blocks.length = fuel)
    (hf : Fits s 64)
    (ha : answered (wordTalk blocks) s = true) :
    chainLoop fuel old s = (.running,
      { s.exchanged (wordTalk blocks) with prog := some (.chain (old ++ blocks.map (wordOf s))) }) := by
  have := chainLoop_skip (old := old) 0 hcq hbb ht hd hi (fun _ => hf) ha
  rw [Nat.add_zero, hn] at this
  rw [this]
  rfl

/-- Bits that do not end the scan are passed over (R183). -/
theorem irLoop_skip {samples : List Byte} {prev prev' : Bool} {count count' : Nat} {closed closed' : Bool}
    {old old' : List Nat} {s : State} (fuel : Nat)
    (hcq : s.cq = []) (hbb : s.bb = []) (ht : s.tap = [.shIR])
    (hw : irWalkOn prev count closed old (samples.map s.tdoOf) = some (.irLengths prev' count' closed' old'))
    (hf : samples ≠ [] → Fits s 2) (ha : answered (bitTalk samples) s = true) :
    irLoop (samples.length + fuel) prev count closed old s
      = irLoop fuel prev' count' closed' old' (s.exchanged (bitTalk samples)) := by
  induction samples generalizing s prev count closed old with
  | nil =>
    simp [irWalkOn] at hw
    obtain ⟨rfl, rfl, rfl, rfl⟩ := hw
    simp [State.exchanged, bitTalk, envAfter]
  | cons b samples ih =>
    simp only [bitTalk, List.map_cons] at ha
    obtain ⟨a1, a2, a3⟩ := answered_cons ha
    rw [show (b :: samples).length + fuel = (samples.length + fuel) + 1 by simp; omega, irLoop,
      bind_of_ok (irBit_next hcq hbb ht (hf (by simp)) (answered_single a1))]
    have hex := exchanged_cons ha
    simp only [bitTalk, List.map_cons] at hex ⊢
    rw [hex]
    have go := fun p c d o hw' =>
      ih (prev := p) (count := c) (closed := d) (old := o) (s := s.exchanged [(clocks bitUnits, clockAnswer [b])])
        hcq hbb ht hw' (fun _ => hf (by simp)) a2
    simp only [List.map_cons] at hw
    cases hb : s.tdoOf b <;> cases prev <;> cases closed <;> simp only [irWalkOn, hb, reduceCtorEq] at hw <;>
      simp only [Bool.not_true, Bool.not_false, Bool.and_true, Bool.and_false, Bool.and_self,
        Bool.false_eq_true, if_true, if_false] <;>
      exact go _ _ _ _ hw

/-- Bits that end a scan are bits that do not, and then a 1 after a 1 with a boundary closed. -/
theorem irWalk_last {prev : Bool} {count : Nat} {closed : Bool} {found lengths : List Nat} {bs : List Bool}
    (h : irWalk prev count closed found bs = some lengths) :
    ∃ (bs' : List Bool) (count' : Nat), bs = bs' ++ [true]
      ∧ irWalkOn prev count closed found bs' = some (.irLengths true count' true lengths) := by
  induction bs generalizing prev count closed found with
  | nil => simp [irWalk] at h
  | cons b bs ih =>
    have go : ∀ p c d o, irWalk p c d o bs = some lengths → (∀ bs', irWalkOn prev count closed found (b :: bs')
        = irWalkOn p c d o bs') → ∃ (bs' : List Bool) (count' : Nat), b :: bs = bs' ++ [true]
        ∧ irWalkOn prev count closed found bs' = some (.irLengths true count' true lengths) := by
      intro p c d o hw hg
      obtain ⟨bs', c', rfl, h2⟩ := ih hw
      exact ⟨b :: bs', c', rfl, by rw [hg]; exact h2⟩
    cases b <;> cases prev <;> cases closed <;> simp only [irWalk] at h <;>
      first
      | exact go _ _ _ _ h fun _ => rfl
      | skip
    split at h
    · next hnil =>
      subst hnil
      simp only [Option.some.injEq] at h
      subst h
      exact ⟨[], count, rfl, rfl⟩
    · simp at h

/-- Zeros only count. -/
theorem irWalk_zeros (prev : Bool) (count : Nat) (closed : Bool) (found : List Nat) (n : Nat) (bs : List Bool) :
    irWalk prev count closed found (List.replicate n false ++ bs)
      = irWalk (if n = 0 then prev else false) (count + n) closed found bs := by
  induction n generalizing prev count with
  | zero => simp
  | succ n ih =>
    rw [List.replicate_succ, List.cons_append]
    have : irWalk prev count closed found (false :: (List.replicate n false ++ bs)) = irWalk false (count + 1) closed found (List.replicate n false ++ bs) := by
      cases prev <;> rfl
    rw [this, ih]
    simp; congr 1; omega

end Sys2Proof.Laws
end

