-- ==== Sys2Proof/Laws/Ends.lean ====
section
/-! SUPPORT. Once and for all, how each operation can end: with a value, a TransportError, another typed error, a model
fault, or in progress, and what each leaves of the state. Every statement about all instructions comes from these. -/

namespace Sys2Proof.Laws

open Sys2Proof.Machine

/-! ### The history -/

theorem pairedFrom_append {b : Bool} {as bs : List Event} (ha : pairedFrom b as = true)
    (hb : pairedFrom false bs = true) : pairedFrom b (as ++ bs) = true := by
  induction as generalizing b with
  | nil => cases b <;> simp_all [pairedFrom]
  | cons a as ih => cases b <;> cases a <;> simp_all [pairedFrom]

/-- The history has grown, by frames that are legal, each followed by its answer or failure. -/
def Grows (s t : State) : Prop :=
  ∃ es : List Event, t.hist = s.hist ++ es ∧ pairedFrom false es = true ∧ ∀ f, Event.out f ∈ es → frameLegal f = true

theorem Grows.of_eq {s t : State} (h : t.hist = s.hist) : Grows s t := ⟨[], by simp [h], rfl, by simp⟩

theorem Grows.trans {s t u : State} (h : Grows s t) (h' : Grows t u) : Grows s u := by
  obtain ⟨a, h1, h2, h3⟩ := h
  obtain ⟨b, g1, g2, g3⟩ := h'
  refine ⟨a ++ b, by rw [g1, h1, List.append_assoc], pairedFrom_append h2 g2, fun f hf => ?_⟩
  exact (List.mem_append.1 hf).elim (h3 f) (g3 f)

/-- One exchange. -/
theorem grows_exchange {s : State} {f : List Byte} {x : Event} (e : Env) (hf : frameLegal f = true)
    (hx : (∃ a, x = .inn a) ∨ ∃ l, x = .fail l) : Grows s (s.traffic [.out f, x] e) := by
  refine ⟨_, rfl, by rcases hx with ⟨a, rfl⟩ | ⟨a, rfl⟩ <;> rfl, fun g hg => ?_⟩
  rcases hx with ⟨a, rfl⟩ | ⟨a, rfl⟩ <;> simp at hg <;> rw [hg] <;> exact hf

theorem frameD0_legal (sp : Byte) : frameLegal (frameD0 sp) = true := by
  have := decodeFrame_frameD0 sp []
  rw [List.append_nil] at this
  simp [frameLegal, this]

theorem frameE5_legal (sp : Byte) : frameLegal (frameE5 sp) = true := by
  have := decodeFrame_frameE5 sp []
  rw [List.append_nil] at this
  simp [frameLegal, this]

theorem clockFrame_legal {s : State} (h0 : s.cq ≠ []) (ho : overflows s.par (2 * s.cq.length) = false) :
    frameLegal s.clockFrame = true := by
  have h := (fits_of_overflows ho).1
  have := decodeFrame_frameD2 (us := s.cq.map ClockUnit.wire) (by simpa using h0) (by simp; omega) []
  rw [List.append_nil] at this
  simp [frameLegal, State.clockFrame, this]

/-- A register address with the bits of its offset that are not sent cleared. -/
def sentAddr : RegAddr → RegAddr
  | .dp off => .dp (off &&& 0x0C)
  | .ap off => .ap (off &&& 0x0C)

/-- A subcommand as its frame is read back. -/
def sentSub : Subcmd → Subcmd
  | .registerRead a => .registerRead (sentAddr a)
  | .registerWrite a d => .registerWrite (sentAddr a) d
  | .rawSequence n b => .rawSequence n b

theorem header_sentAddr (a : RegAddr) (rnw : Bool) : header (sentAddr a) rnw = header a rnw := by
  have key : ∀ (off : Byte) (rnw : Bool), header (.dp (off &&& 0x0C)) rnw = header (.dp off) rnw
      ∧ header (.ap (off &&& 0x0C)) rnw = header (.ap off) rnw := by decide +kernel
  cases a with
  | dp off => exact (key off rnw).1
  | ap off => exact (key off rnw).2

theorem encodeSub_sentSub (g : Subcmd) : encodeSub (sentSub g) = encodeSub g := by
  cases g <;> simp [sentSub, encodeSub, header_sentAddr]

theorem sentSub_wireForm {g : Subcmd} (h : subLengthOk g = true) : (sentSub g).wireForm = true := by
  have key : ∀ off : Byte, ((off &&& 0x0C) &&& 0x0C == (off &&& 0x0C)) = true := by decide +kernel
  cases g with
  | registerRead a => cases a <;> exact key _
  | registerWrite a d => cases a <;> exact key _
  | rawSequence n b =>
    simp only [subLengthOk, rawAccepted] at h
    simpa [sentSub, Subcmd.wireForm, rawWellFormed, rawByteCount] using h

/-- The frame of a batch is read back as the batch it sends. -/
theorem decodeFrame_sent {gs : List Subcmd} (h0 : gs ≠ []) (hg : ∀ g ∈ gs, subLengthOk g = true)
    (h : (batchPayload gs).length < 65536) : decodeFrame (frameE8 gs) = .ok (.e8 (gs.map sentSub), []) := by
  have e : batchPayload (gs.map sentSub) = batchPayload gs := by
    simp [batchPayload, List.flatMap_map, encodeSub_sentSub]
  have e2 : frameE8 (gs.map sentSub) = frameE8 gs := by simp [frameE8, e]
  have := decodeFrame_frameE8 (gs := gs.map sentSub) (by simpa using h0)
    (by simp only [List.all_map, List.all_eq_true]; exact fun g hm => sentSub_wireForm (hg g hm)) (by rw [e]; exact h) []
  rwa [e2, List.append_nil] at this

theorem frameE8_legal {gs : List Subcmd} (h0 : gs ≠ []) (hg : ∀ g ∈ gs, subLengthOk g = true)
    (h : (batchPayload gs).length < 65536) : frameLegal (frameE8 gs) = true := by
  simp [frameLegal, decodeFrame_sent h0 hg h]

/-! ### What stays -/

/-- What every part of an operation leaves as it is, but for the end of a discovery, an init, select_target and a
TransportError. -/
structure Same (s t : State) : Prop where
  mode : t.mode = s.mode
  jspeed : t.jspeed = s.jspeed
  sspeed : t.sspeed = s.sspeed
  fault : t.fault = s.fault
  pc : t.pc = s.pc
  calls : t.calls = s.calls
  results : t.results = s.results
  par : t.par = s.par
  prog : t.prog = s.prog
  taps : t.taps = s.taps
  sel : t.sel = s.sel
  irPre : t.irPre = s.irPre
  irPos : t.irPos = s.irPos
  pre : t.pre = s.pre
  pos : t.pos = s.pos
  grows : Grows s t

/-- Where only the tracker, the queues, the buffers, the line, the history and the environment differ. -/
theorem Same.of_grows {s t : State} (h : Grows s t) (e : t = { s with
    tap := t.tap, cq := t.cq, bb := t.bb, sq := t.sq, rq := t.rq, link := t.link, hist := t.hist, env := t.env }) :
    Same s t := by
  rw [e] at h ⊢
  exact ⟨rfl, rfl, rfl, rfl, rfl, rfl, rfl, rfl, rfl, rfl, rfl, rfl, rfl, rfl, rfl, h⟩

theorem Same.trans {s t u : State} (h : Same s t) (g : Same t u) : Same s u :=
  ⟨g.mode.trans h.mode, g.jspeed.trans h.jspeed, g.sspeed.trans h.sspeed, g.fault.trans h.fault, g.pc.trans h.pc,
    g.calls.trans h.calls, g.results.trans h.results, g.par.trans h.par, g.prog.trans h.prog, g.taps.trans h.taps,
    g.sel.trans h.sel, g.irPre.trans h.irPre, g.irPos.trans h.irPos, g.pre.trans h.pre, g.pos.trans h.pos,
    h.grows.trans g.grows⟩

/-- What a part of a JTAG operation leaves as it is. -/
structure SameJ (s t : State) : Prop extends Same s t where
  sq : t.sq = s.sq
  rq : t.rq = s.rq
  link : t.link = s.link

theorem SameJ.refl (s : State) : SameJ s s := ⟨.of_grows (.of_eq rfl) rfl, rfl, rfl, rfl⟩

theorem SameJ.trans {s t u : State} (h : SameJ s t) (g : SameJ t u) : SameJ s u :=
  ⟨h.toSame.trans g.toSame, g.sq.trans h.sq, g.rq.trans h.rq, g.link.trans h.link⟩

/-- What a part of an SWD operation leaves as it is. -/
structure SameS (s t : State) : Prop extends Same s t where
  tap : t.tap = s.tap
  cq : t.cq = s.cq
  bb : t.bb = s.bb

theorem SameS.refl (s : State) : SameS s s := ⟨.of_grows (.of_eq rfl) rfl, rfl, rfl, rfl⟩

theorem SameS.trans {s t u : State} (h : SameS s t) (g : SameS t u) : SameS s u :=
  ⟨h.toSame.trans g.toSame, g.tap.trans h.tap, g.cq.trans h.cq, g.bb.trans h.bb⟩

/-- What a TransportError leaves (R311), from the state `s` before the operation. -/
structure Lost (s : State) (l : LinkFail) (t : State) : Prop where
  mode : t.mode = .uninit
  jspeed : t.jspeed = s.jspeed
  sspeed : t.sspeed = s.sspeed
  fault : t.fault = s.fault
  pc : t.pc = s.pc
  calls : t.calls = s.calls
  results : t.results = s.results
  par : t.par = s.par
  prog : t.prog = s.prog
  taps : t.taps = s.taps
  sel : t.sel = s.sel
  irPre : t.irPre = s.irPre
  irPos : t.irPos = s.irPos
  pre : t.pre = s.pre
  pos : t.pos = s.pos
  grows : Grows s t
  rq : t.rq = s.rq
  cq : t.cq = []
  sq : t.sq = []
  tap : t.tap = TapState.all
  link : t.link = .unknown
  last : t.hist.getLast? = some (.fail l)

/-- A transfer that fails, after what came before it. -/
theorem Same.lost {s t : State} (h : Same s t) (hr : t.rq = s.rq) {f : List Byte} (hf : frameLegal f = true) (l : LinkFail)
    (e : Env) : Lost s l (t.traffic [.out f, .fail l] e).lose :=
  ⟨rfl, h.jspeed, h.sspeed, h.fault, h.pc, h.calls, h.results, h.par, h.prog, h.taps, h.sel, h.irPre, h.irPos, h.pre,
    h.pos, h.grows.trans ((grows_exchange e hf (.inr ⟨l, rfl⟩)).trans (.of_eq rfl)), hr, rfl, rfl, rfl, rfl,
    by simp [State.lose]⟩

/-! ### JTAG operations -/

/-- How a JTAG operation, or a part of it, ends from the state `s` before the operation: `Q` says what a value leaves, `R`
what a loop in progress leaves. -/
inductive EndJ (s : State) (R : State → Prop) {α : Type} (Q : α → State → Prop) : Res α → State → Prop
  | ok {a : α} {t : State} (h : Q a t) : EndJ s R Q (.ok a) t
  | lost {l : LinkFail} {t : State} (h : Lost s l t) (hb : BuffersEmpty s → t.bb = []) : EndJ s R Q (.err (.transport l)) t
  | err {e : TypedError} {t : State} (he : ∀ l, e ≠ .transport l) (h : SameJ s t) (ht : TrackerOk s → TrackerOk t)
      (hs : TrackerOk s → TrackerSettled t) (hb : BuffersEmpty s → BuffersEmpty t) : EndJ s R Q (.err e) t
  | halt {f : ModelFault} {t : State} (h : SameJ s t) (ht : TrackerOk s → TrackerOk t) : EndJ s R Q (.halt f) t
  | running {t : State} (h : R t) : EndJ s R Q .running t

/-- As for `bind_rel`. -/
theorem EndJ.bind {α β : Type} {s t : State} {m : Act α} {k : α → Act β} {R : State → Prop} {Q : α → State → Prop}
    {Q' : β → State → Prop} (hm : EndJ s R Q (m t).1 (m t).2) (hk : ∀ a u, Q a u → EndJ s R Q' (k a u).1 (k a u).2) :
    EndJ s R Q' (Act.bind m k t).1 (Act.bind m k t).2 := by
  unfold Act.bind
  rcases h : m t with ⟨r, u⟩
  rw [h] at hm
  cases hm with
  | ok h => exact hk _ _ h
  | lost h hb => exact .lost h hb
  | err he h ht hs hb => exact .err he h ht hs hb
  | halt h ht => exact .halt h ht
  | running h => exact .running h

theorem EndJ.mono {α : Type} {s t : State} {R R' : State → Prop} {Q Q' : α → State → Prop} {r : Res α}
    (h : EndJ s R Q r t) (hq : ∀ a, Q a t → Q' a t) (hr : R t → R' t) : EndJ s R' Q' r t := by
  cases h with
  | ok h => exact .ok (hq _ h)
  | lost h hb => exact .lost h hb
  | err he h ht hs hb => exact .err he h ht hs hb
  | halt h ht => exact .halt h ht
  | running h => exact .running (hr h)

/-- In the middle of a JTAG operation from `s`: the tracker, the queue and the number of captured bits not yet drained. -/
structure Mid (s : State) (T : List TapState) (cq : List ClockUnit) (n : Nat) (t : State) : Prop where
  same : SameJ s t
  tap : t.tap = T
  cq : BuffersEmpty s → t.cq = cq
  bb : BuffersEmpty s → t.bb.length = n

theorem mid_refl (s : State) : Mid s s.tap [] 0 s := ⟨.refl s, rfl, fun h => h.1, fun h => by simp [h.2]⟩

theorem mid_emit {s t : State} {T : List TapState} {cq : List ClockUnit} {n : Nat} (us : List ClockUnit)
    (h : Mid s T cq n t) : Mid s (deltaSeq T (us.map ClockUnit.tms)) (cq ++ us) n (t.emitAll us) := by
  refine ⟨h.same.trans ⟨.of_grows (.of_eq (by simp)) ?_, by simp, by simp, by simp⟩, by simp [h.tap],
    fun hb => by simp [h.cq hb], fun hb => by simp [h.bb hb]⟩
  rw [State.emitAll_eq]

theorem mid_drain {s t : State} {T : List TapState} {cq : List ClockUnit} {n : Nat} (k : Nat) (h : Mid s T cq n t) :
    Mid s T cq (n - k) (t.drained k) :=
  ⟨h.same.trans ⟨.of_grows (.of_eq rfl) rfl, rfl, rfl, rfl⟩, h.tap, h.cq, fun hb => by simp [State.drained, h.bb hb]⟩

theorem capturedBits_length (tb : Fin 8) {us : List ClockUnit} {as : List Byte} (h : us.length = as.length) :
    (capturedBits tb us as).length = us.countP ClockUnit.cap := by
  induction us generalizing as with
  | nil => cases as <;> simp_all [capturedBits]
  | cons u us ih =>
    cases as with
    | nil => simp at h
    | cons a as =>
      have := ih (as := as) (by simpa using h)
      simp only [capturedBits, List.length_map] at this ⊢
      rw [List.zip_cons_cons, List.filter_cons, List.countP_cons, ← this]
      split <;> simp_all

/-- A flush in the middle of a JTAG operation (R165). -/
theorem mid_flush {R : State → Prop} {s t : State} {T : List TapState} {cq : List ClockUnit}
    (hT : TrackerOk s → tapSetOk T = true) (h : Mid s T cq 0 t) :
    EndJ s R (fun _ u => Mid s T [] (cq.countP ClockUnit.cap) u) (jtagFlush t).1 (jtagFlush t).2 := by
  have bb : BuffersEmpty s → t.bb = [] := fun hb => List.length_eq_zero_iff.1 (h.bb hb)
  rcases jtagFlush_cases t with ⟨h0, g⟩ | ⟨h0, _, g⟩ | ⟨h0, ho, l, e', g⟩ | ⟨h0, ho, a, e', _, _, g⟩ | ⟨h0, ho, a, e', hl, _, g⟩ <;>
    rw [g]
  · exact .ok ⟨h.same, h.tap, fun _ => h0, fun hb => by rw [bb hb, ← h.cq hb, h0]; rfl⟩
  · exact .err (fun l => by simp [overflowError]) (h.same.trans ⟨.of_grows (.of_eq rfl) rfl, rfl, rfl, rfl⟩)
      (fun _ => (by decide : tapSetOk TapState.all = true)) (fun _ => .inr (by decide : 1 < TapState.all.length))
      (fun hb => ⟨rfl, bb hb⟩)
  · exact .lost (h.same.toSame.lost h.same.rq (clockFrame_legal h0 ho) l e') bb
  · exact .halt (h.same.trans ⟨.of_grows (grows_exchange e' (clockFrame_legal h0 ho) (.inl ⟨a, rfl⟩)) rfl, rfl, rfl, rfl⟩)
      (fun hs => by unfold TrackerOk; rw [State.traffic_tap, h.tap]; exact hT hs)
  · refine .ok ⟨h.same.trans ⟨.of_grows ((grows_exchange e' (clockFrame_legal h0 ho) (.inl ⟨a, rfl⟩)).trans (.of_eq rfl))
      rfl, rfl, rfl, rfl⟩, h.tap, fun _ => rfl, fun hb => ?_⟩
    rw [State.captured_bb, State.traffic_bb, bb hb, List.nil_append, capturedBits_length _ (by simp [hl]), h.cq hb]

/-- What a JTAG operation that ends with a value leaves; `settles` says that the tracker is settled. -/
def DoneJ (s : State) (settles : Bool) (t : State) : Prop :=
  SameJ s t ∧ (TrackerOk s → TrackerOk t) ∧ (settles = true → TrackerOk s → TrackerSettled t)
    ∧ (BuffersEmpty s → BuffersEmpty t)

theorem doneJ_of_mid {s t : State} (h : Mid s [.rti] [] 0 t) : DoneJ s true t :=
  ⟨h.same, fun _ => by unfold TrackerOk; rw [h.tap]; rfl, fun _ _ => .inl h.tap,
    fun hb => ⟨h.cq hb, List.length_eq_zero_iff.1 (h.bb hb)⟩⟩

theorem end_requireJtag (s : State) : EndJ s (fun _ => False) (fun _ u => u = s) (requireJtag s).1 (requireJtag s).2 := by
  by_cases h : s.mode = .jtag
  · rw [requireJtag_of h]; exact .ok rfl
  · rw [requireJtag_fault h]; exact .halt (.refl s) id

/-- RequireIdle, in the middle of an operation with the tracker at {RTI} or before it starts. -/
theorem end_requireIdle {R : State → Prop} {s t : State} (h : SameJ s t) (ht : TrackerOk s → TrackerOk t) :
    EndJ s R (fun _ u => u = t ∧ t.mode = .jtag ∧ t.tap = [.rti]) (requireIdle t).1 (requireIdle t).2 := by
  rcases requireIdle_cases t with ⟨h1, h2, g⟩ | ⟨_, g⟩ | ⟨_, _, g⟩ <;> rw [g]
  · exact .ok ⟨rfl, h1, h2⟩
  · exact .halt h ht
  · exact .halt h ht

theorem scanUnits_count (kind : ScanKind) (value : BitVec 64) (n p q : Nat) :
    (scanUnits kind value n p q).countP ClockUnit.cap = n := by
  have h1 : (dataUnits value n q).countP ClockUnit.cap = n := by
    rw [List.countP_eq_length.2 (by simp [dataUnits])]; simp [dataUnits]
  have h2 : (trailingUnits q).countP ClockUnit.cap = 0 := List.countP_eq_zero.2 (by simp [trailingUnits, nav])
  have h3 : (List.replicate p (nav false)).countP ClockUnit.cap = 0 := List.countP_eq_zero.2 (by simp [nav])
  simp only [scanUnits, List.countP_append, h1, h2, h3]
  cases kind <;> simp [enterShiftDR, enterShiftIR, leaveExit1, nav]

/-- A scan in the middle of an operation (R185). -/
theorem mid_scan {R : State → Prop} {s t : State} (kind : ScanKind) (value : BitVec 64) (n : Nat) (h : Mid s [.rti] [] 0 t) :
    EndJ s R (fun _ u => Mid s [.rti] [] 0 u) (scan kind value n t).1 (scan kind value n t).2 := by
  have ht : TrackerOk s → TrackerOk t := fun _ => by unfold TrackerOk; rw [h.tap]; rfl
  unfold scan
  refine EndJ.bind (end_requireIdle h.same ht) ?_
  rintro _ u ⟨hu, -⟩
  rw [hu]
  refine EndJ.bind (Q := fun _ v => v = t ∧ 1 ≤ n) ?_ ?_
  · unfold Act.faultIf
    split
    · exact .halt h.same ht
    · rename_i hl
      simp at hl
      exact .ok ⟨rfl, by omega⟩
  rintro _ v ⟨hv, hl⟩
  rw [hv, bind_change]
  have hm := mid_emit (scanUnits kind value n (t.leading kind) (t.trailing kind)) h
  rw [scanUnits_tap kind value hl] at hm
  refine EndJ.bind (mid_flush (fun _ => (rfl : tapSetOk [.rti] = true)) hm) ?_
  intro _ w hw
  rw [List.nil_append, scanUnits_count] at hw
  have := mid_drain n hw
  rw [Nat.sub_self] at this
  exact .ok this

/-- A scan by itself. -/
theorem end_scan (s : State) (kind : ScanKind) (value : BitVec 64) (n : Nat) :
    EndJ s (fun _ => False) (fun _ => Mid s [.rti] [] 0) (scan kind value n s).1 (scan kind value n s).2 := by
  by_cases h : s.tap = [.rti]
  · exact mid_scan kind value n (h ▸ mid_refl s)
  · unfold scan
    exact EndJ.bind (end_requireIdle (.refl s) id) fun _ u hu => absurd hu.2.2 h

/-- write_ir and write_dr (R186, R187). -/
theorem end_write (s : State) (kind : ScanKind) (value : BitVec 64) (n : Nat) :
    EndJ s (fun _ => False) (fun _ => DoneJ s true)
      (Act.bind (scan kind value n) (fun bits => Act.ret (Value.bits bits)) s).1
      (Act.bind (scan kind value n) (fun bits => Act.ret (Value.bits bits)) s).2 :=
  EndJ.bind (end_scan s kind value n) fun _ _ hu => .ok (doneJ_of_mid hu)

/-- reset_and_idle (R181). -/
theorem end_resetAndIdle (s : State) :
    EndJ s (fun _ => False) (fun _ => DoneJ s true) (resetAndIdle s).1 (resetAndIdle s).2 := by
  unfold resetAndIdle
  refine EndJ.bind (end_requireJtag s) ?_
  intro _ u hu
  rw [hu, bind_emits]
  have ht : TrackerOk s → deltaSeq s.tap (resetUnits.map ClockUnit.tms) = [.rti] := fun h => deltaSeq_reset h
  refine EndJ.bind (mid_flush (fun h => by rw [ht h]; rfl) (mid_emit resetUnits (mid_refl s))) ?_
  intro _ v hv
  refine .ok ⟨hv.same, fun h => ?_, fun _ h => .inl (hv.tap.trans (ht h)),
    fun hb => ⟨hv.cq hb, List.length_eq_zero_iff.1 (hv.bb hb)⟩⟩
  unfold TrackerOk
  rw [ret_apply, hv.tap, ht h]
  rfl

/-- A size check (R313). -/
theorem end_scanFits {R : State → Prop} (s : State) (kind : ScanKind) (n : Nat) :
    EndJ s R (fun _ u => u = s) (scanFits kind n s).1 (scanFits kind n s).2 := by
  rcases scanFits_cases kind n s with ⟨_, g⟩ | ⟨_, g⟩ <;> rw [g]
  · exact .ok rfl
  · exact .err (fun l => by simp [overflowError]) ⟨.of_grows (.of_eq rfl) rfl, rfl, rfl, rfl⟩
      (fun _ => (by decide : tapSetOk TapState.all = true)) (fun _ => .inr (by decide : 1 < TapState.all.length))
      (fun hb => ⟨rfl, hb.2⟩)

/-- access_register (R188). -/
theorem end_accessRegister (s : State) (addr : RegAddr) (value : Option Word) :
    EndJ s (fun _ => False) (fun _ => DoneJ s true) (accessRegister addr value s).1 (accessRegister addr value s).2 := by
  unfold accessRegister
  refine EndJ.bind (end_requireIdle (.refl s) id) ?_
  rintro _ u ⟨hu, hm, ht⟩
  rw [hu]
  refine EndJ.bind (Q := fun _ v => v = s) ?_ ?_
  · unfold Act.faultIf
    split
    · exact .halt (.refl s) id
    · exact .ok rfl
  intro _ v hv
  rw [hv]
  refine EndJ.bind (end_scanFits s .ir 4) ?_
  intro _ v hv
  rw [hv]
  refine EndJ.bind (end_scanFits s .dr Config.drAccBits) ?_
  intro _ v hv
  rw [hv]
  refine EndJ.bind (mid_scan _ _ _ (ht ▸ mid_refl s)) ?_
  intro _ w hw
  refine EndJ.bind (mid_scan _ _ _ hw) ?_
  intro bits x hx
  have hd := doneJ_of_mid hx
  unfold accessResult
  split
  · exact .ok hd
  · exact .err (by simp) hd.1 hd.2.1 (hd.2.2.1 rfl) hd.2.2.2

/-- A D2 frame by itself (R103). -/
theorem end_clockBatch (s : State) (us : List WireUnit) :
    EndJ s (fun _ => False) (fun _ => DoneJ s false) (clockBatch us s).1 (clockBatch us s).2 := by
  unfold clockBatch
  refine EndJ.bind (end_requireJtag s) ?_
  intro _ u hu
  rw [hu, bind_emits]
  refine EndJ.bind (mid_flush (fun h => tapSetOk_deltaSeq h _) (mid_emit (us.map WireUnit.captured) (mid_refl s))) ?_
  intro _ v hv
  have hc : ([] ++ us.map WireUnit.captured).countP ClockUnit.cap = us.length := by
    rw [List.nil_append, List.countP_eq_length.2 (by simp [WireUnit.captured])]; simp
  rw [hc] at hv
  have := mid_drain us.length hv
  refine .ok ⟨this.same, fun h => ?_, by simp,
    fun hb => ⟨this.cq hb, List.length_eq_zero_iff.1 (by simpa using this.bb hb)⟩⟩
  unfold TrackerOk
  rw [bind_drain, ret_apply, this.tap]
  exact tapSetOk_deltaSeq h _

/-! ### Discovery -/

/-- What a discovery that ends leaves (R182, R183), but for `taps`. -/
structure DoneD (s t : State) : Prop where
  mode : t.mode = s.mode
  jspeed : t.jspeed = s.jspeed
  sspeed : t.sspeed = s.sspeed
  fault : t.fault = s.fault
  pc : t.pc = s.pc
  calls : t.calls = s.calls
  results : t.results = s.results
  par : t.par = s.par
  prog : t.prog = s.prog
  sel : t.sel = none
  irPre : t.irPre = 0
  irPos : t.irPos = 0
  pre : t.pre = 0
  pos : t.pos = 0
  grows : Grows s t
  sq : t.sq = s.sq
  rq : t.rq = s.rq
  link : t.link = s.link
  tap : t.tap = [.rti]
  buffers : BuffersEmpty s → BuffersEmpty t

/-- A discovery left in progress (assumption log 10). -/
def InProgress (s : State) (T : List TapState) (P : Progress → Prop) (t : State) : Prop :=
  ∃ u p, t = u.progress (some p) ∧ P p ∧ Mid s T [] 0 u

/-- Where a chain scan stands: no identifier is the terminator. -/
def ChainProgress (p : Progress) : Prop := ∃ ids, p = .chain ids ∧ ∀ w ∈ ids, w ≠ 0xFFFFFFFF

/-- Where an IR scan stands: the count, and every length so far, is at least 1. -/
def IrProgress (p : Progress) : Prop :=
  ∃ prev count closed found, p = .irLengths prev count closed found ∧ 1 ≤ count ∧ ∀ n ∈ found, 1 ≤ n

theorem mid_chainWord {R : State → Prop} {s t : State} {cq : List ClockUnit} (hcq : cq.countP ClockUnit.cap = 0)
    (h : Mid s [.shDR] cq 0 t) : EndJ s R (fun _ u => Mid s [.shDR] [] 0 u) (chainWord t).1 (chainWord t).2 := by
  unfold chainWord
  rw [bind_emits]
  generalize hL : List.replicate 32 (⟨false, true, true⟩ : ClockUnit) = L
  have hm := mid_emit L h
  have ht : deltaSeq [.shDR] (L.map ClockUnit.tms) = [.shDR] := by
    rw [← hL, List.map_replicate]; exact deltaSeq_shift rfl 32
  have hc : (cq ++ L).countP ClockUnit.cap = 32 := by rw [List.countP_append, hcq, ← hL]; decide
  rw [ht] at hm
  have hf := mid_flush (R := R) (fun _ => (rfl : tapSetOk [.shDR] = true)) hm
  rw [hc] at hf
  exact EndJ.bind hf fun _ u hu => .ok (mid_drain 32 hu)

theorem mid_irBit {R : State → Prop} {s t : State} {cq : List ClockUnit} (hcq : cq.countP ClockUnit.cap = 0)
    (h : Mid s [.shIR] cq 0 t) : EndJ s R (fun _ u => Mid s [.shIR] [] 0 u) (irBit t).1 (irBit t).2 := by
  unfold irBit
  rw [bind_emits]
  have hc : (cq ++ [(⟨false, true, true⟩ : ClockUnit)]).countP ClockUnit.cap = 1 := by
    rw [List.countP_append, hcq]; decide
  have hf := mid_flush (R := R) (fun _ => (rfl : tapSetOk [.shIR] = true)) (mid_emit [⟨false, true, true⟩] h)
  rw [hc] at hf
  exact EndJ.bind hf fun _ u hu => .ok (mid_drain 1 hu)

/-- The end of a discovery: the three units out of the shift state, a flush, and a change of `taps` and the selection. -/
theorem mid_leave {R : State → Prop} {s t : State} {q : TapState} (hq : q = .shDR ∨ q = .shIR) (h : Mid s [q] [] 0 t) :
    EndJ s R (fun _ u => DoneD s u.clearSelection ∧ u.taps = s.taps)
      (jtagFlush (t.emitAll leaveShift)).1 (jtagFlush (t.emitAll leaveShift)).2 := by
  have hm := mid_emit leaveShift h
  rw [show deltaSeq [q] (leaveShift.map ClockUnit.tms) = [.rti] by rcases hq with rfl | rfl <;> decide] at hm
  refine (mid_flush (fun _ => (rfl : tapSetOk [.rti] = true)) hm).mono (fun _ hv => ?_) id
  have g := hv.same
  exact ⟨⟨g.mode, g.jspeed, g.sspeed, g.fault, g.pc, g.calls, g.results, g.par, g.prog, rfl, rfl, rfl, rfl, rfl, g.grows,
    g.sq, g.rq, g.link, hv.tap, fun hb => ⟨hv.cq hb, List.length_eq_zero_iff.1 (hv.bb hb)⟩⟩, g.taps⟩

/-- The loop of R182. -/
theorem end_chainLoop {s t : State} {cq : List ClockUnit} (hcq : cq.countP ClockUnit.cap = 0) (fuel : Nat)
    (ids : List Word) (hi : ∀ w ∈ ids, w ≠ 0xFFFFFFFF) (h : Mid s [.shDR] cq 0 t) (h0 : cq = [] ∨ 0 < fuel) :
    EndJ s (InProgress s [.shDR] ChainProgress) (fun _ u => DoneD s u ∧ u.taps = s.taps)
      (chainLoop fuel ids t).1 (chainLoop fuel ids t).2 := by
  induction fuel generalizing ids t cq with
  | zero =>
    have : cq = [] := h0.resolve_right (by omega)
    subst this
    exact .running ⟨t, _, rfl, ⟨ids, rfl, hi⟩, h⟩
  | succ fuel ih =>
    rw [chainLoop]
    refine EndJ.bind (mid_chainWord hcq h) ?_
    intro w u hu
    split
    · unfold chainEnd
      rw [bind_emits]
      exact EndJ.bind (mid_leave (.inl rfl) hu) fun _ v hv => .ok hv
    · rename_i hw
      refine ih rfl _ (fun x hx => ?_) hu (.inl rfl)
      rcases List.mem_append.1 hx with hx | hx
      · exact hi x hx
      · rw [List.mem_singleton.1 hx]; exact hw

/-- The loop of R183. -/
theorem end_irLoop {s t : State} (fuel : Nat) (prev : Bool) (count : Nat) (closed : Bool) (found : List Nat)
    (hc : 1 ≤ count) (hf : ∀ n ∈ found, 1 ≤ n) (h : Mid s [.shIR] [] 0 t) :
    EndJ s (InProgress s [.shIR] IrProgress) (fun _ u => DoneD s u ∧ ∀ n ∈ u.taps, 1 ≤ n)
      (irLoop fuel prev count closed found t).1 (irLoop fuel prev count closed found t).2 := by
  induction fuel generalizing prev count closed found t with
  | zero => exact .running ⟨t, _, rfl, ⟨_, _, _, _, rfl, hc, hf⟩, h⟩
  | succ fuel ih =>
    rw [irLoop]
    refine EndJ.bind (mid_irBit rfl h) ?_
    intro b u hu
    split
    · refine ih _ _ _ _ (Nat.le_refl 1) (fun x hx => ?_) hu
      rcases List.mem_append.1 hx with hx | hx
      · exact hf x hx
      · rw [List.mem_singleton.1 hx]; exact hc
    split
    · unfold irEnd
      rw [bind_emits]
      refine EndJ.bind (mid_leave (.inr rfl) hu) fun _ v hv => .ok ⟨?_, hf⟩
      exact { hv.1 with }
    · exact ih _ _ _ _ (by omega) hf hu

/-- discover_chain (R182). -/
theorem end_discoverChain (s : State) :
    EndJ s (fun t => s.mode = .jtag ∧ InProgress s [.shDR] ChainProgress t) (fun _ u => DoneD s u ∧ u.taps = s.taps)
      (discoverChain s).1 (discoverChain s).2 := by
  unfold discoverChain
  refine EndJ.bind (end_requireIdle (.refl s) id) ?_
  rintro _ u ⟨hu, hm, ht⟩
  rw [hu, bind_emits]
  have h0 := mid_emit enterShiftDR (mid_refl s)
  rw [ht, show deltaSeq [.rti] (enterShiftDR.map ClockUnit.tms) = [.shDR] by decide] at h0
  exact (end_chainLoop (by decide) _ [] (by simp) h0 (.inr (chainFuel_pos _))).mono (fun _ h => h) fun h => ⟨hm, h⟩

/-- discover_ir_lengths (R183). -/
theorem end_discoverIrLengths (s : State) :
    EndJ s (fun t => s.mode = .jtag ∧ InProgress s [.shIR] IrProgress t) (fun _ u => DoneD s u ∧ ∀ n ∈ u.taps, 1 ≤ n)
      (discoverIrLengths s).1 (discoverIrLengths s).2 := by
  unfold discoverIrLengths
  refine EndJ.bind (end_requireIdle (.refl s) id) ?_
  rintro _ u ⟨hu, hm, ht⟩
  rw [hu, bind_emits]
  have h0 := mid_emit enterShiftIR (mid_refl s)
  rw [ht, show deltaSeq [.rti] (enterShiftIR.map ClockUnit.tms) = [.shIR] by decide] at h0
  refine EndJ.bind (mid_irBit (by decide) h0) ?_
  intro b v hv
  exact (end_irLoop _ b 1 false [] (Nat.le_refl 1) (by simp) hv).mono (fun _ h => h) fun h => ⟨hm, h⟩

/-! ### SWD operations -/

/-- How an SWD operation, or a part of it, ends from the state `s` before the operation; `Q` says what a value leaves. -/
inductive EndS (s : State) {α : Type} (Q : α → State → Prop) : Res α → State → Prop
  | ok {a : α} {t : State} (h : Q a t) : EndS s Q (.ok a) t
  | lost {l : LinkFail} {t : State} (h : Lost s l t) (hb : t.bb = s.bb) : EndS s Q (.err (.transport l)) t
  | err {e : TypedError} {t : State} (he : ∀ l, e ≠ .transport l) (h : SameS s t) (hq : QueueOk t) : EndS s Q (.err e) t
  | halt {f : ModelFault} {t : State} (h : SameS s t) (hq : QueueOk t) : EndS s Q (.halt f) t

/-- As for `bind_rel`. -/
theorem EndS.bind {α β : Type} {s t : State} {m : Act α} {k : α → Act β} {Q : α → State → Prop} {Q' : β → State → Prop}
    (hm : EndS s Q (m t).1 (m t).2) (hk : ∀ a u, Q a u → EndS s Q' (k a u).1 (k a u).2) :
    EndS s Q' (Act.bind m k t).1 (Act.bind m k t).2 := by
  unfold Act.bind
  rcases h : m t with ⟨r, u⟩
  rw [h] at hm
  cases hm with
  | ok h => exact hk _ _ h
  | lost h hb => exact .lost h hb
  | err he h hq => exact .err he h hq
  | halt h hq => exact .halt h hq

/-- In the middle of an SWD operation from `s`, before its flush. -/
structure MidS (s t : State) : Prop where
  same : SameS s t
  rq : t.rq = s.rq
  queue : QueueOk t

/-- What an SWD operation that ends with a value leaves. -/
def DoneS (s t : State) : Prop := SameS s t ∧ QueueOk t

theorem queueOk_nil {t : State} (h : t.sq = []) : QueueOk t := by simp [QueueOk, h]

theorem end_requireSwd {s : State} (hq : QueueOk s) :
    EndS s (fun _ u => u = s ∧ s.mode = .swd) (requireSwd s).1 (requireSwd s).2 := by
  by_cases h : s.mode = .swd
  · rw [requireSwd_of h]; exact .ok ⟨rfl, h⟩
  · rw [requireSwd_fault h]; exact .halt (.refl s) hq

/-- push (R216). -/
theorem end_push {s t : State} (g : Subcmd) (h : MidS s t) :
    EndS s (fun _ u => MidS s u ∧ u.sq = t.sq ++ [g]) (pushSub g t).1 (pushSub g t).2 := by
  rcases pushSub_cases g t with ⟨_, e⟩ | ⟨_, _, e⟩ | ⟨_, _, _, e⟩ | ⟨_, _, _, _, e⟩ | ⟨hm, ha, hl, ho, e⟩ <;> rw [e]
  · exact .halt h.same h.queue
  · exact .halt h.same h.queue
  · exact .halt h.same h.queue
  · exact .err (by simp [overflowError]) h.same h.queue
  · refine .ok ⟨⟨h.same.trans ⟨.of_grows (.of_eq rfl) rfl, rfl, rfl, rfl⟩, h.rq, fun x hx => ?_, fun _ => ⟨ho, hm⟩⟩, rfl⟩
    rcases List.mem_append.1 hx with hx | hx
    · exact h.queue.1 x hx
    · rw [List.mem_singleton.1 hx]; exact ⟨ha, hl⟩

/-- flush (R217). -/
theorem end_flush {s t : State} (h : MidS s t) :
    EndS s (fun _ u => SameS s u ∧ u.sq = [] ∧ u.mode = .swd) (flushBatch t).1 (flushBatch t).2 := by
  have legal : t.sq ≠ [] → frameLegal (frameE8 t.sq) = true := fun h0 =>
    frameE8_legal h0 (fun g hg => (h.queue.1 g hg).2) (by have := (fits_of_overflows (h.queue.2 h0).1).1; omega)
  rcases flushBatch_cases t with ⟨_, e⟩ | ⟨hm, h0, e⟩ | ⟨_, h0, l, e', e⟩ | ⟨_, h0, a, e', _, _, e⟩ | ⟨hm, h0, a, e', rs, _, _, _, e⟩ <;>
    rw [e]
  · exact .halt h.same h.queue
  · exact .ok ⟨h.same, h0, hm⟩
  · exact .lost (h.same.toSame.lost h.rq (legal h0) l e') h.same.bb
  · exact .halt (h.same.trans ⟨.of_grows (grows_exchange e' (legal h0) (.inl ⟨a, rfl⟩)) rfl, rfl, rfl, rfl⟩) h.queue
  · exact .ok ⟨h.same.trans ⟨.of_grows ((grows_exchange e' (legal h0) (.inl ⟨a, rfl⟩)).trans (.of_eq rfl)) rfl, rfl, rfl,
      rfl⟩, rfl, hm⟩

/-- take (R218). -/
theorem end_take {s t : State} (h : SameS s t) (hq : QueueOk t) :
    EndS s (fun _ u => DoneS s u) (takeResults t).1 (takeResults t).2 := by
  by_cases hm : t.mode = .swd
  · rw [takeResults_of hm]
    exact .ok ⟨h.trans ⟨.of_grows (.of_eq rfl) rfl, rfl, rfl, rfl⟩, hq⟩
  · rw [takeResults, bind_of_halt (requireSwd_fault hm)]
    exact .halt h hq

theorem end_pushAll {s t : State} (gs : List Subcmd) (h : MidS s t) :
    EndS s (fun _ u => MidS s u) (pushAll gs t).1 (pushAll gs t).2 := by
  induction gs generalizing t with
  | nil => exact .ok h
  | cons g gs ih =>
    unfold pushAll
    exact EndS.bind (end_push g h) fun _ u hu => ih hu.1

/-- A batch of its own (R219). -/
theorem end_batch {s : State} (gs : List Subcmd) (hq : QueueOk s) :
    EndS s (fun _ u => DoneS s u) (batch gs s).1 (batch gs s).2 := by
  unfold batch
  refine EndS.bind (end_requireSwd hq) ?_
  rintro _ u ⟨hu, hm⟩
  rw [hu]
  refine EndS.bind (Q := fun _ v => v = s) ?_ ?_
  · unfold Act.faultIf
    split
    · exact .halt (.refl s) hq
    · exact .ok rfl
  intro _ v hv
  rw [hv]
  refine EndS.bind (end_pushAll gs ⟨.refl s, rfl, hq⟩) fun _ w hw => ?_
  exact EndS.bind (end_flush hw) fun _ x hx => end_take hx.1 (queueOk_nil hx.2.1)

theorem end_readResult {s t : State} (rs : List SResult) (h : DoneS s t) :
    EndS s (fun _ u => DoneS s u) (readResult rs t).1 (readResult rs t).2 := by
  unfold readResult
  split
  · exact .ok h
  · exact .err (by simp) h.1 h.2
  · exact .halt h.1 h.2

theorem end_writeResult {s t : State} (rs : List SResult) (h : DoneS s t) :
    EndS s (fun _ u => DoneS s u) (writeResult rs t).1 (writeResult rs t).2 := by
  unfold writeResult
  split
  · exact .ok h
  · exact .err (by simp) h.1 h.2
  · exact .halt h.1 h.2

/-- Every SWD instruction but the inits: the body it runs, and how it ends. -/
theorem swd_ends {i : Instr} {s : State} (hq : QueueOk s) (hc : classOf i = .queue ∨ classOf i = .standalone) :
    ∃ body : Act Value, (exec i s = operate body s) ∧ EndS s (fun _ u => DoneS s u) (body s).1 (body s).2 := by
  have ret : ∀ {α : Type} {m : Act α} {k : α → Act Value}, EndS s (fun _ u => DoneS s u) (m s).1 (m s).2 →
      (∀ a t, DoneS s t → EndS s (fun _ u => DoneS s u) (k a t).1 (k a t).2) →
      EndS s (fun _ u => DoneS s u) (Act.bind m k s).1 (Act.bind m k s).2 := fun h hk => EndS.bind h hk
  cases i <;> simp only [classOf, reduceCtorEq, or_self] at hc <;> refine ⟨_, rfl, ?_⟩
  case push g => exact EndS.bind (end_push g ⟨.refl s, rfl, hq⟩) fun _ u hu => .ok ⟨hu.1.same, hu.1.queue⟩
  case flush => exact EndS.bind (end_flush ⟨.refl s, rfl, hq⟩) fun _ u hu => .ok ⟨hu.1, queueOk_nil hu.2.1⟩
  case take => exact ret (end_take (.refl s) hq) fun _ _ h => .ok h
  case readRegister => exact ret (end_batch _ hq) fun _ _ h => end_readResult _ h
  case writeRegister => exact ret (end_batch _ hq) fun _ _ h => end_writeResult _ h
  all_goals exact ret (end_batch _ hq) fun _ _ h => .ok h

/-! ### The inits -/

/-- An init exchange (R180, R210): answered, or a TransportError. -/
theorem end_initExchange {f : List Byte} (hf : frameLegal f = true) (s : State) :
    (∃ a t, initExchange f s = (.ok a, t) ∧ SameS s t ∧ SameJ s t) ∨
    (∃ l t, initExchange f s = (.err (.transport l), t) ∧ Lost s l t ∧ t.bb = s.bb) := by
  rcases initExchange_cases f s with ⟨a, e, h⟩ | ⟨l, e, h⟩
  · have g : Same s (s.traffic [.out f, .inn a] e) := .of_grows (grows_exchange e hf (.inl ⟨a, rfl⟩)) rfl
    exact .inl ⟨a, _, h, ⟨g, rfl, rfl, rfl⟩, ⟨g, rfl, rfl, rfl⟩⟩
  · exact .inr ⟨l, _, h, (SameS.refl s).toSame.lost rfl hf l e, rfl⟩

end Sys2Proof.Laws
end

