-- ==== Sys2Proof/Laws/Bound.lean ====
section
/-! SUPPORT. A batch that completes: what it read is what R65 makes of some bytes drawn, from the SWD port before it. -/

namespace Sys2Proof.Laws

open Sys2Proof.Machine

/-- Pushes that all complete: the queue they leave, which fits and passes the checks of each (R216). -/
theorem pushAll_ok {gs : List Subcmd} {s t : State} (h : pushAll gs s = (.ok (), t)) :
    t = { s with sq := s.sq ++ gs } ∧ (∀ g ∈ gs, subLengthOk g = true)
      ∧ (gs ≠ [] → overflows s.par (batchPayload (s.sq ++ gs)).length = false) := by
  induction gs generalizing s with
  | nil =>
    simp only [pushAll, ret_apply, Prod.mk.injEq, true_and] at h
    subst h
    exact ⟨by simp, by simp, by simp⟩
  | cons g gs ih =>
    rw [pushAll] at h
    rcases pushSub_cases g s with ⟨_, hp⟩ | ⟨_, _, hp⟩ | ⟨_, _, _, hp⟩ | ⟨_, _, _, _, hp⟩ | ⟨_, _, hl, ho, hp⟩
    · simp [bind_of_halt hp] at h
    · simp [bind_of_halt hp] at h
    · simp [bind_of_halt hp] at h
    · simp [bind_of_err hp] at h
    · rw [bind_of_ok hp] at h
      obtain ⟨h1, h2, h3⟩ := ih h
      refine ⟨by rw [h1]; simp [State.queued], ?_, fun _ => ?_⟩
      · rintro x hx
        rcases List.mem_cons.1 hx with rfl | hx
        · exact hl
        · exact h2 x hx
      · cases gs with
        | nil => exact ho
        | cons g' gs => simpa [State.queued] using h3 (by simp)

/-- A flush that completes: its answer, bound by R65, and its results (R217). -/
theorem flushBatch_ok {s t : State} (h0 : s.sq ≠ []) (h : flushBatch s = (.ok (), t)) :
    ∃ (drawn : List Byte) (rs : List SResult),
      let x := boundAnswer s.link (askedBy (frameE8 s.sq)) s.env.swd drawn
      batchAnswerOk (answerTotal s.sq) drawn = true ∧ parseSlices s.sq (x.2.drop 3) = some rs
        ∧ t.env.swd = x.1 ∧ t.rq = s.rq ++ rs ∧ t.mode = s.mode := by
  rcases flushBatch_cases s with ⟨_, hx⟩ | ⟨_, hx, _⟩ | ⟨_, _, l, e, hx⟩ | ⟨_, _, a, e, _, _, hx⟩ | ⟨hm, _, _, _, _, _, _, _, _⟩
  · simp [hx] at h
  · exact absurd hx h0
  · simp [hx] at h
  · simp [hx] at h
  · have h0' : ¬ s.sq.length = 0 := by simpa using h0
    rw [flushBatch, bind_of_ok (requireSwd_of hm), if_neg h0'] at h
    simp only [Act.bind, transferring] at h
    cases hx : xfer (frameE8 s.sq) (3 + answerTotal s.sq) s with
    | mk r u =>
      rw [hx] at h
      cases r with
      | error l => simp [raiseTransport] at h
      | ok a =>
        obtain ⟨drawn, hb, -⟩ := xfer_bound (f := frameE8 s.sq) (by simp [frameE8]) hx
        have hs : u.sq = s.sq ∧ u.rq = s.rq ∧ u.mode = s.mode := by
          rcases xfer_cases (frameE8 s.sq) (3 + answerTotal s.sq) s with ⟨b, e, _, h'⟩ | ⟨l, e, h'⟩
          · rw [h'] at hx
            cases hx
            exact ⟨rfl, rfl, rfl⟩
          · rw [h'] at hx
            cases hx
        simp only [hs.1] at h
        split at h
        · next hh =>
          split at h
          · simp at h
          · next rs hp =>
            simp only [Prod.mk.injEq, true_and] at h
            subst h
            refine ⟨drawn, rs, ?_⟩
            rw [hb]
            have hd := boundAnswer_header s.link (askedBy (frameE8 s.sq)) s.env.swd drawn (answerTotal s.sq)
            rw [hb] at hd
            exact ⟨by rw [← hd]; exact hh, hp, rfl, by simp [State.flushed, hs.2.1], hs.2.2⟩
        · simp at h

/-! ### A batch as R65 sees it: the bits of an offset that are not sent do not matter (R52, R71) -/

theorem addrA_sent (off : Byte) : addrA (off &&& 0x0C) = addrA off := by
  revert off
  decide +kernel

theorem parseSlice_sent (g : Subcmd) (h : List Byte) : parseSlice (sentSub g) h = parseSlice g h := by
  cases g with
  | rawSequence n b => rfl
  | _ => rcases h with _ | ⟨_, _ | ⟨_, _ | ⟨_, _ | ⟨_, _ | ⟨_, _ | ⟨_, _ | ⟨_, _ | ⟨_, _⟩⟩⟩⟩⟩⟩⟩⟩ <;> rfl

theorem unsureOf_sent (p : DebugPort) (g : Subcmd) : unsureOf p (sentSub g) = unsureOf p g := by
  cases g with
  | registerRead addr => cases addr <;> simp only [sentSub, sentAddr, unsureOf, addrA_sent]
  | registerWrite addr w => cases addr <;> simp only [sentSub, sentAddr, unsureOf, addrA_sent]
  | rawSequence n b => rfl

theorem boundSlice_sent (l : LineState) (sure : Bool) (p : DebugPort) (g : Subcmd) (h : List Byte) :
    boundSlice l sure p (sentSub g) h = boundSlice l sure p g h := by
  have hu := unsureOf_sent p g
  unfold boundSlice
  rw [parseSlice_sent]
  cases g with
  | rawSequence n b => rfl
  | registerRead addr =>
    have hr : ∀ v, swdRead p (sentAddr addr) v = swdRead p addr v := fun v => by
      cases addr <;> simp only [sentAddr, swdRead, addrA_sent]
    simp only [sentSub] at hu ⊢
    cases parseSlice (.registerRead addr) h with
    | none => simp [hu]
    | some r => cases r <;> simp [hu, hr]
  | registerWrite addr w =>
    have hw : swdWrite p (sentAddr addr) w = swdWrite p addr w := by
      cases addr <;> simp only [sentAddr, swdWrite, addrA_sent]
    simp only [sentSub] at hu ⊢
    cases parseSlice (.registerWrite addr w) h with
    | none => simp [hu]
    | some r => cases r <;> simp [hu, hw]

theorem boundSlices_sent (gs : List Subcmd) (l : LineState) (sure : Bool) (p : DebugPort) (bytes : List Byte) :
    boundSlices (gs.map sentSub) l sure p bytes = boundSlices gs l sure p bytes := by
  induction gs generalizing l sure p bytes with
  | nil => rfl
  | cons g gs ih =>
    have h1 : answerLength (sentSub g) = answerLength g := by cases g <;> rfl
    have h2 : lineNext l (sentSub g) = lineNext l g := by cases g <;> rfl
    have h3 : ∀ h, sliceOk (sentSub g) h = sliceOk g h := fun h => by simp only [sliceOk, parseSlice_sent]
    simp only [List.map_cons, boundSlices, h1, h2, h3, boundSlice_sent, ih]

theorem boundAnswer_sent (gs : List Subcmd) (l : LineState) (p : DebugPort) (drawn : List Byte) :
    boundAnswer l (gs.map sentSub) p drawn = boundAnswer l gs p drawn := by
  have h : answerTotal (gs.map sentSub) = answerTotal gs := by
    simp only [answerTotal, List.map_map]
    congr 1
    exact List.map_congr_left fun g _ => by cases g <;> rfl
  simp only [boundAnswer, h, boundSlices_sent]

/-- A batch of its own that completes: what it read, and the port it leaves, are what R65 makes of some bytes drawn. -/
theorem batch_ok {gs : List Subcmd} {s t : State} {rs : List SResult} (hr : SwdReady s) (h0 : gs ≠ [])
    (h : batch gs s = (.ok rs, t)) :
    ∃ bytes : List Byte,
      let x := boundSlices gs s.link true s.env.swd bytes
      parseSlices gs x.2 = some rs ∧ t.env.swd = x.1 := by
  obtain ⟨-, hm, hs, hq⟩ := hr
  unfold batch at h
  rw [bind_of_ok (requireSwd_of hm), bind_faultIf_pass (by simp [hs, hq])] at h
  cases hp : pushAll gs s with
  | mk r u =>
    cases r with
    | ok _ =>
      rw [bind_of_ok hp] at h
      obtain ⟨rfl, hl, ho⟩ := pushAll_ok hp
      rw [hs, List.nil_append] at h ho
      have hd := decodeFrame_sent h0 hl (by have := (fits_of_overflows (ho h0)).1; omega)
      have ha : askedBy (frameE8 gs) = gs.map sentSub := by simp only [askedBy, hd]; simp [frameE8]
      cases hf : flushBatch { s with sq := gs } with
      | mk r u =>
        cases r with
        | ok _ =>
          rw [bind_of_ok hf] at h
          obtain ⟨drawn, rs', hh, hx, he, hrq, hmu⟩ := flushBatch_ok h0 hf
          simp only [ha, boundAnswer_sent] at hx he hrq
          obtain ⟨h1, h2⟩ := boundAnswer_slices (l := s.link) (p := s.env.swd) hh
          rw [h2] at hx
          rw [h1] at he
          rw [takeResults_of (by rw [hmu]; exact hm)] at h
          simp only [hq, List.nil_append] at hrq
          simp only [Prod.mk.injEq, Res.ok.injEq] at h
          obtain ⟨rfl, rfl⟩ := h
          exact ⟨_, by rw [hrq]; exact hx, he⟩
        | err e => simp [bind_of_err hf] at h
        | halt f => simp [bind_of_halt hf] at h
        | running => simp [bind_of_running hf] at h
    | err e => simp [bind_of_err hp] at h
    | halt f => simp [bind_of_halt hp] at h
    | running => simp [bind_of_running hp] at h

end Sys2Proof.Laws
end

