-- ==== Sys2Proof/Laws/PerInstr.lean ====
section
/-! SUPPORT. The statements made for every instruction, one lemma per constructor. -/

namespace Sys2Proof.Laws.Roundtrip

/-- Decoding the words of a well-formed instruction gives it back, with every operand. -/
def Statement (i : Instr) : Prop := i.wf = true → decode (encode i) = .ok i

theorem frame {b : Byte} {bs : List Byte} {i : Instr} (hb : b.getLsbD 7 = true)
    (h : decodeFrame (b :: bs) = .ok (i, [])) : decode (b :: bs) = .ok i := by
  simp only [decode, hb, if_true, h]

theorem sub {g : Subcmd} (h : g.wireForm = true) {b : Byte} {bs : List Byte} (he : encodeSub g = b :: bs) :
    decodeSub (b :: bs) = .ok (g, []) := by
  have := decodeSub_encodeSub h []
  rwa [List.append_nil, he] at this

theorem d0 (speed : Byte) : Statement (.d0 speed) := fun _ => by
  have := decodeFrame_frameD0 speed []
  rw [List.append_nil] at this
  exact frame (by decide) this

theorem d2 (units : List WireUnit) : Statement (.d2 units) := fun h => by
  simp only [Instr.wf, Bool.and_eq_true, decide_eq_true_eq] at h
  have hne : units ≠ [] := by rintro rfl; simp at h
  have := decodeFrame_frameD2 hne (by omega) []
  rw [List.append_nil] at this
  exact frame (by decide) this

theorem e5 (speed : Byte) : Statement (.e5 speed) := fun _ => by
  have := decodeFrame_frameE5 speed []
  rw [List.append_nil] at this
  exact frame (by decide) this

theorem e8 (subs : List Subcmd) : Statement (.e8 subs) := fun h => by
  simp only [Instr.wf, Bool.and_eq_true, decide_eq_true_eq] at h
  obtain ⟨⟨h1, h2⟩, h3⟩ := h
  have hlen := batchPayload_length h2
  have hne : subs ≠ [] := by simpa using h1
  have := decodeFrame_frameE8 hne h2 (by omega) []
  rw [List.append_nil] at this
  exact frame (by decide) this

theorem ofSub {op : Byte} {bs : List Byte} (hop : op = 0xA0 ∨ op = 0xA1 ∨ op = 0xA2) :
    decodeFrame (op :: bs) =
      match decodeSub (op :: bs) with
      | .error e => .error e
      | .ok (.registerRead addr, tail) => .ok (.a2 addr, tail)
      | .ok (.registerWrite addr data, tail) => .ok (.a0 addr data, tail)
      | .ok (.rawSequence nbits bytes, tail) => .ok (.a1 nbits bytes, tail) := by
  rcases hop with rfl | rfl | rfl <;> rfl

theorem a1 (nbits : BitVec 16) (bytes : List Byte) : Statement (.a1 nbits bytes) := fun h => by
  have := sub (g := .rawSequence nbits bytes) h rfl
  apply frame (by decide)
  rw [ofSub (.inr (.inl rfl)), this]

theorem a2 (addr : RegAddr) : Statement (.a2 addr) := fun h => by
  have := sub (g := .registerRead addr) h rfl
  apply frame (by decide)
  rw [ofSub (.inr (.inr rfl)), this]

theorem a0 (addr : RegAddr) (data : Word) : Statement (.a0 addr data) := fun h => by
  have := sub (g := .registerWrite addr data) h rfl
  apply frame (by decide)
  rw [ofSub (.inl rfl), this]

theorem jtagInit (speed : Byte) : Statement (.jtagInit speed) := fun _ => by
  simp only [encode, List.append_assoc]
  refine decode_call (k := 0) rfl (by decide) (by decide) ?_
  have := fixedNumber_hexText speed (k := 1) (by omega) (ends_paren.stops [])
  rw [List.append_nil] at this
  simp [this]

theorem resetAndIdle : Statement .resetAndIdle := fun _ => by decide

theorem discoverChain : Statement .discoverChain := fun _ => by decide

theorem discoverIrLengths : Statement .discoverIrLengths := fun _ => by decide

theorem selectTarget (index : Nat) : Statement (.selectTarget index) := fun _ => by
  simp only [encode, List.append_assoc]
  refine decode_call (k := 4) rfl (by decide) (by decide) ?_
  have := number_decText index (ends_paren.stops []) (ends_paren.noX [])
  rw [List.append_nil] at this
  simp [this]

theorem writeIr (value : BitVec 64) (length : Nat) : Statement (.writeIr value length) := fun _ => by
  simp only [encode, List.append_assoc]
  refine decode_call (k := 5) rfl (by decide) (by decide) ?_
  have := scanOperands_text value length ends_paren []
  rw [List.append_nil] at this
  simp [this]

theorem writeDr (value : BitVec 64) (length : Nat) : Statement (.writeDr value length) := fun _ => by
  simp only [encode, List.append_assoc]
  refine decode_call (k := 6) rfl (by decide) (by decide) ?_
  have := scanOperands_text value length ends_paren []
  rw [List.append_nil] at this
  simp [this]

theorem accessRegister (addr : RegAddr) (value : Option Word) : Statement (.accessRegister addr value) := fun _ => by
  have hc : ascii ", none)" = ascii ", " ++ (ascii "none" ++ ascii ")") := by decide
  have hw := fun v => optionalWord_hexText v ends_paren []
  simp only [List.append_nil] at hw
  cases value with
  | none =>
    simp only [encode, List.append_assoc, hc]
    refine decode_call (k := 7) rfl (by decide) (by decide) ?_
    simp only [Option.bind_eq_bind]
    rw [regAddr_addrText]
    simp only [Option.bind_some, lit_append]
    rw [optionalWord_none]
    rfl
  | some v =>
    simp only [encode, List.append_assoc]
    refine decode_call (k := 7) rfl (by decide) (by decide) ?_
    simp only [Option.bind_eq_bind]
    rw [regAddr_addrText]
    simp only [Option.bind_some, lit_append]
    rw [hw]
    rfl

theorem swdInit (speed : Byte) : Statement (.swdInit speed) := fun _ => by
  simp only [encode, List.append_assoc]
  refine decode_call (k := 8) rfl (by decide) (by decide) ?_
  have := fixedNumber_hexText speed (k := 1) (by omega) (ends_paren.stops [])
  rw [List.append_nil] at this
  simp [this]

theorem push (g : Subcmd) : Statement (.push g) := fun _ => by
  simp only [encode, List.append_assoc]
  refine decode_call (k := 9) rfl (by decide) (by decide) ?_
  simp [subcmd_text]

theorem flush : Statement .flush := fun _ => by decide

theorem take : Statement .take := fun _ => by decide

theorem swdReset : Statement .swdReset := fun _ => by decide

theorem jtagToSwd : Statement .jtagToSwd := fun _ => by decide

theorem swdIdle : Statement .swdIdle := fun _ => by decide

theorem readRegister (address : Byte) (isAp : Bool) : Statement (.readRegister address isAp) := fun _ => by
  simp only [encode, List.append_assoc]
  refine decode_call (k := 15) rfl (by decide) (by decide) ?_
  simp only [Option.bind_eq_bind]
  rw [fixedNumber_hexText address (k := 1) (by omega) (ends_comma.stops _)]
  simp only [Option.bind_some, lit_append]
  rw [boolean_boolText]
  rfl

theorem writeRegister (address : Byte) (isAp : Bool) (data : Word) : Statement (.writeRegister address isAp data) :=
  fun _ => by
  have hw := fixedNumber_hexText data (k := 7) (by omega) (ends_paren.stops [])
  rw [List.append_nil] at hw
  simp only [encode, List.append_assoc]
  refine decode_call (k := 16) rfl (by decide) (by decide) ?_
  simp only [Option.bind_eq_bind]
  rw [fixedNumber_hexText address (k := 1) (by omega) (ends_comma.stops _)]
  simp only [Option.bind_some, lit_append]
  rw [boolean_boolText]
  simp only [Option.bind_some, lit_append]
  rw [hw]
  rfl

end Sys2Proof.Laws.Roundtrip
end

