-- ==== Sys2Proof/Laws/Stops.lean ====
section
/-! SUPPORT. Where the next flush of an instruction stops, the instruction stops (R313, R315): once for every frame of the JTAG
instructions, and for the batches of the SWD instructions. -/

namespace Sys2Proof.Laws

open Sys2Proof.Machine

/-- The two ways a part stops an operation: a typed error, a model fault. -/
inductive Stop where
  | err (e : TypedError)
  | halt (f : ModelFault)

/-- As the end of a part. -/
def Stop.res {α : Type} : Stop → Res α
  | .err e => .err e
  | .halt f => .halt f

theorem bind_of_stop {α β : Type} {m : Act α} {k : α → Act β} {s u : State} {x : Stop} (h : m s = (x.res, u)) :
    Act.bind m k s = (x.res, u) := by
  cases x with
  | err e => exact bind_of_err h
  | halt f => exact bind_of_halt h

/-- The answers do not see the tracker. -/
theorem answered_tap (s : State) (T : List TapState) (talk : List Exchange) :
    answered talk { s with tap := T } = answered talk s := answered_congr talk ⟨rfl, rfl, rfl⟩

theorem answered_at (s : State) (T : List TapState) (p : Option Progress) (talk : List Exchange) :
    answered talk { s with tap := T, prog := p } = answered talk s := answered_congr talk ⟨rfl, rfl, rfl⟩

/-- The exchanges do not see whether a discovery is in progress. -/
theorem exchanged_prog (s : State) (p : Option Progress) (talk : List Exchange) :
    ({ s with prog := p } : State).exchanged talk = { s.exchanged talk with prog := p } := by
  have h : SameEnv s { s with prog := p } := ⟨rfl, rfl, rfl⟩
  simp only [State.exchanged, envAfter_congr talk h]

theorem exchanged_at (s : State) (T : List TapState) (p : Option Progress) (talk : List Exchange) :
    ({ s with tap := T, prog := p } : State).exchanged talk = { s.exchanged talk with tap := T, prog := p } := by
  have h : SameEnv s { s with tap := T, prog := p } := ⟨rfl, rfl, rfl⟩
  simp only [State.exchanged, envAfter_congr talk h]

theorem clocks_length (us : List ClockUnit) : (clocks us).length = 3 + 2 * us.length := by
  have : ∀ ws : List WireUnit, (ws.flatMap encUnit).length = 2 * ws.length := by
    intro ws
    induction ws with
    | nil => rfl
    | cons w ws ih => rw [List.flatMap_cons, List.length_append, ih]; simp [encUnit]; omega
  simp [clocks, frameD2, le16, this]
  omega

theorem exchanged_fits {s : State} {us : List ClockUnit} {a : List Byte} {talk : List Exchange}
    (h : Exchanged s talk) (hm : (clocks us, a) ∈ talk) : Fits s (2 * us.length) := by
  have := h.1 _ hm
  rwa [clocks_length, Nat.add_sub_cancel_left] at this

theorem exchanged_append {s : State} {a b : List Exchange} (h : answered (a ++ b) s = true) :
    answered a s = true ∧ answered b (s.exchanged a) = true ∧ s.exchanged (a ++ b) = (s.exchanged a).exchanged b := by
  induction a generalizing s with
  | nil => exact ⟨rfl, by rw [show s.exchanged [] = s by simp [State.exchanged, envAfter]]; exact h,
      by rw [show s.exchanged [] = s by simp [State.exchanged, envAfter]]; rfl⟩
  | cons x a ih =>
    obtain ⟨f, y⟩ := x
    obtain ⟨h1, h2, _⟩ := answered_cons (talk := a ++ b) h
    obtain ⟨g1, g2, g3⟩ := ih h2
    have ha : answered ((f, y) :: a) s = true := by
      simp only [answered, h1, decide_true, Bool.true_and]
      have hs : SameEnv (xfer f y.length s).2 (s.exchanged [(f, y)]) :=
        ⟨rfl, ((xfer_keeps f y.length s).1).symm, ((xfer_keeps f y.length s).2).symm⟩
      rw [answered_congr a hs] at g1
      exact g1
    exact ⟨ha, by rw [exchanged_cons ha]; exact g2,
      by rw [List.cons_append, exchanged_cons (talk := a ++ b) h, g3, exchanged_cons ha]⟩

theorem scan_stops {kind : ScanKind} {value : BitVec 64} {n : Nat} {s u : State} {x : Stop} (hm : s.mode = .jtag)
    (ht : s.tap = [.rti]) (h1 : 1 ≤ n) (h64 : n ≤ 64)
    (h : jtagFlush (s.emitAll (scanUnits kind value n (s.leading kind) (s.trailing kind))) = (x.res, u)) :
    scan kind value n s = (x.res, u) := by
  have hlegal : (decide (n < 1) || decide (Config.maxShiftBits < n)) = false := by
    have a1 : ¬ n < 1 := by omega
    have a2 : ¬ Config.maxShiftBits < n := by show ¬ 64 < n; omega
    simp [a1, a2]
  unfold scan
  rw [bind_of_ok (requireIdle_of hm ht), bind_faultIf_pass hlegal, bind_change, bind_of_stop h]

theorem aligned_of {addr : RegAddr} {value : Option Word} (h : ClockOperandsOk (.accessRegister addr value)) :
    aligned addr.off = true := by
  have h0 : addr.off.getLsbD 0 = false := h.1
  have h1 : addr.off.getLsbD 1 = false := h.2
  simp only [aligned, h0, h1, Bool.not_false, Bool.and_self]

/-- A word of a chain scan whose flush stops. -/
theorem chainWord_stops {s u : State} {x : Stop} (h : jtagFlush (s.emitAll wordUnits) = (x.res, u)) :
    chainWord s = (x.res, u) := by
  unfold chainWord
  rw [bind_emits, bind_of_stop h]

/-- A bit of an IR scan whose flush stops. -/
theorem irBit_stops {s u : State} {x : Stop} (h : jtagFlush (s.emitAll bitUnits) = (x.res, u)) :
    irBit s = (x.res, u) := by
  unfold irBit
  rw [bind_emits, bind_of_stop h]

theorem overflows_of_not_fits {s : State} {n : Nat} (h : ¬ Fits s n) : overflows s.par n = true := by
  by_contra hc
  exact h (fits_of_overflows (by simpa using hc))

/-- The check passes for a scan that fits. -/
theorem scanFits_pass {kind : ScanKind} {n : Nat} {s : State} (value : BitVec 64)
    (h : Fits s (2 * (scanUnits kind value n (s.leading kind) (s.trailing kind)).length)) : scanFits kind n s = (.ok (), s) := by
  rw [← scanSize_eq] at h
  rcases scanFits_cases kind n s with ⟨_, g⟩ | ⟨ho, _⟩
  · exact g
  · rw [overflows_of_fits h] at ho
    cases ho

/-- For a scan that does not fit the check stops as the scan's own flush would. -/
theorem scanFits_stops {kind : ScanKind} {n : Nat} {s : State} (value : BitVec 64) (hc : s.cq = [])
    (h : ¬ Fits s (2 * (scanUnits kind value n (s.leading kind) (s.trailing kind)).length)) :
    scanFits kind n s = jtagFlush (s.emitAll (scanUnits kind value n (s.leading kind) (s.trailing kind))) := by
  have ho := overflows_of_not_fits h
  have h0 : (scanUnits kind value n (s.leading kind) (s.trailing kind)).length ≠ 0 := by rw [scanUnits_length]; omega
  unfold scanFits jtagFlush
  rw [scanSize_eq s kind value, if_pos ho]
  simp only [State.emitAll_cq, State.emitAll_par, hc, List.nil_append]
  rw [if_neg h0, if_pos ho]
  simp only [State.overflowed, State.emitAll_eq]

theorem drFits_iff {s : State} (value : BitVec 64) :
    DrFits s ↔ Fits s (2 * (scanUnits .dr value Config.drAccBits (s.leading .dr) (s.trailing .dr)).length) := by
  rw [scanUnits_length]
  exact Iff.rfl

/-- The first frame of a JTAG instruction. -/
theorem first_stops {i : Instr} {s u : State} {x : Stop} (h : StartsJtag i s)
    (hd : ∀ addr value, i = .accessRegister addr value → Fits s (2 * (firstUnits s i).length) → DrFits s)
    (hx : jtagFlush (s.emitAll (firstUnits s i)) = (x.res, u)) : exec i s = .next (conclude (x.res, u)) := by
  have hj := requireJtag_of h.mode
  have hi : ∀ {β : Type} (k : Unit → Act β), classOf i = .scan → Act.bind requireIdle k s = k () s :=
    fun k hc => bind_of_ok (requireIdle_of h.mode (h.tracker hc))
  have hk := h.kind
  have ho := h.operands
  cases i <;> simp only [classOf, reduceCtorEq, or_self] at hk
  case d2 us =>
    simp only [exec, execD2, operate_of_idle h.idle, clockBatch]
    simp only [firstUnits] at hx
    rw [bind_of_ok hj, bind_emits, bind_of_stop hx]
  case resetAndIdle =>
    simp only [exec, execResetAndIdle, operate_of_idle h.idle, resetAndIdle]
    simp only [firstUnits] at hx
    rw [bind_of_ok hj, bind_emits, bind_of_stop hx]
  case discoverChain =>
    simp only [exec, execDiscoverChain, operate_of_idle h.idle, discoverChain]
    simp only [firstUnits, State.emitAll_append] at hx
    rw [hi _ rfl, bind_emits, show (s.emitAll enterShiftDR).chainFuel 0 = (s.chainFuel 0 - 1) + 1 by
      rw [emitAll_chainFuel]; have := chainFuel_pos s; omega, chainLoop, bind_of_stop (chainWord_stops hx)]
  case discoverIrLengths =>
    simp only [exec, execDiscoverIrLengths, operate_of_idle h.idle, discoverIrLengths]
    simp only [firstUnits, State.emitAll_append] at hx
    rw [hi _ rfl, bind_emits, bind_of_stop (irBit_stops hx)]
  case writeIr v n =>
    simp only [exec, execWriteIr, operate_of_idle h.idle]
    rw [bind_of_stop (scan_stops (kind := .ir) h.mode (h.tracker rfl) ho.1 ho.2 hx)]
  case writeDr v n =>
    simp only [exec, execWriteDr, operate_of_idle h.idle]
    rw [bind_of_stop (scan_stops (kind := .dr) h.mode (h.tracker rfl) ho.1 ho.2 hx)]
  case accessRegister addr v =>
    simp only [exec, execAccessRegister, operate_of_idle h.idle, accessRegister]
    rw [hi _ rfl, bind_faultIf_pass (by rw [aligned_of ho]; rfl)]
    by_cases hf : Fits s (2 * (firstUnits s (.accessRegister addr v)).length)
    · rw [bind_of_ok (scanFits_pass (kind := .ir) (n := 4) ((accessIr addr).zeroExtend 64) hf),
        bind_of_ok (scanFits_pass (kind := .dr) (n := Config.drAccBits) 0 ((drFits_iff 0).1 (hd addr v rfl hf))),
        bind_of_stop (scan_stops (kind := .ir) (n := 4) h.mode (h.tracker rfl) (by omega) (by omega) hx)]
    · rw [bind_of_stop ((scanFits_stops (kind := .ir) (n := 4) ((accessIr addr).zeroExtend 64) h.buffers.1 hf).trans hx)]

/-- A scan whose samples, all of them, come in one list. -/
theorem scan_answered_whole {kind : ScanKind} {value : BitVec 64} {n : Nat} {samples : List Byte} {s : State}
    (hm : s.mode = .jtag) (ht : s.tap = [.rti]) (hbuf : BuffersEmpty s) (h1 : 1 ≤ n) (h64 : n ≤ 64)
    (hl : samples.length = (scanUnits kind value n (s.leading kind) (s.trailing kind)).length)
    (hf : Fits s (2 * (scanUnits kind value n (s.leading kind) (s.trailing kind)).length))
    (ha : answered [(clocks (scanUnits kind value n (s.leading kind) (s.trailing kind)), clockAnswer samples)] s = true) :
    ∃ bits, scan kind value n s = (.ok bits,
      s.exchanged [(clocks (scanUnits kind value n (s.leading kind) (s.trailing kind)), clockAnswer samples)]) := by
  rw [scanUnits_length] at hl hf
  have e : samples = samples.take (entryLength kind + s.leading kind)
      ++ (samples.drop (entryLength kind + s.leading kind)).take n
      ++ (samples.drop (entryLength kind + s.leading kind)).drop n := by
    rw [List.append_assoc, List.take_append_drop, List.take_append_drop]
  rw [e] at ha ⊢
  exact ⟨_, scan_answered hm ht hbuf h1 h64 (by simp; omega) (by simp; omega) (by simp; omega) hf ha⟩

/-- The DR scan of access_register. -/
theorem second_stops {addr : RegAddr} {value : Option Word} {samples : List Byte} {s u : State} {x : Stop}
    (h : StartsJtag (.accessRegister addr value) s) (hd : DrFits s)
    (hl : samples.length = (firstUnits s (.accessRegister addr value)).length)
    (he : Exchanged s [(clocks (firstUnits s (.accessRegister addr value)), clockAnswer samples)])
    (hx : jtagFlush ((s.exchanged [(clocks (firstUnits s (.accessRegister addr value)), clockAnswer samples)]).emitAll
      (scanUnits .dr ((accessRequest addr.off value).zeroExtend 64) 35 s.pre s.pos)) = (x.res, u)) :
    exec (.accessRegister addr value) s = .next (conclude (x.res, u)) := by
  have ho := h.operands
  have ht := h.tracker rfl
  obtain ⟨bits, hb⟩ := scan_answered_whole (kind := .ir) (n := 4) h.mode ht h.buffers (by omega) (by omega) hl
    (exchanged_fits he (List.mem_singleton.2 rfl)) he.2
  have hb' : scan .ir ((accessIr addr).zeroExtend 64) 4 s
      = (.ok bits, s.exchanged [(clocks (firstUnits s (.accessRegister addr value)), clockAnswer samples)]) := hb
  have hir : scanFits .ir 4 s = (.ok (), s) := scanFits_pass ((accessIr addr).zeroExtend 64)
    (exchanged_fits he (List.mem_singleton.2 rfl))
  simp only [exec, execAccessRegister, operate_of_idle h.idle, accessRegister]
  rw [bind_of_ok (requireIdle_of h.mode ht), bind_faultIf_pass (by rw [aligned_of ho]; rfl),
    bind_of_ok hir, bind_of_ok (scanFits_pass (kind := .dr) (n := Config.drAccBits) 0 ((drFits_iff 0).1 hd)), bind_of_ok hb']
  rw [bind_of_stop (scan_stops (kind := .dr) (n := Config.drAccBits) (x := x) (u := u) (s := s.exchanged _) h.mode ht (by decide)
      (by decide) hx)]

/-! ### Discovery -/

/-- Where a chain scan is after its start and some more words: the loop, with what is left of the fuel. -/
theorem chain_at {s : State} {run : Run} {head : List Exchange} {words : List Word} {blocks : List (List Byte)}
    {left fuel : Nat} (h : ChainStart s run head words left) (hb : ∀ b ∈ blocks, b.length = 32)
    (hw : ∀ w ∈ words ++ blocks.map (wordOf s), w ≠ 0xFFFFFFFF)
    (hn : blocks.length + fuel = left) (h0 : run = .resumed → 0 < left)
    (he : Exchanged s (head ++ wordTalk blocks)) :
    ∃ old, run.outcome s = .next (conclude (chainLoop fuel old
      { s.exchanged (head ++ wordTalk blocks) with tap := [.shDR], prog := none })) := by
  obtain ⟨h1, h2, h3⟩ := exchanged_append he.2
  have hf : blocks ≠ [] → Fits s 64 := fun hne => by
    cases blocks with
    | nil => exact absurd rfl hne
    | cons b blocks => exact exchanged_fits (us := wordUnits) (a := clockAnswer b) he (by simp [wordTalk])
  cases h with
  | started entry first h hen hl =>
    have hr : JtagReady s := ⟨h.idle, h.buffers, h.mode, h.tracker rfl⟩
    have hf70 : Fits s 70 := exchanged_fits (us := enterShiftDR ++ wordUnits)
      (a := clockAnswer (entry ++ first)) he (by simp)
    have hfirst := chainFirst_answered hr hen hl hf70 h1
    have hskip := chainLoop_skip (blocks := blocks) (old := [wordOf s first])
      (s := { s.exchanged [(clocks (enterShiftDR ++ wordUnits), clockAnswer (entry ++ first))] with tap := [.shDR] }) fuel
      h.buffers.1 h.buffers.2 rfl hb (fun w hm => hw w (List.mem_append_right _ hm)) hf
      (by rw [answered_tap]; exact h2)
    refine ⟨[wordOf s first] ++ blocks.map (wordOf s), ?_⟩
    show exec .discoverChain s = _
    simp only [exec, execDiscoverChain, operate_of_idle h.idle, discoverChain]
    rw [bind_of_ok (requireIdle_of h.mode (h.tracker rfl)), bind_emits]
    have hfuel := chainFuel_pos s
    rw [emitAll_chainFuel, show s.chainFuel 0 = (blocks.length + fuel) + 1 by omega, chainLoop, bind_of_ok hfirst,
      if_neg (hw _ (by simp)), List.nil_append, hskip, h3,
      exchanged_tap (s.exchanged _) [.shDR] (wordTalk blocks)]
    have hp : s.prog = none := h.idle.2
    rw [← hp]
    rfl
  | resumed old hfa hp hbu ht =>
    have hse : SameEnv s { s with prog := none } := ⟨rfl, rfl, rfl⟩
    have hskip := chainLoop_skip (blocks := blocks) (old := old) (s := { s with prog := none }) fuel
      hbu.1 hbu.2 ht hb (fun w hm => hw w hm) hf (by rw [answered_congr _ hse]; exact he.2)
    refine ⟨old ++ blocks.map (wordOf s), ?_⟩
    show step s = _
    rw [step_resumed hfa hp (h0 rfl)]
    simp only [resumeLoop, State.fuel, ← hn]
    show Host.Outcome.next (conclude (chainLoop (blocks.length + fuel) old { s with prog := none })) = _
    rw [hskip, exchanged_prog, List.nil_append, ← ht]
    rfl

/-- Where an IR scan is after its start and some more bits: the loop, with what is left of the fuel. -/
theorem ir_at {s : State} {run : Run} {head : List Exchange} {prev prev' : Bool} {count count' : Nat} {closed closed' : Bool}
    {found found' : List Nat} {samples : List Byte} {left fuel : Nat}
    (h : IrStart s run head prev count closed found left)
    (hw : irWalkOn prev count closed found (samples.map s.tdoOf) = some (.irLengths prev' count' closed' found'))
    (hn : samples.length + fuel = left) (h0 : run = .resumed → 0 < left) (he : Exchanged s (head ++ bitTalk samples)) :
    run.outcome s = .next (conclude (irLoop fuel prev' count' closed' found'
      { s.exchanged (head ++ bitTalk samples) with tap := [.shIR], prog := none })) := by
  obtain ⟨h1, h2, h3⟩ := exchanged_append he.2
  have hf : samples ≠ [] → Fits s 2 := fun hne => by
    cases samples with
    | nil => exact absurd rfl hne
    | cons b samples => exact exchanged_fits (us := bitUnits) (a := clockAnswer [b]) he (by simp [bitTalk])
  cases h with
  | started entry first h hen =>
    have ht := h.tracker rfl
    have hf10 : Fits s 10 := exchanged_fits (us := enterShiftIR ++ bitUnits)
      (a := clockAnswer (entry ++ [first])) he (by simp)
    have hse : SameEnv s (s.emitAll enterShiftIR) := ⟨by simp, by simp, by simp⟩
    have hst : (s.emitAll enterShiftIR).tap = [.shIR] := by simp [ht]; decide
    have hfirst := irBit_answered (s := s.emitAll enterShiftIR) (entry := enterShiftIR) (before := entry) (b := first)
      (by simp [h.buffers.1]) (by simp [h.buffers.2]) hst (by decide) hen (show Fits _ 10 by simpa [Fits] using hf10)
      (by rw [answered_congr _ hse]; exact h1)
    have hs1 : ({ (s.emitAll enterShiftIR).exchanged [(clocks (enterShiftIR ++ bitUnits), clockAnswer (entry ++ [first]))] with
        cq := [] } : State) = { s.exchanged [(clocks (enterShiftIR ++ bitUnits), clockAnswer (entry ++ [first]))] with
        tap := [.shIR] } := by
      have he' := envAfter_congr [(clocks (enterShiftIR ++ bitUnits), clockAnswer (entry ++ [first]))] hse
      simp only [State.exchanged, he', ← hst]
      simp only [State.emitAll_eq, h.buffers.1]
    rw [hs1] at hfirst
    have htd : (s.emitAll enterShiftIR).tdoOf first = s.tdoOf first := by simp [State.tdoOf]
    rw [htd] at hfirst
    have hskip := irLoop_skip (samples := samples)
      (s := { s.exchanged [(clocks (enterShiftIR ++ bitUnits), clockAnswer (entry ++ [first]))] with tap := [.shIR] }) fuel
      h.buffers.1 h.buffers.2 rfl hw hf
      (by rw [answered_tap]; exact h2)
    show exec .discoverIrLengths s = _
    simp only [exec, execDiscoverIrLengths, operate_of_idle h.idle, discoverIrLengths]
    rw [bind_of_ok (requireIdle_of h.mode ht), bind_emits, bind_of_ok hfirst]
    show Host.Outcome.next (conclude (irLoop (s.irFuel 0 - 1) _ 1 false [] _)) = _
    rw [← hn, hskip, h3, exchanged_tap (s.exchanged _) [.shIR] (bitTalk samples)]
    have hp : s.prog = none := h.idle.2
    rw [← hp]
    rfl
  | resumed prev count closed found hfa hp hbu ht =>
    have hse : SameEnv s { s with prog := none } := ⟨rfl, rfl, rfl⟩
    have hskip := irLoop_skip (samples := samples) (s := { s with prog := none }) fuel
      hbu.1 hbu.2 ht hw hf (by rw [answered_congr _ hse]; exact he.2)
    show step s = _
    rw [step_resumed hfa hp (h0 rfl)]
    simp only [resumeLoop, State.fuel, ← hn]
    show Host.Outcome.next (conclude (irLoop (samples.length + fuel) prev count closed found { s with prog := none })) = _
    rw [hskip, exchanged_prog, List.nil_append, ← ht]
    rfl

theorem chainStart_buffers {s : State} {run : Run} {head : List Exchange} {words : List Word}
    {fuel : Nat} (h : ChainStart s run head words fuel) : BuffersEmpty s := by
  cases h with
  | started entry first h => exact h.buffers
  | resumed old hf hp hb => exact hb

theorem irStart_buffers {s : State} {run : Run} {head : List Exchange} {prev closed : Bool} {count : Nat} {found : List Nat}
    {fuel : Nat} (h : IrStart s run head prev count closed found fuel) : BuffersEmpty s := by
  cases h with
  | started entry first h => exact h.buffers
  | resumed prev count closed found hf hp hb => exact hb

theorem exchanged_front {s : State} {a b : List Exchange} (h : Exchanged s (a ++ b)) : Exchanged s a :=
  ⟨fun x hx => h.1 x (List.mem_append_left _ hx), (exchanged_append h.2).1⟩

/-- The exit of a discovery whose flush stops, in either loop. -/
theorem chainEnd_stops {s u : State} {x : Stop} (ids : List Word) (h : jtagFlush (s.emitAll leaveShift) = (x.res, u)) :
    chainEnd ids s = (x.res, u) := by
  unfold chainEnd
  rw [bind_emits, bind_of_stop h]

theorem irEnd_stops {s u : State} {x : Stop} (found : List Nat) (h : jtagFlush (s.emitAll leaveShift) = (x.res, u)) :
    irEnd found s = (x.res, u) := by
  unfold irEnd
  rw [bind_emits, bind_of_stop h]

/-- What `Exchanged` is of exchanges in two parts, the second part one exchange. -/
theorem exchanged_last {s : State} {talk : List Exchange} {us : List ClockUnit} {a : List Byte}
    (h : Exchanged s (talk ++ [(clocks us, a)])) :
    Exchanged s talk ∧ Fits s (2 * us.length) ∧ answered [(clocks us, a)] (s.exchanged talk) = true
      ∧ s.exchanged (talk ++ [(clocks us, a)]) = (s.exchanged talk).exchanged [(clocks us, a)] := by
  obtain ⟨-, h2, h3⟩ := exchanged_append h.2
  exact ⟨exchanged_front h, exchanged_fits (a := a) h (by simp), h2, h3⟩

/-- The exit of discover_chain. -/
theorem chainExit_stops {s u : State} {run : Run} {head : List Exchange} {words ids : List Word} {blocks : List (List Byte)}
    {fuel : Nat} {x : Stop} (h : ChainStart s run head words fuel) (hb : ∀ b ∈ blocks, b.length = 32)
    (hw : words ++ blocks.map (wordOf s) = ids ++ [0xFFFFFFFF]) (hi : ∀ w ∈ ids, w ≠ 0xFFFFFFFF)
    (hn : blocks.length ≤ fuel) (he : Exchanged s (head ++ wordTalk blocks))
    (hx : jtagFlush (({ s.exchanged (head ++ wordTalk blocks) with tap := [.shDR], prog := none } : State).emitAll leaveShift)
      = (x.res, u)) : run.outcome s = .next (conclude (x.res, u)) := by
  rcases List.eq_nil_or_concat blocks with rfl | ⟨blocks, b, hbl⟩
  · cases h with
    | resumed => simp at hw
    | started entry first h hen hl =>
      have h70 : Fits s 70 := exchanged_fits (us := enterShiftDR ++ wordUnits) (a := clockAnswer (entry ++ first)) he (by simp)
      simp only [wordTalk, List.map_nil, List.append_nil] at he hx hw
      obtain ⟨rfl, hw1⟩ : ids = [] ∧ wordOf s first = 0xFFFFFFFF := by
        cases ids with
        | nil => simpa using hw
        | cons a as => simp at hw
      have hfirst := chainFirst_answered ⟨h.idle, h.buffers, h.mode, h.tracker rfl⟩ hen hl h70 he.2
      show exec .discoverChain s = _
      simp only [exec, execDiscoverChain, operate_of_idle h.idle, discoverChain]
      rw [bind_of_ok (requireIdle_of h.mode (h.tracker rfl)), bind_emits,
        show (s.emitAll enterShiftDR).chainFuel 0 = (s.chainFuel 0 - 1) + 1 by
          rw [emitAll_chainFuel]; have := chainFuel_pos s; omega, chainLoop, bind_of_ok hfirst, if_pos hw1]
      have hp : s.prog = none := h.idle.2
      rw [← hp] at hx
      exact congrArg (fun z => Host.Outcome.next (conclude z)) (chainEnd_stops _ hx)
  · rw [List.concat_eq_append] at hbl
    subst hbl
    simp only [List.map_append, List.map_cons, List.map_nil, ← List.append_assoc] at hw
    obtain ⟨hw1, hw2⟩ := List.append_inj' hw rfl
    simp only [List.cons.injEq, and_true] at hw2
    have ew : wordTalk (blocks ++ [b]) = wordTalk blocks ++ [(clocks wordUnits, clockAnswer b)] := by simp [wordTalk]
    rw [ew, ← List.append_assoc] at he hx
    obtain ⟨e1, hf, e2, e3⟩ := exchanged_last he
    obtain ⟨old, hr⟩ := chain_at (fuel := fuel - (blocks.length + 1) + 1) h (fun b hm => hb b (by simp [hm]))
      (by rw [hw1]; exact hi) (by simp at hn; omega) (fun _ => by simp at hn; omega) e1
    have hbu := chainStart_buffers h
    have hword := chainWord_next (s := { s.exchanged (head ++ wordTalk blocks) with tap := [.shDR], prog := none })
      hbu.1 hbu.2 rfl (hb b (by simp)) hf (by rw [answered_at]; exact e2)
    have hw3 : wordOf { s.exchanged (head ++ wordTalk blocks) with tap := [.shDR], prog := none } b = 0xFFFFFFFF := hw2
    rw [exchanged_at (s.exchanged (head ++ wordTalk blocks)) [.shDR] none] at hword
    rw [e3] at hx
    rw [hr, chainLoop, bind_of_ok hword, if_pos hw3, chainEnd_stops _ hx]

/-- What the bits so far leave of R183's loop is a progress of its own kind. -/
theorem irWalkOn_kind {prev : Bool} {count : Nat} {closed : Bool} {found : List Nat} {bs : List Bool} {p : Progress}
    (h : irWalkOn prev count closed found bs = some p) : ∃ a b c d, p = .irLengths a b c d := by
  induction bs generalizing prev count closed found with
  | nil => simp only [irWalkOn, Option.some.injEq] at h; exact ⟨_, _, _, _, h.symm⟩
  | cons b bs ih =>
    cases b <;> cases prev <;> cases closed <;> simp only [irWalkOn, reduceCtorEq] at h <;> exact ih h

/-- The exit of discover_ir_lengths. -/
theorem irExit_stops {s u : State} {run : Run} {head : List Exchange} {prev : Bool} {count : Nat} {closed : Bool}
    {found lengths : List Nat} {samples : List Byte} {fuel : Nat} {x : Stop}
    (h : IrStart s run head prev count closed found fuel)
    (hw : irWalk prev count closed found (samples.map s.tdoOf) = some lengths)
    (hn : samples.length ≤ fuel) (he : Exchanged s (head ++ bitTalk samples))
    (hx : jtagFlush (({ s.exchanged (head ++ bitTalk samples) with tap := [.shIR], prog := none } : State).emitAll leaveShift)
      = (x.res, u)) : run.outcome s = .next (conclude (x.res, u)) := by
  obtain ⟨bs', count', h1, h2⟩ := irWalk_last hw
  obtain ⟨samples, last, rfl, rfl, hl⟩ := List.map_eq_append_iff.1 h1
  obtain ⟨b, rfl, hb⟩ : ∃ b, last = [b] ∧ s.tdoOf b = true := by
    cases last with
    | nil => simp at hl
    | cons b l => cases l <;> simp_all
  have ew : bitTalk (samples ++ [b]) = bitTalk samples ++ [(clocks bitUnits, clockAnswer [b])] := by simp [bitTalk]
  rw [ew, ← List.append_assoc] at he hx
  obtain ⟨e1, hf, e2, e3⟩ := exchanged_last he
  have hr := ir_at (fuel := fuel - (samples.length + 1) + 1) h h2 (by simp at hn; omega) (fun _ => by simp at hn; omega) e1
  have hbu := irStart_buffers h
  have hbit := irBit_next (s := { s.exchanged (head ++ bitTalk samples) with tap := [.shIR], prog := none }) (b := b)
    hbu.1 hbu.2 rfl hf (by rw [answered_at]; exact e2)
  have hb' : ({ s.exchanged (head ++ bitTalk samples) with tap := [.shIR], prog := none } : State).tdoOf b = true := hb
  rw [exchanged_at (s.exchanged (head ++ bitTalk samples)) [.shIR] none, hb'] at hbit
  rw [e3] at hx
  rw [hr, irLoop, bind_of_ok hbit]
  simp only [Bool.not_true, Bool.false_and, Bool.false_eq_true, if_false, Bool.and_self, if_true]
  rw [irEnd_stops _ hx]

/-- Where the flush of the next frame stops, what runs stops with it, from the state in which that flush stood. -/
theorem nextClocks_stops {s u : State} {run : Run} {talk : List Exchange} {T : List TapState} {us : List ClockUnit} {x : Stop}
    (h : NextClocks s run talk T us) (he : Exchanged s talk)
    (hx : jtagFlush (({ s.exchanged talk with tap := T, prog := none } : State).emitAll us) = (x.res, u)) :
    run.outcome s = .next (conclude (x.res, u)) := by
  cases h with
  | first i h hd =>
    have e : ({ s.exchanged [] with tap := s.tap, prog := none } : State) = s := by
      have hp : s.prog = none := h.idle.2
      rw [← hp]
      simp [State.exchanged, envAfter]
    rw [e] at hx
    exact first_stops h hd hx
  | second addr value samples h hd hl =>
    have e : ({ s.exchanged [(clocks (firstUnits s (.accessRegister addr value)), clockAnswer samples)] with
        tap := [.rti], prog := none } : State) = s.exchanged [(clocks (firstUnits s (.accessRegister addr value)), clockAnswer samples)] := by
      have hp : s.prog = none := h.idle.2
      rw [← h.tracker rfl, ← hp]
      rfl
    rw [e] at hx
    exact second_stops h hd hl he hx
  | word blocks h hb hw hn =>
    rename_i fuel
    obtain ⟨old, hr⟩ := chain_at (fuel := fuel - (blocks.length + 1) + 1) h hb hw (by omega) (fun _ => by omega) he
    rw [hr, chainLoop, bind_of_stop (chainWord_stops hx)]
  | chainExit blocks ids h hb hw hi hn => exact chainExit_stops h hb hw hi hn he hx
  | bit samples h hw hn =>
    obtain ⟨p, hp⟩ := Option.ne_none_iff_exists'.1 hw
    obtain ⟨a, b, c, d, rfl⟩ := irWalkOn_kind hp
    rename_i fuel
    rw [ir_at (fuel := fuel - (samples.length + 1) + 1) h hp (by omega) (fun _ => by omega) he, irLoop, bind_of_stop (irBit_stops hx)]
  | irExit samples lengths h hw hn => exact irExit_stops h hw hn he hx

/-- The next frame has a unit, and nothing is queued or captured before it. -/
theorem nextClocks_ready {s : State} {run : Run} {talk : List Exchange} {T : List TapState} {us : List ClockUnit}
    (h : NextClocks s run talk T us) : us ≠ [] ∧ BuffersEmpty s := by
  have scan_ne : ∀ kind value n p q, scanUnits kind value n p q ≠ [] := fun kind value n p q h => by
    have := congrArg List.length h
    rw [scanUnits_length] at this
    simp at this
  cases h with
  | first i h hd =>
    refine ⟨?_, h.buffers⟩
    have hk := h.kind
    have ho := h.operands
    cases i <;> simp only [classOf, reduceCtorEq, or_self] at hk <;> simp only [firstUnits]
    case d2 us => exact fun h => (show us ≠ [] from ho) (List.map_eq_nil_iff.1 h)
    case resetAndIdle => decide
    case discoverChain => decide
    case discoverIrLengths => decide
    all_goals exact scan_ne _ _ _ _ _
  | second addr value samples h hd hl => exact ⟨scan_ne _ _ _ _ _, h.buffers⟩
  | word blocks h => exact ⟨by decide, chainStart_buffers h⟩
  | chainExit blocks ids h => exact ⟨by decide, chainStart_buffers h⟩
  | bit samples h => exact ⟨by decide, irStart_buffers h⟩
  | irExit samples lengths h => exact ⟨by decide, irStart_buffers h⟩

/-- The flush of the next frame stands with that frame's units queued, before an environment that has made the exchanges. -/
theorem nextClocks_flush {s : State} (talk : List Exchange) (T : List TapState) (us : List ClockUnit) (hb : BuffersEmpty s) :
    (({ s.exchanged talk with tap := T, prog := none } : State).emitAll us).cq = us
      ∧ SameEnv (s.exchanged talk) (({ s.exchanged talk with tap := T, prog := none } : State).emitAll us) := by
  have h : s.cq = [] := hb.1
  exact ⟨by simp [h], by simp, by simp, by simp⟩

/-! ### Transfers that fail, and frames that do not fit -/

/-- A transfer that fails, fails in every state that the environment cannot tell apart. -/
theorem xfer_of_failure {f : List Byte} {n : Nat} {s t s' : State} {l : LinkFail} (hs : SameEnv s s')
    (h : xfer f n s = (.error l, t)) :
    t = s.traffic [.out f, .fail l] t.env ∧ xfer f n s' = (.error l, s'.traffic [.out f, .fail l] t.env) := by
  have h1 := xfer_env_congr f n hs.1 hs.2.1 hs.2.2
  rw [h] at h1
  rcases xfer_cases f n s with ⟨a, e, _, g⟩ | ⟨l', e, g⟩
  · rw [g] at h
    simp at h
  · rw [g] at h
    simp only [Prod.mk.injEq, Except.error.injEq] at h
    obtain ⟨rfl, rfl⟩ := h
    rcases xfer_cases f n s' with ⟨a, e', _, g'⟩ | ⟨l'', e', g'⟩
    · rw [g'] at h1
      simp at h1
    · rw [g'] at h1
      simp only [Except.error.injEq] at h1
      obtain ⟨rfl, h2⟩ := h1
      simp only [State.traffic_env] at h2
      exact ⟨rfl, by rw [g', h2]; rfl⟩

/-! ### Batches -/

theorem pushAll_append (a b : List Subcmd) (s : State) :
    pushAll (a ++ b) s = Act.bind (pushAll a) (fun _ => pushAll b) s := by
  induction a generalizing s with
  | nil => rfl
  | cons x a ih =>
    simp only [List.cons_append, pushAll]
    unfold Act.bind
    rcases pushSub x s with ⟨r, s'⟩
    cases r <;> simp [ih, Act.bind]

/-- A batch of subcommands that pass and fit comes to its flush with them queued. -/
theorem batch_flush {gs : List Subcmd} {s : State} (hr : SwdReady s) (ho : Pushable gs) (hf : Fits s (batchPayload gs).length) :
    batch gs s = Act.bind flushBatch (fun _ => takeResults) { s with sq := gs } := by
  obtain ⟨-, hm, hs, hq⟩ := hr
  unfold batch
  rw [bind_of_ok (requireSwd_of hm), bind_faultIf_pass (by simp [hs, hq]),
    bind_of_ok (pushAll_fits hm ho (by rw [hs]; exact hf))]
  simp only [hs, List.nil_append]

/-- Where a batch stops, the instruction that is that batch stops with it. -/
theorem batch_stops {i : Instr} {s u : State} {x : Stop} (hid : Idle s) (h0 : batchOf i ≠ [])
    (h : batch (batchOf i) s = (x.res, u)) : exec i s = .next (conclude (x.res, u)) := by
  cases i <;> simp only [batchOf, ne_eq, not_true_eq_false] at h0
  all_goals
    simp only [exec, execE8, execA1, execA2, execA0, execSwdReset, execJtagToSwd, execSwdIdle, execReadRegister,
      execWriteRegister, operate_of_idle hid, single]
    exact congrArg (fun z => Host.Outcome.next (conclude z)) (bind_of_stop h)

end Sys2Proof.Laws
end

