-- ==== Sys2Proof/Laws/Target.lean ====
section
/-! SUPPORT. A reference target stays one: whatever frame it performs, its TAPs remain as R61 has them. -/

namespace Sys2Proof.Laws

open Sys2Proof.Machine

/-- In a DR scan the shift register is as long as the DR that `ir` selects. -/
def DrOk (t : Tap) : Prop := t.drsh.length = drLength t

theorem tap_wf {t : Tap} : t.wf = true ↔ 2 ≤ t.ir.length ∧ t.irsh.length = t.ir.length ∧ t.ircap.length = t.ir.length
    ∧ t.rst.length = t.ir.length ∧ t.ircap.take 2 = [true, false] ∧ ∀ r ∈ t.drs, r.wf t.ir.length = true := by
  simp [Tap.wf, and_assoc]

theorem target_wf {g : Target} : g.wf = true ↔
    (∀ t ∈ g.chain, t.wf = true) ∧ (scanningDr g.q = true → ∀ t ∈ g.chain, DrOk t) := by
  cases h : scanningDr g.q <;> simp [Target.wf, h, DrOk]

theorem drLength_pos {t : Tap} (h : t.wf = true) : 1 ≤ drLength t := by
  unfold drLength
  cases hs : selectedDr t with
  | none => exact Nat.le_refl 1
  | some r =>
    have hm : r ∈ t.drs := by
      unfold selectedDr at hs
      split at hs
      · simp at hs
      · exact List.mem_of_find?_eq_some hs
    have hw := (tap_wf.1 h).2.2.2.2.2 r hm
    unfold DataReg.wf at hw
    cases hk : r.kind <;> simp [hk, Config.drAccBits] at hw ⊢ <;>
      exact List.length_pos_iff.2 (by simpa using hw.2)

theorem eachTap_all {f : Tap → Nat → Tap × Nat} {P Q : Tap → Prop} (h : ∀ t d, P t → Q (f t d).1) {ts : List Tap} {d : Nat}
    (hp : ∀ t ∈ ts, P t) : ∀ t ∈ (eachTap f ts d).1, Q t := by
  induction ts generalizing d with
  | nil => simp [eachTap]
  | cons t ts ih =>
    simp only [eachTap, List.mem_cons]
    rintro u (rfl | hu)
    · exact h t d (hp t (by simp))
    · exact ih (fun t ht => hp t (by simp [ht])) u hu

/-! ### Each clock's action on a TAP -/

theorem captureIr_wf {t : Tap} (h : t.wf = true) : (captureIr t).wf = true := by
  rw [tap_wf] at h ⊢
  exact ⟨h.1, h.2.2.1, h.2.2.1, h.2.2.2⟩

theorem captureDr_wf {t : Tap} (d : Nat) (h : t.wf = true) : (captureDr t d).1.wf = true ∧ DrOk (captureDr t d).1 := by
  have key : ∀ bits : List Bool, ({ t with drsh := bits } : Tap).wf = true := fun bits => by rw [tap_wf] at h ⊢; exact h
  have sel : ∀ bits : List Bool, selectedDr { t with drsh := bits } = selectedDr t := fun _ => rfl
  unfold captureDr
  split
  · next hs => exact ⟨key _, by simp [DrOk, drLength, sel, hs]⟩
  · next r hs =>
    split
    · next hk => exact ⟨key _, by simp [DrOk, drLength, sel, hs, hk]⟩
    · next hk => exact ⟨key _, by simp [DrOk, drLength, sel, hs, hk]⟩
    · next hk => exact ⟨key _, by simp [DrOk, drLength, sel, hs, hk, Config.drAccBits, bitsOf]⟩

theorem updateDr_wf {t : Tap} (d : Nat) (h : t.wf = true ∧ DrOk t) :
    (updateDr t d).1.wf = true ∧ DrOk (updateDr t d).1 := by
  obtain ⟨hw, hd⟩ := h
  have hpos := drLength_pos hw
  rw [← hd] at hpos
  unfold updateDr
  split
  · exact ⟨hw, hd⟩
  · next r hs =>
    split
    · exact ⟨hw, hd⟩
    · next hk =>
      have hne : t.drsh.isEmpty = false := by cases h : t.drsh <;> simp_all
      refine ⟨?_, ?_⟩
      · rw [tap_wf] at hw ⊢
        refine ⟨hw.1, hw.2.1, hw.2.2.1, hw.2.2.2.1, hw.2.2.2.2.1, ?_⟩
        simp only [List.mem_map]
        rintro x ⟨y, hy, rfl⟩
        have := hw.2.2.2.2.2 y hy
        split
        · unfold DataReg.wf at this ⊢
          cases hyk : y.kind <;> simp_all
        · exact this
      · have hfind : ∀ l : List DataReg, l.find? (fun r => r.code == t.ir) = some r →
            (l.map fun x => if x.code == t.ir then { x with cell := t.drsh } else x).find? (fun r => r.code == t.ir)
              = some { r with cell := t.drsh } := by
          intro l
          induction l with
          | nil => simp
          | cons y l ih =>
            intro hl
            by_cases hy : (y.code == t.ir) = true
            · simp only [List.find?_cons, hy, Option.some.injEq] at hl
              subst hl
              simp only [List.map_cons, List.find?_cons, hy, if_true]
            · simp only [List.find?_cons, hy] at hl
              simp only [List.map_cons, hy, if_false, Bool.false_eq_true, List.find?_cons]
              exact ih hl
        unfold selectedDr at hs
        unfold DrOk drLength selectedDr
        split at hs
        · simp at hs
        · next hall => simp [hall, hfind _ hs, hk]
    · exact ⟨hw, by simpa [DrOk, drLength, selectedDr] using hd⟩

/-! ### A shift through the chain -/

theorem shiftThrough_lengths (tdi : Bool) {path : List (List Bool)} (h : ∀ r ∈ path, r ≠ []) :
    (shiftThrough tdi path).map List.length = path.map List.length := by
  induction path with
  | nil => rfl
  | cons r path ih =>
    have hr : r.length - 1 + 1 = r.length := by have := List.length_pos_iff.2 (h r (by simp)); omega
    cases path with
    | nil => simp [shiftThrough, hr]
    | cons r' path => simpa [shiftThrough, hr] using ih fun r hm => h r (by simp [hm])

theorem zipWith_all {set : Tap → List Bool → Tap} {P Q : Tap → Prop} {len : Tap → Nat} :
    ∀ {ts : List Tap} {path : List (List Bool)}, (∀ t ∈ ts, P t) → path.map List.length = ts.map len →
      (∀ t r, P t → r.length = len t → Q (set t r)) → ∀ t ∈ List.zipWith set ts path, Q t
  | [], _, _, _, _ => by simp
  | t :: ts, [], _, _, _ => by simp
  | t :: ts, r :: path, hp, hl, hq => by
    simp only [List.map_cons, List.cons.injEq] at hl
    simp only [List.zipWith_cons_cons, List.mem_cons]
    rintro u (rfl | hu)
    · exact hq t r (hp t (by simp)) hl.1
    · exact zipWith_all (fun t ht => hp t (by simp [ht])) hl.2 hq u hu

/-! ### Clock units and frames -/

/-- What a chain is in a TAP state. -/
def ChainOk (q : TapState) (ts : List Tap) : Prop :=
  (∀ t ∈ ts, t.wf = true) ∧ (scanningDr q = true → ∀ t ∈ ts, DrOk t)

/-- After a unit's pre-state the DR shift registers are right if the next state is in a DR scan. -/
theorem clockPre_ok {q : TapState} {ts : List Tap} (tdi tms : Bool) (d : Nat) (h : ChainOk q ts) :
    ChainOk (delta q tms) (clockPre q ts tdi d).1 := by
  obtain ⟨h1, h2⟩ := h
  have both : scanningDr q = true → ∀ t ∈ ts, t.wf = true ∧ DrOk t := fun hq t ht => ⟨h1 t ht, h2 hq t ht⟩
  cases q
  case capIR => exact ⟨by simpa [clockPre] using fun t ht => captureIr_wf (h1 t ht), by cases tms <;> simp [delta, scanningDr]⟩
  case capDR =>
    have := eachTap_all (P := fun t => t.wf = true) (Q := fun t => t.wf = true ∧ DrOk t) (d := d + 1) (fun t d ht => captureDr_wf d ht) h1
    exact ⟨fun t ht => (this t ht).1, fun _ t ht => (this t ht).2⟩
  case shIR =>
    refine ⟨zipWith_all (len := fun t => t.ir.length) h1 ?_ fun t r ht hr => ?_, by cases tms <;> simp [delta, scanningDr]⟩
    · rw [shiftThrough_lengths]
      · simpa using fun t ht => (tap_wf.1 (h1 t ht)).2.1
      · simp only [List.mem_map]
        rintro r ⟨t, ht, rfl⟩ h0
        have h3 := tap_wf.1 (h1 t ht)
        rw [h0] at h3
        have := h3.1
        have := h3.2.1
        simp at this
        omega
    · rw [tap_wf] at ht ⊢
      exact ⟨ht.1, hr, ht.2.2⟩
  case shDR =>
    have key : ∀ t ∈ (clockPre .shDR ts tdi d).1, t.wf = true ∧ DrOk t := by
      refine zipWith_all (len := drLength) (both rfl) ?_ fun t r ht hr => ⟨?_, hr⟩
      · rw [shiftThrough_lengths]
        · simpa [DrOk] using fun t ht => (both rfl t ht).2
        · simp only [List.mem_map]
          rintro r ⟨t, ht, rfl⟩ h0
          have h3 := (both rfl t ht).2
          have h4 := drLength_pos (h1 t ht)
          unfold DrOk at h3
          rw [← h3, h0] at h4
          simp at h4
      · have := tap_wf.1 ht.1
        rw [tap_wf]
        exact this
    exact ⟨fun t ht => (key t ht).1, fun _ t ht => (key t ht).2⟩
  all_goals exact ⟨h1, by cases tms <;> first | exact fun _ => h2 rfl | simp [delta, scanningDr]⟩

theorem clockPost_ok {q : TapState} {ts : List Tap} (d : Nat) (h : ChainOk q ts) : ChainOk q (clockPost q ts d).1 := by
  obtain ⟨h1, h2⟩ := h
  cases q
  case updIR =>
    refine ⟨?_, by simp [scanningDr]⟩
    simp only [clockPost, List.mem_map]
    rintro u ⟨t, ht, rfl⟩
    have h3 := tap_wf.1 (h1 t ht)
    rw [tap_wf]
    refine ⟨by rw [h3.2.1]; exact h3.1, rfl, by rw [h3.2.1]; exact h3.2.2.1, by rw [h3.2.1]; exact h3.2.2.2.1,
      h3.2.2.2.2.1, by simpa [h3.2.1] using h3.2.2.2.2.2⟩
  case tlr =>
    refine ⟨?_, by simp [scanningDr]⟩
    simp only [clockPost, List.mem_map]
    rintro u ⟨t, ht, rfl⟩
    have h3 := tap_wf.1 (h1 t ht)
    rw [tap_wf]
    have h4 := h3.2.2.2.1
    refine ⟨by rw [h4]; exact h3.1, by rw [h4]; exact h3.2.1, by rw [h4]; exact h3.2.2.1, rfl,
      h3.2.2.2.2.1, by simpa [h4] using h3.2.2.2.2.2⟩
  case updDR =>
    have := eachTap_all (f := updateDr) (Q := fun t => t.wf = true ∧ DrOk t) (d := d) (fun t d ht => updateDr_wf d ht) (fun t ht => ⟨h1 t ht, h2 rfl t ht⟩)
    exact ⟨fun t ht => (this t ht).1, fun _ t ht => (this t ht).2⟩
  all_goals exact ⟨h1, h2⟩

theorem clockUnits_ok (us : List WireUnit) {q : TapState} {ts : List Tap} (d : Nat) (h : ChainOk q ts) :
    ChainOk (clockUnits us q ts d).1 (clockUnits us q ts d).2.1 := by
  induction us generalizing q ts d with
  | nil => exact h
  | cons u us ih => exact ih _ (clockPost_ok _ (clockPre_ok u.tdi u.tms d h))

/-- A reference target is one after it has performed a frame. -/
theorem performFrame_wf (tdoBit : Fin 8) (l : LineState) (f : List Byte) {g : Target} (d : Nat) (h : g.wf = true) :
    (performFrame tdoBit l f g d).1.wf = true := by
  rw [target_wf] at h
  unfold performFrame
  split
  · next us _ => exact target_wf.2 (clockUnits_ok us d h)
  · exact target_wf.2 h
  · exact target_wf.2 h

/-- So an environment with a reference target still has one. -/
theorem performed_reference (tdoBit : Fin 8) (l : LineState) (f : List Byte) {e : Env} {g : Target}
    (h : e.reference = some g) :
    (performed tdoBit l f e).reference = some (performFrame tdoBit l f g e.draws).1 := by
  have hw : g.wf = true := by
    unfold Env.reference at h
    split at h
    · simp at h
    · split at h
      · next hw => cases h; exact hw
      · simp at h
  unfold performed
  rw [h]
  simp [Env.reference, performFrame_wf tdoBit l f e.draws hw]

end Sys2Proof.Laws
end

