-- ==== Sys2Proof/Tests/Slice0.lean ====
section
/-! SUPPORT. Tests: the well-formedness smoke tests, one word per constructor for the decoder, and one or two small
theorems per instruction. Expected values are the vectors of 95_test_vectors.md, cited by section, or the examples of the
rules. -/

namespace Sys2Proof.Tests

open Sys2Proof.Machine

/-! ### Well-formedness: a term each check refuses -/

theorem test_wf_d2_no_unit : Instr.wf (.d2 []) = false := by decide

theorem test_wf_e8_no_subcommand : Instr.wf (.e8 []) = false := by decide

theorem test_wf_e8_bad_subcommand : Instr.wf (.e8 [.rawSequence 0 []]) = false := by decide

theorem test_wf_a1_zero_bits : Instr.wf (.a1 0 []) = false := by decide

theorem test_wf_a1_byte_count : Instr.wf (.a1 9 [0xFF]) = false := by decide

theorem test_wf_a1_unused_bit : Instr.wf (.a1 4 [0x1F]) = false := by decide

theorem test_wf_a2_unsent_offset_bits : Instr.wf (.a2 (.dp 0x14)) = false := by decide

theorem test_wf_a0_misaligned : Instr.wf (.a0 (.ap 0x02) 0) = false := by decide

theorem test_wf_accepts :
    Instr.wf (.e8 [.rawSequence 56 (List.replicate 7 0xFF), .registerRead (.dp 0xC)]) = true := by decide

/-! ### Decoding: a word of each row, written out from the spec -/

/-- §1.2; R102. -/
theorem test_decode_d0 :
    decode [0xD0, 0x07, 0x00, 0x00, 0x00, 0x03, 0x00, 0x00, 0x00, 0x00] = .ok (.d0 0x03) := by decide

/-- §2.1: TMS 1 TDI 1 is `12 13`, TMS 0 TDI 1 is `10 11`, TMS 1 TDI 0 is `02 03`. -/
theorem test_decode_d2 :
    decode [0xD2, 0x06, 0x00, 0x12, 0x13, 0x10, 0x11, 0x02, 0x03]
      = .ok (.d2 [⟨true, true⟩, ⟨false, true⟩, ⟨true, false⟩]) := by decide

/-- §1.2; R105. -/
theorem test_decode_e5 :
    decode [0xE5, 0x08, 0x00, 0x40, 0x42, 0x0F, 0x00, 0x01, 0x00, 0x00, 0x00] = .ok (.e5 0x01) := by decide

/-- §2.12, the batch. -/
theorem test_decode_e8 :
    decode [0xE8, 0x11, 0x00, 0xA2, 0x22, 0x00, 0x87, 0xA2, 0x22, 0x00, 0xAF,
        0xA0, 0x29, 0x00, 0xB1, 0x0F, 0x00, 0x00, 0x00, 0x00]
      = .ok (.e8 [.registerRead (.ap 0x0), .registerRead (.ap 0x4), .registerWrite (.dp 0x8) 0x0000000F]) := by
  decide

/-- §1.3: the switch magic. -/
theorem test_decode_a1 : decode [0xA1, 0x10, 0x00, 0x9E, 0xE7] = .ok (.a1 16 [0x9E, 0xE7]) := by decide

/-- §1.1 property 7: 0xBD is the DP read of 0x0C. -/
theorem test_decode_a2 : decode [0xA2, 0x22, 0x00, 0xBD] = .ok (.a2 (.dp 0x0C)) := by decide

/-- §2.9: the write of 0x20000000 to AP 0x4. -/
theorem test_decode_a0 :
    decode [0xA0, 0x29, 0x00, 0x8B, 0x00, 0x00, 0x00, 0x20, 0x01] = .ok (.a0 (.ap 0x4) 0x20000000) := by decide

/-- R121's examples and the calls of §3. -/
theorem test_decode_jtag_init : decode (ascii "jtag_init(0x03)") = .ok (.jtagInit 0x03) := by decide

theorem test_decode_reset_and_idle : decode (ascii "reset_and_idle()") = .ok .resetAndIdle := by decide

theorem test_decode_discover_chain : decode (ascii "discover_chain()") = .ok .discoverChain := by decide

theorem test_decode_discover_ir_lengths : decode (ascii "discover_ir_lengths()") = .ok .discoverIrLengths := by decide

theorem test_decode_select_target : decode (ascii "select_target(1)") = .ok (.selectTarget 1) := by decide

theorem test_decode_write_ir : decode (ascii "write_ir(0xA, 4)") = .ok (.writeIr 0xA 4) := by decide

theorem test_decode_write_dr : decode (ascii "write_dr(0xFFFFFFFFFFFFFFFF, 64)")
    = .ok (.writeDr 0xFFFFFFFFFFFFFFFF 64) := by decide

theorem test_decode_access_register :
    decode (ascii "access_register(DP(0x4), none)") = .ok (.accessRegister (.dp 0x4) none) := by decide

theorem test_decode_access_register_write :
    decode (ascii "access_register(DP(0x8), 0x000000F0)") = .ok (.accessRegister (.dp 0x8) (some 0xF0)) := by decide

theorem test_decode_swd_init : decode (ascii "swd_init(0x01)") = .ok (.swdInit 0x01) := by decide

theorem test_decode_push :
    decode (ascii "push(RegisterWrite" ++ braceOpen ++ ascii "DP(0x8), 0x0000000F" ++ braceClose ++ ascii ")")
      = .ok (.push (.registerWrite (.dp 0x8) 0x0000000F)) := by decide

theorem test_decode_push_raw :
    decode (ascii "push(RawSequence" ++ braceOpen ++ ascii "12, [0xFF, 0x1F]" ++ braceClose ++ ascii ")")
      = .ok (.push (.rawSequence 12 [0xFF, 0x1F])) := by decide

theorem test_decode_flush : decode (ascii "flush()") = .ok .flush := by decide

theorem test_decode_take : decode (ascii "take()") = .ok .take := by decide

theorem test_decode_swd_reset : decode (ascii "swd_reset()") = .ok .swdReset := by decide

theorem test_decode_jtag_to_swd : decode (ascii "jtag_to_swd()") = .ok .jtagToSwd := by decide

theorem test_decode_swd_idle : decode (ascii "swd_idle()") = .ok .swdIdle := by decide

theorem test_decode_read_register : decode (ascii "read_register(0xC, true)") = .ok (.readRegister 0xC true) := by
  decide

theorem test_decode_write_register :
    decode (ascii "write_register(0x8, false, 0x000000F0)") = .ok (.writeRegister 0x8 false 0xF0) := by decide

/-! ### Rejecting (R119; §2.8) -/

theorem test_reject_opcode : decode [0xD1, 0x00, 0x00] = .error .unknownOpcode := by decide

theorem test_reject_clock_bits : decode [0xD2, 0x02, 0x00, 0x04, 0x05] = .error .reservedClockBits := by decide

theorem test_reject_header_parity : decode [0xA2, 0x22, 0x00, 0x9D] = .error .header := by decide

theorem test_reject_header_stop : decode [0xA2, 0x22, 0x00, 0xFD] = .error .header := by decide

theorem test_reject_parity :
    decode [0xA0, 0x29, 0x00, 0x81, 0x01, 0x00, 0x00, 0x00, 0x00] = .error .parity := by decide

theorem test_reject_zero_bits : decode [0xA1, 0x00, 0x00] = .error .zeroBits := by decide

theorem test_reject_wide_operand : decode (ascii "jtag_init(0x100)") = .error .operands := by decide

/-! ### The table's words -/

theorem test_table_d0 : decodeTableWord 8 0xD0 = some (.d0 0) := by decide

theorem test_table_a0 : decodeTableWord 24 0xA02900 = some (.a0 (.dp 0) 0) := by decide

/-! ### Fields -/

/-- §2.8, the 16 headers, DP write, DP read, AP write, AP read at 0x0, 0x4, 0x8, 0xC. -/
theorem test_headers :
    ([0x0, 0x4, 0x8, 0xC].map fun a : Byte =>
        (header (.dp a) false, header (.dp a) true, header (.ap a) false, header (.ap a) true))
      = [(0x81, 0xA5, 0xA3, 0x87), (0xA9, 0x8D, 0x8B, 0xAF), (0xB1, 0x95, 0x93, 0xB7), (0x99, 0xBD, 0xBB, 0x9F)] := by
  decide

/-- §2.9. -/
theorem test_parity :
    ([0x00000000, 0xFFFFFFFF, 0x00000001, 0x80000000, 0x7FFFFFFF, 0xAAAAAAAA, 0x12345678, 0x24770011].map parityByte)
      = [0x00, 0x00, 0x01, 0x01, 0x01, 0x00, 0x01, 0x00] := by decide

/-- §2.11, the requests. -/
theorem test_requests :
    [accessRequest 0x0 none, accessRequest 0x4 none, accessRequest 0x8 none, accessRequest 0xC none,
        accessRequest 0x8 (some 0xF0), accessRequest 0x4 (some 0x12345678)]
      = [0x1, 0x3, 0x5, 0x7, 0x784, 0x091A2B3C2] := by decide

/-- §2.2, the sizes and ends of R162's sets. -/
theorem test_tap_reset :
    (deltaSeq TapState.all [true]).length = 9 ∧ (deltaSeq TapState.all [true, true]).length = 5
      ∧ deltaSeq TapState.all [true, true, true] = [.tlr, .selDR, .selIR]
      ∧ deltaSeq TapState.all [true, true, true, true] = [.tlr, .selIR]
      ∧ deltaSeq TapState.all [true, true, true, true, true, false] = [.rti] := by decide

/-- §2.2, the other starts. -/
theorem test_tap_paths :
    deltaSeq TapState.all [true, false, false] = [.rti, .shDR, .pauseDR, .shIR, .pauseIR]
      ∧ deltaSeq [.rti] [true, false, false] = [.shDR] ∧ deltaSeq [.rti] [true, true, false, false] = [.shIR]
      ∧ deltaSeq [.shIR] [true, true, false] = [.rti] ∧ deltaSeq [.ex1DR] [true, false] = [.rti] := by decide

/-- R160's table, column by column, in R21's order. -/
theorem test_delta_table :
    TapState.all.map (fun q => delta q false)
        = [.rti, .rti, .capDR, .shDR, .shDR, .pauseDR, .pauseDR, .shDR, .rti,
          .capIR, .shIR, .shIR, .pauseIR, .pauseIR, .shIR, .rti]
      ∧ TapState.all.map (fun q => delta q true)
        = [.tlr, .selDR, .selIR, .ex1DR, .ex1DR, .updDR, .ex2DR, .updDR, .selDR,
          .tlr, .ex1IR, .ex1IR, .updIR, .ex2IR, .updIR, .selDR] := by decide

/-! ### Instructions: small states -/

/-- A state whose coming writes succeed and whose coming reads are these answers. -/
def answering (answers : List (List Byte)) (s : State) : State :=
  { s with env := { s.env with tx := List.replicate answers.length .ok, rx := answers.map .bytes } }

/-- Mode Jtag, tracker {RTI}. -/
def jtagIdle : State := { State.reset with mode := .jtag, tap := [.rti] }

/-- Mode Swd, line Ready. -/
def swdReady : State := { State.reset with mode := .swd, link := .ready }

/-- What a test looks at in a next state. -/
def next (o : Host.Outcome State Fault Refusal) : State :=
  match o with
  | .next s => s
  | _ => State.reset

/-- The results and the frames written. -/
def shown (o : Host.Outcome State Fault Refusal) : List OpResult × List (List Byte) :=
  ((next o).results, (next o).hist.filterMap fun e => match e with | .out f => some f | _ => none)

/-- R180's example. -/
theorem test_jtag_init :
    shown (exec (.jtagInit 0x03) (answering [[]] State.reset))
      = ([.ok .unit], [[0xD0, 0x07, 0x00, 0x00, 0x00, 0x03, 0x00, 0x00, 0x00, 0x00]])
      ∧ (next (exec (.jtagInit 0x03) (answering [[]] State.reset))).mode = .jtag := by decide

/-- §2.3. -/
theorem test_reset_and_idle :
    shown (exec .resetAndIdle (answering [[0xD2, 0x06, 0x00, 0, 1, 0, 1, 0, 1]] { State.reset with mode := .jtag }))
      = ([.ok .unit], [[0xD2, 0x0C, 0x00, 0x12, 0x13, 0x12, 0x13, 0x12, 0x13, 0x12, 0x13, 0x12, 0x13, 0x10, 0x11]])
      ∧ (next (exec .resetAndIdle
          (answering [[0xD2, 0x06, 0x00, 0, 1, 0, 1, 0, 1]] { State.reset with mode := .jtag }))).tap = [.rti] := by
  decide

/-- §2.13, the first row. -/
theorem test_reset_and_idle_mode : (next (exec .resetAndIdle State.reset)).fault = some .modeViolation := by decide

/-- A D2 answer whose samples from position `skip` on are these bits, bit 0 first. -/
def samples (skip : Nat) (bits : List Bool) : List Byte :=
  [0xD2] ++ le16 (skip + bits.length) ++ List.replicate skip 0x00 ++ bits.map (fun b => if b then 0x01 else 0x00)

/-- §1.1 property 3: the identifiers 0x1234 and 0x5678, then the terminator. -/
def chainAnswers : List (List Byte) :=
  [samples 3 (bitsOf 32 (0x1234 : Word)), samples 0 (bitsOf 32 (0x5678 : Word)),
    samples 0 (bitsOf 32 (0xFFFFFFFF : Word)), samples 3 []]

theorem test_discover_chain :
    (shown (exec .discoverChain (answering chainAnswers jtagIdle))).1 = [.ok (.ids [0x1234, 0x5678])]
      ∧ (shown (exec .discoverChain (answering chainAnswers jtagIdle))).2.map List.length = [73, 67, 67, 9] := by
  decide +kernel

/-- §2.6: the captured stream 1,0,1,0, 1,1 splits one TAP in two. -/
def irAnswers : List (List Byte) :=
  [samples 4 [true], samples 0 [false], samples 0 [true], samples 0 [false], samples 0 [true], samples 0 [true],
    samples 3 []]

theorem test_discover_ir_lengths :
    (shown (exec .discoverIrLengths (answering irAnswers jtagIdle))).1 = [.ok (.lengths [2, 2])]
      ∧ (next (exec .discoverIrLengths (answering irAnswers jtagIdle))).taps = [2, 2] := by decide +kernel

/-- §2.7. -/
theorem test_select_target :
    let t := next (exec (.selectTarget 1) { State.reset with taps := [4, 5, 6] })
    (t.irPre, t.irPos, t.pre, t.pos, t.sel) = (4, 6, 1, 1, some 1) := by decide

/-- §2.7. -/
theorem test_select_target_count :
    (next (exec (.selectTarget 3) { State.reset with taps := [4, 5, 6] })).results
      = [.err (.indexOutOfRange 3 3)] := by decide

/-- §2.4, write_ir(0x3, 2) with ir_pos = 1: the last data bit has TMS=0. -/
theorem test_write_ir :
    shown (exec (.writeIr 0x3 2) (answering [[0xD2, 0x09, 0x00, 0, 0, 0, 0, 0, 1, 0, 0, 0]] { jtagIdle with irPos := 1 }))
      = ([.ok (.bits [false, true])],
        [[0xD2, 0x12, 0x00, 0x12, 0x13, 0x12, 0x13, 0x10, 0x11, 0x10, 0x11, 0x10, 0x11, 0x10, 0x11, 0x12, 0x13, 0x12,
          0x13, 0x10, 0x11]]) := by decide

/-- §2.13: BufferOverflow(23, 20). -/
theorem test_write_ir_overflow :
    (next (exec (.writeIr 0xA 4) { jtagIdle with par := { Config.Params.default with maxFrameBytes := some 20 } })).results
      = [.err (.bufferOverflow 23 (some 20))] := by decide

/-- §2.4, write_dr(0xD, 3) sends the frame of write_dr(0x5, 3), with pre = pos = 1. -/
theorem test_write_dr :
    shown (exec (.writeDr 0xD 3)
        (answering [[0xD2, 0x0A, 0x00, 0, 0, 0, 1, 1, 0, 1, 1, 1, 1]] { jtagIdle with pre := 1, pos := 1 }))
      = ([.ok (.bits [true, false, true])],
        [[0xD2, 0x14, 0x00, 0x12, 0x13, 0x10, 0x11, 0x10, 0x11, 0x10, 0x11, 0x10, 0x11, 0x00, 0x01, 0x10, 0x11, 0x12,
          0x13, 0x12, 0x13, 0x10, 0x11]]) := by decide

/-- §2.4: length 65. -/
theorem test_write_dr_length : (next (exec (.writeDr 0 65) jtagIdle)).fault = some .invalidLength := by decide

/-- §2.11: the capture 0x780000002 is ok(0xF0000000). -/
theorem test_access_register :
    (shown (exec (.accessRegister (.dp 0xC) none)
        (answering [samples 4 [true, false, false, false, false, false],
          [0xD2, 0x28, 0x00, 0, 0, 0] ++ (bitsOf 35 (0x780000002 : BitVec 35)).map (fun b => if b then 0x01 else 0x00)
            ++ [0, 0]] jtagIdle))).1
      = [.ok (.word 0xF0000000)] := by decide +kernel

/-- §2.11: a misaligned offset, nothing written. -/
theorem test_access_register_misaligned :
    (next (exec (.accessRegister (.dp 0x6) none) jtagIdle)).fault = some .misalignedAddress
      ∧ (next (exec (.accessRegister (.dp 0x6) none) jtagIdle)).hist = [] := by decide

/-- R313, D39: the DR frame has 83 bytes, and nothing is written, not even the IR frame. -/
theorem test_access_register_overflow :
    shown (exec (.accessRegister (.dp 0x4) none) { jtagIdle with par := { Config.Params.default with maxFrameBytes := some 82 } })
      = ([.err (.bufferOverflow 83 (some 82))], []) := by decide

/-- §2.12. -/
theorem test_swd_init :
    shown (exec (.swdInit 0x01) (answering [[0x55]] State.reset))
      = ([.ok .unit], [[0xE5, 0x08, 0x00, 0x40, 0x42, 0x0F, 0x00, 0x01, 0x00, 0x00, 0x00]]) := by decide

/-- §2.13: BufferOverflow(12, 10), the queue kept. -/
theorem test_push_overflow :
    let s := { swdReady with par := { Config.Params.default with maxFrameBytes := some 10 } }
    (next (exec (.push (.registerWrite (.dp 0x8) 0)) s)).results = [.err (.bufferOverflow 12 (some 10))]
      ∧ (next (exec (.push (.registerWrite (.dp 0x8) 0)) s)).sq = [] := by decide

/-- §2.13: an unused bit is set. -/
theorem test_push_unused_bit :
    (next (exec (.push (.rawSequence 4 [0x1F])) swdReady)).fault = some .invalidLength := by decide

/-- §2.12, the batch; §2.10, a non-OK ack is a result. -/
theorem test_flush :
    let s := { swdReady with sq := [.registerRead (.ap 0x0), .registerWrite (.dp 0x8) 0x0000000F] }
    let o := exec .flush (answering [[0xE8, 0x09, 0x00, 0xA2, 0x01, 0x11, 0x00, 0x77, 0x24, 0x00, 0xA0, 0x0A]] s)
    shown o = ([.ok .unit],
        [[0xE8, 0x0D, 0x00, 0xA2, 0x22, 0x00, 0x87, 0xA0, 0x29, 0x00, 0xB1, 0x0F, 0x00, 0x00, 0x00, 0x00]])
      ∧ (next o).rq = [.readOk 0x24770011, .ackErr 2] ∧ (next o).sq = [] := by decide

/-- §2.13: flush() with an empty queue writes nothing. -/
theorem test_flush_empty : shown (exec .flush swdReady) = ([.ok .unit], []) := by decide

/-- R218. -/
theorem test_take :
    let t := next (exec .take { swdReady with rq := [.writeOk, .ackErr 2] })
    t.results = [.ok (.results [.writeOk, .ackErr 2])] ∧ t.rq = [] := by decide

/-- §2.12. -/
theorem test_swd_reset :
    shown (exec .swdReset (answering [[0xE8, 0x01, 0x00, 0xA1]] swdReady))
      = ([.ok .unit], [[0xE8, 0x0A, 0x00, 0xA1, 0x38, 0x00, 0xFF, 0xFF, 0xFF, 0xFF, 0xFF, 0xFF, 0xFF]])
      ∧ (next (exec .swdReset (answering [[0xE8, 0x01, 0x00, 0xA1]] swdReady))).link = .lineReset := by decide

/-- §2.12. -/
theorem test_jtag_to_swd :
    shown (exec .jtagToSwd (answering [[0xE8, 0x03, 0x00, 0xA1, 0xA1, 0xA1]] swdReady))
      = ([.ok .unit],
        [[0xE8, 0x19, 0x00, 0xA1, 0x38, 0x00, 0xFF, 0xFF, 0xFF, 0xFF, 0xFF, 0xFF, 0xFF, 0xA1, 0x10, 0x00, 0x9E, 0xE7,
          0xA1, 0x38, 0x00, 0xFF, 0xFF, 0xFF, 0xFF, 0xFF, 0xFF, 0xFF]])
      ∧ (next (exec .jtagToSwd (answering [[0xE8, 0x03, 0x00, 0xA1, 0xA1, 0xA1]] swdReady))).link = .lineReset := by
  decide +kernel

/-- §2.12: from LineReset to Ready. -/
theorem test_swd_idle :
    let o := exec .swdIdle (answering [[0xE8, 0x01, 0x00, 0xA1]] { swdReady with link := .lineReset })
    shown o = ([.ok .unit], [[0xE8, 0x04, 0x00, 0xA1, 0x08, 0x00, 0x00]]) ∧ (next o).link = .ready := by decide

/-- §2.13: a standalone operation with a batch pending. -/
theorem test_swd_idle_queue :
    (next (exec .swdIdle { swdReady with sq := [.registerRead (.dp 0)] })).fault = some .queueNotEmpty := by decide

/-- §2.12: the read parity is not checked. -/
theorem test_read_register :
    shown (exec (.readRegister 0x0 false)
        (answering [[0xE8, 0x07, 0x00, 0xA2, 0x01, 0x77, 0x04, 0xA0, 0x4B, 0x00]] swdReady))
      = ([.ok (.word 0x4BA00477)], [[0xE8, 0x04, 0x00, 0xA2, 0x22, 0x00, 0xA5]]) := by decide

/-- §2.12: a slice byte A0 instead of A2. -/
theorem test_read_register_malformed :
    (next (exec (.readRegister 0x0 false)
        (answering [[0xE8, 0x07, 0x00, 0xA0, 0x01, 0x77, 0x04, 0xA0, 0x4B, 0x01]] swdReady))).fault
      = some .malformedResponse := by decide

/-- §2.12: the ack 4. -/
theorem test_write_register :
    shown (exec (.writeRegister 0x0 false 0x0000001E) (answering [[0xE8, 0x02, 0x00, 0xA0, 0x04]] swdReady))
      = ([.err (.accessFault 4)], [[0xE8, 0x09, 0x00, 0xA0, 0x29, 0x00, 0x81, 0x1E, 0x00, 0x00, 0x00, 0x00]]) := by
  decide

/-- R102, R180's example, as a wire command. -/
theorem test_d0 :
    shown (exec (.d0 0x03) (answering [[]] State.reset))
      = ([.ok .unit], [[0xD0, 0x07, 0x00, 0x00, 0x00, 0x03, 0x00, 0x00, 0x00, 0x00]]) := by decide

/-- R103, R104: two units, two samples. -/
theorem test_d2 :
    shown (exec (.d2 [⟨true, true⟩, ⟨false, false⟩]) (answering [[0xD2, 0x02, 0x00, 0xFE, 0x01]] jtagIdle))
      = ([.ok (.bits [false, true])], [[0xD2, 0x04, 0x00, 0x12, 0x13, 0x00, 0x01]])
      ∧ (next (exec (.d2 [⟨true, true⟩, ⟨false, false⟩])
          (answering [[0xD2, 0x02, 0x00, 0xFE, 0x01]] jtagIdle))).tap = [.capDR] := by decide

/-- R105. -/
theorem test_e5 :
    shown (exec (.e5 0x01) (answering [[]] State.reset))
      = ([.ok .unit], [[0xE5, 0x08, 0x00, 0x40, 0x42, 0x0F, 0x00, 0x01, 0x00, 0x00, 0x00]]) := by decide

/-- §3.3 step 10. -/
theorem test_e8 :
    shown (exec (.e8 [.registerRead (.ap 0xC), .registerRead (.dp 0xC)])
        (answering [[0xE8, 0x0E, 0x00, 0xA2, 0x01, 0x11, 0x00, 0x77, 0x24, 0x00, 0xA2, 0x01, 0x11, 0x00, 0x77, 0x24,
          0x00]] swdReady))
      = ([.ok (.results [.readOk 0x24770011, .readOk 0x24770011])],
        [[0xE8, 0x08, 0x00, 0xA2, 0x22, 0x00, 0x9F, 0xA2, 0x22, 0x00, 0xBD]]) := by decide

/-- R108. -/
theorem test_a1 :
    shown (exec (.a1 16 [0x9E, 0xE7]) (answering [[0xE8, 0x01, 0x00, 0xA1]] swdReady))
      = ([.ok (.results [.rawOk])], [[0xE8, 0x05, 0x00, 0xA1, 0x10, 0x00, 0x9E, 0xE7]]) := by decide

/-- R109; §2.10: 0xF9 & 7 = 1. -/
theorem test_a2 :
    shown (exec (.a2 (.dp 0xC)) (answering [[0xE8, 0x07, 0x00, 0xA2, 0xF9, 0x01, 0x02, 0x03, 0x04, 0x00]] swdReady))
      = ([.ok (.results [.readOk 0x04030201])], [[0xE8, 0x04, 0x00, 0xA2, 0x22, 0x00, 0xBD]]) := by decide

/-- R110. -/
theorem test_a0 :
    shown (exec (.a0 (.ap 0x4) 0x20000000) (answering [[0xE8, 0x02, 0x00, 0xA0, 0x01]] swdReady))
      = ([.ok (.results [.writeOk])],
        [[0xE8, 0x09, 0x00, 0xA0, 0x29, 0x00, 0x8B, 0x00, 0x00, 0x00, 0x20, 0x01]]) := by decide

/-! ### The step, the link, the reference target -/

/-- §2.13: LinkWrite draws Fail(DeviceGone, Tx). -/
theorem test_transport_error :
    let s := { jtagIdle with env := { State.reset.env with tx := [.fail .deviceGone] } }
    let t := next (exec .resetAndIdle s)
    t.results = [.err (.transport ⟨.deviceGone, .tx⟩)] ∧ t.mode = .uninit ∧ t.tap = TapState.all ∧ t.cq = [] := by
  decide

/-- §2.14: nine bytes in pieces of 4 and 5. -/
theorem test_short_reads :
    (next (exec .resetAndIdle
        { jtagIdle with
          env := { State.reset.env with tx := [.ok], rx := [.bytes [0xD2, 6, 0, 1], .bytes [2, 3, 4, 5, 6]] } })).hist.getLast?
      = some (.inn [0xD2, 6, 0, 1, 2, 3, 4, 5, 6]) := by decide +kernel

/-- R37: step takes the call at the position. -/
theorem test_step :
    (next (step { answering [[]] State.reset with calls := [ascii "jtag_init(0x03)"] })).pc = 1 := by decide

/-- R34: a model fault is sticky. -/
theorem test_step_sticky :
    step { State.reset with fault := some .invalidLength, calls := [ascii "take()"] } = .fault (.sticky .invalidLength) := by
  rfl

theorem test_step_table_word :
    (next (step ({ swdReady with env := { State.reset.env with tx := [.ok], rx := [.bytes [0xE8, 1, 0, 0xA1]] } }.withFetchWord
        8 0xA1))).results = [.ok (.results [.rawOk])] := by decide +kernel

/-- §3.1's TAP: IR 4, IDCODE 0x4BA00477 selected at reset by an instruction of the test's own, DPACC and APACC, CTRL/STAT
reading 0xF0000000, the initial latch 0. -/
def dpTap : Tap where
  irsh := [true, false, false, false]
  ir := [false, true, true, true]
  ircap := [true, false, false, false]
  rst := [false, true, true, true]
  drsh := [false]
  drs := [⟨[false, true, true, true], .constant, bitsOf 32 (0x4BA00477 : Word)⟩,
    ⟨bitsOf 4 Config.irDpacc, .access false, []⟩, ⟨bitsOf 4 Config.irApacc, .access true, []⟩]
  port := { DebugPort.unknown with reg4 := some 0xF0000000, latch := some 0 }

/-- The TDO samples the reference chain gives to clock units, from Run-Test/Idle. -/
def refSamples (t : Tap) (us : List ClockUnit) : List Bool :=
  (clockUnits (us.map ClockUnit.wire) .rti [t] 0).2.2.1

/-- §3.1 step 3, the chain's identifier, then the terminator. -/
theorem test_ref_chain_samples :
    (refSamples dpTap (enterShiftDR ++ List.replicate 64 ⟨false, true, true⟩)).drop 3
      = bitsOf 32 (0x4BA00477 : Word) ++ List.replicate 32 true := by decide +kernel

/-- §3.1 step 4: 1,0,0,0 then ones. -/
theorem test_ref_ir_samples :
    (refSamples dpTap (enterShiftIR ++ List.replicate 6 ⟨false, true, true⟩)).drop 4
      = [true, false, false, false, true, true] := by decide +kernel

/-- The scans of one JTAG access. -/
def accessUnits (addr : RegAddr) : List ClockUnit :=
  scanUnits .ir ((accessIr addr).zeroExtend 64) 4 0 0
    ++ scanUnits .dr ((accessRequest addr.off none).zeroExtend 64) 35 0 0

/-- §3.1 steps 6 and 7: the stale first read (the initial latch, 0), then CTRL/STAT; ack 2 both times. -/
theorem test_ref_access_pipeline :
    let us := refSamples dpTap (accessUnits (.dp 0x4) ++ accessUnits (.dp 0xC))
    (us.drop 13).take 35 = bitsOf 35 (0x000000002 : BitVec 35)
      ∧ (us.drop 63).take 35 = bitsOf 35 (0x780000002 : BitVec 35) := by decide +kernel

/-- The answer to register reads, each with the ack OK and this data drawn. -/
def readsAnswer (ws : List Word) : List Byte :=
  [0xE8] ++ le16 (7 * ws.length) ++ ws.flatMap fun w => [0xA2, 0x01] ++ le32 w ++ [0x00]

/-- §3.3 steps 4 and 7 on a Ready line: a DP read at once, RDBUFF the latch; whatever is drawn. -/
theorem test_ref_swd_pipeline :
    (boundAnswer .ready [.registerRead (.dp 0x0), .registerRead (.dp 0xC)]
        { DebugPort.unknown with reg0 := some 0x4BA00477, rdbuff := some 0x24770011 } (readsAnswer [1, 2])).2
      = readsAnswer [0x4BA00477, 0x24770011] := by decide +kernel

/-- R65, with no reference target: the first AP read returns any value, here 1; RDBUFF is drawn once, here 2, and that is what it
and the next AP read then return, across batches; R66: on a line that is not Ready, what is drawn is what is read. -/
theorem test_swd_pipeline :
    let talk := [readsAnswer [1], readsAnswer [2, 3], readsAnswer [4]]
    let run (s : State) := next (exec (.a2 (.ap 0x0C)) (next (exec (.e8 [.registerRead (.dp 0x0C), .registerRead (.dp 0x0C)])
      (next (exec (.a2 (.ap 0x0C)) (answering talk s))))))
    (run swdReady).results
        = [.ok (.results [.readOk 1]), .ok (.results [.readOk 2, .readOk 2]), .ok (.results [.readOk 2])]
      ∧ (run { swdReady with link := .lineReset }).results
        = [.ok (.results [.readOk 1]), .ok (.results [.readOk 2, .readOk 3]), .ok (.results [.readOk 4])] := by decide +kernel

/-- R254: SELECT is what was last written to it; I-33: after an ack that is not OK, here WAIT, the rest of the batch is as drawn. -/
theorem test_swd_select :
    (boundAnswer .ready [.registerWrite (.dp 0x8) 0xF0, .registerRead (.dp 0x8)] .unknown
        ([0xE8, 0x09, 0x00, 0xA0, 0x01] ++ (readsAnswer [5]).drop 3)).2.drop 7 = [0xF0, 0, 0, 0, 0]
      ∧ (boundAnswer .ready [.registerWrite (.dp 0x8) 0xF0, .registerRead (.dp 0xC)]
        { DebugPort.unknown with rdbuff := some 7 } ([0xE8, 0x09, 0x00, 0xA0, 0x02] ++ (readsAnswer [5]).drop 3)).2.drop 7
        = [5, 0, 0, 0, 0] := by decide +kernel

/-! ### Witnesses: for each statement with hypotheses, a state and operands that meet them, clause by clause at a boundary.
Where the statement's hypothesis is a step, the witness is that step. -/

/-- A frame buffer of this size. -/
def limited (n : Nat) (s : State) : State := { s with par := { s.par with maxFrameBytes := some n } }

/-- The coming writes and reads. -/
def facing (tx : List TxDraw) (rx : List RxDraw) (s : State) : State := { s with env := { s.env with tx := tx, rx := rx } }

theorem jtagIdle_ready (answers : List (List Byte)) : JtagReady (answering answers jtagIdle) :=
  ⟨⟨rfl, rfl⟩, ⟨rfl, rfl⟩, rfl, rfl⟩

theorem swdReady_ready (answers : List (List Byte)) : SwdReady (answering answers swdReady) := ⟨⟨rfl, rfl⟩, rfl, rfl, rfl⟩

/-- With the buffer's size open, a payload fits up to the length field's 65535. -/
theorem fits_open {s : State} (h : s.par.maxFrameBytes = none) {n : Nat} (hn : n ≤ 0xFFFF) : Fits s n :=
  ⟨hn, fun l hl => by rw [h] at hl; cases hl⟩

/-- With a buffer of `3 + n` bytes, a payload of `n` bytes fits, and `n + 1` does not. -/
theorem fits_exactly {s : State} {n : Nat} (h : s.par.maxFrameBytes = some (3 + n)) (hn : n ≤ 0xFFFF) :
    Fits s n ∧ ¬ Fits s (n + 1) :=
  ⟨⟨hn, fun l hl => by rw [h] at hl; cases hl; exact Nat.le_refl _⟩,
    fun hf => by have := hf.2 _ h; omega⟩

theorem witness_DecodeEncodeAgree :
    Instr.wf (.a1 9 [0xFF, 0x01]) = true ∧ Instr.wf (.a2 (.ap 0x0C)) = true
      ∧ Instr.wf (.d2 (List.replicate 32767 ⟨true, true⟩)) = true := by
  refine ⟨by decide, by decide, ?_⟩
  simp only [Instr.wf, List.length_replicate]
  decide

theorem witness_FrameHasOneReading :
    decodeFrame [0xA1, 0x01, 0x00, 0x01, 0xA2] = .ok (.a1 1 [0x01], [0xA2]) := by decide

theorem witness_ReservedEncodingsRefused :
    ((0xD1 : Byte).getLsbD 7 = true ∧ (0xD1 : Byte) ∉ [0xD0, 0xD2, 0xE5, 0xE8, 0xA0, 0xA1, 0xA2])
      ∧ (0xA3 : Byte) ∉ [0xA0, 0xA1, 0xA2]
      ∧ (0x04 : Byte).getLsbD 2 = true ∧ (0x80 : Byte).getLsbD 7 = true
      ∧ (¬ ∃ (addr : RegAddr) (rnw : Bool), (0x9D : Byte) = header addr rnw)
      ∧ (0x01 : Byte) ≠ parityByte 0 := by
  refine ⟨by decide, by decide, by decide, by decide, ?_, by decide⟩
  have key : ∀ (off : Byte) (rnw : Bool), header (.dp off) rnw ≠ 0x9D ∧ header (.ap off) rnw ≠ 0x9D := by decide +kernel
  rintro ⟨addr, rnw, h⟩
  cases addr with
  | dp off => exact (key off rnw).1 h.symm
  | ap off => exact (key off rnw).2 h.symm

theorem witness_SubcommandFrames :
    addrA 0x04 = addrA 0xF7 ∧ (Subcmd.rawSequence 1 [0x01]).wireForm = true
      ∧ (Subcmd.registerWrite (.dp 0x0C) 0).wireForm = true ∧ (Subcmd.registerRead (.dp 0x00)).wireForm = true := by
  decide

theorem witness_ResetFromAnyState : tapSetOk TapState.all = true ∧ tapSetOk [.rti] = true := by decide

/-- A queue of one unit. -/
def oneQueued : State := { jtagIdle with cq := [⟨false, true, true⟩] }

theorem witness_EmitQueuesAndMoves :
    (jtagFlush (facing [.fail .timeout] [] oneQueued)).1 = .err (.transport ⟨.timeout, .tx⟩)
      ∧ (jtagFlush (limited 4 oneQueued)).1 = .err (.bufferOverflow 5 (some 4)) := by decide

/-- Two reads of RDBUFF that agree; a frame without a register read; a read on a line that is not Ready. -/
theorem witness_AnyAnswerPossible :
    (boundAnswer .ready (askedBy (frameE8 [.registerRead (.dp 0xC), .registerRead (.dp 0xC)])) .unknown (readsAnswer [9, 9])).2
        = readsAnswer [9, 9]
      ∧ askedBy (frameD2 [⟨true, true⟩]) = []
      ∧ State.reset.link ≠ .ready ∧ askedBy (frameE8 [.registerRead (.dp 0xC)]) = [.registerRead (.dp 0xC)] := by
  decide +kernel

theorem witness_ShortReads :
    let s := facing [] ([[], [0xD2], [0x01, 0x00]].map .bytes ++ [.fail .timeout]) jtagIdle
    s.env.asked = [] ∧ (∀ p : List Byte, [[], [(0xD2 : Byte)], [0x01, 0x00]].getLast? = some p → p ≠ [])
      ∧ s.env.rx = [[], [0xD2], [0x01, 0x00]].map .bytes ++ [.fail .timeout]
      ∧ [[], [(0xD2 : Byte)], [0x01, 0x00]].flatten.length < 4 :=
  ⟨rfl, fun p h => by cases h; decide, rfl, by decide⟩

theorem witness_FlushAllOrNothing :
    (jtagFlush (facing [.fail .timeout] [] oneQueued)).1 ≠ .ok ()
      ∧ (jtagFlush (answering [[0xD2, 0x01, 0x00, 0x01]] oneQueued)).1 = .ok ()
      ∧ (flushBatch jtagIdle).1 ≠ .ok ()
      ∧ (flushBatch (answering [[0xE8, 0x01, 0x00, 0xA1]] { swdReady with sq := [idleSeq] })).1 = .ok () := by decide

/-- 50 ones are a reset, 49 are not; one zero is idle on a reset line; a 1 then a 0 is neither. -/
theorem witness_LineStateMoves :
    rawAccepted 50 (List.replicate 6 0xFF ++ [0x03]) = true
      ∧ (∀ i < 50, ((List.replicate 6 (0xFF : Byte) ++ [0x03]).getD (i / 8) 0).getLsbD (i % 8) = true)
      ∧ rawAccepted 49 (List.replicate 6 0xFF ++ [0x01]) = true ∧ ¬ (50 ≤ (49 : BitVec 16).toNat)
      ∧ rawAccepted 1 [0x00] = true ∧ (∀ i < 1, ([(0x00 : Byte)].getD (i / 8) 0).getLsbD (i % 8) = false)
      ∧ rawAccepted 2 [0x01] = true ∧ ¬ (∀ i < 2, ([(0x01 : Byte)].getD (i / 8) 0).getLsbD (i % 8) = false) := by decide

theorem witness_InitsComplete :
    Idle (answering [[]] State.reset)
      ∧ initAnswered [0xD0, 0x07, 0x00, 0x00, 0x00, 0xFF, 0x00, 0x00, 0x00, 0x00] [] (answering [[]] State.reset) = true
      ∧ initAnswered [0xE5, 0x08, 0x00, 0x40, 0x42, 0x0F, 0x00, 0xFF, 0x00, 0x00, 0x00] [] (answering [[]] State.reset)
        = true :=
  ⟨⟨rfl, rfl⟩, by decide, by decide⟩

theorem witness_ResetAndIdleCompletes :
    let f : List Byte := [0xD2, 0x0C, 0x00, 0x12, 0x13, 0x12, 0x13, 0x12, 0x13, 0x12, 0x13, 0x12, 0x13, 0x10, 0x11]
    let s := answering [clockAnswer (List.replicate 6 0xAA)] (limited 15 { State.reset with mode := .jtag })
    Idle s ∧ BuffersEmpty s ∧ TrackerOk s ∧ s.mode = .jtag ∧ Fits s 12
      ∧ answered [(f, clockAnswer (List.replicate 6 0xAA))] s = true :=
  ⟨⟨rfl, rfl⟩, ⟨rfl, rfl⟩, by unfold TrackerOk; decide, rfl, (fits_exactly rfl (by decide)).1, by decide⟩

/-- write_ir of one bit with padding, write_dr of 64 without. -/
theorem witness_ScansComplete :
    (let s := answering [clockAnswer (List.replicate 4 0 ++ [0x01] ++ List.replicate 3 0)] { jtagIdle with irPos := 1 };
      JtagReady s ∧ Fits s (2 * (4 + s.irPre + 1 + s.irPos + 2))
        ∧ answered [(clocks (scanUnits .ir 1 1 s.irPre s.irPos),
          clockAnswer (List.replicate 4 0 ++ [0x01] ++ List.replicate 3 0))] s = true)
    ∧ (let s := answering [clockAnswer (List.replicate 3 0 ++ List.replicate 64 0x01 ++ List.replicate 2 0)] jtagIdle;
      JtagReady s ∧ Fits s (2 * (3 + s.pre + 64 + s.pos + 2))
        ∧ answered [(clocks (scanUnits .dr 5 64 s.pre s.pos),
          clockAnswer (List.replicate 3 0 ++ List.replicate 64 0x01 ++ List.replicate 2 0))] s = true) :=
  ⟨⟨⟨⟨rfl, rfl⟩, ⟨rfl, rfl⟩, rfl, rfl⟩, fits_open rfl (by decide), by decide⟩,
    ⟨jtagIdle_ready _, fits_open rfl (by decide), by decide +kernel⟩⟩

theorem witness_AccessRegisterCompletes :
    let ir := clockAnswer (List.replicate 10 0)
    let dr := clockAnswer (List.replicate 3 0 ++ List.replicate 35 0x01 ++ List.replicate 2 0)
    let s := answering [ir, dr] jtagIdle
    JtagReady s ∧ (0x0C : Byte).getLsbD 0 = false ∧ (0x0C : Byte).getLsbD 1 = false
      ∧ Fits s (2 * (4 + s.irPre + 4 + s.irPos + 2)) ∧ Fits s (2 * (3 + s.pre + 35 + s.pos + 2))
      ∧ answered [(clocks (scanUnits .ir 0xB 4 0 0), ir),
        (clocks (scanUnits .dr ((accessRequest 0x0C (some 7)).zeroExtend 64) 35 0 0), dr)] s = true :=
  ⟨jtagIdle_ready _, by decide, by decide, fits_open rfl (by decide), fits_open rfl (by decide), by decide +kernel⟩

/-- The slice of both discovery loops. -/
def sliced (n : PNat) (s : State) : State := { s with par := { s.par with chainSlice := n, irSlice := n } }

/-- The bound on both discovery loops. -/
def bounded (n : PNat) (s : State) : State := { s with par := { s.par with maxChainWords := some n, maxIrScanBits := some n } }

/-- A word's samples, bit 0 first. -/
def wordSamples (w : Word) : List Byte := (bitsOf 32 w).map fun b => if b then 0x01 else 0x00

/-- The exchanges of a chain scan of one identifier. -/
def chainTalk : List Exchange :=
  [(clocks (enterShiftDR ++ wordUnits), clockAnswer ([0, 0, 0] ++ wordSamples 0x4BA00477)),
    (clocks wordUnits, clockAnswer (wordSamples 0xFFFFFFFF)), (clocks leaveShift, clockAnswer [0, 0, 0])]

/-- One identifier and the terminator, with a bound of just two words. -/
theorem witness_DiscoverChainCompletes :
    let s := answering (chainTalk.map Prod.snd) (bounded 2 jtagIdle)
    JtagReady s ∧ [wordSamples 0x4BA00477, wordSamples 0xFFFFFFFF].map (fun b => BitVec.ofNat 32 (valBits (b.map s.tdoOf)))
        = [0x4BA00477] ++ [0xFFFFFFFF]
      ∧ [(0x4BA00477 : Word)].length < s.chainFuel 0 ∧ Fits s 70 ∧ answered chainTalk s = true :=
  ⟨⟨⟨rfl, rfl⟩, ⟨rfl, rfl⟩, rfl, rfl⟩, by decide +kernel, by decide, fits_open rfl (by decide), by decide +kernel⟩

/-- The exchanges of an IR scan: the bits 1, 0, 1, 1. -/
def irTalk : List Exchange :=
  [(clocks (enterShiftIR ++ [⟨false, true, true⟩]), clockAnswer [0, 0, 0, 0, 1]),
    (clocks [⟨false, true, true⟩], clockAnswer [0]), (clocks [⟨false, true, true⟩], clockAnswer [1]),
    (clocks [⟨false, true, true⟩], clockAnswer [1]), (clocks leaveShift, clockAnswer [0, 0, 0])]

/-- A chain of one TAP of IR length 2, with a bound of just four bits. -/
theorem witness_DiscoverIrLengthsCompletes :
    let s := answering (irTalk.map Prod.snd) (bounded 4 jtagIdle)
    JtagReady s ∧ irWalk (s.tdoOf 1) 1 false [] ([0, 1, 1].map s.tdoOf) = some [2]
      ∧ [(0 : Byte), 1, 1].length < s.irFuel 0 ∧ Fits s 10 ∧ answered irTalk s = true :=
  ⟨⟨⟨rfl, rfl⟩, ⟨rfl, rfl⟩, rfl, rfl⟩, by decide, by decide, fits_open rfl (by decide), by decide⟩

/-- A chain scan in progress. -/
def inChain (ids : List Word) : State := { jtagIdle with tap := [.shDR], prog := some (.chain ids) }

/-- An IR scan in progress. -/
def inIr (prev : Bool) (count : Nat) (closed : Bool) (found : List Nat) : State :=
  { jtagIdle with tap := [.shIR], prog := some (.irLengths prev count closed found) }

/-- With just large enough slices: for discover_chain and for discover_ir_lengths, a step that starts, one that ends, one between. The
IR scan's bits are 1, 0, then 1 (which closes a boundary), then 1. -/
theorem witness_DiscoveryGoesOn :
    (let s := answering [clockAnswer ([0, 0, 0] ++ wordSamples 5)] (sliced 1 jtagIdle);
      JtagReady s ∧ Fits s 70 ∧ ([] : List (List Byte)).length + 1 = s.chainFuel 0
        ∧ answered [(clocks (enterShiftDR ++ wordUnits), clockAnswer ([0, 0, 0] ++ wordSamples 5))] s = true)
    ∧ (let s := answering [clockAnswer (wordSamples 0xFFFFFFFF), clockAnswer [0, 0, 0]] (sliced 1 (inChain [5]));
      s.fault = none ∧ s.prog = some (.chain [5]) ∧ BuffersEmpty s ∧ Fits s 64 ∧ ([] : List Word).length < s.chainFuel 1
        ∧ [wordSamples 0xFFFFFFFF].map (wordOf s) = [] ++ [0xFFFFFFFF]
        ∧ answered (wordTalk [wordSamples 0xFFFFFFFF] ++ [(clocks leaveShift, clockAnswer [0, 0, 0])]) s = true)
    ∧ (let s := answering [clockAnswer (wordSamples 6)] (sliced 1 (inChain [5]));
      [wordSamples 6].length = s.chainFuel 1 ∧ [wordSamples 6].map (wordOf s) = [6] ∧ (6 : Word) ≠ 0xFFFFFFFF
        ∧ answered (wordTalk [wordSamples 6]) s = true)
    ∧ (let s := answering [clockAnswer [0, 0, 0, 0, 1], clockAnswer [0]] (sliced 2 jtagIdle);
      JtagReady s ∧ Fits s 10 ∧ [(0 : Byte)].length + 1 = s.irFuel 0
        ∧ irWalkOn (s.tdoOf 1) 1 false [] ([0].map s.tdoOf) = some (.irLengths false 2 false [])
        ∧ answered ((clocks (enterShiftIR ++ bitUnits), clockAnswer [0, 0, 0, 0, 1]) :: bitTalk [0]) s = true)
    ∧ (let s := answering [clockAnswer [1], clockAnswer [0, 0, 0]] (sliced 1 (inIr true 1 true [2]));
      s.prog = some (.irLengths true 1 true [2]) ∧ BuffersEmpty s ∧ Fits s 6 ∧ [(1 : Byte)].length ≤ s.irFuel ([2].sum + 1)
        ∧ irWalk true 1 true [2] ([1].map s.tdoOf) = some [2]
        ∧ answered (bitTalk [1] ++ [(clocks leaveShift, clockAnswer [0, 0, 0])]) s = true)
    ∧ (let s := answering [clockAnswer [1]] (sliced 1 (inIr false 2 false []));
      s.prog = some (.irLengths false 2 false []) ∧ Fits s 2 ∧ [(1 : Byte)].length = s.irFuel ([].sum + 2)
        ∧ irWalkOn false 2 false [] ([1].map s.tdoOf) = some (.irLengths true 1 true [2])
        ∧ answered (bitTalk [1]) s = true) :=
  ⟨⟨⟨⟨rfl, rfl⟩, ⟨rfl, rfl⟩, rfl, rfl⟩, fits_open rfl (by decide), rfl, by decide⟩,
    ⟨rfl, rfl, ⟨rfl, rfl⟩, fits_open rfl (by decide), by decide, by decide +kernel, by decide +kernel⟩,
    ⟨rfl, by decide +kernel, by decide, by decide +kernel⟩,
    ⟨⟨⟨rfl, rfl⟩, ⟨rfl, rfl⟩, rfl, rfl⟩, fits_open rfl (by decide), rfl, by decide, by decide⟩,
    ⟨rfl, ⟨rfl, rfl⟩, fits_open rfl (by decide), by decide, by decide, by decide⟩,
    ⟨rfl, fits_open rfl (by decide), by decide, by decide, by decide⟩⟩

theorem witness_SelectTargetCompletes :
    let s := { State.reset with taps := [4, 5] }
    Idle s ∧ s.taps = [] ++ 4 :: [5] ∧ s.taps = [4] ++ 5 :: [] :=
  ⟨⟨rfl, rfl⟩, rfl, rfl⟩

theorem witness_ClockBatchCompletes :
    let s := answering [clockAnswer [0x01]] (limited 5 jtagIdle)
    Idle s ∧ BuffersEmpty s ∧ Fits s (2 * 1) ∧ answered [(frameD2 [⟨true, false⟩], clockAnswer [0x01])] s = true :=
  ⟨⟨rfl, rfl⟩, ⟨rfl, rfl⟩, (fits_exactly rfl (by decide)).1, by decide⟩

/-- A push that just fits, a flush of two subcommands with one non-OK ack, an empty flush. -/
theorem witness_BatchInterfaceCompletes :
    (let s := limited 7 swdReady;
      Idle s ∧ subAligned (.registerRead (.ap 0xFC)) = true ∧ Fits s (batchPayload (s.sq ++ [.registerRead (.ap 0xFC)])).length)
    ∧ (let s := answering [batchAnswer [[0xA0, 0x02], [0xA1]]] { swdReady with sq := [.registerWrite (.dp 0) 1, idleSeq] };
      List.zipWith parseSlice s.sq [[0xA0, 0x02], [0xA1]] = [SResult.ackErr 2, .rawOk].map some
        ∧ answered [(frameE8 s.sq, batchAnswer [[0xA0, 0x02], [0xA1]])] s = true) :=
  ⟨⟨⟨rfl, rfl⟩, by decide, (fits_exactly rfl (by decide)).1⟩, by decide⟩

theorem witness_LineOperationsComplete :
    (let s := answering [[0xE8, 0x01, 0x00, 0xA1]] (limited 13 swdReady);
      SwdReady s ∧ Fits s 10 ∧ Fits s 4
        ∧ answered [([0xE8, 0x0A, 0x00, 0xA1, 0x38, 0x00, 0xFF, 0xFF, 0xFF, 0xFF, 0xFF, 0xFF, 0xFF],
          [0xE8, 0x01, 0x00, 0xA1])] s = true
        ∧ answered [([0xE8, 0x04, 0x00, 0xA1, 0x08, 0x00, 0x00], [0xE8, 0x01, 0x00, 0xA1])] s = true)
    ∧ (let s := answering [[0xE8, 0x03, 0x00, 0xA1, 0xA1, 0xA1]] (limited 28 swdReady);
      SwdReady s ∧ Fits s 25
        ∧ answered [([0xE8, 0x19, 0x00, 0xA1, 0x38, 0x00, 0xFF, 0xFF, 0xFF, 0xFF, 0xFF, 0xFF, 0xFF,
            0xA1, 0x10, 0x00, 0x9E, 0xE7, 0xA1, 0x38, 0x00, 0xFF, 0xFF, 0xFF, 0xFF, 0xFF, 0xFF, 0xFF],
          [0xE8, 0x03, 0x00, 0xA1, 0xA1, 0xA1])] s = true) :=
  ⟨⟨⟨⟨rfl, rfl⟩, rfl, rfl, rfl⟩, (fits_exactly rfl (by decide)).1, ⟨by decide, fun l h => by cases h; decide⟩,
      by decide, by decide⟩,
    ⟨⟨⟨rfl, rfl⟩, rfl, rfl, rfl⟩, (fits_exactly rfl (by decide)).1, by decide⟩⟩

/-- An ack byte whose other bits are set, and a non-OK ack. -/
theorem witness_RegisterOperationsComplete :
    (let s := answering [[0xE8, 0x07, 0x00, 0xA2, 0xF9, 1, 2, 3, 4, 0]] (limited 7 swdReady);
      SwdReady s ∧ Fits s 4
        ∧ answered [([0xE8, 0x04, 0x00, 0xA2, 0x22, 0x00, header (.ap 0x0C) true],
          [0xE8, 0x07, 0x00, 0xA2, 0xF9, 1, 2, 3, 4, 0])] s = true)
    ∧ (let s := answering [[0xE8, 0x02, 0x00, 0xA0, 0x04]] (limited 12 swdReady);
      SwdReady s ∧ Fits s 9
        ∧ answered [([0xE8, 0x09, 0x00] ++ encodeSub (.registerWrite (.dp 0x00) 7), [0xE8, 0x02, 0x00, 0xA0, 0x04])] s
          = true) :=
  ⟨⟨⟨⟨rfl, rfl⟩, rfl, rfl, rfl⟩, (fits_exactly rfl (by decide)).1, by decide⟩,
    ⟨⟨⟨rfl, rfl⟩, rfl, rfl, rfl⟩, (fits_exactly rfl (by decide)).1, by decide⟩⟩

theorem witness_BatchFramesComplete :
    (let gs : List Subcmd := [.registerRead (.dp 0xC), .rawSequence 1 [0x01]];
      let s := answering [batchAnswer [[0xA2, 0x01, 1, 2, 3, 4, 0], [0xA1]]] swdReady;
      SwdReady s ∧ (∀ g ∈ gs, subAligned g = true ∧ subLengthOk g = true) ∧ Fits s (batchPayload gs).length
        ∧ List.zipWith parseSlice gs [[0xA2, 0x01, 1, 2, 3, 4, 0], [0xA1]] = [SResult.readOk 0x04030201, .rawOk].map some
        ∧ answered [(frameE8 gs, batchAnswer [[0xA2, 0x01, 1, 2, 3, 4, 0], [0xA1]])] s = true)
    ∧ (let s := answering [batchAnswer [[0xA0, 0x07]]] (limited 12 swdReady);
      SwdReady s ∧ Fits s (encodeSub (.registerWrite (.ap 0x4) 9)).length
        ∧ parseSlice (.registerWrite (.ap 0x4) 9) [0xA0, 0x07] = some (.ackErr 7)
        ∧ answered [(frameE8 [.registerWrite (.ap 0x4) 9], batchAnswer [[0xA0, 0x07]])] s = true) :=
  ⟨⟨swdReady_ready _, by decide, fits_open rfl (by decide), by decide, by decide⟩,
    ⟨⟨⟨rfl, rfl⟩, rfl, rfl, rfl⟩, (fits_exactly rfl (by decide)).1, by decide, by decide⟩⟩

/-- Whether an outcome is a next state. -/
def isNext (o : Host.Outcome State Fault Refusal) : Bool :=
  match o with
  | .next _ => true
  | _ => false

theorem next_of {o : Host.Outcome State Fault Refusal} (h : isNext o = true) : ∃ t, o = .next t := by
  cases o with
  | next t => exact ⟨t, rfl⟩
  | fault f => cases h
  | refused r => cases h

/-- For the statements about any next state of an instruction of a class: a step of each class. -/
theorem witness_frames :
    (classOf (.d2 [⟨true, true⟩]) = .clock ∧ ∃ t, exec (.d2 [⟨true, true⟩]) (answering [clockAnswer [1]] jtagIdle) = .next t)
      ∧ (classOf (.writeDr 1 1) = .scan ∧ ∃ t, exec (.writeDr 1 1) jtagIdle = .next t)
      ∧ (classOf .take = .queue ∧ ∃ t, exec .take swdReady = .next t)
      ∧ (classOf .swdIdle = .standalone ∧ ∃ t, exec .swdIdle swdReady = .next t) :=
  ⟨⟨rfl, next_of rfl⟩, ⟨rfl, next_of rfl⟩, ⟨rfl, next_of rfl⟩, ⟨rfl, next_of rfl⟩⟩

/-- TransportErrorEffect, TypedErrorsKeepTheSession: a failed write and a failed read of an instruction, a discovery in
progress whose next write fails or whose next frame does not fit, and an index at the count. -/
theorem witness_errors :
    (next (exec (.writeDr 1 1) (facing [.fail .deviceGone] [] jtagIdle))).results = [.err (.transport ⟨.deviceGone, .tx⟩)]
      ∧ (next (exec .flush (facing [.ok] [.fail .timeout] { swdReady with sq := [idleSeq] }))).results
        = [.err (.transport ⟨.timeout, .rx⟩)]
      ∧ (next (step (facing [.fail .timeout] [] (inChain [5])))).results = [.err (.transport ⟨.timeout, .tx⟩)]
      ∧ (next (step (limited 4 (inIr true 1 false [])))).results = [.err (.bufferOverflow 5 (some 4))]
      ∧ (next (exec (.selectTarget 0) State.reset)).results = [.err (.indexOutOfRange 0 0)] := by decide

/-! For every kind of next frame, a state before it, and the exchanges up to it (FailedTransferEnds, BufferOverflow,
MalformedResponse). -/

theorem starts_resetAndIdle {s : State} (h : Idle s) (hb : BuffersEmpty s) (hm : s.mode = .jtag) :
    StartsJtag .resetAndIdle s := ⟨h, hb, hm, .inl rfl, by simp [classOf], trivial⟩

theorem starts_scan {i : Instr} {s : State} (hc : classOf i = .scan) (h : JtagReady s) (ho : ClockOperandsOk i) :
    StartsJtag i s := ⟨h.1, h.2.1, h.2.2.1, .inr hc, fun _ => h.2.2.2, ho⟩

/-- reset_and_idle from the full tracker, a D2 frame from it, write_ir of 64 bits. -/
theorem witness_nextClocks_first :
    (let s := { jtagIdle with tap := TapState.all };
      NextClocks s (.instr .resetAndIdle) [] TapState.all resetUnits
        ∧ NextClocks s (.instr (.d2 [⟨true, true⟩])) [] TapState.all [⟨true, true, true⟩])
    ∧ NextClocks jtagIdle (.instr (.writeIr 1 64)) [] [.rti] (scanUnits .ir 1 64 0 0) :=
  ⟨⟨.first .resetAndIdle (starts_resetAndIdle ⟨rfl, rfl⟩ ⟨rfl, rfl⟩ rfl) (by simp),
      .first (.d2 [⟨true, true⟩]) ⟨⟨rfl, rfl⟩, ⟨rfl, rfl⟩, rfl, .inl rfl, by simp [classOf], by simp [ClockOperandsOk]⟩
        (by simp)⟩,
    .first (.writeIr 1 64) (starts_scan rfl (jtagIdle_ready []) (by simp [ClockOperandsOk])) (by simp)⟩

/-- The scans of access_register in a buffer in which the DR frame just fits: the IR frame, and the DR frame after it. -/
theorem witness_nextClocks_second :
    let a := clockAnswer (List.replicate 10 0)
    let x : Exchange := (clocks (scanUnits .ir 0xA 4 0 0), a)
    let us := scanUnits .dr ((accessRequest 0x04 none).zeroExtend 64) 35 0 0
    let s := answering [a] (limited 83 jtagIdle)
    NextClocks s (.instr (.accessRegister (.dp 0x04) none)) [] [.rti] (scanUnits .ir 0xA 4 0 0)
      ∧ NextClocks s (.instr (.accessRegister (.dp 0x04) none)) [x] [.rti] us
      ∧ Exchanged s [x] ∧ Fits s (2 * us.length) := by
  intro a x us s
  have hl : us.length = 40 := by decide
  have hx : x.1.length - 3 = 20 := by decide
  have hs : StartsJtag (.accessRegister (.dp 0x04) none) s :=
    starts_scan rfl ⟨⟨rfl, rfl⟩, ⟨rfl, rfl⟩, rfl, rfl⟩ (by simp [ClockOperandsOk, RegAddr.off])
  have hd : DrFits s := (fits_exactly rfl (by decide)).1
  refine ⟨.first _ hs fun _ _ _ _ => hd, .second (.dp 0x04) none (List.replicate 10 0) hs hd (by decide), ⟨?_, by decide⟩, ?_⟩
  · rintro y hy
    rw [List.mem_singleton.1 hy, hx]
    exact ⟨by decide, fun l hl => by cases hl; decide⟩
  · rw [hl]
    exact (fits_exactly rfl (by decide)).1

/-- In a buffer one byte smaller the IR frame of access_register fits and its DR frame does not. -/
theorem witness_BufferOverflow_access :
    let s := limited 82 jtagIdle
    StartsJtag (.accessRegister (.dp 0x04) none) s ∧ Fits s (2 * (4 + s.irPre + 4 + s.irPos + 2)) ∧ ¬ DrFits s :=
  ⟨starts_scan rfl ⟨⟨rfl, rfl⟩, ⟨rfl, rfl⟩, rfl, rfl⟩ (by simp [ClockOperandsOk, RegAddr.off]),
    ⟨by decide, fun l h => by cases h; decide⟩, (fits_exactly (n := 79) rfl (by decide)).2⟩

/-- A later word of a chain scan that starts, and of one in progress; the exit of one. -/
theorem witness_nextClocks_chain :
    (let x : Exchange := (clocks (enterShiftDR ++ wordUnits), clockAnswer ([0, 0, 0] ++ wordSamples 5));
      let s := answering [x.2] jtagIdle;
      NextClocks s (.instr .discoverChain) [x] [.shDR] wordUnits ∧ Exchanged s [x])
    ∧ NextClocks (inChain [5]) .resumed [] [.shDR] wordUnits
    ∧ (let s := answering [clockAnswer (wordSamples 0xFFFFFFFF)] (inChain [5]);
      NextClocks s .resumed (wordTalk [wordSamples 0xFFFFFFFF]) [.shDR] leaveShift
        ∧ Exchanged s (wordTalk [wordSamples 0xFFFFFFFF])) := by
  refine ⟨⟨?_, ?_, by decide +kernel⟩, ?_, ?_, ?_, by decide +kernel⟩
  · exact .word [] (.started [0, 0, 0] (wordSamples 5) (starts_scan rfl ⟨⟨rfl, rfl⟩, ⟨rfl, rfl⟩, rfl, rfl⟩ trivial) rfl (by decide))
      (by simp) (fun w hw => by
        rw [List.mem_singleton.1 (show w ∈ [wordOf _ (wordSamples 5)] from hw),
          show wordOf _ (wordSamples 5) = 5 by decide +kernel]
        decide) (by decide)
  · rintro y hy
    rw [List.mem_singleton.1 hy]
    exact fits_open rfl (by decide)
  · exact .word [] (.resumed [5] rfl rfl ⟨rfl, rfl⟩ rfl) (by simp) (by simp) (by decide)
  · exact .chainExit [wordSamples 0xFFFFFFFF] [] (.resumed [5] rfl rfl ⟨rfl, rfl⟩ rfl) (by decide) (by decide +kernel) (by simp)
      (by decide)
  · rintro y hy
    rw [List.mem_singleton.1 hy]
    exact fits_open rfl (by decide)

/-- A later bit of an IR scan that starts, and of one in progress; the exit of one. -/
theorem witness_nextClocks_ir :
    (let x : Exchange := (clocks (enterShiftIR ++ bitUnits), clockAnswer [0, 0, 0, 0, 1]);
      let s := answering [x.2] jtagIdle;
      NextClocks s (.instr .discoverIrLengths) [x] [.shIR] bitUnits ∧ Exchanged s [x])
    ∧ NextClocks (inIr true 1 false []) .resumed [] [.shIR] bitUnits
    ∧ (let s := answering [clockAnswer [1]] (inIr true 1 true [2]);
      NextClocks s .resumed (bitTalk [1]) [.shIR] leaveShift ∧ Exchanged s (bitTalk [1])) := by
  refine ⟨⟨?_, ?_, by decide⟩, ?_, ?_, ?_, by decide⟩
  · exact .bit [] (.started [0, 0, 0, 0] 1 (starts_scan rfl ⟨⟨rfl, rfl⟩, ⟨rfl, rfl⟩, rfl, rfl⟩ trivial) rfl) (by decide) (by decide)
  · rintro y hy
    rw [List.mem_singleton.1 hy]
    exact fits_open rfl (by decide)
  · exact .bit [] (.resumed true 1 false [] rfl rfl ⟨rfl, rfl⟩ rfl) (by decide) (by decide)
  · exact .irExit [1] [2] (.resumed true 1 true [2] rfl rfl ⟨rfl, rfl⟩ rfl) (by decide) (by decide)
  · rintro y hy
    rw [List.mem_singleton.1 hy]
    exact fits_open rfl (by decide)

/-- The first write of reset_and_idle fails, and the read of the second; a batch's read; an init's write and read, in the
four forms; a flush's write. -/
theorem witness_FailedTransferEnds :
    (xfer (clocks resetUnits) 9 (facing [.fail .deviceGone] [] { jtagIdle with tap := TapState.all })).1
        = .error ⟨.deviceGone, .tx⟩
      ∧ Fits (facing [.fail .deviceGone] [] { jtagIdle with tap := TapState.all }) (2 * resetUnits.length)
      ∧ (xfer (clocks wordUnits) 35 (facing [.ok] [.fail .timeout] (inChain [5]))).1 = .error ⟨.timeout, .rx⟩
      ∧ batchOf (.readRegister 0x0C false) = [.registerRead (.dp 0x0C)] ∧ Pushable [.registerRead (.dp 0x0C)]
      ∧ SwdReady (facing [.ok] [.fail .timeout] swdReady) ∧ Fits (facing [.ok] [.fail .timeout] swdReady) 4
      ∧ (xfer (frameE8 [.registerRead (.dp 0x0C)]) 10 (facing [.ok] [.fail .timeout] swdReady)).1 = .error ⟨.timeout, .rx⟩
      ∧ (exchange (frameD0 1) linkReadAny (facing [.fail .timeout] [] State.reset)).1 = .error ⟨.timeout, .tx⟩
      ∧ (exchange (frameE5 1) linkReadAny (facing [.ok] [.fail .deviceGone] State.reset)).1 = .error ⟨.deviceGone, .rx⟩
      ∧ (xfer (frameE8 [idleSeq]) 4 (facing [.fail .timeout] [] { swdReady with sq := [idleSeq] })).1
        = .error ⟨.timeout, .tx⟩ :=
  ⟨by decide, fits_open rfl (by decide), by decide +kernel, rfl, by unfold Pushable; decide, ⟨⟨rfl, rfl⟩, rfl, rfl, rfl⟩,
    fits_open rfl (by decide), by decide, by decide, by decide, by decide⟩

/-- IndexOutOfRange, at the count. -/
theorem witness_IndexOutOfRange : Idle State.reset ∧ State.reset.taps.length ≤ 0 := ⟨⟨rfl, rfl⟩, by decide⟩

/-- One byte short: reset_and_idle's 15 from the full tracker, read_register's 7, the third push of jtag_to_swd, whose first
two fit, and a push of 7. -/
theorem witness_BufferOverflow :
    (let s := limited 14 { jtagIdle with tap := TapState.all };
      NextClocks s (.instr .resetAndIdle) [] s.tap resetUnits ∧ Exchanged s [] ∧ ¬ Fits s (2 * resetUnits.length))
    ∧ (let s := limited 6 swdReady;
      SwdReady s ∧ batchOf (.readRegister 0x00 false) = [] ++ .registerRead (.dp 0x00) :: []
        ∧ Pushable ([] ++ [.registerRead (.dp 0x00)]) ∧ Fits s (batchPayload []).length
        ∧ ¬ Fits s (batchPayload ([] ++ [.registerRead (.dp 0x00)])).length)
    ∧ (let s := limited 27 swdReady;
      SwdReady s ∧ batchOf .jtagToSwd = [lineResetSeq, switchSeq] ++ lineResetSeq :: []
        ∧ Pushable ([lineResetSeq, switchSeq] ++ [lineResetSeq]) ∧ Fits s (batchPayload [lineResetSeq, switchSeq]).length
        ∧ ¬ Fits s (batchPayload ([lineResetSeq, switchSeq] ++ [lineResetSeq])).length) :=
  ⟨⟨.first .resetAndIdle (starts_resetAndIdle ⟨rfl, rfl⟩ ⟨rfl, rfl⟩ rfl) (by simp), ⟨by simp, rfl⟩,
      (fits_exactly (n := 11) rfl (by decide)).2⟩,
    ⟨⟨⟨rfl, rfl⟩, rfl, rfl, rfl⟩, rfl, by unfold Pushable; decide, ⟨by decide, fun l h => by cases h; decide⟩,
      (fits_exactly (n := 3) rfl (by decide)).2⟩,
    ⟨⟨⟨rfl, rfl⟩, rfl, rfl, rfl⟩, rfl, by unfold Pushable; decide, ⟨by decide, fun l h => by cases h; decide⟩,
      (fits_exactly (n := 24) rfl (by decide)).2⟩⟩

/-- ModeViolation, StateChecksFault. -/
theorem witness_checks :
    (classOf (.d2 []) = .clock ∧ State.reset.mode ≠ .jtag) ∧ (classOf .flush = .queue ∧ jtagIdle.mode ≠ .swd)
      ∧ (classOf .discoverChain = .scan ∧ { jtagIdle with tap := TapState.all }.tap ≠ [.rti])
      ∧ (classOf .swdReset = .standalone ∧ { swdReady with rq := [.rawOk] }.rq ≠ []) ∧ Idle jtagIdle ∧ Idle swdReady :=
  ⟨by decide, by decide, by decide, by decide, ⟨rfl, rfl⟩, ⟨rfl, rfl⟩⟩

/-- ArgumentChecksFault: 65; no bits; a byte too many; the lowest unused bit; each offset bit. -/
theorem witness_ArgumentChecksFault :
    JtagReady (answering [] jtagIdle) ∧ 64 < 65 ∧ SwdReady (answering [] swdReady)
      ∧ [(0x00 : Byte), 0x00].length ≠ ((8 : BitVec 16).toNat + 7) / 8
      ∧ (∃ i, (4 : BitVec 16).toNat ≤ i ∧ i < 8 * 1 ∧ ([(0x10 : Byte)].getD (i / 8) 0).getLsbD (i % 8) = true)
      ∧ (0x01 : Byte).getLsbD 0 = true ∧ (0x06 : Byte).getLsbD 1 = true :=
  ⟨jtagIdle_ready _, by decide, swdReady_ready _, by decide, ⟨4, by decide, by decide, by decide⟩, by decide, by decide⟩

/-- reset_and_idle: a wrong first byte, and a length field off by one. An E8 batch: a wrong first byte, a length field off by
256, a slice that does not parse. A flush: a slice that does not parse. -/
theorem witness_MalformedResponse :
    (let a : List Byte := [0xD3, 0x06, 0x00, 0, 0, 0, 0, 0, 0];
      let s := answering [a] { jtagIdle with tap := TapState.all };
      NextClocks s (.instr .resetAndIdle) [] s.tap resetUnits ∧ Exchanged s [(clocks resetUnits, a)]
        ∧ a.length = 3 + resetUnits.length ∧ a.getD 0 0 ≠ 0xD2)
    ∧ (let a : List Byte := [0xD2, 0x05, 0x00, 0, 0, 0, 0, 0, 0];
      let s := answering [a] { jtagIdle with tap := TapState.all };
      Exchanged s [(clocks resetUnits, a)] ∧ (a.getD 1 0).toNat + 256 * (a.getD 2 0).toNat ≠ resetUnits.length)
    ∧ (∀ a ∈ [[(0xE9 : Byte), 0x01, 0x00, 0xA1], [0xE8, 0x01, 0x01, 0xA1], [0xE8, 0x01, 0x00, 0xA2]],
      let s := answering [a] swdReady;
      a.length = 3 + ((batchOf (.e8 [idleSeq])).map answerLength).sum
        ∧ (a.getD 0 0 ≠ 0xE8 ∨ (a.getD 1 0).toNat + 256 * (a.getD 2 0).toNat ≠ 1
          ∨ parseSlices [idleSeq] (a.drop 3) = none)
        ∧ answered [(frameE8 (batchOf (.e8 [idleSeq])), a)] s = true)
    ∧ (SwdReady (answering [[0xE8, 0x01, 0x00, 0xA2]] swdReady) ∧ Pushable [idleSeq]
      ∧ Fits (answering [[0xE8, 0x01, 0x00, 0xA2]] swdReady) (batchPayload [idleSeq]).length)
    ∧ (let s := answering [[0xE8, 0x01, 0x00, 0xA2]] { swdReady with sq := [idleSeq] };
      Idle s ∧ parseSlices s.sq [0xA2] = none ∧ answered [(frameE8 s.sq, [0xE8, 0x01, 0x00, 0xA2])] s = true) := by
  have fits : ∀ a : List Byte, ∀ x ∈ [(clocks resetUnits, a)],
      Fits (answering [a] { jtagIdle with tap := TapState.all }) (x.1.length - 3) := fun a x hx => by
    rw [List.mem_singleton.1 hx]
    exact fits_open rfl (show (clocks resetUnits).length - 3 ≤ 0xFFFF by decide)
  exact ⟨⟨.first .resetAndIdle (starts_resetAndIdle ⟨rfl, rfl⟩ ⟨rfl, rfl⟩ rfl) (by simp), ⟨fits _, by decide⟩, rfl, by decide⟩,
    ⟨⟨fits _, by decide⟩, by decide⟩, by decide, ⟨swdReady_ready _, by unfold Pushable; decide, fits_open rfl (by decide)⟩,
    ⟨⟨rfl, rfl⟩, by decide, by decide⟩⟩

/-- A caller's sequence of one operation. -/
def called (bytes : List Byte) (s : State) : State := { s with calls := [bytes] }

theorem witness_StepRunsDecodedInstruction :
    let s := called (encode .take) swdReady
    Idle s ∧ s.calls[s.pc]? = some (encode .take) ∧ decode (encode .take) = .ok .take ∧ Instr.wf .take = true :=
  ⟨⟨rfl, rfl⟩, rfl, by decide, rfl⟩

theorem witness_StepStops :
    Idle State.reset ∧ State.reset.calls.length ≤ State.reset.pc
      ∧ (called [0xD1] State.reset).calls[(called [0xD1] State.reset).pc]? = some [0xD1]
      ∧ decode [0xD1] = .error .unknownOpcode :=
  ⟨⟨rfl, rfl⟩, by decide, rfl, by decide⟩

/-- A discovery in progress at its bound, and one a bit short of it. -/
theorem witness_StepStops_bound :
    (bounded 1 (inChain [5])).par.maxChainWords = some 1 ∧ PNat.val 1 ≤ [(5 : Word)].length
      ∧ (bounded 3 (inIr true 1 true [2])).par.maxIrScanBits = some 3 ∧ PNat.val 3 ≤ [2].sum + 1
      ∧ isNext (step (bounded 4 (inIr true 1 true [2]))) = true := by decide

/-- R9, D21: the bound is on the whole operation, not on a step. The bits 1, 0, 1 take a fourth, and three are allowed. -/
theorem test_step_out_of_fuel :
    let s := answering [clockAnswer [0, 0, 0, 0, 1], clockAnswer [0], clockAnswer [1]] (bounded 3 (sliced 2 jtagIdle))
    let t := next (exec .discoverIrLengths s)
    t.prog = some (.irLengths false 2 false []) ∧ (next (step t)).prog = some (.irLengths true 1 true [2])
      ∧ step (next (step t)) = .fault .outOfFuel := ⟨by decide, by decide, rfl⟩

theorem witness_FaultIsSticky : (State.reset.faulted .invalidLength).fault = some .invalidLength := rfl

/-- PositionAdvancesByOne, NoFrameInserted, JtagAckDecoder: a step that returns, one that faults, one that stays in
progress. -/
theorem witness_endings :
    (next (exec .take swdReady)).pc = 1 ∧ (next (exec .take jtagIdle)).fault = some .modeViolation
      ∧ (next (exec .discoverChain (answering [clockAnswer ([0, 0, 0] ++ wordSamples 5)]
          (sliced 1 jtagIdle)))).prog = some (.chain [5]) := by
  decide +kernel

/-- A state between operations. -/
theorem inv_between {s : State} (h : tapSetOk s.tap = true) (h1 : BuffersEmpty s) (h2 : s.taps = [])
    (h3 : s.sel = none ∧ s.irPre = 0 ∧ s.irPos = 0 ∧ s.pre = 0 ∧ s.pos = 0) (h4 : s.sq = []) (h5 : s.prog = none) : Inv s where
  tracker := h
  buffers := fun _ => h1
  lengths := by simp [LengthsOk, h2]
  selection := by unfold SelectionOk; rw [h3.1]; exact h3.2
  queue := by simp [QueueOk, h4]
  progress := by unfold ProgressOk; rw [h5]; trivial

/-- InvKept, FramesStayLegal, HistoryStaysPaired, HistoryOnlyGrows, TrackerStaysSettled: a step of reset_and_idle. -/
theorem witness_invariants :
    let s := called (encode .resetAndIdle) (answering [clockAnswer (List.replicate 6 0)] { State.reset with mode := .jtag })
    Inv s ∧ FramesLegal s ∧ HistoryPaired s ∧ TrackerOk s ∧ TrackerSettled s ∧ isOperation .resetAndIdle = true
      ∧ (∃ t, step s = .next t) ∧ (next (step s)).fault = none ∧ (next (step s)).prog = none :=
  ⟨inv_between (by decide) ⟨rfl, rfl⟩ rfl ⟨rfl, rfl, rfl, rfl, rfl⟩ rfl rfl, (fun f h => by cases h), rfl,
    by unfold TrackerOk; decide, .inr (by decide), rfl, next_of rfl, by decide, by decide⟩

/-- TrackerStaysSettled, of a discovery in progress: one that ends with its last words. -/
theorem witness_resumed_settles :
    let s := answering [clockAnswer (wordSamples 0xFFFFFFFF), clockAnswer [0, 0, 0]] (inChain [5])
    ProgressOk s ∧ s.prog ≠ none ∧ (next (step s)).fault = none ∧ (next (step s)).prog = none
      ∧ (next (step s)).results = [.ok (.ids [5])] :=
  ⟨⟨rfl, rfl, rfl, by simp⟩, by decide, by decide +kernel, by decide +kernel, by decide +kernel⟩

/-- A BYPASS register and a longer one. -/
theorem witness_ChainPositions : ∀ r ∈ [[false], [true, false, true]], r ≠ ([] : List Bool) := by decide

/-- A TAP in BYPASS. -/
def bypassTap : Tap where
  irsh := [true, true]
  ir := [true, true]
  ircap := [true, false]
  rst := [true, true]
  drsh := [false]
  drs := []
  port := .unknown

/-- A TAP whose selected register captures what it last updated (R67). -/
def loopTap : Tap := { bypassTap with ir := [true, false], drs := [⟨[true, false], .loopback, [false, false, true]⟩] }

/-- The second of two TAPs is selected. -/
def loopState : State :=
  { jtagIdle with pre := 1, env := { State.reset.env with target := some ⟨.rti, [bypassTap, loopTap]⟩ } }

/-- TAPs as R61 has them; an IR of one bit, or a capture value of another length, makes no reference target. -/
theorem witness_LoopbackReturnsValue :
    JtagReady loopState ∧ loopState.env.target = some ⟨.rti, [bypassTap] ++ loopTap :: []⟩
      ∧ Target.wf ⟨.rti, [bypassTap] ++ loopTap :: []⟩ = true
      ∧ (∀ t ∈ [bypassTap] ++ [], selectedDr t = none)
      ∧ selectedDr loopTap = some ⟨[true, false], .loopback, [false, false, true]⟩
      ∧ Fits loopState (2 * (3 + loopState.pre + 3 + loopState.pos + 2)) :=
  ⟨⟨⟨rfl, rfl⟩, ⟨rfl, rfl⟩, rfl, rfl⟩, rfl, by decide, by decide, by decide, fits_open rfl (by decide)⟩

theorem test_ref_ill_formed :
    Tap.wf { bypassTap with irsh := [true], ir := [true], rst := [true], ircap := [true] } = false
      ∧ Tap.wf { bypassTap with ircap := [true, false, false] } = false
      ∧ Tap.wf { bypassTap with ircap := [true, true] } = false := by decide

/-- A port with a latched value and an identifier. -/
def knownPort : DebugPort := { DebugPort.unknown with rdbuff := some 5, apLatched := true, reg0 := some 6 }

/-- That port, with no reference target; the coming answers. -/
def portState (answers : List (List Byte)) : State :=
  answering answers { swdReady with env := { State.reset.env with swd := knownPort } }

/-- A reference target with no TAP, on a Ready line. -/
def refState : State := { swdReady with env := { State.reset.env with target := some ⟨.rti, []⟩ } }

/-- What is drawn, 1, is not what R65 has: the AP read and RDBUFF return the latch, DP 0x0 what it holds. In the batch, 2 and 4
are the results drawn of the two AP reads. -/
theorem witness_SwdPipeline :
    (∀ answers, SwdReady (portState answers) ∧ (portState answers).link = .ready)
      ∧ (next (exec (.readRegister 0x0C true) (portState [readsAnswer [1]]))).results = [.ok (.word 5)]
      ∧ addrA 0x0C = 3
      ∧ (next (exec (.readRegister 0x0C false) (portState [readsAnswer [1]]))).results = [.ok (.word 5)]
      ∧ addrA 0x00 ≠ 3
      ∧ (next (exec (.readRegister 0x00 false) (portState [readsAnswer [1]]))).results = [.ok (.word 6)]
      ∧ (next (exec (.e8 [.registerRead (.ap 0x00), .registerRead (.dp 0x0C), .registerRead (.ap 0x0C),
          .registerRead (.dp 0x0C), .registerRead (.dp 0x0C)]) (portState [readsAnswer [1, 2, 3, 4, 5]]))).results
        = [.ok (.results [.readOk 5, .readOk 2, .readOk 2, .readOk 4, .readOk 4])]
      ∧ SwdReady refState ∧ refState.link = .ready ∧ refState.env.tx = [] ∧ refState.env.rx = []
      ∧ refState.env.target = some ⟨.rti, []⟩ ∧ Target.wf ⟨.rti, []⟩ = true ∧ Fits refState 4
      ∧ (0x0C : Byte).getLsbD 0 = false ∧ (0x0C : Byte).getLsbD 1 = false :=
  ⟨fun _ => ⟨⟨⟨rfl, rfl⟩, rfl, rfl, rfl⟩, rfl⟩, by decide +kernel, by decide, by decide +kernel, by decide, by decide +kernel,
    by decide +kernel, ⟨⟨rfl, rfl⟩, rfl, rfl, rfl⟩, rfl, rfl, rfl, rfl, by decide, fits_open rfl (by decide), by decide, by decide⟩

end Sys2Proof.Tests
end

section
/-! PROOFS. The history (R35) and the stickiness of a model fault (R34): what every part of an operation does to `hist`, and
that every instruction is one operation. -/

namespace Sys2Proof.Proofs

open Sys2Proof.Machine Sys2Proof.Laws

/-! ### Every instruction is one operation -/

/-- The operation that an instruction is. -/
def bodyOf : Instr → Act Value
  | .d0 speed => jtagInit speed
  | .d2 units => clockBatch units
  | .e5 speed => swdInit speed
  | .e8 subs => Act.bind (batch subs) fun rs => Act.ret (.results rs)
  | .a1 nbits bytes => Act.bind (single (.rawSequence nbits bytes)) fun rs => Act.ret (.results rs)
  | .a2 addr => Act.bind (single (.registerRead addr)) fun rs => Act.ret (.results rs)
  | .a0 addr data => Act.bind (single (.registerWrite addr data)) fun rs => Act.ret (.results rs)
  | .jtagInit speed => jtagInit speed
  | .resetAndIdle => resetAndIdle
  | .discoverChain => discoverChain
  | .discoverIrLengths => discoverIrLengths
  | .selectTarget index => selectTarget index
  | .writeIr value length => Act.bind (scan .ir value length) fun bits => Act.ret (.bits bits)
  | .writeDr value length => Act.bind (scan .dr value length) fun bits => Act.ret (.bits bits)
  | .accessRegister addr value => accessRegister addr value
  | .swdInit speed => swdInit speed
  | .push g => Act.bind (pushSub g) fun _ => Act.ret .unit
  | .flush => Act.bind flushBatch fun _ => Act.ret .unit
  | .take => Act.bind takeResults fun rs => Act.ret (.results rs)
  | .swdReset => Act.bind (single lineResetSeq) fun _ => Act.ret .unit
  | .jtagToSwd => Act.bind (batch [lineResetSeq, switchSeq, lineResetSeq]) fun _ => Act.ret .unit
  | .swdIdle => Act.bind (single idleSeq) fun _ => Act.ret .unit
  | .readRegister address isAp => Act.bind (single (.registerRead (regOf address isAp))) readResult
  | .writeRegister address isAp data => Act.bind (single (.registerWrite (regOf address isAp) data)) writeResult

theorem exec_eq_operate (i : Instr) (s : State) : exec i s = operate (bodyOf i) s := by
  cases i <;> rfl

/-! ### What a step can do -/

theorem step_of_fault {s : State} {f : ModelFault} (h : s.fault = some f) : step s = .fault (.sticky f) := by
  simp [step, h]

/-- A step that gives a next state goes on with the discovery in progress, or runs an instruction. -/
theorem step_next_cases {s t : State} (h : step s = .next t) :
    (∃ p, t = conclude (resumeLoop p s)) ∨ ∃ i, exec i s = .next t := by
  unfold step at h
  split at h
  · cases h
  · split at h
    · next p _ =>
      split at h
      · cases h
      · cases h
        exact .inl ⟨p, rfl⟩
    · split at h
      · cases h
      · split at h
        · cases h
        · next i _ => exact .inr ⟨i, h⟩

/-- How an operation ends is no link event. -/
@[simp] theorem conclude_hist (r : Res Value × State) : (conclude r).hist = r.2.hist := by
  obtain ⟨res, s⟩ := r
  cases res <;> rfl

/-! ### Parts of an operation only append to the history (R35) -/

/-- Whatever state this part starts in, and however it ends, the history before it is the front of the history after it. -/
def Appends {α : Type} (m : Act α) : Prop := ∀ s : State, s.hist <+: (m s).2.hist

/-- A part that records nothing. -/
theorem Appends.of_hist_eq {α : Type} {m : Act α} (h : ∀ s, (m s).2.hist = s.hist) : Appends m := fun s => by rw [h]

theorem Appends.bind {α β : Type} {m : Act α} {k : α → Act β} (hm : Appends m) (hk : ∀ a, Appends (k a)) :
    Appends (Act.bind m k) := fun s =>
  bind_rel (R := fun s t => s.hist <+: t.hist) List.IsPrefix.trans (hm s) fun a t _ => hk a t

theorem appends_ret {α : Type} (a : α) : Appends (Act.ret a) := .of_hist_eq fun _ => rfl

theorem appends_raise {α : Type} (e : TypedError) : Appends (Act.raise e : Act α) := .of_hist_eq fun _ => rfl

theorem appends_halt {α : Type} (f : ModelFault) : Appends (Act.halt f : Act α) := .of_hist_eq fun _ => rfl

theorem appends_faultIf (test : State → Bool) (f : ModelFault) : Appends (Act.faultIf test f) :=
  .of_hist_eq fun _ => by unfold Act.faultIf; split <;> rfl

theorem appends_emits (us : List ClockUnit) : Appends (emits us) := .of_hist_eq fun s => by simp

theorem appends_drain (n : Nat) : Appends (drain n) := .of_hist_eq fun _ => rfl

/-- The value of a part, passed on. -/
theorem Appends.returning {α β : Type} {m : Act α} (h : Appends m) (f : α → β) :
    Appends (Act.bind m fun a => Act.ret (f a)) :=
  h.bind fun _ => appends_ret _

/-- An init exchange records its frame, and the answer or the failure (R144). -/
theorem appends_initExchange (f : List Byte) : Appends (initExchange f) := fun s => by
  rcases initExchange_cases f s with ⟨a, e, h⟩ | ⟨l, e, h⟩ <;> simp [h]

/-! ### JTAG operations -/

/-- A flush records nothing, or its frame and the answer or the failure (R165). -/
theorem appends_jtagFlush : Appends jtagFlush := fun s => by
  rcases jtagFlush_cases s with ⟨_, h⟩ | ⟨_, _, h⟩ | ⟨_, _, l, e, h⟩ | ⟨_, _, a, e, _, _, h⟩ | ⟨_, _, a, e, _, _, h⟩ <;> simp [h]

theorem appends_requireJtag : Appends requireJtag := appends_faultIf _ _

theorem appends_requireIdle : Appends requireIdle := appends_requireJtag.bind fun _ => appends_faultIf _ _

theorem appends_scan (kind : ScanKind) (value : BitVec 64) (length : Nat) : Appends (scan kind value length) :=
  appends_requireIdle.bind fun _ =>
  (appends_faultIf _ _).bind fun _ =>
  Appends.bind (.of_hist_eq fun s => by simp) fun _ =>
  appends_jtagFlush.bind fun _ =>
  appends_drain length

theorem appends_scanFits (kind : ScanKind) (length : Nat) : Appends (scanFits kind length) :=
  .of_hist_eq fun _ => by unfold scanFits; split <;> rfl

theorem appends_jtagInit (speed : Byte) : Appends (jtagInit speed) :=
  (appends_initExchange _).bind fun _ =>
  Appends.bind (.of_hist_eq fun _ => rfl) fun _ =>
  appends_ret _

theorem appends_resetAndIdle : Appends resetAndIdle :=
  appends_requireJtag.bind fun _ =>
  (appends_emits _).bind fun _ =>
  appends_jtagFlush.returning _

theorem appends_clockBatch (units : List WireUnit) : Appends (clockBatch units) :=
  appends_requireJtag.bind fun _ =>
  (appends_emits _).bind fun _ =>
  appends_jtagFlush.bind fun _ =>
  (appends_drain _).returning _

theorem appends_selectTarget (index : Nat) : Appends (selectTarget index) :=
  .of_hist_eq fun _ => by unfold selectTarget; split <;> rfl

theorem appends_accessResult (c : BitVec 35) : Appends (accessResult c) := by
  unfold accessResult
  split
  · exact appends_ret _
  · exact appends_raise _

theorem appends_accessRegister (addr : RegAddr) (value : Option Word) : Appends (accessRegister addr value) :=
  appends_requireIdle.bind fun _ =>
  (appends_faultIf _ _).bind fun _ =>
  (appends_scanFits _ _).bind fun _ =>
  (appends_scanFits _ _).bind fun _ =>
  (appends_scan _ _ _).bind fun _ =>
  (appends_scan _ _ _).bind fun _ =>
  appends_accessResult _

/-! ### Discovery -/

theorem appends_chainWord : Appends chainWord :=
  (appends_emits _).bind fun _ =>
  appends_jtagFlush.bind fun _ =>
  (appends_drain _).returning _

theorem appends_irBit : Appends irBit :=
  (appends_emits _).bind fun _ =>
  appends_jtagFlush.bind fun _ =>
  (appends_drain _).returning _

/-- The end of a discovery: out of the shift state, and a change of the record that is no link event. -/
theorem appends_leaveShift (change : State → State) (h : ∀ s, (change s).hist = s.hist) (v : Value) :
    Appends (Act.bind (emits leaveShift) fun _ => Act.bind jtagFlush fun _ => Act.bind (Act.change change) fun _ =>
      Act.ret v) :=
  (appends_emits _).bind fun _ =>
  appends_jtagFlush.bind fun _ =>
  (Appends.of_hist_eq h).returning _

theorem appends_chainLoop (fuel : Nat) (ids : List Word) : Appends (chainLoop fuel ids) := by
  induction fuel generalizing ids with
  | zero => exact .of_hist_eq fun _ => rfl
  | succ fuel ih =>
    refine appends_chainWord.bind fun w => ?_
    split
    · exact appends_leaveShift State.clearSelection (fun _ => rfl) _
    · exact ih _

theorem appends_irLoop (fuel : Nat) (prev : Bool) (count : Nat) (closed : Bool) (found : List Nat) :
    Appends (irLoop fuel prev count closed found) := by
  induction fuel generalizing prev count closed found with
  | zero => exact .of_hist_eq fun _ => rfl
  | succ fuel ih =>
    refine appends_irBit.bind fun b => ?_
    split
    · exact ih _ _ _ _
    split
    · exact appends_leaveShift (fun s => (s.described found).clearSelection) (fun _ => rfl) _
    · exact ih _ _ _ _

theorem appends_discoverChain : Appends discoverChain :=
  appends_requireIdle.bind fun _ =>
  (appends_emits _).bind fun _ s =>
  appends_chainLoop _ _ s

theorem appends_discoverIrLengths : Appends discoverIrLengths :=
  appends_requireIdle.bind fun _ =>
  (appends_emits _).bind fun _ =>
  appends_irBit.bind fun _ s =>
  appends_irLoop _ _ _ _ _ s

theorem appends_resumeLoop (p : Progress) : Appends (resumeLoop p) := fun s => by
  cases p with
  | chain ids => exact appends_chainLoop _ _ (s.progress none)
  | irLengths prev count closed found => exact appends_irLoop _ _ _ _ _ (s.progress none)

/-! ### SWD operations -/

theorem appends_requireSwd : Appends requireSwd := appends_faultIf _ _

theorem appends_swdInit (speed : Byte) : Appends (swdInit speed) :=
  (appends_initExchange _).bind fun _ =>
  Appends.bind (.of_hist_eq fun _ => rfl) fun _ =>
  appends_ret _

/-- A push records nothing (R216). -/
theorem appends_pushSub (g : Subcmd) : Appends (pushSub g) := .of_hist_eq fun s => by
  rcases pushSub_cases g s with ⟨_, h⟩ | ⟨_, _, h⟩ | ⟨_, _, _, h⟩ | ⟨_, _, _, _, h⟩ | ⟨_, _, _, _, h⟩ <;> simp [h]

/-- A flush records nothing, or its frame and the answer or the failure (R217). -/
theorem appends_flushBatch : Appends flushBatch := fun s => by
  rcases flushBatch_cases s with ⟨_, h⟩ | ⟨_, _, h⟩ | ⟨_, _, l, e, h⟩ | ⟨_, _, a, e, _, _, h⟩ | ⟨_, _, a, e, rs, _, _, _, h⟩ <;>
    simp [h]

theorem appends_takeResults : Appends takeResults :=
  appends_requireSwd.bind fun _ => .of_hist_eq fun _ => rfl

theorem appends_pushAll (gs : List Subcmd) : Appends (pushAll gs) := by
  induction gs with
  | nil => exact appends_ret ()
  | cons g gs ih => exact (appends_pushSub g).bind fun _ => ih

theorem appends_batch (gs : List Subcmd) : Appends (batch gs) :=
  appends_requireSwd.bind fun _ =>
  (appends_faultIf _ _).bind fun _ =>
  (appends_pushAll gs).bind fun _ =>
  appends_flushBatch.bind fun _ =>
  appends_takeResults

theorem appends_readResult (rs : List SResult) : Appends (readResult rs) := by
  unfold readResult
  split
  · exact appends_ret _
  · exact appends_raise _
  · exact appends_halt _

theorem appends_writeResult (rs : List SResult) : Appends (writeResult rs) := by
  unfold writeResult
  split
  · exact appends_ret _
  · exact appends_raise _
  · exact appends_halt _

/-! ### Every instruction, and every step -/

theorem appends_bodyOf (i : Instr) : Appends (bodyOf i) := by
  cases i with
  | d0 speed | jtagInit speed => exact appends_jtagInit speed
  | e5 speed | swdInit speed => exact appends_swdInit speed
  | d2 units => exact appends_clockBatch units
  | e8 | a1 | a2 | a0 | swdReset | jtagToSwd | swdIdle => exact (appends_batch _).returning _
  | resetAndIdle => exact appends_resetAndIdle
  | discoverChain => exact appends_discoverChain
  | discoverIrLengths => exact appends_discoverIrLengths
  | selectTarget index => exact appends_selectTarget index
  | writeIr | writeDr => exact (appends_scan _ _ _).returning _
  | accessRegister addr value => exact appends_accessRegister addr value
  | push g => exact (appends_pushSub g).returning _
  | flush => exact appends_flushBatch.returning _
  | take => exact appends_takeResults.returning _
  | readRegister => exact (appends_batch _).bind appends_readResult
  | writeRegister => exact (appends_batch _).bind appends_writeResult

theorem exec_hist_appends {i : Instr} {s t : State} (h : exec i s = .next t) : s.hist <+: t.hist := by
  rw [exec_eq_operate, operate_eq_next] at h
  obtain ⟨_, rfl⟩ := h
  rw [conclude_hist]
  exact appends_bodyOf i s

theorem step_hist_appends {s t : State} (h : step s = .next t) : s.hist <+: t.hist := by
  rcases step_next_cases h with ⟨p, rfl⟩ | ⟨i, h⟩
  · rw [conclude_hist]
    exact appends_resumeLoop p s
  · exact exec_hist_appends h

/-! ### The obligations -/

/-- Settles O51: what each primitive of the link records is read off its cases; that a step only appends holds of every part
of an operation, so of the operation. -/
theorem historyOnlyGrows : Obligations.HistoryOnlyGrows := by
  refine ⟨fun f s => ?_, fun n s => ?_, fun s => ?_, fun s t h => ?_, rfl⟩
  · rcases linkWrite_cases f s with ⟨e, h⟩ | ⟨k, e, h⟩ <;> simp [h]
  · rcases linkRead_cases n s with ⟨a, e, _, h⟩ | ⟨k, e, h⟩ <;> simp [h]
  · rcases linkReadAny_cases s with ⟨a, e, h⟩ | ⟨k, e, h⟩ <;> simp [h]
  · obtain ⟨es, he⟩ := step_hist_appends h
    exact ⟨es, he.symm⟩

/-- Settles O49: the fault is what `step` looks at first, and what every operation looks at first. -/
theorem faultIsSticky : Obligations.FaultIsSticky := by
  refine ⟨fun s f h => ⟨step_of_fault h, fun i => ?_⟩, rfl⟩
  rw [exec_eq_operate, operate_of_fault h]

end Sys2Proof.Proofs
end

section
/-! PROOFS. The encodings: which bit of a byte is which bit of the sequence it is written from (R101, R111), the parity of a
word (R113), and the JTAG access instructions and their capture (R115, R117). -/

namespace Sys2Proof.Proofs

open Sys2Proof.Machine Sys2Proof.Laws

/-! ### Bit sequences -/

theorem valBits_cons (b : Bool) (bs : List Bool) : valBits (b :: bs) = Nat.bit b (valBits bs) := by
  rw [valBits, Nat.bit_val, Nat.add_comm]

theorem testBit_valBits (bits : List Bool) (i : Nat) : (valBits bits).testBit i = bits.getD i false := by
  induction bits generalizing i with
  | nil => simp [valBits]
  | cons b bs ih =>
    rw [valBits_cons]
    cases i with
    | zero => simp
    | succ i => simp [Nat.testBit_bit_succ, ih]

@[simp] theorem getElem_byteOfBits (bits : List Bool) {i : Nat} (h : i < 8) : (byteOfBits bits)[i] = bits.getD i false := by
  rw [← BitVec.getLsbD_eq_getElem, byteOfBits, BitVec.getLsbD_ofNat, testBit_valBits, decide_eq_true h, Bool.true_and]

theorem byteOfBits_bitsOf (b : Byte) : byteOfBits (bitsOf 8 b) = b := by
  refine BitVec.eq_of_getElem_eq fun i hi => ?_
  simp [bitsOf, hi]

theorem sum_map_toNat_eq_countP {α : Type} (p : α → Bool) (l : List α) :
    ((l.map p).map Bool.toNat).sum = l.countP p := by
  induction l with
  | nil => rfl
  | cons a l ih => cases h : p a <;> simp [h, ← ih, Nat.add_comm]

/-- `popcount` (R11) counts the bits that are 1. -/
theorem popcount_eq_countP (v : Word) : popcount v = (List.range 32).countP fun i => v.getLsbD i :=
  sum_map_toNat_eq_countP _ _

/-! ### Clock units -/

/-- The low phase has TMS at bit 1 and TDI at bit 4 (R101). -/
theorem encLo_eq (u : WireUnit) :
    encLo u = ((BitVec.ofBool u.tms).zeroExtend 8 <<< 1) ||| ((BitVec.ofBool u.tdi).zeroExtend 8 <<< 4) := by
  obtain ⟨tms, tdi⟩ := u
  cases tms <;> cases tdi <;> rfl

/-! ### The SWD header byte -/

theorem headerOk_iff (h : Byte) :
    headerOk h = true ↔
      h.getLsbD 0 = true ∧ h.getLsbD 6 = false ∧ h.getLsbD 7 = true
        ∧ h.getLsbD 5 = (h.getLsbD 1 ^^ h.getLsbD 2 ^^ h.getLsbD 3 ^^ h.getLsbD 4) := by
  simp [headerOk, and_assoc]

@[simp] theorem headerAddr_isAp (h : Byte) : (headerAddr h).isAp = h.getLsbD 1 := by
  unfold headerAddr
  split <;> simp_all [RegAddr.isAp]

@[simp] theorem headerAddr_off (h : Byte) : (headerAddr h).off = (h >>> 1) &&& 0x0C := by
  unfold headerAddr
  split <;> rfl

/-- What a well-formed header decodes to is encoded as that header: its fixed and parity bits are the header's own (R112). -/
theorem header_of_headerOk {h : Byte} (ok : headerOk h = true) : header (headerAddr h) (headerRnw h) = h := by
  obtain ⟨start, stop, park, parity⟩ := (headerOk_iff h).1 ok
  have a2 : (headerAddr h).off.getLsbD 2 = h.getLsbD 3 := by simp
  have a3 : (headerAddr h).off.getLsbD 3 = h.getLsbD 4 := by simp
  have bits : bitsOf 8 h = [h.getLsbD 0, h.getLsbD 1, h.getLsbD 2, h.getLsbD 3, h.getLsbD 4, h.getLsbD 5, h.getLsbD 6,
    h.getLsbD 7] := rfl
  calc header (headerAddr h) (headerRnw h)
    _ = byteOfBits (bitsOf 8 h) := by
      simp only [header, headerRnw, headerAddr_isAp, a2, a3, bits, start, stop, park, parity, Bool.xor_assoc]
    _ = h := byteOfBits_bitsOf h

/-! ### The JTAG access -/

@[simp] theorem accessIr_dp (off : Byte) : accessIr (.dp off) = 0xA := rfl

@[simp] theorem accessIr_ap (off : Byte) : accessIr (.ap off) = 0xB := rfl

/-- A scan's data units shift the low bits of the value, bit 0 first (R185). -/
theorem dataUnits_tdi (value : BitVec 64) (length trailing : Nat) :
    (dataUnits value length trailing).map ClockUnit.tdi = bitsOf length value := by
  simp [dataUnits, bitsOf]

/-! ### The obligations -/

/-- Settles O5: the formula for each value of TMS and TDI; the table is its four instances. -/
theorem clockUnitPair : Obligations.ClockUnitPair := by
  refine ⟨fun tms tdi => ?_, rfl, rfl, rfl, rfl⟩
  simp only [encUnit, encLo_eq]

/-- Settles O6: the header's bits are those of the sequence it is written from. -/
theorem headerByte : Obligations.HeaderByte := by
  refine ⟨fun addr rnw => ?_, headerOk_iff, fun _ => header_of_headerOk⟩
  simp [header]

/-- Settles O7: the parity byte is the frame's last, and `popcount` counts the word's bits. -/
theorem writeParity : Obligations.WriteParity := by
  refine ⟨fun addr data => ?_, by decide, by decide⟩
  rw [← popcount_eq_countP]
  exact List.getLast?_concat

/-- Settles O8: the scan shifts the low four bits of the instruction. -/
theorem accessInstructions : Obligations.AccessInstructions := by
  intro off trailing
  simp only [dataUnits_tdi, accessIr_dp, accessIr_ap]
  decide

/-- Settles O10: both fields are slices of the capture, and a slice is a shift and a remainder. -/
theorem captureFields : Obligations.CaptureFields := by
  intro c
  have mask (n : Nat) : n &&& 0xFFFFFFFF = n % 2 ^ 32 := Nat.and_two_pow_sub_one_eq_mod n 32
  rw [mask]
  exact ⟨BitVec.extractLsb'_toNat .., BitVec.extractLsb'_toNat ..⟩

end Sys2Proof.Proofs
end

section
/-! PROOFS. The TAP tracker: the reset sequence takes every legal tracker to one state (R162), and a flush that fails leaves
the tracker Unknown and the clock queue empty (R161). -/

namespace Sys2Proof.Proofs

open Sys2Proof.Machine Sys2Proof.Laws

/-! ### The reset sequence -/

/-- After four units with TMS=1 only a start in a Capture, Shift or Pause state can still be at Select-IR (R162). -/
theorem deltaSeq_all_four_ones : deltaSeq TapState.all (List.replicate 4 true) = [.tlr, .selIR] := by decide

theorem deltaPath_five_ones (p : TapState) : deltaPath p (List.replicate 5 true) = .tlr := by cases p <;> rfl

theorem deltaSeq_five_ones {Q : List TapState} (h : tapSetOk Q = true) : deltaSeq Q (List.replicate 5 true) = [.tlr] :=
  deltaSeq_const h deltaPath_five_ones

/-! ### A flush that fails -/

/-- A flush ends in an error by a BufferOverflow or by a failed transfer, and in no other way. -/
theorem jtagFlush_err {s t : State} {e : TypedError} (h : jtagFlush s = (.err e, t)) :
    t = s.overflowed ∨ ∃ l env, t = (s.traffic [.out s.clockFrame, .fail l] env).lose := by
  rcases jtagFlush_cases s with ⟨-, h'⟩ | ⟨-, -, h'⟩ | ⟨-, -, l, env, h'⟩ | ⟨-, -, _, _, -, -, h'⟩ | ⟨-, -, _, _, -, -, h'⟩
  all_goals rw [h'] at h; cases h
  · exact .inl rfl
  · exact .inr ⟨l, env, rfl⟩

/-! ### The obligations -/

/-- Settles O14: from every one of the 16 states five units with TMS=1 end in Test-Logic-Reset, so every legal tracker does;
the sizes on the way are those of the images of the full set. -/
theorem resetFromAnyState : Obligations.ResetFromAnyState := by
  refine ⟨fun Q h => ⟨deltaSeq_five_ones h, ?_⟩, by decide, by decide, by decide, fun q => ?_⟩
  · rw [deltaSeq_append, deltaSeq_five_ones h]
    decide
  · rw [deltaSeq_all_four_ones]
    simp [or_comm]

/-- Settles O15: Emit is that update of the state; a flush that fails resets the tracker and the queue in both its ways. -/
theorem emitQueuesAndMoves : Obligations.EmitQueuesAndMoves := by
  refine ⟨fun _ _ => rfl, fun s t e h => ?_⟩
  obtain rfl | ⟨l, env, rfl⟩ := jtagFlush_err h
  · exact ⟨rfl, rfl⟩
  · exact ⟨State.lose_tap _, State.lose_cq _⟩

end Sys2Proof.Proofs
end

section
/-! PROOFS. The JTAG ACK decoder (R189): which captures hold the ack of success, and how many frames each part of a JTAG access
writes. -/

namespace Sys2Proof.Proofs

open Sys2Proof.Machine Sys2Proof.Laws

/-! ### The ack of a capture -/

theorem jtagAck_eq (c : BitVec 35) : jtagAck c = BitVec.ofNat 3 (c.toNat % 8) := by
  refine BitVec.eq_of_toNat_eq ?_
  simp [jtagAck]

/-- Of the eight acks only 2 is success (R189). -/
theorem jtagAckIsOk_jtagAck (c : BitVec 35) : jtagAckIsOk (jtagAck c) = true ↔ c.toNat % 8 = 2 := by
  rw [jtagAckIsOk, beq_iff_eq, ← BitVec.toNat_inj]
  simp [jtagAck, Config.jtagAckOk]

theorem accessResult_of_ok {c : BitVec 35} (h : c.toNat % 8 = 2) : accessResult c = Act.ret (.word (jtagValue c)) :=
  if_pos ((jtagAckIsOk_jtagAck c).2 h)

theorem accessResult_of_not_ok {c : BitVec 35} (h : c.toNat % 8 ≠ 2) :
    accessResult c = Act.raise (.accessFault (jtagAck c)) :=
  if_neg (h ∘ (jtagAckIsOk_jtagAck c).1)

/-! ### How many frames a part of an operation writes -/

/-- Whatever state this part starts in, and however it ends, it writes at most `n` frames. -/
def WritesAtMost {α : Type} (n : Nat) (m : Act α) : Prop :=
  ∀ s : State, (framesOf (m s).2.hist).length ≤ (framesOf s.hist).length + n

/-- A part that records nothing writes no frame. -/
theorem WritesAtMost.of_hist_eq {α : Type} {m : Act α} (h : ∀ s, (m s).2.hist = s.hist) : WritesAtMost 0 m := fun s => by
  rw [h, Nat.add_zero]

/-- In a sequence the bounds add up. If the first part gives no value, the second writes nothing. -/
theorem WritesAtMost.bind {α β : Type} {n k : Nat} {m : Act α} {f : α → Act β} (hm : WritesAtMost n m)
    (hf : ∀ a, WritesAtMost k (f a)) : WritesAtMost (n + k) (Act.bind m f) := fun s => by
  rcases e : m s with ⟨r, s'⟩
  have first : (framesOf s'.hist).length ≤ (framesOf s.hist).length + n := by simpa [e] using hm s
  have stopped : (framesOf s'.hist).length ≤ (framesOf s.hist).length + (n + k) := by omega
  cases r with
  | ok a =>
    rw [bind_of_ok e]
    exact (hf a s').trans (by omega)
  | err => rwa [bind_of_err e]
  | halt => rwa [bind_of_halt e]
  | running => rwa [bind_of_running e]

theorem writesAtMost_ret {α : Type} (a : α) : WritesAtMost 0 (Act.ret a) := .of_hist_eq fun _ => rfl

theorem writesAtMost_raise {α : Type} (e : TypedError) : WritesAtMost 0 (Act.raise e : Act α) := .of_hist_eq fun _ => rfl

theorem writesAtMost_faultIf (test : State → Bool) (f : ModelFault) : WritesAtMost 0 (Act.faultIf test f) :=
  .of_hist_eq fun _ => by unfold Act.faultIf; split <;> rfl

theorem writesAtMost_requireIdle : WritesAtMost 0 requireIdle :=
  (writesAtMost_faultIf _ _).bind fun _ => writesAtMost_faultIf _ _

/-- A flush writes no frame, or the one frame of its queue (R165). -/
theorem writesAtMost_jtagFlush : WritesAtMost 1 jtagFlush := fun s => by
  rcases jtagFlush_cases s with ⟨_, h⟩ | ⟨_, _, h⟩ | ⟨_, _, l, e, h⟩ | ⟨_, _, a, e, _, _, h⟩ | ⟨_, _, a, e, _, _, h⟩ <;>
    simp [h, framesOf]

/-! ### A JTAG access -/

/-- A scan is one flush; nothing else of it writes (R185). -/
theorem writesAtMost_scan (kind : ScanKind) (value : BitVec 64) (length : Nat) : WritesAtMost 1 (scan kind value length) :=
  writesAtMost_requireIdle.bind fun _ =>
  (writesAtMost_faultIf _ _).bind fun _ =>
  WritesAtMost.bind (.of_hist_eq fun s => by simp) fun _ =>
  writesAtMost_jtagFlush.bind fun _ =>
  .of_hist_eq fun _ => rfl

theorem writesAtMost_scanFits (kind : ScanKind) (length : Nat) : WritesAtMost 0 (scanFits kind length) :=
  .of_hist_eq fun _ => by unfold scanFits; split <;> rfl

theorem writesAtMost_accessResult (c : BitVec 35) : WritesAtMost 0 (accessResult c) := by
  by_cases h : c.toNat % 8 = 2
  · rw [accessResult_of_ok h]
    exact writesAtMost_ret _
  · rw [accessResult_of_not_ok h]
    exact writesAtMost_raise _

/-- An access is two scans, an IR scan and a DR scan; what its ack says comes after both (R188). -/
theorem writesAtMost_accessRegister (addr : RegAddr) (value : Option Word) : WritesAtMost 2 (accessRegister addr value) :=
  writesAtMost_requireIdle.bind fun _ =>
  (writesAtMost_faultIf _ _).bind fun _ =>
  (writesAtMost_scanFits _ _).bind fun _ =>
  (writesAtMost_scanFits _ _).bind fun _ =>
  (writesAtMost_scan _ _ _).bind fun _ =>
  (writesAtMost_scan _ _ _).bind fun _ =>
  writesAtMost_accessResult _

/-- An instruction writes at most the frames that its operation writes. -/
theorem exec_framesOf_length_le {i : Instr} {n : Nat} (hi : WritesAtMost n (bodyOf i)) {s t : State} (h : exec i s = .next t) :
    (framesOf t.hist).length ≤ (framesOf s.hist).length + n := by
  rw [exec_eq_operate, operate_eq_next] at h
  obtain ⟨_, rfl⟩ := h
  rw [conclude_hist]
  exact hi s

/-! ### The obligation -/

/-- Settles O45: the ack is the capture's low three bits, compared with 2; and an access is two scans of one frame each, with
nothing after its result is known. -/
theorem jtagAckDecoder : Obligations.JtagAckDecoder := by
  refine ⟨fun c s => ?_, fun addr value s t h => ?_⟩
  · by_cases ok : c.toNat % 8 = 2
    · rw [accessResult_of_ok ok, if_pos ok]
      rfl
    · rw [accessResult_of_not_ok ok, if_neg ok, jtagAck_eq]
      rfl
  · exact exec_framesOf_length_le (i := .accessRegister addr value) (writesAtMost_accessRegister addr value) h

end Sys2Proof.Proofs
end

section
/-! PROOFS. The subcommand framer (R212) and the SWD ACK decoder (R211). -/

namespace Sys2Proof.Proofs

open Sys2Proof.Machine Sys2Proof.Laws

/-! ### The framer -/

/-- The four bytes of a word, low byte first, each cut from the word's value (R12). -/
theorem le32_eq (v : Word) :
    le32 v = [BitVec.ofNat 8 v.toNat, BitVec.ofNat 8 (v.toNat / 0x100), BitVec.ofNat 8 (v.toNat / 0x10000),
      BitVec.ofNat 8 (v.toNat / 0x1000000)] := by
  simp [le32, BitVec.extractLsb', Nat.shiftRight_eq_div_pow]

/-- Of a register's offset a header holds bits [3:2] alone (R111). -/
theorem header_congr (addr addr' : RegAddr) (isAp : addr.isAp = addr'.isAp) (a : addrA addr.off = addrA addr'.off)
    (rnw : Bool) : header addr rnw = header addr' rnw := by
  have bit (i : Nat) (hi : i < 2) : addr.off.getLsbD (2 + i) = addr'.off.getLsbD (2 + i) := by
    simpa [addrA, hi] using congrArg (BitVec.getLsbD · i) a
  simp only [header, isAp, bit 0 (by decide), bit 1 (by decide)]

/-! ### The ack of an answer -/

/-- The ack is the low three bits of the ack byte (R114). -/
theorem swdAck_eq (ab : Byte) : swdAck ab = BitVec.ofNat 3 (ab &&& 0x07).toNat := by
  refine BitVec.eq_of_toNat_eq ?_
  have mask : ab.toNat &&& 7 = ab.toNat % 2 ^ 3 := Nat.and_two_pow_sub_one_eq_mod _ 3
  simp [swdAck, mask]

/-- Of the eight acks only 1 is success (R211). -/
theorem swdAckIsOk_eq_true {ack : Ack} : swdAckIsOk ack = true ↔ ack = 1 := beq_iff_eq

/-- The result of a register read is its ack's, whatever the parity byte (R213, R225). -/
theorem parseSlice_registerRead (addr : RegAddr) (ab d0 d1 d2 d3 pb : Byte) :
    parseSlice (.registerRead addr) [0xA2, ab, d0, d1, d2, d3, pb]
      = some (if swdAck ab = 1 then .readOk (ofLe32 d0 d1 d2 d3) else .ackErr (swdAck ab)) := by
  simp only [parseSlice, if_true, swdAckIsOk_eq_true, apply_ite some]

theorem parseSlice_registerWrite (addr : RegAddr) (data : Word) (ab : Byte) :
    parseSlice (.registerWrite addr data) [0xA0, ab]
      = some (if swdAck ab = 1 then .writeOk else .ackErr (swdAck ab)) := by
  simp only [parseSlice, if_true, swdAckIsOk_eq_true, apply_ite some]

/-! ### The obligations -/

/-- Settles O11: a frame's data field is `le32` and its parity byte `popcount`; a header is a function of isap and bits [3:2];
the lengths are the wire lengths of well-formed subcommands. -/
theorem subcommandFrames : Obligations.SubcommandFrames := by
  refine ⟨fun _ => rfl, fun addr data => ?_, fun _ _ => rfl, fun _ => ⟨rfl, rfl⟩, fun off off' rnw a => ?_, fun g wf => ?_⟩
  · rw [encodeSub, le32_eq, parityByte, popcount_eq_countP]
    rfl
  · exact ⟨header_congr (.dp off) (.dp off') rfl a rnw, header_congr (.ap off) (.ap off') rfl a rnw⟩
  · rw [encodeSub_length wf]
    cases g <;> rfl

/-- Settles O46: both slices are parsed by the ack of their second byte, and each operation raises the ack its batch
returned. -/
theorem swdAckDecoder : Obligations.SwdAckDecoder := by
  intro addr data ab d0 d1 d2 d3 pb s ack
  have ack_eq : swdAck ab = ack := swdAck_eq ab
  refine ⟨?_, ?_, rfl, rfl⟩
  · rw [parseSlice_registerRead, ack_eq, ofLe32]
  · rw [parseSlice_registerWrite, ack_eq]

end Sys2Proof.Proofs
end

section
/-! PROOFS. The codec (30_encoding.md): every instruction is read back from its words, and what the decoder takes off the front of
some bytes is the frame of a well-formed instruction (R100 to R112, R118, R119). -/

namespace Sys2Proof.Proofs

open Sys2Proof.Machine Sys2Proof.Laws

/-! ### Fields read and written again -/

theorem le16_ofLe16 (lo hi : Byte) : le16 (ofLe16 lo hi) = [lo, hi] := by
  have bound := lo.isLt
  have low : BitVec.ofNat 8 (ofLe16 lo hi) = lo := BitVec.eq_of_toNat_eq (by simp [ofLe16]; omega)
  have high : BitVec.ofNat 8 (ofLe16 lo hi / 256) = hi := BitVec.eq_of_toNat_eq (by simp [ofLe16]; omega)
  rw [le16, low, high]

theorem ofLe16_lt (lo hi : Byte) : ofLe16 lo hi < 65536 := by
  have := lo.isLt
  have := hi.isLt
  unfold ofLe16
  omega

theorem le32_ofLe32 (d0 d1 d2 d3 : Byte) : le32 (ofLe32 d0 d1 d2 d3) = [d0, d1, d2, d3] := by
  simp only [le32, ofLe32, List.cons.injEq, and_true]
  refine ⟨?_, ?_, ?_, ?_⟩ <;> ext i hi <;> grind

/-- The offset a header names has only bits [3:2], so a frame can carry it (R112). -/
theorem headerAddr_wireForm (h : Byte) : (headerAddr h).wireForm = true := by
  simp [RegAddr.wireForm, BitVec.and_assoc]

/-! ### What the decoder took -/

/-- A check of the decoder that was passed. -/
theorem ok_of_check {α : Type} {c : Prop} [Decidable c] {e : Reject} {x : Except Reject α} {a : α}
    (h : (if c then .error e else x) = .ok a) : ¬ c ∧ x = .ok a := by
  split at h
  · cases h
  · next hc => exact ⟨hc, h⟩

/-- A subcommand taken off the front of some bytes is well-formed, and they begin with its frame (R108 to R110). -/
theorem decodeSub_ok {bs rest : List Byte} {g : Subcmd} (h : decodeSub bs = .ok (g, rest)) :
    g.wireForm = true ∧ bs = encodeSub g ++ rest := by
  unfold decodeSub at h
  split at h
  · cases h
  split at h
  case isTrue read =>
    split at h
    · obtain ⟨fixed, h⟩ := ok_of_check h
      obtain ⟨headed, h⟩ := ok_of_check h
      obtain ⟨direction, h⟩ := ok_of_check h
      cases h
      simp at fixed headed direction
      have hdr := header_of_headerOk headed
      rw [direction] at hdr
      exact ⟨headerAddr_wireForm _, by simp [encodeSub, hdr, fixed, read]⟩
    · cases h
  split at h
  case isTrue write =>
    split at h
    · obtain ⟨fixed, h⟩ := ok_of_check h
      obtain ⟨headed, h⟩ := ok_of_check h
      obtain ⟨direction, h⟩ := ok_of_check h
      obtain ⟨parity, h⟩ := ok_of_check h
      cases h
      simp at fixed headed direction parity
      have hdr := header_of_headerOk headed
      rw [direction] at hdr
      exact ⟨headerAddr_wireForm _, by simp [encodeSub, hdr, fixed, write, le32_ofLe32, parity]⟩
    · cases h
  split at h
  case isTrue raw =>
    split at h
    · next lo hi tail =>
      obtain ⟨nonzero, h⟩ := ok_of_check h
      obtain ⟨long, h⟩ := ok_of_check h
      obtain ⟨unused, h⟩ := ok_of_check h
      cases h
      have count : (BitVec.ofNat 16 (ofLe16 lo hi)).toNat = ofLe16 lo hi := Nat.mod_eq_of_lt (ofLe16_lt lo hi)
      exact ⟨by simpa [Subcmd.wireForm] using unused, by simp only [encodeSub, count, le16_ofLe16, raw]; simp⟩
    · cases h
  · cases h

/-- The subcommands of a payload: well-formed, and the payload is their frames (R106). -/
theorem decodeSubs_ok {n : Nat} {bs : List Byte} {gs : List Subcmd} (h : decodeSubs n bs = .ok gs) :
    gs.all Subcmd.wireForm = true ∧ bs = batchPayload gs := by
  induction n generalizing bs gs with
  | zero =>
    cases bs with
    | nil => cases h; exact ⟨rfl, rfl⟩
    | cons b bs => cases h
  | succ n ih =>
    cases bs with
    | nil => cases h; exact ⟨rfl, rfl⟩
    | cons b bs =>
      rw [decodeSubs] at h
      split at h
      · cases h
      · next g rest hg =>
        split at h
        · cases h
        · next gs hgs =>
          cases h
          obtain ⟨wf, e⟩ := decodeSub_ok hg
          obtain ⟨wfs, es⟩ := ih hgs
          exact ⟨by simp [wf, wfs], by rw [e, es]; rfl⟩

/-- A low-phase byte without a reserved bit is the encoding of its own TMS and TDI (R101). -/
theorem encLo_of_unreserved {lo : Byte} (h : lo &&& 0xED = 0) : encLo ⟨lo.getLsbD 1, lo.getLsbD 4⟩ = lo := by
  revert lo
  decide +kernel

/-- The clock units of a payload: the payload is their edge pairs (R101, R103). -/
theorem decodeUnits_ok : ∀ {bs : List Byte} {us : List WireUnit}, decodeUnits bs = .ok us → bs = us.flatMap encUnit
  | [], _, h => by cases h; rfl
  | [_], _, h => by cases h
  | lo :: hi :: rest, _, h => by
    rw [decodeUnits] at h
    obtain ⟨unreserved, h⟩ := ok_of_check h
    obtain ⟨pair, h⟩ := ok_of_check h
    split at h
    · cases h
    · next us hus =>
      cases h
      have low := encLo_of_unreserved (not_not.1 unreserved)
      rw [List.flatMap_cons, ← decodeUnits_ok hus, encUnit, low, ← not_not.1 pair]
      rfl

/-- Two fields of fixed bytes, with one byte between them. -/
theorem eq_fields {bs : List Byte} {n m : Nat} (h : n < bs.length) :
    bs = bs.take n ++ bs.getD n 0 :: ((bs.drop (n + 1)).take m ++ bs.drop (n + 1 + m)) := by
  rw [← List.drop_drop (i := m), List.take_append_drop, List.getD_eq_getElem _ _ h, List.getElem_cons_drop,
    List.take_append_drop]

/-- A payload of as many bytes as the length field says. -/
theorem eq_payload {lo hi : Byte} {tail payload : List Byte} (long : ¬ tail.length < ofLe16 lo hi)
    (h : tail.take (ofLe16 lo hi) = payload) :
    payload.length = ofLe16 lo hi ∧ lo :: hi :: tail = le16 payload.length ++ payload ++ tail.drop (ofLe16 lo hi) := by
  have len : payload.length = ofLe16 lo hi := by rw [← h, List.length_take]; omega
  refine ⟨len, ?_⟩
  rw [len, le16_ofLe16, ← h, List.append_assoc, List.take_append_drop]
  rfl

/-- F-D0 (R102): the bytes around the speed are the fixed ones. -/
theorem d0_reading {bs : List Byte} (long : ¬ bs.length < 9)
    (fixed : ¬ (bs.take 4 ≠ le16 Config.jtagInitLen ++ [0x00, 0x00] ∨ (bs.drop 5).take 4 ≠ [0x00, 0x00, 0x00, 0x00])) :
    0xD0 :: bs = frameD0 (bs.getD 4 0) ++ bs.drop 9 := by
  simp only [not_or, not_not] at fixed
  have fields := eq_fields (bs := bs) (n := 4) (m := 4) (by omega)
  rw [fixed.1, fixed.2] at fields
  conv_lhs => rw [fields]
  simp [frameD0]

/-- F-E5 (R105), as F-D0. -/
theorem e5_reading {bs : List Byte} (long : ¬ bs.length < 10)
    (fixed : ¬ (bs.take 6 ≠ [0x08, 0x00, 0x40, 0x42, 0x0F, 0x00] ∨ (bs.drop 7).take 3 ≠ [0x00, 0x00, 0x00])) :
    0xE5 :: bs = frameE5 (bs.getD 6 0) ++ bs.drop 10 := by
  simp only [not_or, not_not] at fixed
  have fields := eq_fields (bs := bs) (n := 6) (m := 3) (by omega)
  rw [fixed.1, fixed.2] at fields
  conv_lhs => rw [fields]
  simp [frameE5]

/-- F-D2 (R103): the payload is not empty, as long as its field says, and the units' edge pairs. -/
theorem d2_reading {lo hi : Byte} {tail : List Byte} {us : List WireUnit} (long : ¬ tail.length < ofLe16 lo hi)
    (nonempty : ofLe16 lo hi ≠ 0) (h : decodeUnits (tail.take (ofLe16 lo hi)) = .ok us) :
    (Instr.d2 us).wf = true ∧ 0xD2 :: lo :: hi :: tail = frameD2 us ++ tail.drop (ofLe16 lo hi) := by
  obtain ⟨len, fields⟩ := eq_payload long (decodeUnits_ok h)
  have lt := ofLe16_lt lo hi
  rw [encUnits_length] at len fields
  refine ⟨?_, ?_⟩
  · simp only [Instr.wf, Bool.and_eq_true, decide_eq_true_eq]
    omega
  · rw [frameD2, fields]
    simp

/-- F-E8 (R106): the payload is not empty, as long as its field says, and the subcommands' frames. -/
theorem e8_reading {n : Nat} {lo hi : Byte} {tail : List Byte} {gs : List Subcmd} (long : ¬ tail.length < ofLe16 lo hi)
    (nonempty : ofLe16 lo hi ≠ 0) (h : decodeSubs n (tail.take (ofLe16 lo hi)) = .ok gs) :
    (Instr.e8 gs).wf = true ∧ 0xE8 :: lo :: hi :: tail = frameE8 gs ++ tail.drop (ofLe16 lo hi) := by
  obtain ⟨wf, payload⟩ := decodeSubs_ok h
  obtain ⟨len, fields⟩ := eq_payload long payload
  have lt := ofLe16_lt lo hi
  have some : gs ≠ [] := by rintro rfl; exact nonempty len.symm
  refine ⟨?_, ?_⟩
  · simp only [Instr.wf, wf, ← batchPayload_length wf, List.isEmpty_eq_false_iff.2 some, Bool.not_false, Bool.true_and,
      decide_eq_true_eq]
    omega
  · rw [frameE8, fields]
    simp

/-! ### Reserved encodings -/

theorem headerOk_header (addr : RegAddr) (rnw : Bool) : headerOk (header addr rnw) = true := by
  simp [headerOk, header]

theorem headerRnw_header (addr : RegAddr) (rnw : Bool) : headerRnw (header addr rnw) = rnw := by
  simp [headerRnw, header]

/-- A low-phase byte with a reserved bit set is not encoded by any unit (R101, R119). -/
theorem reserved_of_bit {lo : Byte} {i : Nat} (h : i ∈ [2, 3, 5, 6, 7]) (bit : lo.getLsbD i = true) :
    lo &&& 0xED ≠ 0 := by
  intro zero
  have masked : (lo &&& 0xED).getLsbD i = true := by
    rw [BitVec.getLsbD_and, bit]
    fin_cases h <;> rfl
  rw [zero] at masked
  simp at masked

/-! ### The obligations -/

/-- Settles O1: one case for each constructor; a frame is read back by its length field, a call by its name and operands. -/
theorem decodeEncodeAgree : Obligations.DecodeEncodeAgree := by
  intro i
  cases i with
  | d0 speed => exact Roundtrip.d0 speed
  | d2 units => exact Roundtrip.d2 units
  | e5 speed => exact Roundtrip.e5 speed
  | e8 subs => exact Roundtrip.e8 subs
  | a1 nbits bytes => exact Roundtrip.a1 nbits bytes
  | a2 addr => exact Roundtrip.a2 addr
  | a0 addr data => exact Roundtrip.a0 addr data
  | jtagInit speed => exact Roundtrip.jtagInit speed
  | resetAndIdle => exact Roundtrip.resetAndIdle
  | discoverChain => exact Roundtrip.discoverChain
  | discoverIrLengths => exact Roundtrip.discoverIrLengths
  | selectTarget index => exact Roundtrip.selectTarget index
  | writeIr value length => exact Roundtrip.writeIr value length
  | writeDr value length => exact Roundtrip.writeDr value length
  | accessRegister addr value => exact Roundtrip.accessRegister addr value
  | swdInit speed => exact Roundtrip.swdInit speed
  | push g => exact Roundtrip.push g
  | flush => exact Roundtrip.flush
  | take => exact Roundtrip.take
  | swdReset => exact Roundtrip.swdReset
  | jtagToSwd => exact Roundtrip.jtagToSwd
  | swdIdle => exact Roundtrip.swdIdle
  | readRegister address isAp => exact Roundtrip.readRegister address isAp
  | writeRegister address isAp data => exact Roundtrip.writeRegister address isAp data

/-- Settles O2: the checks the decoder passed on its way say that each field is the one the encoder writes. -/
theorem frameHasOneReading : Obligations.FrameHasOneReading := by
  intro bs rest i h
  unfold decodeFrame at h
  split at h
  · cases h
  split at h
  case isTrue d0 =>
    obtain ⟨long, h⟩ := ok_of_check h
    obtain ⟨fixed, h⟩ := ok_of_check h
    cases h
    exact ⟨rfl, d0 ▸ d0_reading long fixed⟩
  split at h
  case isTrue e5 =>
    obtain ⟨long, h⟩ := ok_of_check h
    obtain ⟨fixed, h⟩ := ok_of_check h
    cases h
    exact ⟨rfl, e5 ▸ e5_reading long fixed⟩
  split at h
  case isTrue d2 =>
    split at h
    · obtain ⟨long, h⟩ := ok_of_check h
      obtain ⟨nonempty, h⟩ := ok_of_check h
      split at h
      · cases h
      · next hus =>
        cases h
        exact d2 ▸ d2_reading long nonempty hus
    · cases h
  split at h
  case isTrue e8 =>
    split at h
    · obtain ⟨long, h⟩ := ok_of_check h
      obtain ⟨nonempty, h⟩ := ok_of_check h
      split at h
      · cases h
      · next hgs =>
        cases h
        exact e8 ▸ e8_reading long nonempty hgs
    · cases h
  split at h
  · split at h
    · cases h
    all_goals
      next hg =>
      cases h
      exact decodeSub_ok hg
  · cases h

/-- Settles O3: each check of the decoder on the bytes that fail it. -/
theorem reservedEncodingsRefused : Obligations.ReservedEncodingsRefused := by
  refine ⟨fun b bs high other => ?_, fun b bs other => ?_, fun lo hi bs i hi bit => ?_, fun h bs none => ?_,
    fun addr data p bs wrong => ?_, fun bs => rfl⟩
  · simp only [List.mem_cons, List.not_mem_nil, or_false, not_or] at other
    obtain ⟨d0, d2, e5, e8, a0, a1, a2⟩ := other
    simp only [decode, high, decodeFrame, d0, d2, e5, e8, a0, a1, a2, or_self, if_true, if_false]
  · simp only [List.mem_cons, List.not_mem_nil, or_false, not_or] at other
    obtain ⟨a0, a1, a2⟩ := other
    simp only [decodeSub, a0, a1, a2, if_false]
  · rw [decodeUnits, if_pos (reserved_of_bit hi bit)]
  · have bad : headerOk h = false := by
      rw [Bool.eq_false_iff]
      exact fun ok => none ⟨headerAddr h, headerRnw h, (header_of_headerOk ok).symm⟩
    simp [decodeSub, bad]
  · simp [decodeSub, headerOk_header, headerRnw_header, le32, ofLe32_le32, wrong]

/-- Settles O4: the decoder on the five texts. -/
theorem sampleWords : Obligations.SampleWords := by
  refine ⟨?_, ?_, ?_, ?_, ?_⟩ <;> decide

end Sys2Proof.Proofs
end

section
/-! PROOFS. How an operation ends in any state, whatever its tracker and its queue are: what a value, a TransportError (R311), another
typed error (R312), a model fault (R316) and a discovery in progress leave, of every instruction and of every step. -/

namespace Sys2Proof.Proofs

open Sys2Proof.Machine Sys2Proof.Laws

/-! ### What stays -/

/-- The history has grown, by frames each followed by its answer or failure (R143). -/
def Pairs (s t : State) : Prop := ∃ es : List Event, t.hist = s.hist ++ es ∧ pairedFrom false es = true

theorem Pairs.of_eq {s t : State} (h : t.hist = s.hist) : Pairs s t := ⟨[], by simp [h], rfl⟩

theorem Pairs.of_grows {s t : State} (h : Grows s t) : Pairs s t := by
  obtain ⟨es, e, paired, -⟩ := h
  exact ⟨es, e, paired⟩

/-- What every part of an operation leaves of the run, but for a discovery left in progress. -/
structure KeepsRun (s t : State) : Prop where
  fault : t.fault = s.fault
  pc : t.pc = s.pc
  calls : t.calls = s.calls
  results : t.results = s.results
  par : t.par = s.par
  pairs : Pairs s t

theorem KeepsRun.trans {s t u : State} (h : KeepsRun s t) (g : KeepsRun t u) : KeepsRun s u := by
  obtain ⟨es, e, paired⟩ := h.pairs
  obtain ⟨es', e', paired'⟩ := g.pairs
  exact ⟨g.fault.trans h.fault, g.pc.trans h.pc, g.calls.trans h.calls, g.results.trans h.results, g.par.trans h.par,
    es ++ es', by rw [e', e, List.append_assoc], pairedFrom_append paired paired'⟩

/-- What a typed error other than a TransportError leaves (R312). -/
structure KeepsSession (s t : State) : Prop extends KeepsRun s t where
  prog : t.prog = s.prog
  mode : t.mode = s.mode
  jspeed : t.jspeed = s.jspeed
  sspeed : t.sspeed = s.sspeed
  taps : t.taps = s.taps
  sel : t.sel = s.sel
  irPre : t.irPre = s.irPre
  irPos : t.irPos = s.irPos
  pre : t.pre = s.pre
  pos : t.pos = s.pos

theorem KeepsSession.of_same {s t : State} (h : Same s t) : KeepsSession s t :=
  { h with pairs := .of_grows h.grows }

theorem KeepsSession.refl (s : State) : KeepsSession s s := .of_same (SameJ.refl s).toSame

/-- What an SWD operation leaves, however it ends but for a TransportError. -/
structure KeepsJtag (s t : State) : Prop extends KeepsSession s t where
  tap : t.tap = s.tap
  cq : t.cq = s.cq
  bb : t.bb = s.bb

theorem KeepsJtag.of_same {s t : State} (h : SameS s t) : KeepsJtag s t :=
  { KeepsSession.of_same h.toSame, h with }

/-- What a TransportError leaves (R311), whatever frame it was that failed. -/
structure SessionLost (s : State) (l : LinkFail) (t : State) : Prop extends KeepsRun s t where
  prog : t.prog = s.prog
  mode : t.mode = .uninit
  cq : t.cq = []
  sq : t.sq = []
  tap : t.tap = TapState.all
  link : t.link = .unknown
  last : t.hist.getLast? = some (.fail l)
  rq : t.rq = s.rq
  taps : t.taps = s.taps
  sel : t.sel = s.sel
  irPre : t.irPre = s.irPre
  irPos : t.irPos = s.irPos
  pre : t.pre = s.pre
  pos : t.pos = s.pos
  jspeed : t.jspeed = s.jspeed
  sspeed : t.sspeed = s.sspeed

theorem SessionLost.of_lost {s t : State} {l : LinkFail} (h : Lost s l t) : SessionLost s l t :=
  { h with pairs := .of_grows h.grows }

/-! ### How an operation ends -/

/-- How an operation can end from the state `s` before it, in any state. -/
inductive Ending (s : State) : Res Value → State → Prop
  | ok {v : Value} {t : State} (h : KeepsRun s t) (hp : t.prog = s.prog) : Ending s (.ok v) t
  | lost {l : LinkFail} {t : State} (h : SessionLost s l t) (hb : BuffersEmpty s → t.bb = s.bb) :
    Ending s (.err (.transport l)) t
  | err {e : TypedError} {t : State} (he : ∀ l, e ≠ .transport l) (h : KeepsSession s t) : Ending s (.err e) t
  | halt {f : ModelFault} {t : State} (h : KeepsSession s t) : Ending s (.halt f) t
  | running {t : State} (h : KeepsRun s t) (hp : t.prog ≠ none) : Ending s .running t

/-- How an SWD operation can end from the state `s` before it, in any state. -/
inductive EndingSwd (s : State) : Res Value → State → Prop
  | kept {r : Res Value} {t : State} (hr : ∀ l, r ≠ .err (.transport l)) (hn : r ≠ .running) (h : KeepsJtag s t) : EndingSwd s r t
  | lost {l : LinkFail} {t : State} (h : SessionLost s l t) (hb : t.bb = s.bb) : EndingSwd s (.err (.transport l)) t

theorem EndingSwd.ending {s t : State} {r : Res Value} (h : EndingSwd s r t) : Ending s r t := by
  cases h with
  | lost h hb => exact .lost h fun _ => hb
  | kept hr hn h =>
    cases r with
    | ok v => exact .ok h.toKeepsRun h.prog
    | err e => exact .err (fun l hl => hr l (by rw [hl])) h.toKeepsSession
    | halt f => exact .halt h.toKeepsSession
    | running => exact absurd rfl hn

/-- The ends that Laws/Ends.lean gives of an SWD operation with a legal queue. -/
theorem EndingSwd.of_endS {s t : State} {r : Res Value} (h : EndS s (fun _ u => DoneS s u) r t) : EndingSwd s r t := by
  cases h with
  | ok h => exact .kept (by simp) (by simp) (.of_same h.1)
  | lost h hb => exact .lost (.of_lost h) hb
  | err he h hq => exact .kept (fun l hl => he l (by simpa using hl)) (by simp) (.of_same h)
  | halt h hq => exact .kept (by simp) (by simp) (.of_same h)

/-- The ends that Laws/Ends.lean gives of a JTAG operation. -/
theorem EndJ.ending {s t : State} {R : State → Prop} {Q : Value → State → Prop} {r : Res Value} (h : EndJ s R Q r t)
    (hq : ∀ v, Q v t → KeepsRun s t ∧ t.prog = s.prog) (hr : R t → KeepsRun s t ∧ t.prog ≠ none) : Ending s r t := by
  cases h with
  | ok h => exact .ok (hq _ h).1 (hq _ h).2
  | lost h hb => exact .lost (.of_lost h) fun hs => by rw [hb hs, hs.2]
  | err he h => exact .err he (.of_same h.toSame)
  | halt h => exact .halt (.of_same h.toSame)
  | running h => exact .running (hr h).1 (hr h).2

/-! ### SWD instructions, in any state -/

/-- An exchange and a change of the SWD queues alone. -/
theorem keepsJtag_of_exchange {s t : State} {es : List Event} (h : t.hist = s.hist ++ es) (paired : pairedFrom false es = true)
    (e : t = { s with sq := t.sq, rq := t.rq, link := t.link, hist := t.hist, env := t.env }) : KeepsJtag s t := by
  rw [e] at h ⊢
  exact ⟨⟨⟨rfl, rfl, rfl, rfl, rfl, es, h, paired⟩, rfl, rfl, rfl, rfl, rfl, rfl, rfl, rfl, rfl, rfl⟩, rfl, rfl, rfl⟩

theorem KeepsJtag.refl (s : State) : KeepsJtag s s := .of_same (SameS.refl s)

theorem endingSwd_push (g : Subcmd) (s : State) : EndingSwd s (bodyOf (.push g) s).1 (bodyOf (.push g) s).2 := by
  simp only [bodyOf]
  rcases pushSub_cases g s with ⟨_, e⟩ | ⟨_, _, e⟩ | ⟨_, _, _, e⟩ | ⟨_, _, _, _, e⟩ | ⟨_, _, _, _, e⟩
  · rw [bind_of_halt e]; exact .kept (by simp) (by simp) (.refl s)
  · rw [bind_of_halt e]; exact .kept (by simp) (by simp) (.refl s)
  · rw [bind_of_halt e]; exact .kept (by simp) (by simp) (.refl s)
  · rw [bind_of_err e]; exact .kept (by simp [overflowError]) (by simp) (.refl s)
  · rw [bind_of_ok e]; exact .kept (by simp) (by simp) (keepsJtag_of_exchange (es := []) (by simp) rfl rfl)

theorem endingSwd_flush (s : State) : EndingSwd s (bodyOf .flush s).1 (bodyOf .flush s).2 := by
  simp only [bodyOf]
  rcases flushBatch_cases s with ⟨_, e⟩ | ⟨_, _, e⟩ | ⟨_, _, l, env, e⟩ | ⟨_, _, a, env, _, _, e⟩ | ⟨_, _, a, env, rs, _, _, _, e⟩
  · rw [bind_of_halt e]; exact .kept (by simp) (by simp) (.refl s)
  · rw [bind_of_ok e]; exact .kept (by simp) (by simp) (.refl s)
  · rw [bind_of_err e]
    exact .lost ⟨⟨rfl, rfl, rfl, rfl, rfl, _, rfl, rfl⟩, rfl, rfl, rfl, rfl, rfl, rfl, by simp, rfl, rfl, rfl, rfl, rfl, rfl, rfl,
      rfl, rfl⟩ rfl
  · rw [bind_of_halt e]; exact .kept (by simp) (by simp) (keepsJtag_of_exchange rfl rfl rfl)
  · rw [bind_of_ok e]; exact .kept (by simp) (by simp) (keepsJtag_of_exchange rfl rfl rfl)

theorem endingSwd_take (s : State) : EndingSwd s (bodyOf .take s).1 (bodyOf .take s).2 := by
  simp only [bodyOf]
  by_cases hm : s.mode = .swd
  · rw [bind_of_ok (takeResults_of hm)]
    exact .kept (by simp) (by simp) (keepsJtag_of_exchange (es := []) (by simp [State.taken]) rfl rfl)
  · have e : takeResults s = (.halt .modeViolation, s) := by rw [takeResults, bind_of_halt (requireSwd_fault hm)]
    rw [bind_of_halt e]; exact .kept (by simp) (by simp) (.refl s)

/-- A standalone operation is its batch, and then what it makes of the results (R219). -/
theorem bodyOf_standalone {i : Instr} (h : classOf i = .standalone) : ∃ k, bodyOf i = Act.bind (batch (batchOf i)) k := by
  cases i <;> simp only [classOf, reduceCtorEq] at h <;> exact ⟨_, rfl⟩

/-- A batch that starts has an empty queue (R305, R310). -/
theorem batch_cases (gs : List Subcmd) (s : State) :
    (s.mode ≠ .swd ∧ batch gs s = (.halt .modeViolation, s))
    ∨ (s.mode = .swd ∧ (s.sq ≠ [] ∨ s.rq ≠ []) ∧ batch gs s = (.halt .queueNotEmpty, s))
    ∨ (s.mode = .swd ∧ s.sq = [] ∧ s.rq = []) := by
  by_cases hm : s.mode = .swd
  · by_cases h : s.sq = [] ∧ s.rq = []
    · exact .inr (.inr ⟨hm, h⟩)
    · refine .inr (.inl ⟨hm, by simpa [imp_iff_not_or] using h, ?_⟩)
      rw [batch, bind_of_ok (requireSwd_of hm), bind_faultIf_stop (by simpa [imp_iff_not_or] using h)]
  · exact .inl ⟨hm, by rw [batch, bind_of_halt (requireSwd_fault hm)]⟩

/-- Every SWD instruction but the inits: the body it runs, and how it ends. -/
theorem exec_endingSwd {i : Instr} (hc : classOf i = .queue ∨ classOf i = .standalone) (s : State) :
    ∃ body : Act Value, exec i s = operate body s ∧ EndingSwd s (body s).1 (body s).2 := by
  rcases hc with hc | hc
  · refine ⟨bodyOf i, exec_eq_operate i s, ?_⟩
    cases i <;> simp only [classOf, reduceCtorEq] at hc
    case push g => exact endingSwd_push g s
    case flush => exact endingSwd_flush s
    case take => exact endingSwd_take s
  · obtain ⟨k, hk⟩ := bodyOf_standalone hc
    rcases batch_cases (batchOf i) s with ⟨-, e⟩ | ⟨-, -, e⟩ | ⟨-, hs, -⟩
    · refine ⟨bodyOf i, exec_eq_operate i s, ?_⟩
      rw [hk, bind_of_halt e]; exact .kept (by simp) (by simp) (.refl s)
    · refine ⟨bodyOf i, exec_eq_operate i s, ?_⟩
      rw [hk, bind_of_halt e]; exact .kept (by simp) (by simp) (.refl s)
    · obtain ⟨body, e, ends⟩ := swd_ends (queueOk_nil hs) (.inr hc)
      exact ⟨body, e, .of_endS ends⟩

/-! ### JTAG instructions -/

/-- What a JTAG instruction that completes leaves. -/
structure JtagDone (i : Instr) (s t : State) : Prop extends KeepsRun s t where
  prog : t.prog = s.prog
  mode : t.mode = s.mode
  jspeed : t.jspeed = s.jspeed
  sspeed : t.sspeed = s.sspeed
  sq : t.sq = s.sq
  rq : t.rq = s.rq
  link : t.link = s.link
  grows : Grows s t
  tracker : TrackerOk s → TrackerOk t
  settled : isOperation i = true → TrackerOk s → TrackerSettled t
  buffers : BuffersEmpty s → BuffersEmpty t
  lengths : LengthsOk s → LengthsOk t
  selection : SelectionOk s → SelectionOk t
  taps : i ≠ .discoverIrLengths → t.taps = s.taps
  sel : i ≠ .discoverIrLengths → i ≠ .discoverChain →
    t.sel = s.sel ∧ t.irPre = s.irPre ∧ t.irPos = s.irPos ∧ t.pre = s.pre ∧ t.pos = s.pos

/-- What a JTAG instruction that is still in progress leaves: its loop, in its shift state (R182, R183). -/
def InLoop (s t : State) : Prop :=
  s.mode = .jtag ∧ (InProgress s [.shDR] ChainProgress t ∨ InProgress s [.shIR] IrProgress t)

theorem selectionOk_congr {s t : State} (taps : t.taps = s.taps) (sel : t.sel = s.sel) (irPre : t.irPre = s.irPre)
    (irPos : t.irPos = s.irPos) (pre : t.pre = s.pre) (pos : t.pos = s.pos) (h : SelectionOk s) : SelectionOk t := by
  unfold SelectionOk
  rw [taps, sel, irPre, irPos, pre, pos]
  exact h

theorem selectionOk_none {t : State} (sel : t.sel = none) (irPre : t.irPre = 0) (irPos : t.irPos = 0) (pre : t.pre = 0)
    (pos : t.pos = 0) : SelectionOk t := by
  unfold SelectionOk
  rw [sel]
  exact ⟨irPre, irPos, pre, pos⟩

theorem JtagDone.of_doneJ {i : Instr} {s t : State} {settles : Bool} (h : DoneJ s settles t)
    (hs : isOperation i = true → settles = true) : JtagDone i s t := by
  obtain ⟨same, tracker, settled, buffers⟩ := h
  exact { same, KeepsSession.of_same same.toSame with
    tracker := tracker
    settled := fun hi => settled (hs hi)
    buffers := buffers
    lengths := fun h => by unfold LengthsOk; rw [same.taps]; exact h
    selection := selectionOk_congr same.taps same.sel same.irPre same.irPos same.pre same.pos
    taps := fun _ => same.taps
    sel := fun _ _ => ⟨same.sel, same.irPre, same.irPos, same.pre, same.pos⟩ }

theorem JtagDone.of_doneD {i : Instr} {s t : State} (h : DoneD s t) (hi : i = .discoverIrLengths ∨ i = .discoverChain)
    (lengths : LengthsOk s → LengthsOk t) (taps : i ≠ .discoverIrLengths → t.taps = s.taps) : JtagDone i s t :=
  { h with
    pairs := .of_grows h.grows
    tracker := fun _ => by unfold TrackerOk; rw [h.tap]; rfl
    settled := fun _ _ => .inl h.tap
    lengths := lengths
    selection := fun _ => selectionOk_none h.sel h.irPre h.irPos h.pre h.pos
    taps := taps
    sel := fun h1 h2 => absurd hi (not_or.2 ⟨h1, h2⟩) }

/-- Every JTAG instruction but the inits and select_target. -/
theorem jtag_ends {i : Instr} (hc : classOf i = .clock ∨ classOf i = .scan) (s : State) :
    EndJ s (InLoop s) (fun _ => JtagDone i s) (bodyOf i s).1 (bodyOf i s).2 := by
  cases i <;> simp only [classOf, reduceCtorEq, or_self] at hc
  case d2 us => exact (end_clockBatch s us).mono (fun _ h => .of_doneJ h (by simp [isOperation])) False.elim
  case resetAndIdle => exact (end_resetAndIdle s).mono (fun _ h => .of_doneJ h fun _ => rfl) False.elim
  case writeIr v n => exact (end_write s .ir v n).mono (fun _ h => .of_doneJ h fun _ => rfl) False.elim
  case writeDr v n => exact (end_write s .dr v n).mono (fun _ h => .of_doneJ h fun _ => rfl) False.elim
  case accessRegister a v => exact (end_accessRegister s a v).mono (fun _ h => .of_doneJ h fun _ => rfl) False.elim
  case discoverChain =>
    refine (end_discoverChain s).mono (fun _ h => ?_) fun h => ⟨h.1, .inl h.2⟩
    exact .of_doneD h.1 (.inr rfl) (fun hl => by unfold LengthsOk; rw [h.2]; exact hl) fun _ => h.2
  case discoverIrLengths =>
    refine (end_discoverIrLengths s).mono (fun _ h => ?_) fun h => ⟨h.1, .inr h.2⟩
    exact .of_doneD h.1 (.inl rfl) (fun _ => h.2) fun hne => absurd rfl hne

theorem inProgress_keepsRun {s t : State} {T : List TapState} {P : Progress → Prop} (h : InProgress s T P t) :
    KeepsRun s t ∧ t.prog ≠ none := by
  obtain ⟨u, p, rfl, -, mid⟩ := h
  exact ⟨{ (KeepsSession.of_same mid.same.toSame).toKeepsRun with }, by simp⟩

theorem inLoop_keepsRun {s t : State} (h : InLoop s t) : KeepsRun s t ∧ t.prog ≠ none := by
  rcases h.2 with h | h <;> exact inProgress_keepsRun h

/-! ### The inits and select_target -/

/-- An init that is answered leaves what its `ready` says; one that fails is a TransportError (R180, R210). -/
theorem init_ends {f : List Byte} (legal : frameLegal f = true) (ready : State → State) (s : State) :
    (∃ t, SameS s t ∧ SameJ s t
      ∧ Act.bind (initExchange f) (fun _ => Act.bind (Act.change ready) fun _ => Act.ret Value.unit) s = (.ok .unit, ready t))
    ∨ (∃ l t, Lost s l t ∧ t.bb = s.bb
      ∧ Act.bind (initExchange f) (fun _ => Act.bind (Act.change ready) fun _ => Act.ret Value.unit) s
        = (.err (.transport l), t)) := by
  rcases end_initExchange legal s with ⟨a, t, e, hs, hj⟩ | ⟨l, t, e, h, hb⟩
  · exact .inl ⟨t, hs, hj, by rw [bind_of_ok e]; rfl⟩
  · exact .inr ⟨l, t, h, hb, bind_of_err e⟩

theorem ending_init {f : List Byte} (legal : frameLegal f = true) {ready : State → State}
    (h : ∀ t, KeepsRun t (ready t) ∧ (ready t).prog = t.prog) (s : State) :
    let x := Act.bind (initExchange f) (fun _ => Act.bind (Act.change ready) fun _ => Act.ret Value.unit) s
    Ending s x.1 x.2 := by
  rcases init_ends legal ready s with ⟨t, hs, -, e⟩ | ⟨l, t, hl, hb, e⟩
  · rw [e]
    have first := KeepsSession.of_same hs.toSame
    exact .ok (first.toKeepsRun.trans (h t).1) ((h t).2.trans first.prog)
  · rw [e]
    exact .lost (.of_lost hl) fun _ => hb

theorem ending_jtagInit (speed : Byte) (s : State) : Ending s (jtagInit speed s).1 (jtagInit speed s).2 :=
  ending_init (frameD0_legal speed) (ready := fun s => s.jtagReady speed) (fun _ => ⟨⟨rfl, rfl, rfl, rfl, rfl, .of_eq rfl⟩, rfl⟩) s

theorem ending_swdInit (speed : Byte) (s : State) : Ending s (swdInit speed s).1 (swdInit speed s).2 :=
  ending_init (frameE5_legal speed) (ready := fun s => s.swdReady speed) (fun _ => ⟨⟨rfl, rfl, rfl, rfl, rfl, .of_eq rfl⟩, rfl⟩) s

/-- Everything select_target can do (R184, R303). -/
theorem selectTarget_cases (index : Nat) (s : State) :
    (s.taps.length ≤ index ∧ selectTarget index s = (.err (.indexOutOfRange index s.taps.length), s))
    ∨ (index < s.taps.length ∧ selectTarget index s = (.ok .unit, s.selectTap index)) := by
  unfold selectTarget
  split
  · next h => exact .inl ⟨h, rfl⟩
  · next h => exact .inr ⟨by omega, rfl⟩

theorem ending_selectTarget (index : Nat) (s : State) : Ending s (selectTarget index s).1 (selectTarget index s).2 := by
  rcases selectTarget_cases index s with ⟨-, e⟩ | ⟨-, e⟩ <;> rw [e]
  · exact .err (by simp) (.refl s)
  · exact .ok ⟨rfl, rfl, rfl, rfl, rfl, .of_eq rfl⟩ rfl

/-! ### A discovery in progress, from any tracker -/

/-- In the middle of a loop from `s`, with nothing queued or captured and the tracker wherever it is. -/
def MidLoop (s t : State) : Prop := ∃ T, (TrackerOk s → tapSetOk T = true) ∧ Mid s T [] 0 t

/-- Some captured units, flushed and drained. -/
theorem midLoop_captured {α : Type} {R : State → Prop} {s t : State} (n : Nat) (f : List Bool → α) (h : MidLoop s t) :
    let x := Act.bind (emits (List.replicate n ⟨false, true, true⟩)) (fun _ => Act.bind jtagFlush fun _ =>
      Act.bind (drain n) fun bits => Act.ret (f bits)) t
    EndJ s R (fun _ => MidLoop s) x.1 x.2 := by
  obtain ⟨T, legal, mid⟩ := h
  have legal' (hs : TrackerOk s) := tapSetOk_deltaSeq (legal hs) ((List.replicate n (⟨false, true, true⟩ : ClockUnit)).map ClockUnit.tms)
  have flush := mid_flush (R := R) legal' (mid_emit _ mid)
  rw [List.nil_append, List.countP_replicate, if_pos rfl] at flush
  rw [bind_emits]
  refine EndJ.bind flush fun _ u hu => .ok ⟨_, legal', ?_⟩
  simpa using mid_drain n hu

/-- The exit of a loop. -/
theorem midLoop_exit {R : State → Prop} {s t : State} {change : State → State} (v : Value)
    (hc : ∀ u, KeepsRun u (change u) ∧ (change u).prog = u.prog) (h : MidLoop s t) :
    let x := Act.bind (emits leaveShift) (fun _ => Act.bind jtagFlush fun _ => Act.bind (Act.change change) fun _ => Act.ret v) t
    EndJ s R (fun _ u => KeepsRun s u ∧ u.prog = s.prog) x.1 x.2 := by
  obtain ⟨T, legal, mid⟩ := h
  have flush := mid_flush (R := R) (fun hs => tapSetOk_deltaSeq (legal hs) _) (mid_emit leaveShift mid)
  rw [bind_emits]
  refine EndJ.bind flush fun _ u hu => .ok ?_
  have first := KeepsSession.of_same hu.same.toSame
  exact ⟨first.toKeepsRun.trans (hc u).1, (hc u).2.trans first.prog⟩

/-- A loop left in progress. -/
theorem midLoop_running {s t : State} (p : Progress) (h : MidLoop s t) :
    KeepsRun s (t.progress (some p)) ∧ (t.progress (some p)).prog ≠ none := by
  obtain ⟨T, -, mid⟩ := h
  exact ⟨{ (KeepsSession.of_same mid.same.toSame).toKeepsRun with }, by simp⟩

theorem midLoop_chainLoop {s t : State} (fuel : Nat) (ids : List Word) (h : MidLoop s t) :
    EndJ s (fun u => KeepsRun s u ∧ u.prog ≠ none) (fun _ u => KeepsRun s u ∧ u.prog = s.prog)
      (chainLoop fuel ids t).1 (chainLoop fuel ids t).2 := by
  induction fuel generalizing ids t with
  | zero => exact .running (midLoop_running _ h)
  | succ fuel ih =>
    rw [chainLoop]
    refine EndJ.bind (midLoop_captured 32 _ h) fun w u hu => ?_
    split
    · exact midLoop_exit _ (fun _ => ⟨⟨rfl, rfl, rfl, rfl, rfl, .of_eq rfl⟩, rfl⟩) hu
    · exact ih _ hu

theorem midLoop_irLoop {s t : State} (fuel : Nat) (prev : Bool) (count : Nat) (closed : Bool) (found : List Nat)
    (h : MidLoop s t) :
    EndJ s (fun u => KeepsRun s u ∧ u.prog ≠ none) (fun _ u => KeepsRun s u ∧ u.prog = s.prog)
      (irLoop fuel prev count closed found t).1 (irLoop fuel prev count closed found t).2 := by
  induction fuel generalizing prev count closed found t with
  | zero => exact .running (midLoop_running _ h)
  | succ fuel ih =>
    rw [irLoop]
    refine EndJ.bind (midLoop_captured 1 _ h) fun b u hu => ?_
    split
    · exact ih _ _ _ _ hu
    split
    · exact midLoop_exit _ (fun _ => ⟨⟨rfl, rfl, rfl, rfl, rfl, .of_eq rfl⟩, rfl⟩) hu
    · exact ih _ _ _ _ hu

theorem ending_resumeLoop (p : Progress) (s : State) :
    Ending (s.progress none) (resumeLoop p s).1 (resumeLoop p s).2 := by
  have start : MidLoop (s.progress none) (s.progress none) := ⟨_, id, mid_refl _⟩
  cases p with
  | chain ids => exact EndJ.ending (midLoop_chainLoop _ ids start) (fun _ h => h) fun h => h
  | irLengths prev count closed found => exact EndJ.ending (midLoop_irLoop _ prev count closed found start) (fun _ h => h) fun h => h

/-! ### Every instruction, and every step -/

/-- How every instruction can end. -/
theorem exec_ending (i : Instr) (s : State) : ∃ body : Act Value, exec i s = operate body s ∧ Ending s (body s).1 (body s).2 := by
  have jtag (hc : classOf i = .clock ∨ classOf i = .scan) :
      ∃ body : Act Value, exec i s = operate body s ∧ Ending s (body s).1 (body s).2 :=
    ⟨bodyOf i, exec_eq_operate i s, EndJ.ending (jtag_ends hc s) (fun _ h => ⟨h.toKeepsRun, h.prog⟩) fun h => inLoop_keepsRun h⟩
  have swd (hc : classOf i = .queue ∨ classOf i = .standalone) :
      ∃ body : Act Value, exec i s = operate body s ∧ Ending s (body s).1 (body s).2 := by
    obtain ⟨body, e, h⟩ := exec_endingSwd hc s
    exact ⟨body, e, h.ending⟩
  cases i with
  | d0 speed | jtagInit speed => exact ⟨_, rfl, ending_jtagInit speed s⟩
  | e5 speed | swdInit speed => exact ⟨_, rfl, ending_swdInit speed s⟩
  | selectTarget index => exact ⟨_, rfl, ending_selectTarget index s⟩
  | d2 | resetAndIdle => exact jtag (.inl rfl)
  | discoverChain | discoverIrLengths | writeIr | writeDr | accessRegister => exact jtag (.inr rfl)
  | push | flush | take => exact swd (.inl rfl)
  | e8 | a1 | a2 | a0 | swdReset | jtagToSwd | swdIdle | readRegister | writeRegister => exact swd (.inr rfl)

/-- An instruction that answers a next state: it was taken between two operations, and ended. -/
theorem exec_next {i : Instr} {s t : State} (h : exec i s = .next t) :
    Idle s ∧ ∃ r u, t = conclude (r, u) ∧ Ending s r u := by
  obtain ⟨body, e, ending⟩ := exec_ending i s
  rw [e, operate_eq_next] at h
  exact ⟨h.1, _, _, h.2, ending⟩

/-- A step that answers a next state goes on with the discovery in progress, or runs an instruction. -/
theorem step_next {s t : State} (h : step s = .next t) :
    (∃ p, s.fault = none ∧ s.prog = some p ∧ t = conclude (resumeLoop p s)) ∨ ∃ i, exec i s = .next t := by
  unfold step at h
  split at h
  · cases h
  · next hf =>
    split at h
    · next p hp =>
      split at h
      · cases h
      · cases h
        exact .inl ⟨p, hf, hp, rfl⟩
    · split at h
      · cases h
      · split at h
        · cases h
        · next i _ => exact .inr ⟨i, h⟩

/-- What runs from `s`, an instruction or a step, ends from `s` with no discovery in progress. -/
theorem run_next {s t : State} (h : (∃ i, exec i s = .next t) ∨ step s = .next t) :
    s.fault = none ∧ ∃ r u, t = conclude (r, u) ∧ Ending (s.progress none) r u := by
  have instr {i : Instr} (h : exec i s = .next t) : s.fault = none ∧ ∃ r u, t = conclude (r, u) ∧ Ending (s.progress none) r u := by
    obtain ⟨⟨hf, hp⟩, r, u, e, ending⟩ := exec_next h
    exact ⟨hf, r, u, e, by rwa [State.progress, ← hp]⟩
  rcases h with ⟨i, h⟩ | h
  · exact instr h
  · rcases step_next h with ⟨p, hf, -, e⟩ | ⟨i, h⟩
    · exact ⟨hf, _, _, e, ending_resumeLoop p s⟩
    · exact instr h

/-- The only result that is a typed error is the typed error that the operation ended in. -/
theorem ending_err {s u : State} {r : Res Value} {e : TypedError} (h : Ending s r u)
    (hr : (conclude (r, u)).results = s.results ++ [.err e]) : r = .err e := by
  cases h with
  | ok h => simp [conclude, h.results] at hr
  | lost h => simpa [conclude, h.results] using hr
  | err _ h => simpa [conclude, h.results] using hr
  | halt h => simp [conclude, h.results] at hr
  | running h => simp [conclude, h.results] at hr

theorem conclude_pairs {s t u : State} {r : Res Value} (h : Pairs s u) (e : t = conclude (r, u)) : Pairs s t := by
  obtain ⟨es, he, paired⟩ := h
  exact ⟨es, by rw [e, conclude_hist, he], paired⟩

theorem Ending.pairs {s u : State} {r : Res Value} (h : Ending s r u) : Pairs s u := by
  cases h with
  | ok h => exact h.pairs
  | lost h => exact h.pairs
  | err _ h => exact h.pairs
  | halt h => exact h.pairs
  | running h => exact h.pairs

/-- The end of an operation changes the results, the position and the fault alone. -/
theorem conclude_changes (r : Res Value) (u : State) :
    ∃ results pc fault, conclude (r, u) = { u with results := results, pc := pc, fault := fault } := by
  cases r <;> exact ⟨_, _, _, rfl⟩

theorem inLoop_same {s t : State} (h : InLoop s t) : ∃ u p, t = u.progress (some p) ∧ SameJ s u := by
  rcases h.2 with ⟨u, p, e, -, mid⟩ | ⟨u, p, e, -, mid⟩ <;> exact ⟨u, p, e, mid.same⟩

/-! ### How many frames an instruction writes -/

theorem writesAtMost_initExchange (f : List Byte) : WritesAtMost 1 (initExchange f) := fun s => by
  rcases initExchange_cases f s with ⟨a, e, h⟩ | ⟨l, e, h⟩ <;> simp [h, framesOf]

theorem writesAtMost_init (f : List Byte) {ready : State → State} (h : ∀ s, (ready s).hist = s.hist) :
    WritesAtMost 1 (Act.bind (initExchange f) fun _ => Act.bind (Act.change ready) fun _ => Act.ret Value.unit) :=
  (writesAtMost_initExchange f).bind fun _ => WritesAtMost.bind (.of_hist_eq h) fun _ => writesAtMost_ret _

theorem writesAtMost_emits (us : List ClockUnit) : WritesAtMost 0 (emits us) := .of_hist_eq fun s => by simp

theorem writesAtMost_pushSub (g : Subcmd) : WritesAtMost 0 (pushSub g) := .of_hist_eq fun s => by
  rcases pushSub_cases g s with ⟨_, h⟩ | ⟨_, _, h⟩ | ⟨_, _, _, h⟩ | ⟨_, _, _, _, h⟩ | ⟨_, _, _, _, h⟩ <;> simp [h]

theorem writesAtMost_pushAll (gs : List Subcmd) : WritesAtMost 0 (pushAll gs) := by
  induction gs with
  | nil => exact writesAtMost_ret ()
  | cons g gs ih => exact (writesAtMost_pushSub g).bind fun _ => ih

/-- A batch's flush writes no frame, or the one frame of its queue (R217). -/
theorem writesAtMost_flushBatch : WritesAtMost 1 flushBatch := fun s => by
  rcases flushBatch_cases s with ⟨_, h⟩ | ⟨_, _, h⟩ | ⟨_, _, l, e, h⟩ | ⟨_, _, a, e, _, _, h⟩ | ⟨_, _, a, e, rs, _, _, _, h⟩ <;>
    simp [h, framesOf]

theorem writesAtMost_takeResults : WritesAtMost 0 takeResults :=
  (writesAtMost_faultIf _ _).bind fun _ => .of_hist_eq fun _ => rfl

/-- A batch is one flush; its pushes and its take write nothing (R219). -/
theorem writesAtMost_batch (gs : List Subcmd) : WritesAtMost 1 (batch gs) :=
  (writesAtMost_faultIf _ _).bind fun _ =>
  (writesAtMost_faultIf _ _).bind fun _ =>
  (writesAtMost_pushAll gs).bind fun _ =>
  writesAtMost_flushBatch.bind fun _ =>
  writesAtMost_takeResults

theorem writesAtMost_readResult (rs : List SResult) : WritesAtMost 0 (readResult rs) :=
  .of_hist_eq fun _ => by unfold readResult; split <;> rfl

theorem writesAtMost_writeResult (rs : List SResult) : WritesAtMost 0 (writeResult rs) :=
  .of_hist_eq fun _ => by unfold writeResult; split <;> rfl

theorem writesAtMost_resetAndIdle : WritesAtMost 1 resetAndIdle :=
  (writesAtMost_faultIf _ _).bind fun _ =>
  (writesAtMost_emits _).bind fun _ =>
  writesAtMost_jtagFlush.bind fun _ =>
  writesAtMost_ret _

theorem writesAtMost_clockBatch (us : List WireUnit) : WritesAtMost 1 (clockBatch us) :=
  (writesAtMost_faultIf _ _).bind fun _ =>
  (writesAtMost_emits _).bind fun _ =>
  writesAtMost_jtagFlush.bind fun _ =>
  WritesAtMost.bind (.of_hist_eq fun _ => rfl) fun _ =>
  writesAtMost_ret _

theorem writesAtMost_selectTarget (index : Nat) : WritesAtMost 0 (selectTarget index) := .of_hist_eq fun s => by
  rcases selectTarget_cases index s with ⟨-, h⟩ | ⟨-, h⟩ <;> simp [h]

/-- A value passed on writes nothing more. -/
theorem WritesAtMost.returning {α β : Type} {n : Nat} {m : Act α} (h : WritesAtMost n m) (f : α → β) :
    WritesAtMost n (Act.bind m fun a => Act.ret (f a)) := h.bind fun _ => writesAtMost_ret _

/-! ### The obligations -/

/-- Settles O34: what a JTAG instruction leaves, for each of its ends. -/
theorem jtagFrame : Obligations.JtagFrame := by
  intro i s t hc h
  rw [exec_eq_operate, operate_eq_next] at h
  obtain ⟨-, rfl⟩ := h
  have ends := jtag_ends hc s
  generalize bodyOf i s = x at ends ⊢
  obtain ⟨r, u⟩ := x
  cases ends with
  | ok h => exact ⟨h.jspeed, h.sspeed, h.rq, h.calls, h.par, h.taps, h.sel, .inr ⟨h.mode, h.sq, h.link⟩⟩
  | lost h =>
    exact ⟨h.jspeed, h.sspeed, h.rq, h.calls, h.par, fun _ => h.taps, fun _ _ => ⟨h.sel, h.irPre, h.irPos, h.pre, h.pos⟩,
      .inl ⟨_, congrArg (· ++ [_]) h.results⟩⟩
  | err _ h =>
    exact ⟨h.jspeed, h.sspeed, h.rq, h.calls, h.par, fun _ => h.taps, fun _ _ => ⟨h.sel, h.irPre, h.irPos, h.pre, h.pos⟩,
      .inr ⟨h.mode, h.sq, h.link⟩⟩
  | halt h =>
    exact ⟨h.jspeed, h.sspeed, h.rq, h.calls, h.par, fun _ => h.taps, fun _ _ => ⟨h.sel, h.irPre, h.irPos, h.pre, h.pos⟩,
      .inr ⟨h.mode, h.sq, h.link⟩⟩
  | running loop =>
    obtain ⟨v, p, rfl, h⟩ := inLoop_same loop
    exact ⟨h.jspeed, h.sspeed, h.rq, h.calls, h.par, fun _ => h.taps, fun _ _ => ⟨h.sel, h.irPre, h.irPos, h.pre, h.pos⟩,
      .inr ⟨h.mode, h.sq, h.link⟩⟩

/-- Settles O35: what an SWD instruction leaves, for each of its ends. -/
theorem swdFrame : Obligations.SwdFrame := by
  intro i s t hc h
  obtain ⟨body, e, ends⟩ := exec_endingSwd hc s
  rw [e, operate_eq_next] at h
  obtain ⟨-, rfl⟩ := h
  generalize body s = x at ends ⊢
  obtain ⟨r, u⟩ := x
  cases ends with
  | kept _ _ h =>
    obtain ⟨results, pc, fault, e⟩ := conclude_changes r u
    rw [e]
    exact ⟨h.jspeed, h.sspeed, h.bb, h.taps, h.sel, h.irPre, h.irPos, h.pre, h.pos, h.calls, h.par, h.prog,
      .inr ⟨h.mode, h.tap, h.cq⟩⟩
  | lost h hb =>
    exact ⟨h.jspeed, h.sspeed, hb, h.taps, h.sel, h.irPre, h.irPos, h.pre, h.pos, h.calls, h.par, h.prog,
      .inl ⟨_, congrArg (· ++ [_]) h.results⟩⟩

/-- Settles O36: the one end whose result is a TransportError, and what it leaves. -/
theorem transportErrorEffect : Obligations.TransportErrorEffect := by
  intro s t l h hr
  obtain ⟨hf, r, u, rfl, ending⟩ := run_next h
  obtain rfl := ending_err ending hr
  cases ending with
  | lost h hb =>
    exact ⟨h.mode, h.cq, h.sq, h.tap, h.link, by rw [conclude_hist]; exact h.last, h.fault.trans hf, h.prog, h.rq, h.taps, h.sel, h.irPre,
      h.irPos, h.pre, h.pos, h.jspeed, h.sspeed, hb⟩
  | err he => exact absurd rfl (he l)

/-- Settles O38: the two ends whose result is a typed error, and what they leave. -/
theorem typedErrorsKeepTheSession : Obligations.TypedErrorsKeepTheSession := by
  intro s t e h hr
  obtain ⟨hf, r, u, rfl, ending⟩ := run_next h
  obtain rfl := ending_err ending hr
  cases ending with
  | lost h hb => exact ⟨fun hl => absurd rfl (hl _), h.taps, h.sel, h.irPre, h.irPos, h.pre, h.pos⟩
  | err _ h => exact ⟨fun _ => h.mode, h.taps, h.sel, h.irPre, h.irPos, h.pre, h.pos⟩

/-- Settles O50: a value or a typed error is the one new result; a model fault and a discovery in progress are none. -/
theorem positionAdvancesByOne : Obligations.PositionAdvancesByOne := by
  intro i s t h
  obtain ⟨⟨hf, hp⟩, r, u, rfl, ending⟩ := exec_next h
  cases ending with
  | ok h g =>
    exact ⟨h.calls, h.par, .inl ⟨h.fault.trans hf, g.trans hp, congrArg (· + 1) h.pc, _, congrArg (· ++ [_]) h.results⟩⟩
  | lost h =>
    exact ⟨h.calls, h.par, .inl ⟨h.fault.trans hf, h.prog.trans hp, congrArg (· + 1) h.pc, _, congrArg (· ++ [_]) h.results⟩⟩
  | err _ h =>
    exact ⟨h.calls, h.par, .inl ⟨h.fault.trans hf, h.prog.trans hp, congrArg (· + 1) h.pc, _, congrArg (· ++ [_]) h.results⟩⟩
  | halt h => exact ⟨h.calls, h.par, .inr ⟨.inl (by simp [conclude]), h.pc, h.results⟩⟩
  | running h g => exact ⟨h.calls, h.par, .inr ⟨.inr g, h.pc, h.results⟩⟩

/-- Settles O52: the flushes of each operation, counted. -/
theorem noFrameInserted : Obligations.NoFrameInserted := by
  intro i s t notChain notIr h
  refine exec_framesOf_length_le ?_ h
  cases i with
  | d0 | jtagInit | e5 | swdInit => exact writesAtMost_init _ fun _ => rfl
  | d2 units => exact writesAtMost_clockBatch units
  | e8 | a1 | a2 | a0 | swdReset | jtagToSwd | swdIdle => exact (writesAtMost_batch _).returning _
  | resetAndIdle => exact writesAtMost_resetAndIdle
  | discoverChain => exact absurd rfl notChain
  | discoverIrLengths => exact absurd rfl notIr
  | selectTarget index => exact writesAtMost_selectTarget index
  | writeIr | writeDr => exact (writesAtMost_scan _ _ _).returning _
  | accessRegister addr value => exact writesAtMost_accessRegister addr value
  | push g => exact (writesAtMost_pushSub g).returning _
  | flush => exact writesAtMost_flushBatch.returning _
  | take => exact writesAtMost_takeResults.returning _
  | readRegister => exact (writesAtMost_batch _).bind writesAtMost_readResult
  | writeRegister => exact (writesAtMost_batch _).bind writesAtMost_writeResult

/-- Settles O56: however it ends, a step adds frames each followed by its answer or failure. -/
theorem historyStaysPaired : Obligations.HistoryStaysPaired := by
  intro s t paired h
  obtain ⟨-, r, u, e, ending⟩ := run_next (.inr h)
  obtain ⟨es, he, paired'⟩ := conclude_pairs ending.pairs e
  unfold HistoryPaired
  rw [he]
  exact pairedFrom_append paired paired'

end Sys2Proof.Proofs
end

section
/-! PROOFS. The invariant (10_state.md sections 2 and 5): every way an instruction, or a discovery in progress, can end keeps it, adds
only legal frames to the history (R119), and leaves the tracker settled (R43). -/

namespace Sys2Proof.Proofs

open Sys2Proof.Machine Sys2Proof.Laws

/-! ### What the end of an operation leaves of the invariant -/

/-- The end of an operation keeps the invariant; after a model fault it says nothing of the buffers, and no discovery is in
progress. -/
theorem inv_conclude {r : Res Value} {u : State} (tracker : TrackerOk u)
    (buffers : (∀ f, r ≠ .halt f) → BuffersEmpty u) (lengths : LengthsOk u) (selection : SelectionOk u) (queue : QueueOk u)
    (progress : u.prog = none ∨ r = .running ∧ ProgressOk u) : Inv (conclude (r, u)) := by
  have idle {x : State} (h : x.prog = none) : ProgressOk x := by unfold ProgressOk; rw [h]; trivial
  cases r with
  | ok v => exact ⟨tracker, fun _ => buffers (by simp), lengths, selection, queue, idle (progress.resolve_right (by simp))⟩
  | err e => exact ⟨tracker, fun _ => buffers (by simp), lengths, selection, queue, idle (progress.resolve_right (by simp))⟩
  | halt f =>
    exact ⟨tracker, fun h => by simp [conclude] at h, lengths, selection, queue, idle (progress.resolve_right (by simp))⟩
  | running => exact ⟨tracker, fun _ => buffers (by simp), lengths, selection, queue, progress.elim idle And.right⟩

theorem lengthsOk_congr {s t : State} (taps : t.taps = s.taps) (h : LengthsOk s) : LengthsOk t := by
  unfold LengthsOk
  rw [taps]
  exact h

theorem queueOk_congr {s t : State} (sq : t.sq = s.sq) (par : t.par = s.par) (mode : t.mode = s.mode) (h : QueueOk s) :
    QueueOk t := by
  unfold QueueOk
  rw [sq, par, mode]
  exact h

theorem KeepsSession.lengths {s t : State} (h : KeepsSession s t) : LengthsOk s → LengthsOk t := lengthsOk_congr h.taps

theorem KeepsSession.selection {s t : State} (h : KeepsSession s t) : SelectionOk s → SelectionOk t :=
  selectionOk_congr h.taps h.sel h.irPre h.irPos h.pre h.pos

theorem trackerOk_all {t : State} (h : t.tap = TapState.all) : TrackerOk t := by
  unfold TrackerOk
  rw [h]
  decide

/-- A TransportError keeps the invariant (R311). -/
theorem inv_lost {s u : State} {l : LinkFail} (inv : Inv s) (idle : s.prog = none) (h : Lost s l u) (hb : u.bb = []) :
    Inv (conclude (.err (.transport l), u)) :=
  inv_conclude (trackerOk_all h.tap) (fun _ => ⟨h.cq, hb⟩) (lengthsOk_congr h.taps inv.lengths)
    (selectionOk_congr h.taps h.sel h.irPre h.irPos h.pre h.pos inv.selection) (queueOk_nil h.sq) (.inl (h.prog.trans idle))

/-- A loop left in progress stands in its shift state with nothing queued or captured. -/
theorem inLoop_stands {s t : State} (h : InLoop s t) (hf : s.fault = none) :
    ∃ u p, t = u.progress (some p) ∧ SameJ s u ∧ TrackerOk t ∧ (BuffersEmpty s → BuffersEmpty t) ∧ ProgressOk t := by
  obtain ⟨hm, ⟨u, p, rfl, ⟨ids, rfl, hi⟩, mid⟩ | ⟨u, p, rfl, ⟨prev, count, closed, found, rfl, hc, hl⟩, mid⟩⟩ := h
  · refine ⟨u, _, rfl, mid.same, ?_, fun hb => ⟨mid.cq hb, List.length_eq_zero_iff.1 (mid.bb hb)⟩,
      mid.same.fault.trans hf, mid.same.mode.trans hm, mid.tap, hi⟩
    unfold TrackerOk
    rw [State.progress_tap, mid.tap]
    rfl
  · refine ⟨u, _, rfl, mid.same, ?_, fun hb => ⟨mid.cq hb, List.length_eq_zero_iff.1 (mid.bb hb)⟩,
      mid.same.fault.trans hf, mid.same.mode.trans hm, mid.tap, hc, hl⟩
    unfold TrackerOk
    rw [State.progress_tap, mid.tap]
    rfl

/-- Every end of a JTAG instruction keeps the invariant. -/
theorem inv_endJ {i : Instr} {s u : State} {r : Res Value} (inv : Inv s) (idle : Idle s)
    (h : EndJ s (InLoop s) (fun _ => JtagDone i s) r u) : Inv (conclude (r, u)) := by
  obtain ⟨hf, hp⟩ := idle
  have buffers := inv.buffers hf
  cases h with
  | ok h =>
    exact inv_conclude (h.tracker inv.tracker) (fun _ => h.buffers buffers) (h.lengths inv.lengths) (h.selection inv.selection)
      (queueOk_congr h.sq h.par h.mode inv.queue) (.inl (h.prog.trans hp))
  | lost h hb => exact inv_lost inv hp h (hb buffers)
  | err _ h ht _ hb =>
    have k := KeepsSession.of_same h.toSame
    exact inv_conclude (ht inv.tracker) (fun _ => hb buffers) (k.lengths inv.lengths) (k.selection inv.selection)
      (queueOk_congr h.sq h.par h.mode inv.queue) (.inl (h.prog.trans hp))
  | halt h ht =>
    have k := KeepsSession.of_same h.toSame
    exact inv_conclude (ht inv.tracker) (fun hr => absurd rfl (hr _)) (k.lengths inv.lengths) (k.selection inv.selection)
      (queueOk_congr h.sq h.par h.mode inv.queue) (.inl (h.prog.trans hp))
  | running loop =>
    obtain ⟨v, p, rfl, h, tracker, hb, progress⟩ := inLoop_stands loop hf
    have k := KeepsSession.of_same h.toSame
    exact inv_conclude tracker (fun _ => hb buffers) (k.lengths inv.lengths) (k.selection inv.selection)
      (queueOk_congr (s := s) h.sq h.par h.mode inv.queue) (.inr ⟨rfl, progress⟩)

/-- Every end of a JTAG instruction adds only legal frames. -/
theorem grows_endJ {i : Instr} {s u : State} {r : Res Value} (h : EndJ s (InLoop s) (fun _ => JtagDone i s) r u) :
    Grows s u := by
  cases h with
  | ok h => exact h.grows
  | lost h => exact h.grows
  | err _ h => exact h.grows
  | halt h => exact h.grows
  | running loop =>
    obtain ⟨v, p, rfl, h⟩ := inLoop_same loop
    exact h.grows

/-- Every end of a JTAG operation of the interface, but for a model fault and a loop in progress, settles the tracker. -/
theorem settled_endJ {i : Instr} {s u : State} {r : Res Value} (hi : isOperation i = true) (tracker : TrackerOk s)
    (h : EndJ s (InLoop s) (fun _ => JtagDone i s) r u) (hf : (conclude (r, u)).fault = none)
    (hp : (conclude (r, u)).prog = none) : TrackerSettled (conclude (r, u)) := by
  cases h with
  | ok h => exact h.settled hi tracker
  | lost h => exact .inr (show 1 < u.tap.length by rw [h.tap]; decide)
  | err _ _ _ hs => exact hs tracker
  | halt => simp [conclude] at hf
  | running loop => exact absurd hp (inLoop_keepsRun loop).2

/-- Every end of an SWD instruction keeps the invariant and adds only legal frames. -/
theorem inv_endS {s u : State} {r : Res Value} (inv : Inv s) (idle : Idle s) (h : EndS s (fun _ u => DoneS s u) r u) :
    Inv (conclude (r, u)) ∧ Grows s u := by
  obtain ⟨hf, hp⟩ := idle
  have kept {r : Res Value} (hr : r ≠ .running) (h : SameS s u) (hq : QueueOk u) : Inv (conclude (r, u)) ∧ Grows s u := by
    have k := KeepsSession.of_same h.toSame
    refine ⟨inv_conclude ?_ (fun _ => ⟨h.cq.trans (inv.buffers hf).1, h.bb.trans (inv.buffers hf).2⟩) (k.lengths inv.lengths)
      (k.selection inv.selection) hq (.inl (h.prog.trans hp)), h.grows⟩
    unfold TrackerOk
    rw [h.tap]
    exact inv.tracker
  cases h with
  | ok h => exact kept (by simp) h.1 h.2
  | lost h hb => exact ⟨inv_lost inv hp h (hb.trans (inv.buffers hf).2), h.grows⟩
  | err _ h hq => exact kept (by simp) h hq
  | halt h hq => exact kept (by simp) h hq

/-! ### The inits and select_target -/

/-- What an init leaves where its frame is answered: an unknown tracker and empty queues, and the descriptor (R180, R210). -/
structure InitReady (s t : State) : Prop where
  kept : KeepsRun s t
  prog : t.prog = s.prog
  taps : t.taps = s.taps
  sel : t.sel = s.sel
  irPre : t.irPre = s.irPre
  irPos : t.irPos = s.irPos
  pre : t.pre = s.pre
  pos : t.pos = s.pos
  tap : t.tap = TapState.all
  cq : t.cq = []
  bb : t.bb = []
  sq : t.sq = []
  hist : t.hist = s.hist

theorem initReady_jtag (speed : Byte) (s : State) : InitReady s (s.jtagReady speed) :=
  ⟨⟨rfl, rfl, rfl, rfl, rfl, .of_eq rfl⟩, rfl, rfl, rfl, rfl, rfl, rfl, rfl, rfl, rfl, rfl, rfl, rfl⟩

theorem initReady_swd (speed : Byte) (s : State) : InitReady s (s.swdReady speed) :=
  ⟨⟨rfl, rfl, rfl, rfl, rfl, .of_eq rfl⟩, rfl, rfl, rfl, rfl, rfl, rfl, rfl, rfl, rfl, rfl, rfl, rfl⟩

theorem inv_init {f : List Byte} (legal : frameLegal f = true) {ready : State → State} (h : ∀ t, InitReady t (ready t))
    {s : State} (inv : Inv s) (idle : Idle s) :
    let x := Act.bind (initExchange f) (fun _ => Act.bind (Act.change ready) fun _ => Act.ret Value.unit) s
    Inv (conclude x) ∧ Grows s x.2 := by
  rcases init_ends legal ready s with ⟨t, hs, -, e⟩ | ⟨l, t, hl, hb, e⟩ <;> rw [e]
  · have k := KeepsSession.of_same hs.toSame
    have g := h t
    refine ⟨inv_conclude (trackerOk_all g.tap) (fun _ => ⟨g.cq, g.bb⟩) (lengthsOk_congr g.taps (k.lengths inv.lengths))
      (selectionOk_congr g.taps g.sel g.irPre g.irPos g.pre g.pos (k.selection inv.selection)) (queueOk_nil g.sq)
      (.inl (g.prog.trans (hs.prog.trans idle.2))), hs.grows.trans (.of_eq g.hist)⟩
  · exact ⟨inv_lost inv idle.2 hl (hb.trans (inv.buffers idle.1).2), hl.grows⟩

/-- An init leaves an unknown tracker, answered or not. -/
theorem init_tap {f : List Byte} (legal : frameLegal f = true) {ready : State → State} (h : ∀ t, InitReady t (ready t))
    (s : State) :
    (conclude (Act.bind (initExchange f) (fun _ => Act.bind (Act.change ready) fun _ => Act.ret Value.unit) s)).tap
      = TapState.all := by
  rcases init_ends legal ready s with ⟨t, -, -, e⟩ | ⟨l, t, hl, -, e⟩ <;> rw [e]
  · exact (h t).tap
  · exact hl.tap

/-- A TAP selected has the counts of its index (R29, R30, R184). -/
theorem selectTap_selectionOk {s : State} {index : Nat} (h : index < s.taps.length) : SelectionOk (s.selectTap index) := by
  refine ⟨h, rfl, rfl, rfl, ?_⟩
  simp only [State.selectTap_pre, State.selectTap_pos, State.selectTap_taps]
  omega

theorem inv_selectTarget (index : Nat) {s : State} (inv : Inv s) (idle : Idle s) :
    Inv (conclude (selectTarget index s)) ∧ Grows s (selectTarget index s).2 := by
  have buffers := inv.buffers idle.1
  rcases selectTarget_cases index s with ⟨-, e⟩ | ⟨h, e⟩ <;> rw [e]
  · exact ⟨inv_conclude inv.tracker (fun _ => buffers) inv.lengths inv.selection inv.queue (.inl idle.2), .of_eq rfl⟩
  · exact ⟨inv_conclude inv.tracker (fun _ => buffers) inv.lengths (selectTap_selectionOk h) inv.queue (.inl idle.2), .of_eq rfl⟩

/-! ### A discovery in progress -/

/-- A discovery that goes on from its shift state ends as the instruction that started it does. -/
theorem resumeLoop_ends {p : Progress} {s : State} (hp : s.prog = some p) (h : ProgressOk s) :
    ∃ i, isOperation i = true ∧ EndJ (s.progress none) (InLoop (s.progress none)) (fun _ => JtagDone i (s.progress none))
      (resumeLoop p s).1 (resumeLoop p s).2 := by
  unfold ProgressOk at h
  rw [hp] at h
  have start := mid_refl (s.progress none)
  cases p with
  | chain ids =>
    obtain ⟨-, hm, ht, hi⟩ := h
    rw [show (s.progress none).tap = [.shDR] from ht] at start
    refine ⟨.discoverChain, rfl, (end_chainLoop rfl _ ids hi start (.inl rfl)).mono (fun _ h => ?_) fun h => ⟨hm, .inl h⟩⟩
    exact .of_doneD h.1 (.inr rfl) (lengthsOk_congr h.2) fun _ => h.2
  | irLengths prev count closed found =>
    obtain ⟨-, hm, ht, hc, hl⟩ := h
    rw [show (s.progress none).tap = [.shIR] from ht] at start
    refine ⟨.discoverIrLengths, rfl, (end_irLoop _ prev count closed found hc hl start).mono (fun _ h => ?_)
      fun h => ⟨hm, .inr h⟩⟩
    exact .of_doneD h.1 (.inl rfl) (fun _ => h.2) fun hne => absurd rfl hne

theorem progressOk_tracker {p : Progress} {s : State} (hp : s.prog = some p) (h : ProgressOk s) : TrackerOk (s.progress none) := by
  unfold ProgressOk at h
  rw [hp] at h
  unfold TrackerOk
  cases p with
  | chain => rw [State.progress_tap, h.2.2.1]; rfl
  | irLengths => rw [State.progress_tap, h.2.2.1]; rfl

/-- The invariant does not depend on the loop's variables. -/
theorem inv_progress_none {s : State} (inv : Inv s) : Inv (s.progress none) :=
  ⟨inv.tracker, inv.buffers, inv.lengths, inv.selection, inv.queue, trivial⟩

/-! ### Every instruction, and every step -/

theorem conclude_grows {s t u : State} {r : Res Value} (h : Grows s u) (e : t = conclude (r, u)) : Grows s t :=
  h.trans (.of_eq (by rw [e, conclude_hist]))

theorem exec_inv {i : Instr} {s t : State} (inv : Inv s) (h : exec i s = .next t) : Inv t ∧ Grows s t := by
  have jtag (hc : classOf i = .clock ∨ classOf i = .scan) : Inv t ∧ Grows s t := by
    rw [exec_eq_operate, operate_eq_next] at h
    have ends := jtag_ends hc s
    exact ⟨h.2 ▸ inv_endJ inv h.1 ends, conclude_grows (grows_endJ ends) h.2⟩
  have swd (hc : classOf i = .queue ∨ classOf i = .standalone) : Inv t ∧ Grows s t := by
    obtain ⟨body, e, ends⟩ := swd_ends inv.queue hc
    rw [e, operate_eq_next] at h
    obtain ⟨kept, grows⟩ := inv_endS inv h.1 ends
    exact ⟨h.2 ▸ kept, conclude_grows grows h.2⟩
  have init {f : List Byte} (legal : frameLegal f = true) {ready : State → State} (hr : ∀ t, InitReady t (ready t))
      (e : exec i s = operate (Act.bind (initExchange f) fun _ => Act.bind (Act.change ready) fun _ => Act.ret .unit) s) :
      Inv t ∧ Grows s t := by
    rw [e, operate_eq_next] at h
    obtain ⟨kept, grows⟩ := inv_init legal hr inv h.1
    exact ⟨h.2 ▸ kept, conclude_grows grows h.2⟩
  cases i with
  | d0 speed | jtagInit speed => exact init (frameD0_legal speed) (initReady_jtag speed) rfl
  | e5 speed | swdInit speed => exact init (frameE5_legal speed) (initReady_swd speed) rfl
  | selectTarget index =>
    rw [exec_eq_operate, operate_eq_next] at h
    obtain ⟨kept, grows⟩ := inv_selectTarget index inv h.1
    exact ⟨h.2 ▸ kept, conclude_grows grows h.2⟩
  | d2 | resetAndIdle => exact jtag (.inl rfl)
  | discoverChain | discoverIrLengths | writeIr | writeDr | accessRegister => exact jtag (.inr rfl)
  | push | flush | take => exact swd (.inl rfl)
  | e8 | a1 | a2 | a0 | swdReset | jtagToSwd | swdIdle | readRegister | writeRegister => exact swd (.inr rfl)

theorem step_inv {s t : State} (inv : Inv s) (h : step s = .next t) : Inv t ∧ Grows s t := by
  rcases step_next h with ⟨p, hf, hp, rfl⟩ | ⟨i, h⟩
  · obtain ⟨i, -, ends⟩ := resumeLoop_ends hp inv.progress
    have grows : Grows (s.progress none) (resumeLoop p s).2 := grows_endJ ends
    exact ⟨inv_endJ (inv_progress_none inv) ⟨hf, rfl⟩ ends, conclude_grows (s := s) grows rfl⟩
  · exact exec_inv inv h

/-! ### The obligations -/

/-- Settles O54: each way an instruction, or a discovery in progress, can end keeps each part of the invariant. -/
theorem invKept : Obligations.InvKept := fun _ _ inv h => (step_inv inv h).1

/-- Settles O55: the frames that a step adds are legal, so all are. -/
theorem framesStayLegal : Obligations.FramesStayLegal := by
  intro s t inv legal h f hf
  obtain ⟨es, e, -, new⟩ := (step_inv inv h).2
  rw [e] at hf
  exact (List.mem_append.1 hf).elim (legal f) (new f)

/-- Settles O57: the JTAG operations leave {RTI} or the full set, an init the full set, and the SWD operations the tracker, or, where
a transfer fails, the full set. -/
theorem trackerStaysSettled : Obligations.TrackerStaysSettled := by
  refine ⟨fun i s t hi tracker settled h hf hp => ?_, fun s t progress running h hf hp => ?_⟩
  · have all {u : State} (h : u.tap = TapState.all) : TrackerSettled u := .inr (by rw [h]; decide)
    have same {u : State} (h : u.tap = s.tap) : TrackerSettled u := by unfold TrackerSettled; rw [h]; exact settled
    have jtag (hc : classOf i = .clock ∨ classOf i = .scan) : TrackerSettled t := by
      rw [exec_eq_operate, operate_eq_next] at h
      obtain ⟨-, rfl⟩ := h
      exact settled_endJ hi tracker (jtag_ends hc s) hf hp
    have swd (hc : classOf i = .queue ∨ classOf i = .standalone) : TrackerSettled t := by
      obtain ⟨body, e, ends⟩ := exec_endingSwd hc s
      rw [e, operate_eq_next] at h
      obtain ⟨-, rfl⟩ := h
      generalize body s = x at ends
      obtain ⟨r, u⟩ := x
      obtain ⟨results, pc, fault, e⟩ := conclude_changes r u
      rw [e]
      cases ends with
      | kept _ _ h => exact same h.tap
      | lost h => exact all h.tap
    cases i with
    | jtagInit speed => exact all ((operate_eq_next.1 h).2 ▸ init_tap (frameD0_legal speed) (initReady_jtag speed) s)
    | swdInit speed => exact all ((operate_eq_next.1 h).2 ▸ init_tap (frameE5_legal speed) (initReady_swd speed) s)
    | selectTarget index =>
      rw [(operate_eq_next.1 h).2]
      rcases selectTarget_cases index s with ⟨-, e⟩ | ⟨-, e⟩ <;> rw [e] <;> exact same rfl
    | resetAndIdle => exact jtag (.inl rfl)
    | discoverChain | discoverIrLengths | writeIr | writeDr | accessRegister => exact jtag (.inr rfl)
    | push | flush | take => exact swd (.inl rfl)
    | swdReset | jtagToSwd | swdIdle | readRegister | writeRegister => exact swd (.inr rfl)
    | d0 | d2 | e5 | e8 | a1 | a2 | a0 => cases hi
  · rcases step_next h with ⟨p, -, hsp, rfl⟩ | ⟨i, h⟩
    · obtain ⟨i, hi, ends⟩ := resumeLoop_ends hsp progress
      exact settled_endJ hi (progressOk_tracker hsp progress) ends hf hp
    · exact absurd (exec_next h).1.2 running

end Sys2Proof.Proofs
end

section
/-! PROOFS. The link and the flushes: short reads are gathered (R142), every answer is possible (R57, R69), and a flush is all or
nothing on the buffers (R73, R166, R217). -/

namespace Sys2Proof.Proofs

open Sys2Proof.Machine Sys2Proof.Laws

/-! ### Gathering -/

/-- Pieces that make up what is asked for, the last of them not empty, are all taken and nothing after them is (R142). -/
theorem gather_pieces {pieces : List (List Byte)} (rest : List RxDraw) (got : List Byte)
    (last : ∀ p, pieces.getLast? = some p → p ≠ []) :
    gather (pieces.map .bytes ++ rest) pieces.flatten.length got = .full (got ++ pieces.flatten) rest := by
  induction pieces generalizing got with
  | nil => cases rest <;> simp [gather]
  | cons p pieces ih =>
    have ih := ih (got ++ p) fun q hq => last q (by
      obtain ⟨ys, rfl⟩ := List.getLast?_eq_some_iff.1 hq
      rw [← List.cons_append, List.getLast?_concat])
    have asked : (p :: pieces).flatten.length ≠ 0 := fun h => by
      obtain ⟨q, hq⟩ : ∃ q, (p :: pieces).getLast? = some q := ⟨_, List.getLast?_eq_some_getLast (by simp)⟩
      have := List.flatten_eq_nil_iff.1 (List.length_eq_zero_iff.1 h) q (List.mem_of_getLast? hq)
      exact last q hq this
    obtain ⟨n, hn⟩ := Nat.exists_eq_succ_of_ne_zero asked
    have taken : p.take (n + 1) = p := List.take_of_length_le (by simp at hn; omega)
    rw [hn, List.map_cons, List.cons_append, gather, taken]
    simp at hn
    rw [show n + 1 - p.length = pieces.flatten.length by simp; omega, ih]
    simp

/-- A read that fails before all the bytes have come fails the whole (R142). -/
theorem gather_failed {pieces : List (List Byte)} (k : FailKind) (rest : List RxDraw) {n : Nat} (got : List Byte)
    (short : pieces.flatten.length < n) : gather (pieces.map .bytes ++ .fail k :: rest) n got = .failed k rest := by
  induction pieces generalizing got n with
  | nil =>
    obtain ⟨n, rfl⟩ := Nat.exists_eq_succ_of_ne_zero (by omega : n ≠ 0)
    rfl
  | cons p pieces ih =>
    simp at short
    obtain ⟨n, rfl⟩ := Nat.exists_eq_succ_of_ne_zero (by omega : n ≠ 0)
    have taken : p.take (n + 1) = p := List.take_of_length_le (by omega)
    rw [List.map_cons, List.cons_append, gather, taken]
    exact ih _ (by simp; omega)

/-! ### Any answer -/

/-- An environment whose next write succeeds and whose next reads are scripted, with nothing of the port known. -/
def scripted (rx : List RxDraw) : Env :=
  { tx := [.ok], rx := rx, draws := 0, target := none, inbox := [], swd := .unknown, asked := [] }

theorem linkWrite_scripted (s : State) (f : List Byte) (rx : List RxDraw) :
    linkWrite f { s with env := scripted rx }
      = (none, { s with hist := s.hist ++ [.out f], env := { scripted rx with tx := [], asked := askedBy f } }) := by
  have port : portAfter f .unknown = .unknown := by unfold portAfter; split <;> rfl
  simp [linkWrite, drawWrite, scripted, performed, Env.reference, State.traffic, port]

/-- Where the write succeeds, the answer is the scripted bytes that R65 leaves as they are. -/
theorem answered_scripted (s : State) (f a : List Byte) (free : (boundAnswer s.link (askedBy f) .unknown a).2 = a) :
    answered [(f, a)] { s with env := scripted [.bytes a] } = true := by
  have drawn : ∃ rest, gather [.bytes a] a.length [] = .full a rest := by
    cases a with
    | nil => exact ⟨_, rfl⟩
    | cons b bs => exact ⟨[], by simpa using gather_pieces (pieces := [b :: bs]) [] [] (by simp)⟩
  obtain ⟨rest, hg⟩ := drawn
  have read : drawRead { scripted [.bytes a] with tx := [], asked := askedBy f } a.length
      = (.ok a, { scripted [.bytes a] with tx := [], asked := askedBy f, rx := rest, inbox := [] }) := by
    simp only [drawRead, scripted] at hg ⊢
    rw [hg]
  refine answered_single ?_
  rw [xfer, exchange, linkWrite_scripted]
  simp only [linkRead, recordRead, read]
  simpa [scripted] using free

/-! ### What a flush appends -/

theorem parseSlices_length {gs : List Subcmd} {bytes : List Byte} {rs : List SResult} (h : parseSlices gs bytes = some rs) :
    rs.length = gs.length := by
  induction gs generalizing bytes rs with
  | nil => cases h; rfl
  | cons g gs ih =>
    rw [parseSlices] at h
    split at h
    · next hs => cases h; simp [ih hs]
    · cases h

/-! ### The obligations -/

/-- Settles O17: the pieces that the gathering takes, and the failure it stops at. -/
theorem shortReads : Obligations.ShortReads := by
  intro s pieces rest
  refine ⟨fun last hrx => ?_, fun k n short hrx => ?_⟩
  · intro answer
    refine ⟨?_, boundAnswer_length .., fun none => by simp only [answer, none, boundAnswer_nil]⟩
    have hg := gather_pieces rest [] last
    rw [← hrx, List.nil_append] at hg
    simp only [linkRead, drawRead, hg, recordRead]
    rfl
  · have hg := gather_failed k rest [] short
    rw [← hrx] at hg
    simp only [linkRead, drawRead, hg, recordRead]
    rfl

/-- Settles O16: a script for each outcome. -/
theorem anyAnswerPossible : Obligations.AnyAnswerPossible := by
  intro s f
  refine ⟨fun a free => ⟨_, answered_scripted s f a free⟩, fun unbound a => ⟨_, answered_scripted s f a (boundAnswer_free unbound _ _)⟩,
    fun n k => ⟨{ scripted [] with tx := [.fail k] }, rfl, rfl⟩, fun n k hn => ⟨scripted [.fail k], ?_⟩⟩
  obtain ⟨n, rfl⟩ := Nat.exists_eq_succ_of_ne_zero (by omega : n ≠ 0)
  have read : drawRead { scripted [.fail k] with tx := [], asked := askedBy f } (n + 1)
      = (.error k, { scripted [.fail k] with tx := [], asked := askedBy f, rx := [], inbox := [] }) := rfl
  rw [xfer, exchange, linkWrite_scripted]
  simp [linkRead, recordRead, read]

/-- Settles O18: every end of each flush. -/
theorem flushAllOrNothing : Obligations.FlushAllOrNothing := by
  refine ⟨fun s t r h fails => ?_, fun s t h => ?_, fun s t r h fails => ?_, fun s t h => ?_⟩
  · rcases jtagFlush_cases s with ⟨_, e⟩ | ⟨_, _, e⟩ | ⟨_, _, l, env, e⟩ | ⟨_, _, a, env, _, _, e⟩ | ⟨_, _, a, env, _, _, e⟩ <;>
      rw [e] at h <;> cases h
    · exact absurd rfl fails
    · rfl
    · rfl
    · rfl
    · exact absurd rfl fails
  · rcases jtagFlush_cases s with ⟨h0, e⟩ | ⟨_, _, e⟩ | ⟨_, _, l, env, e⟩ | ⟨_, _, a, env, _, _, e⟩ | ⟨_, _, a, env, hl, _, e⟩ <;>
      rw [e] at h <;> cases h
    · exact ⟨h0, [], by simp, by simp [h0]⟩
    · exact ⟨rfl, _, rfl, capturedBits_length _ (by simp [hl])⟩
  · rcases flushBatch_cases s with ⟨_, e⟩ | ⟨_, _, e⟩ | ⟨_, _, l, env, e⟩ | ⟨_, _, a, env, _, _, e⟩ | ⟨_, _, a, env, rs, _, _, _, e⟩ <;>
      rw [e] at h <;> cases h
    · rfl
    · exact absurd rfl fails
    · rfl
    · rfl
    · exact absurd rfl fails
  · rcases flushBatch_cases s with ⟨_, e⟩ | ⟨_, h0, e⟩ | ⟨_, _, l, env, e⟩ | ⟨_, _, a, env, _, _, e⟩ | ⟨_, _, a, env, rs, _, _, hp, e⟩ <;>
      rw [e] at h <;> cases h
    · exact ⟨h0, [], by simp, by simp [h0]⟩
    · exact ⟨rfl, rs, rfl, parseSlices_length hp⟩

end Sys2Proof.Proofs
end

section
/-! PROOFS. Where the JTAG instructions, the inits and select_target complete, and with what (42_jtag_ops.md), but for the discovery
operations. -/

namespace Sys2Proof.Proofs

open Sys2Proof.Machine Sys2Proof.Laws

/-! ### The inits and select_target -/

theorem exec_jtagInit_of_answered {speed : Byte} {a : List Byte} {s : State} (idle : Idle s)
    (h : initAnswered (frameD0 speed) a s = true) :
    operate (jtagInit speed) s = .next (((s.initExchanged (frameD0 speed) a).jtagReady speed).returned (.ok .unit)) := by
  rw [operate_of_idle idle, jtagInit, bind_of_ok (initExchange_of_answered h)]
  rfl

theorem exec_swdInit_of_answered {speed : Byte} {a : List Byte} {s : State} (idle : Idle s)
    (h : initAnswered (frameE5 speed) a s = true) :
    operate (swdInit speed) s = .next (((s.initExchanged (frameE5 speed) a).swdReady speed).returned (.ok .unit)) := by
  rw [operate_of_idle idle, swdInit, bind_of_ok (initExchange_of_answered h)]
  rfl

/-! ### An access -/

/-- The result of a capture (R189), as its two fields decide it. -/
theorem conclude_accessResult (c : BitVec 35) (s : State) :
    conclude (accessResult c s) = s.returned
      (if c.extractLsb' 0 3 = 2 then .ok (.word (c.extractLsb' 3 32)) else .err (.accessFault (c.extractLsb' 0 3))) := by
  have test : jtagAckIsOk (jtagAck c) = true ↔ c.extractLsb' 0 3 = 2 := beq_iff_eq
  by_cases ok : c.extractLsb' 0 3 = 2
  · rw [accessResult, if_pos (test.2 ok), if_pos ok]
    rfl
  · rw [accessResult, if_neg (ok ∘ test.1), if_neg ok]
    rfl

/-! ### Clock units that the environment answers -/

/-- A D2 frame by itself is the frame of its units (R103). -/
theorem clocks_captured (units : List WireUnit) : clocks (units.map WireUnit.captured) = frameD2 units := by
  rw [clocks, List.map_map, show ClockUnit.wire ∘ WireUnit.captured = id from rfl, List.map_id]

theorem drain_all {s : State} {bits : List Bool} {n : Nat} (h : s.bb = bits) (len : bits.length = n) :
    drain n s = (.ok bits, { s with bb := [] }) := by
  rw [drain_apply, State.drained, h, List.take_of_length_le (by omega), List.drop_of_length_le (by omega)]

/-! ### The obligations -/

/-- Settles O20: the init exchange, and what the init leaves after it. -/
theorem initsComplete : Obligations.InitsComplete := fun _ _ _ idle =>
  ⟨fun h => ⟨exec_jtagInit_of_answered idle h, exec_jtagInit_of_answered idle h⟩,
    fun h => ⟨exec_swdInit_of_answered idle h, exec_swdInit_of_answered idle h⟩⟩

/-- Settles O21: its units take every legal tracker to {RTI}, and none is captured. -/
theorem resetAndIdleCompletes : Obligations.ResetAndIdleCompletes := by
  intro samples s f idle buffers tracker mode fits len answer
  have frame : f = clocks resetUnits := rfl
  have flush := emit_flush_answered (us := resetUnits) buffers.1 (by decide) len fits (frame ▸ answer)
  rw [deltaSeq_reset tracker, capturedBits_none _ _ (by decide), List.append_nil] at flush
  rw [exec_eq_operate, operate_of_idle idle, bodyOf, resetAndIdle, bind_of_ok (requireJtag_of mode), bind_emits,
    bind_of_ok flush]
  rfl

/-- Settles O22: one scan of each family. -/
theorem scansComplete : Obligations.ScansComplete := by
  intro value length before data after s ⟨idle, buffers, mode, tap⟩ pos max len
  refine ⟨fun hb ha fits answer => ?_, fun hb ha fits answer => ?_⟩
  · rw [exec_eq_operate, operate_of_idle idle, bodyOf,
      bind_of_ok (scan_answered (kind := .ir) mode tap buffers pos max hb len ha fits answer)]
    rfl
  · rw [exec_eq_operate, operate_of_idle idle, bodyOf,
      bind_of_ok (scan_answered (kind := .dr) mode tap buffers pos max hb len ha fits answer)]
    rfl

/-- Settles O23: both size checks pass, the IR scan and the DR scan are answered, and the capture decides. -/
theorem accessRegisterCompletes : Obligations.AccessRegisterCompletes := by
  intro addr value irSamples before data after s ⟨idle, buffers, mode, tap⟩ bit0 bit1 hir hb hd ha fitsIr fitsDr ir talk c answer
  have hai : (accessIr addr).zeroExtend 64 = ir := by cases addr <;> rfl
  obtain ⟨first, second, -⟩ := answered_cons answer
  have fits (kind : ScanKind) (v : BitVec 64) (n : Nat)
      (h : Fits s (2 * (entryLength kind + s.leading kind + n + s.trailing kind + 2))) :
      Fits s (2 * (scanUnits kind v n (s.leading kind) (s.trailing kind)).length) := by rwa [scanUnits_length]
  obtain ⟨bits, scanned⟩ : ∃ bits, scan .ir ir 4 s
      = (.ok bits, s.exchanged [(clocks (scanUnits .ir ir 4 s.irPre s.irPos), clockAnswer irSamples)]) := scan_answered_whole (kind := .ir) (value := ir) (n := 4) mode tap buffers (by omega) (by omega)
    (by rw [scanUnits_length]; exact hir) (fits .ir ir 4 fitsIr) (answered_single first)
  rw [exec_eq_operate, operate_of_idle idle, bodyOf, accessRegister, bind_of_ok (requireIdle_of mode tap),
    bind_faultIf_pass (by simp only [aligned, bit0, bit1]; rfl), bind_of_ok (scanFits_pass ir (fits .ir ir 4 fitsIr)),
    bind_of_ok (scanFits_pass 0 (fits .dr 0 Config.drAccBits fitsDr)), hai, bind_of_ok scanned,
    bind_of_ok (scan_answered (kind := .dr) (n := Config.drAccBits) (s := s.exchanged _) mode tap buffers (by decide) (by decide) hb hd ha fitsDr second),
    conclude_accessResult, exchanged_cons answer]
  rfl

/-- Settles O28: -/
theorem selectTargetCompletes : Obligations.SelectTargetCompletes := by
  intro before after len s idle taps
  rw [exec_eq_operate, operate_of_idle idle, bodyOf]
  rcases selectTarget_cases before.length s with ⟨h, -⟩ | ⟨-, e⟩
  · simp [taps] at h
  · have drop : s.taps.drop (before.length + 1) = after := by simp [taps]
    have take : s.taps.take before.length = before := by simp [taps]
    have count : s.taps.length - 1 - before.length = after.length := by simp [taps]
    rw [e, State.selectTap, drop, take, count]
    rfl

/-- Settles O29: -/
theorem clockBatchCompletes : Obligations.ClockBatchCompletes := by
  intro units samples s idle buffers mode some fits len answer
  rw [← clocks_captured] at answer ⊢
  have flush := emit_flush_answered (us := units.map WireUnit.captured) buffers.1
    (by simpa using List.length_pos_iff.1 some) (by simpa using len) (by simpa using fits) answer
  have captured := capturedBits_all s.par.tdoBit (us := units.map WireUnit.captured) (as := samples) (by simp [len])
    (by simp [WireUnit.captured])
  rw [buffers.2, List.nil_append, captured] at flush
  have tms : (units.map WireUnit.captured).map ClockUnit.tms = units.map WireUnit.tms := by simp [WireUnit.captured]
  rw [exec_eq_operate, operate_of_idle idle, bodyOf, clockBatch, bind_of_ok (requireJtag_of mode), bind_emits,
    bind_of_ok flush, bind_of_ok (drain_all (bits := samples.map s.tdoOf) rfl (by simp [len])), tms]
  simp only [State.exchanged, buffers.2]
  rfl

/-- Settles O39: -/
theorem indexOutOfRange : Obligations.IndexOutOfRange := by
  intro index s idle h
  rw [exec_eq_operate, operate_of_idle idle, bodyOf]
  rcases selectTarget_cases index s with ⟨-, e⟩ | ⟨h', -⟩
  · rw [e]
    rfl
  · omega

end Sys2Proof.Proofs
end

section
/-! PROOFS. The step (R37, R70): what it runs, where it stops, and the state after reset. -/

namespace Sys2Proof.Proofs

open Sys2Proof.Machine Sys2Proof.Laws

/-! ### What a step looks at -/

theorem step_ended {s : State} (h : Idle s) (ended : s.calls[s.pc]? = none) : step s = .fault .runEnded := by
  simp only [step, h.1, h.2, fetch, ended]

theorem step_undecodable {s : State} {bytes : List Byte} {r : Reject} (h : Idle s) (fetched : s.calls[s.pc]? = some bytes)
    (bad : decode bytes = .error r) : step s = .refused (.undecodable r) := by
  simp only [step, h.1, h.2, fetch, fetched, bad]

theorem step_decoded {s : State} {bytes : List Byte} {i : Instr} (h : Idle s) (fetched : s.calls[s.pc]? = some bytes)
    (good : decode bytes = .ok i) : step s = exec i s := by
  simp only [step, h.1, h.2, fetch, fetched, good]

/-- An instruction is never out of fuel (log 10). -/
theorem exec_ne_outOfFuel (i : Instr) (s : State) : exec i s ≠ .fault .outOfFuel := by
  rw [exec_eq_operate, operate]
  split
  · simp
  · split <;> simp

/-- A step is out of fuel where the discovery in progress may scan nothing more, and only there. -/
theorem step_outOfFuel_iff {s : State} (hf : s.fault = none) :
    step s = .fault .outOfFuel ↔ ∃ p, s.prog = some p ∧ s.fuel p = 0 := by
  cases hp : s.prog with
  | none =>
    have idle : Idle s := ⟨hf, hp⟩
    cases fetched : s.calls[s.pc]? with
    | none => simp [step_ended idle fetched]
    | some bytes =>
      cases decoded : decode bytes with
      | error r => simp [step_undecodable idle fetched decoded]
      | ok i => simp [step_decoded idle fetched decoded, exec_ne_outOfFuel]
  | some p => simp [step, hf, hp]

/-! ### The obligations -/

/-- Settles O47: the bytes of an encoding decode to the instruction. -/
theorem stepRunsDecodedInstruction : Obligations.StepRunsDecodedInstruction := by
  intro s bytes i idle fetched
  exact ⟨step_decoded idle fetched, fun wf e => step_decoded idle fetched (e ▸ decodeEncodeAgree i wf)⟩

/-- Settles O48: the fuel left is 0 exactly where a bound is given and all of it is scanned. -/
theorem stepStops : Obligations.StepStops := by
  refine ⟨fun s idle => ⟨fun ended => step_ended idle (List.getElem?_eq_none ended),
    fun bytes r fetched bad => step_undecodable idle fetched bad⟩, fun s n hf => ⟨fun ids hp bound => ?_,
    fun prev count closed found hp bound => ?_⟩, fun s noWords noBits h => ?_⟩
  · rw [step_outOfFuel_iff hf]
    simp [hp, State.fuel, State.chainFuel, fuelLeft_eq_zero, bound]
  · rw [step_outOfFuel_iff hf]
    simp [hp, State.fuel, State.irFuel, fuelLeft_eq_zero, bound]
  · cases hf : s.fault with
    | some f => rw [step_of_fault hf] at h; cases h
    | none =>
      obtain ⟨p, -, empty⟩ := (step_outOfFuel_iff hf).1 h
      cases p with
      | chain ids => simp [State.fuel, State.chainFuel, fuelLeft_eq_zero, noWords] at empty
      | irLengths prev count closed found => simp [State.fuel, State.irFuel, fuelLeft_eq_zero, noBits] at empty

/-- Settles O53: each field as it is written; nothing is queued, selected or in progress. -/
theorem resetMeetsInvariants : Obligations.ResetMeetsInvariants := by
  refine ⟨⟨rfl, rfl, rfl, mem_all, rfl, rfl, rfl, rfl, rfl, rfl, rfl, rfl, rfl, rfl, rfl, rfl, rfl, rfl, rfl, rfl, rfl, rfl, rfl⟩,
    ⟨trackerOk_all rfl, fun _ => ⟨rfl, rfl⟩, by simp [LengthsOk, State.reset], selectionOk_none rfl rfl rfl rfl rfl,
      queueOk_nil rfl, trivial⟩, by simp [FramesLegal, State.reset], rfl⟩

end Sys2Proof.Proofs
end

section
/-! PROOFS. The two discovery operations, started and resumed, where the environment answers (R182, R183). -/

namespace Sys2Proof.Proofs

open Sys2Proof.Machine Sys2Proof.Laws

/-! ### How a discovery starts, and how it ends -/

/-- A state after the exchange that carries the entry of a discovery, in its shift state. -/
def entered (s : State) (x : Exchange) (T : List TapState) : State := { s.exchanged [x] with tap := T }

/-- What comes after the entry does not see the tracker. -/
theorem answered_entered {f a : List Byte} {talk : List Exchange} {s : State} (T : List TapState)
    (h : answered ((f, a) :: talk) s = true) :
    answered [(f, a)] s = true ∧ answered talk (entered s (f, a) T) = true
      ∧ (entered s (f, a) T).exchanged talk = { s.exchanged ((f, a) :: talk) with tap := T } := by
  obtain ⟨first, rest, -⟩ := answered_cons h
  exact ⟨answered_single first, by rw [entered, answered_tap]; exact rest, by rw [entered, exchanged_tap, exchanged_cons h]⟩

/-- After its first word discover_chain is at the end of the scan, or in the loop of R182 with one word less to scan. -/
theorem discoverChain_started {entry first : List Byte} {s : State} (ready : JtagReady s) (he : entry.length = 3)
    (hl : first.length = 32) (fits : Fits s 70)
    (ha : answered [(clocks (enterShiftDR ++ wordUnits), clockAnswer (entry ++ first))] s = true) :
    discoverChain s
      = (if wordOf s first = 0xFFFFFFFF then chainEnd [] else chainLoop (s.chainFuel 0 - 1) [wordOf s first])
        (entered s (clocks (enterShiftDR ++ wordUnits), clockAnswer (entry ++ first)) [.shDR]) := by
  have fuel : (s.emitAll enterShiftDR).chainFuel 0 = (s.chainFuel 0 - 1) + 1 := by
    have := chainFuel_pos s
    rw [emitAll_chainFuel]
    omega
  rw [discoverChain, bind_of_ok (requireIdle_of ready.2.2.1 ready.2.2.2), bind_emits, fuel, chainLoop,
    bind_of_ok (chainFirst_answered ready he hl fits ha)]
  rfl

/-- After its first bit discover_ir_lengths is in the loop of R183. -/
theorem discoverIrLengths_started {entry : List Byte} {first : Byte} {s : State} (ready : JtagReady s)
    (he : entry.length = 4) (fits : Fits s 10)
    (ha : answered [(clocks (enterShiftIR ++ bitUnits), clockAnswer (entry ++ [first]))] s = true) :
    discoverIrLengths s = irLoop (s.irFuel 0 - 1) (s.tdoOf first) 1 false []
      (entered s (clocks (enterShiftIR ++ bitUnits), clockAnswer (entry ++ [first])) [.shIR]) := by
  obtain ⟨-, buffers, mode, tap⟩ := ready
  have same : SameEnv s (s.emitAll enterShiftIR) := ⟨by simp, by simp, by simp⟩
  have shift : (s.emitAll enterShiftIR).tap = [.shIR] := by simp [tap]; decide
  have bit := irBit_answered (s := s.emitAll enterShiftIR) (entry := enterShiftIR) (before := entry) (b := first)
    (by simp [buffers.1]) (by simp [buffers.2]) shift (by decide) he (show Fits _ 10 by simpa [Fits] using fits)
    (by rw [answered_congr _ same]; exact ha)
  have env := envAfter_congr [(clocks (enterShiftIR ++ bitUnits), clockAnswer (entry ++ [first]))] same
  have left : ({ (s.emitAll enterShiftIR).exchanged [(clocks (enterShiftIR ++ bitUnits), clockAnswer (entry ++ [first]))]
      with cq := [] } : State)
      = entered s (clocks (enterShiftIR ++ bitUnits), clockAnswer (entry ++ [first])) [.shIR] := by
    simp only [entered, State.exchanged, env, ← shift]
    simp only [State.emitAll_eq, buffers.1]
  rw [left, show (s.emitAll enterShiftIR).tdoOf first = s.tdoOf first by simp [State.tdoOf]] at bit
  rw [discoverIrLengths, bind_of_ok (requireIdle_of mode tap), bind_emits, bind_of_ok bit]
  rfl

/-- The end of a chain scan (R182). -/
theorem chainEnd_answered {ids : List Word} {exit : List Byte} {s : State} (cq : s.cq = []) (tap : s.tap = [.shDR])
    (hx : exit.length = 3) (fits : Fits s 6) (ha : answered [(clocks leaveShift, clockAnswer exit)] s = true) :
    chainEnd ids s = (.ok (.ids ids), { s.exchanged [(clocks leaveShift, clockAnswer exit)] with
      tap := [.rti], sel := none, irPre := 0, irPos := 0, pre := 0, pos := 0 }) := by
  rw [chainEnd, bind_emits, bind_of_ok (leave_answered cq (.inl tap) hx fits ha)]
  rfl

/-- discover_chain, where the answers hold the terminator among the words that one step scans. -/
theorem discoverChain_ends {entry exit first : List Byte} {blocks : List (List Byte)} {ids : List Word} {s : State}
    (ready : JtagReady s) (he : entry.length = 3) (hx : exit.length = 3) (hb : ∀ b ∈ first :: blocks, b.length = 32)
    (hw : (first :: blocks).map (wordOf s) = ids ++ [0xFFFFFFFF]) (hi : ∀ w ∈ ids, w ≠ 0xFFFFFFFF)
    (hn : ids.length < s.chainFuel 0) (fits : Fits s 70)
    (ha : answered ((clocks (enterShiftDR ++ wordUnits), clockAnswer (entry ++ first))
      :: (wordTalk blocks ++ [(clocks leaveShift, clockAnswer exit)])) s = true) :
    discoverChain s = (.ok (.ids ids),
      { s.exchanged ((clocks (enterShiftDR ++ wordUnits), clockAnswer (entry ++ first))
          :: (wordTalk blocks ++ [(clocks leaveShift, clockAnswer exit)])) with
        sel := none, irPre := 0, irPos := 0, pre := 0, pos := 0 }) := by
  obtain ⟨first_ok, rest_ok, talked⟩ := answered_entered [.shDR] ha
  rw [discoverChain_started ready he (hb _ (by simp)) fits first_ok]
  obtain ⟨-, buffers, -, tap⟩ := ready
  cases ids with
  | nil =>
    obtain ⟨last, rfl⟩ : wordOf s first = 0xFFFFFFFF ∧ blocks = [] := by simpa using hw
    rw [if_pos last, chainEnd_answered (s := entered s _ _) buffers.1 rfl hx (fits_mono fits (by omega)) rest_ok]
    simp only [wordTalk, List.map_nil, List.nil_append] at talked ⊢
    rw [talked, ← tap]
    rfl
  | cons w ids =>
    obtain ⟨rfl, later⟩ : wordOf s first = w ∧ blocks.map (wordOf s) = ids ++ [0xFFFFFFFF] := by simpa using hw
    rw [if_neg (hi _ (by simp)), chainLoop_answered (s := entered s _ _) buffers.1 buffers.2 rfl
      (fun b h => hb b (by simp [h])) hx later (fun w h => hi w (by simp [h])) (by simp at hn; omega)
      (fits_mono fits (by omega)) rest_ok, talked, ← tap]
    rfl

/-- discover_ir_lengths, where the captured bits that one step scans end the loop. -/
theorem discoverIrLengths_ends {entry exit samples : List Byte} {first : Byte} {found : List Nat} {s : State}
    (ready : JtagReady s) (he : entry.length = 4) (hx : exit.length = 3)
    (hw : irWalk (s.tdoOf first) 1 false [] (samples.map s.tdoOf) = some found) (hn : samples.length < s.irFuel 0)
    (fits : Fits s 10)
    (ha : answered ((clocks (enterShiftIR ++ bitUnits), clockAnswer (entry ++ [first]))
      :: (bitTalk samples ++ [(clocks leaveShift, clockAnswer exit)])) s = true) :
    discoverIrLengths s = (.ok (.lengths found),
      { s.exchanged ((clocks (enterShiftIR ++ bitUnits), clockAnswer (entry ++ [first]))
          :: (bitTalk samples ++ [(clocks leaveShift, clockAnswer exit)])) with
        taps := found, sel := none, irPre := 0, irPos := 0, pre := 0, pos := 0 }) := by
  obtain ⟨first_ok, rest_ok, talked⟩ := answered_entered [.shIR] ha
  rw [discoverIrLengths_started ready he fits first_ok]
  obtain ⟨-, buffers, -, tap⟩ := ready
  rw [irLoop_answered (s := entered s _ _) buffers.1 buffers.2 rfl hx hw (by omega) (fits_mono fits (by omega)) rest_ok,
    talked, ← tap]
  rfl

/-! ### R183's loop over the captures of a chain -/

/-- After the first TAP's 1, the loop closes one boundary at each later TAP, and ends at the ones after the last. -/
theorem irWalk_chain (l : Nat) (lengths found : List Nat) (closed : Bool) (first : 2 ≤ l) (rest : ∀ n ∈ lengths, 2 ≤ n) :
    irWalk true 1 closed found
      (List.replicate (l - 1) false ++ (lengths.flatMap (fun n => true :: List.replicate (n - 1) false) ++ [true, true]))
      = some (found ++ l :: lengths) := by
  have zeros : ¬ l - 1 = 0 := by omega
  rw [irWalk_zeros, if_neg zeros, show 1 + (l - 1) = l by omega]
  induction lengths generalizing l found closed with
  | nil => simp [irWalk]
  | cons n lengths ih =>
    have more : 2 ≤ n := rest n (by simp)
    have zeros' : ¬ n - 1 = 0 := by omega
    rw [List.flatMap_cons, List.cons_append, List.cons_append, irWalk, List.append_assoc, irWalk_zeros, if_neg zeros',
      show 1 + (n - 1) = n by omega, ih n (found ++ [l]) true more (fun m h => rest m (by simp [h])) zeros',
      List.append_assoc, List.singleton_append]

/-! ### Loops without their end, and the steps that resume them -/

/-- The step that starts a chain scan and does not end it. -/
theorem discoverChain_goesOn {entry first : List Byte} {blocks : List (List Byte)} {s : State} (ready : JtagReady s)
    (he : entry.length = 3) (hb : ∀ b ∈ first :: blocks, b.length = 32) (hn : blocks.length + 1 = s.chainFuel 0)
    (fits : Fits s 70) (hw : ∀ w ∈ (first :: blocks).map (wordOf s), w ≠ 0xFFFFFFFF)
    (ha : answered ((clocks (enterShiftDR ++ wordUnits), clockAnswer (entry ++ first)) :: wordTalk blocks) s = true) :
    discoverChain s = (.running,
      { s.exchanged ((clocks (enterShiftDR ++ wordUnits), clockAnswer (entry ++ first)) :: wordTalk blocks) with
        tap := [.shDR], prog := some (.chain ((first :: blocks).map (wordOf s))) }) := by
  obtain ⟨first_ok, rest_ok, talked⟩ := answered_entered [.shDR] ha
  rw [discoverChain_started ready he (hb _ (by simp)) fits first_ok, if_neg (hw _ (by simp)),
    chainLoop_goesOn (s := entered s _ _) ready.2.1.1 ready.2.1.2 rfl (fun b h => hb b (by simp [h]))
      (fun w h => hw w (List.mem_cons_of_mem _ h)) (by omega) (fits_mono fits (by omega)) rest_ok, talked]
  rfl

/-- The step that starts an IR scan and does not end it. -/
theorem discoverIrLengths_goesOn {entry : List Byte} {first : Byte} {samples : List Byte} {p : Progress} {s : State}
    (ready : JtagReady s) (he : entry.length = 4) (hn : samples.length + 1 = s.irFuel 0) (fits : Fits s 10)
    (hw : irWalkOn (s.tdoOf first) 1 false [] (samples.map s.tdoOf) = some p)
    (ha : answered ((clocks (enterShiftIR ++ bitUnits), clockAnswer (entry ++ [first])) :: bitTalk samples) s = true) :
    discoverIrLengths s = (.running,
      { s.exchanged ((clocks (enterShiftIR ++ bitUnits), clockAnswer (entry ++ [first])) :: bitTalk samples) with
        tap := [.shIR], prog := some p }) := by
  obtain ⟨prev, count, closed, found, rfl⟩ := irWalkOn_kind hw
  obtain ⟨first_ok, rest_ok, talked⟩ := answered_entered [.shIR] ha
  rw [discoverIrLengths_started ready he fits first_ok,
    show s.irFuel 0 - 1 = samples.length + 0 by omega,
    irLoop_skip (s := entered s _ _) 0 ready.2.1.1 ready.2.1.2 rfl hw (fun _ => fits_mono fits (by omega)) rest_ok, talked]
  rfl

/-- A step with a discovery in progress that may scan something, as the loop it resumes. -/
theorem step_chain {s : State} {old : List Word} {n : Nat} (fault : s.fault = none) (prog : s.prog = some (.chain old))
    (fuel : s.chainFuel old.length = n) (pos : 0 < n) :
    step s = .next (conclude (chainLoop n old (s.progress none))) := by
  subst fuel
  exact step_resumed fault prog pos

theorem step_irLengths {s : State} {prev closed : Bool} {count n : Nat} {old : List Nat} (fault : s.fault = none)
    (prog : s.prog = some (.irLengths prev count closed old)) (fuel : s.irFuel (old.sum + count) = n) (pos : 0 < n) :
    step s = .next (conclude (irLoop n prev count closed old (s.progress none))) := by
  subst fuel
  exact step_resumed fault prog pos

theorem answered_progress (s : State) (p : Option Progress) (talk : List Exchange) :
    answered talk (s.progress p) = answered talk s := answered_congr talk ⟨rfl, rfl, rfl⟩

theorem exchanged_progress (s : State) (p : Option Progress) (talk : List Exchange) :
    (s.progress p).exchanged talk = (s.exchanged talk).progress p := exchanged_prog s p talk

/-! ### The obligations -/

/-- Settles O24: the first word carries the entry; the terminator is it, or comes in the loop. -/
theorem discoverChainCompletes : Obligations.DiscoverChainCompletes := by
  intro entry exit first blocks ids s ready he hx hb hw hi hn fits word talk ha
  rw [exec_eq_operate, operate_of_idle ready.1, bodyOf, discoverChain_ends ready he hx hb hw hi hn fits ha]
  rfl

/-- Settles O25: the first bit carries the entry, and the loop goes over the others to its end. -/
theorem discoverIrLengthsCompletes : Obligations.DiscoverIrLengthsCompletes := by
  intro entry exit first samples found s ready he hx hw hn fits bit talk ha
  rw [exec_eq_operate, operate_of_idle ready.1, bodyOf, discoverIrLengths_ends ready he hx hw hn fits ha]
  rfl

/-- Settles O26: by induction over the TAPs after the first. -/
theorem irCaptureGivesLengths : Obligations.IrCaptureGivesLengths := by
  intro l lengths h
  rw [List.append_assoc]
  exact irWalk_chain l lengths [] false (h l (by simp)) fun n hn => h n (by simp [hn])

/-- Settles O27: a loop that has used up what it may scan keeps its variables, and a step resumes it with them. -/
theorem discoveryGoesOn : Obligations.DiscoveryGoesOn := by
  refine ⟨?_, ?_, ?_, ?_, ?_, ?_⟩
  · intro entry first blocks s ready he hb hn fits ids talk hw ha
    rw [exec_eq_operate, operate_of_idle ready.1, bodyOf, discoverChain_goesOn ready he hb hn fits hw ha]
    rfl
  · intro blocks exit old ids s fault prog buffers tap hb hx hw hi hn fits talk ha
    rw [step_chain fault prog rfl (by omega), chainLoop_answered (s := s.progress none) buffers.1 buffers.2 tap hb hx hw hi hn fits
      (by rw [answered_progress]; exact ha), exchanged_progress]
    rfl
  · intro blocks old s fault prog buffers tap ne hb hn fits hw ha
    rw [step_chain fault prog hn.symm (List.length_pos_iff.2 ne), chainLoop_goesOn (s := s.progress none) buffers.1 buffers.2 tap hb hw rfl fits
      (by rw [answered_progress]; exact ha), exchanged_progress]
    rfl
  · intro entry first samples p s ready he hn fits hw talk ha
    rw [exec_eq_operate, operate_of_idle ready.1, bodyOf, discoverIrLengths_goesOn ready he hn fits hw ha]
    rfl
  · intro samples exit prev count closed old found s fault prog buffers tap hx hw hn fits talk ha
    have pos : 0 < samples.length := by
      cases samples with
      | nil => cases hw
      | cons b samples => simp
    rw [step_irLengths fault prog rfl (by omega), irLoop_answered (s := s.progress none) buffers.1 buffers.2 tap hx hw hn fits
      (by rw [answered_progress]; exact ha), exchanged_progress]
    rfl
  · intro samples prev count closed old p s fault prog buffers tap ne hw hn fits ha
    obtain ⟨prev', count', closed', found, rfl⟩ := irWalkOn_kind hw
    rw [step_irLengths fault prog hn.symm (List.length_pos_iff.2 ne), ← Nat.add_zero samples.length,
      irLoop_skip (s := s.progress none) 0 buffers.1 buffers.2 tap hw (fun _ => fits) (by rw [answered_progress]; exact ha), exchanged_progress]
    rfl

end Sys2Proof.Proofs
end

section
/-! PROOFS. Where the SWD operations complete, and with what (43_swd.md). -/

namespace Sys2Proof.Proofs

open Sys2Proof.Machine Sys2Proof.Laws

/-! ### An instruction that is a batch of its own -/

/-- An instruction that is a batch, where the batch is answered: what it makes of the results, with the line state moved. -/
theorem exec_of_batch_answered {i : Instr} {gs : List Subcmd} {k : List SResult → Act Value} {slices : List (List Byte)}
    {rs : List SResult} {s : State} (body : bodyOf i = Act.bind (batch gs) k) (ready : SwdReady s) (ne : gs ≠ [])
    (ok : ∀ g ∈ gs, subAligned g = true ∧ subLengthOk g = true) (fits : Fits s (batchPayload gs).length)
    (len : slices.length = gs.length) (parses : List.zipWith parseSlice gs slices = rs.map some)
    (short : slices.flatten.length ≤ 0xFFFF) (answer : answered [(frameE8 gs, batchAnswer slices)] s = true) :
    exec i s = .next (conclude (k rs
      { s.exchanged [(frameE8 gs, batchAnswer slices)] with link := lineAfter s.link gs })) := by
  rw [exec_eq_operate, operate_of_idle ready.1, body,
    bind_of_ok (batch_answered ready ne ok fits len parses short answer)]

/-- A batch of one. -/
theorem exec_of_single_answered {i : Instr} {g : Subcmd} {k : List SResult → Act Value} {slice : List Byte} {r : SResult}
    {s : State} (body : bodyOf i = Act.bind (single g) k) (ready : SwdReady s) (aligned : subAligned g = true)
    (length : subLengthOk g = true) (fits : Fits s (encodeSub g).length) (parses : parseSlice g slice = some r)
    (answer : answered [(frameE8 [g], batchAnswer [slice])] s = true) :
    exec i s = .next (conclude (k [r]
      { s.exchanged [(frameE8 [g], batchAnswer [slice])] with link := lineNext s.link g })) := by
  have short : [slice].flatten.length ≤ 0xFFFF := by
    have := (parseSlices_flatten (gs := [g]) (slices := [slice]) (rs := [r]) rfl (by simp [parses])).2
    rw [this]
    cases g <;> simp [answerTotal, answerLength]
  exact exec_of_batch_answered body ready (by simp) (by simp [aligned, length]) (by simpa [batchPayload] using fits) rfl
    (by simp [parses]) short answer

theorem aligned_of_bits {off : Byte} (bit0 : off.getLsbD 0 = false) (bit1 : off.getLsbD 1 = false) : aligned off = true := by
  rw [aligned, bit0, bit1]
  rfl

theorem regOf_off (off : Byte) (isAp : Bool) : (regOf off isAp).off = off := by
  cases isAp <;> rfl

theorem pushSub_of_fits {g : Subcmd} {s : State} (mode : s.mode = .swd) (aligned : subAligned g = true)
    (length : subLengthOk g = true) (fits : Fits s (batchPayload (s.sq ++ [g])).length) :
    pushSub g s = (.ok (), s.queued g) := by
  rcases pushSub_cases g s with h | h | h | h | h
  · exact absurd mode h.1
  · simp [aligned] at h
  · simp [length] at h
  · simp [overflows_of_fits fits] at h
  · exact h.2.2.2.2

/-! ### The line sequences -/

theorem lineNext_lineReset (l : LineState) : lineNext l lineResetSeq = .lineReset := by
  cases l <;> decide

theorem lineNext_idle (l : LineState) : lineNext l idleSeq = if l = .unknown then .unknown else .ready := by
  cases l <;> decide

/-! ### The results of the register operations -/

/-- What read_register makes of its one result (R223). -/
theorem readResult_of_slice (ab d0 d1 d2 d3 : Byte) (s : State) :
    conclude (readResult [if swdAck ab = 1 then .readOk (ofLe32 d0 d1 d2 d3) else .ackErr (swdAck ab)] s)
      = s.returned
        (if ab &&& 7 = 1 then .ok (.word (d3 ++ d2 ++ d1 ++ d0)) else .err (.accessFault (ab.extractLsb' 0 3))) := by
  have test : swdAck ab = 1 ↔ ab &&& 7 = 1 := swdAckIsOk_eq_true.symm.trans (swdAckIsOk_iff ab)
  by_cases ok : ab &&& 7 = 1
  · rw [if_pos (test.2 ok), if_pos ok]
    rfl
  · rw [if_neg (ok ∘ test.1), if_neg ok]
    rfl

/-- What write_register makes of its one result (R224). -/
theorem writeResult_of_slice (ab : Byte) (s : State) :
    conclude (writeResult [if swdAck ab = 1 then .writeOk else .ackErr (swdAck ab)] s)
      = s.returned (if ab &&& 7 = 1 then .ok .unit else .err (.accessFault (ab.extractLsb' 0 3))) := by
  have test : swdAck ab = 1 ↔ ab &&& 7 = 1 := swdAckIsOk_eq_true.symm.trans (swdAckIsOk_iff ab)
  by_cases ok : ab &&& 7 = 1
  · rw [if_pos (test.2 ok), if_pos ok]
    rfl
  · rw [if_neg (ok ∘ test.1), if_neg ok]
    rfl

theorem frameE8_registerRead (addr : RegAddr) :
    frameE8 [.registerRead addr] = [0xE8, 0x04, 0x00, 0xA2, 0x22, 0x00, header addr true] := by
  simp [frameE8, batchPayload, encodeSub, le16]

theorem frameE8_registerWrite (addr : RegAddr) (data : Word) :
    frameE8 [.registerWrite addr data] = [0xE8, 0x09, 0x00] ++ encodeSub (.registerWrite addr data) := by
  simp [frameE8, batchPayload, encodeSub, le16, le32]

theorem batchAnswer_registerRead (ab d0 d1 d2 d3 pb : Byte) :
    batchAnswer [[0xA2, ab, d0, d1, d2, d3, pb]] = [0xE8, 0x07, 0x00, 0xA2, ab, d0, d1, d2, d3, pb] := by
  simp [batchAnswer, le16]

theorem batchAnswer_registerWrite (ab : Byte) : batchAnswer [[0xA0, ab]] = [0xE8, 0x02, 0x00, 0xA0, ab] := by
  simp [batchAnswer, le16]

/-! ### The obligations -/

/-- Settles O30: push and take by themselves, and flush on an empty and on a full queue. -/
theorem batchInterfaceCompletes : Obligations.BatchInterfaceCompletes := by
  intro s idle mode
  refine ⟨fun g aligned length fits => ?_, fun empty => ?_, fun slices rs ne len parses short answer => ?_, ?_⟩
  · rw [exec_eq_operate, operate_of_idle idle, bodyOf, bind_of_ok (pushSub_of_fits mode aligned length fits)]
    rfl
  · have flush : flushBatch s = (.ok (), s) := by
      rw [flushBatch, bind_of_ok (requireSwd_of mode), empty]
      rfl
    rw [exec_eq_operate, operate_of_idle idle, bodyOf, bind_of_ok flush]
    rfl
  · rw [exec_eq_operate, operate_of_idle idle, bodyOf, bind_of_ok (flushBatch_answered mode ne len parses short answer)]
    rfl
  · rw [exec_eq_operate, operate_of_idle idle, bodyOf, bind_of_ok (takeResults_of mode)]
    rfl

/-- Settles O31: each is a batch of raw sequences, every one answered by 0xA1. -/
theorem lineOperationsComplete : Obligations.LineOperationsComplete := by
  intro s ready
  refine ⟨?_, ?_, ?_⟩
  · intro x fits answer
    rw [exec_of_single_answered (i := .swdReset) (slice := [0xA1]) (r := .rawOk) rfl ready rfl rfl fits rfl answer,
      lineNext_lineReset]
    rfl
  · intro x fits answer
    rw [exec_of_batch_answered (i := .jtagToSwd) (slices := [[0xA1], [0xA1], [0xA1]]) (rs := [.rawOk, .rawOk, .rawOk]) rfl
      ready (by simp) (by decide) fits rfl rfl (by decide) answer]
    simp only [lineAfter, List.foldl, lineNext_lineReset]
    rfl
  · intro x fits answer
    rw [exec_of_single_answered (i := .swdIdle) (slice := [0xA1]) (r := .rawOk) rfl ready rfl rfl fits rfl answer,
      lineNext_idle]
    rfl

/-- Settles O32: each is a batch of one register access, whose ack byte decides. -/
theorem registerOperationsComplete : Obligations.RegisterOperationsComplete := by
  intro off isAp data ab d0 d1 d2 d3 pb s ready bit0 bit1
  have al : aligned (regOf off isAp).off = true := by rw [regOf_off, aligned_of_bits bit0 bit1]
  refine ⟨?_, ?_⟩
  · intro x fits answer
    have frames : x = (frameE8 [.registerRead (regOf off isAp)], batchAnswer [[0xA2, ab, d0, d1, d2, d3, pb]]) := by
      rw [frameE8_registerRead, batchAnswer_registerRead]
      rfl
    rw [frames] at answer ⊢
    rw [exec_of_single_answered (i := .readRegister off isAp) rfl ready al rfl fits
      (parseSlice_registerRead _ ab d0 d1 d2 d3 pb) answer, readResult_of_slice]
    rfl
  · intro x fits answer
    have frames : x = (frameE8 [.registerWrite (regOf off isAp) data], batchAnswer [[0xA0, ab]]) := by
      rw [frameE8_registerWrite, batchAnswer_registerWrite]
      rfl
    rw [frames] at answer ⊢
    rw [exec_of_single_answered (i := .writeRegister off isAp data) rfl ready al rfl fits
      (parseSlice_registerWrite _ data ab) answer, writeResult_of_slice]
    rfl

/-- Settles O33: an E8 frame is a batch; a subcommand by itself is a batch of one. -/
theorem batchFramesComplete : Obligations.BatchFramesComplete := by
  refine ⟨fun subs slices rs s ready ne ok fits len parses short answer => ?_,
    fun g slice r s ready aligned length fits parses answer => ?_⟩
  · rw [exec_of_batch_answered (i := .e8 subs) rfl ready ne ok fits len parses short answer]
    rfl
  · cases g with
    | rawSequence nbits bytes =>
      exact exec_of_single_answered (i := .a1 nbits bytes) rfl ready aligned length fits parses answer
    | registerRead addr => exact exec_of_single_answered (i := .a2 addr) rfl ready aligned length fits parses answer
    | registerWrite addr data => exact exec_of_single_answered (i := .a0 addr data) rfl ready aligned length fits parses answer

end Sys2Proof.Proofs
end

section
/-! PROOFS. Which checks come before anything is sent, and the fault of each (R305, R307 to R310, R313). -/

namespace Sys2Proof.Proofs

open Sys2Proof.Machine Sys2Proof.Laws

/-! ### An instruction whose operation sets a model fault at once -/

theorem exec_of_halt {i : Instr} {s : State} {f : ModelFault} (idle : Idle s) (h : bodyOf i s = (.halt f, s)) :
    exec i s = .next { s with fault := some f } := by
  rw [exec_eq_operate, operate_of_idle idle, h]
  rfl

/-- A clock batch begins with the mode check. -/
theorem bodyOf_clock {i : Instr} {s : State} {f : ModelFault} (class_ : classOf i = .clock)
    (h : requireJtag s = (.halt f, s)) : bodyOf i s = (.halt f, s) := by
  cases i <;> simp only [classOf, reduceCtorEq] at class_ <;> exact bind_of_halt h

/-- A scan begins with the checks of mode and tracker. -/
theorem bodyOf_scan {i : Instr} {s : State} {f : ModelFault} (class_ : classOf i = .scan)
    (h : requireIdle s = (.halt f, s)) : bodyOf i s = (.halt f, s) := by
  cases i <;> simp only [classOf, reduceCtorEq] at class_
  case writeIr => exact bind_of_halt (bind_of_halt h)
  case writeDr => exact bind_of_halt (bind_of_halt h)
  all_goals exact bind_of_halt h

/-- An operation on the batch queue begins with the mode check. -/
theorem bodyOf_queue {i : Instr} {s : State} {f : ModelFault} (class_ : classOf i = .queue)
    (h : requireSwd s = (.halt f, s)) : bodyOf i s = (.halt f, s) := by
  cases i <;> simp only [classOf, reduceCtorEq] at class_ <;> exact bind_of_halt (bind_of_halt h)

theorem bodyOf_batch {i : Instr} {s : State} {f : ModelFault} (class_ : classOf i = .standalone)
    (h : batch (batchOf i) s = (.halt f, s)) : bodyOf i s = (.halt f, s) := by
  obtain ⟨k, body⟩ := bodyOf_standalone class_
  rw [body, bind_of_halt h]

theorem requireIdle_of_mode {s : State} (h : s.mode ≠ .jtag) : requireIdle s = (.halt .modeViolation, s) :=
  bind_of_halt (requireJtag_fault h)

theorem requireIdle_of_tap {s : State} (mode : s.mode = .jtag) (h : s.tap ≠ [.rti]) :
    requireIdle s = (.halt .tapStateViolation, s) := by
  rcases requireIdle_cases s with ⟨-, tap, -⟩ | ⟨other, -⟩ | ⟨-, -, e⟩
  · exact absurd tap h
  · exact absurd mode other
  · exact e

/-! ### Argument checks -/

/-- A scan of no bits, or of more than 64 (R308). -/
theorem scan_of_length {kind : ScanKind} {value : BitVec 64} {n : Nat} {s : State} (mode : s.mode = .jtag)
    (tap : s.tap = [.rti]) (h : n = 0 ∨ 64 < n) : scan kind value n s = (.halt .invalidLength, s) := by
  have test : (decide (n < 1) || decide (64 < n)) = true := by
    simpa using h
  rw [scan, bind_of_ok (requireIdle_of mode tap), bind_faultIf_stop test]

/-- A raw sequence that push takes has bits, just the bytes for them, and no 1 after the last of them. -/
theorem rawAccepted_bit {nbits : BitVec 16} {bytes : List Byte} (h : rawAccepted nbits bytes = true) :
    nbits ≠ 0 ∧ bytes.length = (nbits.toNat + 7) / 8
      ∧ ∀ i, nbits.toNat ≤ i → i < 8 * bytes.length → (bytes.getD (i / 8) 0).getLsbD (i % 8) = false := by
  simp only [rawAccepted, Bool.and_eq_true, Bool.or_eq_true, bne_iff_ne, beq_iff_eq] at h
  obtain ⟨⟨some, len⟩, unused⟩ := h
  refine ⟨some, len, fun i low high => ?_⟩
  rcases unused with whole | unused
  · omega
  · have last : i / 8 = bytes.length - 1 := by omega
    have bit := congrArg (BitVec.getLsbD · (i % 8 - nbits.toNat % 8)) unused
    simp only [BitVec.getLsbD_ushiftRight, show nbits.toNat % 8 + (i % 8 - nbits.toNat % 8) = i % 8 by omega] at bit
    rw [last, List.getD_eq_getElem?_getD, ← List.getLast?_eq_getElem?, bit]
    exact BitVec.getLsbD_zero

theorem not_aligned {off : Byte} (h : off.getLsbD 0 = true ∨ off.getLsbD 1 = true) : aligned off = false := by
  rcases h with h | h <;> simp [aligned, h]

theorem pushSub_of_not_aligned {g : Subcmd} {s : State} (mode : s.mode = .swd) (h : subAligned g = false) :
    pushSub g s = (.halt .misalignedAddress, s) := by
  rw [pushSub, bind_of_ok (requireSwd_of mode), bind_faultIf_stop (by rw [h]; rfl)]

theorem pushSub_of_not_lengthOk {g : Subcmd} {s : State} (mode : s.mode = .swd) (aligned : subAligned g = true)
    (h : subLengthOk g = false) : pushSub g s = (.halt .invalidLength, s) := by
  rw [pushSub, bind_of_ok (requireSwd_of mode), bind_faultIf_pass (by rw [aligned]; rfl), bind_faultIf_stop (by rw [h]; rfl)]

/-- A batch of one whose push stops (R219). -/
theorem single_of_not_aligned {g : Subcmd} {s : State} (ready : SwdReady s) (h : subAligned g = false) :
    single g s = (.halt .misalignedAddress, s) := by
  obtain ⟨-, mode, sq, rq⟩ := ready
  rw [single, batch, bind_of_ok (requireSwd_of mode), bind_faultIf_pass (by simp [sq, rq])]
  exact bind_of_halt (bind_of_halt (pushSub_of_not_aligned mode h))

/-! ### The obligations -/

/-- Settles O41: every class but `init` and `select` begins with the check of its mode. -/
theorem modeViolation : Obligations.ModeViolation := by
  rintro i s idle (⟨class_ | class_, mode⟩ | ⟨class_ | class_, mode⟩)
  · exact exec_of_halt idle (bodyOf_clock class_ (requireJtag_fault mode))
  · exact exec_of_halt idle (bodyOf_scan class_ (requireIdle_of_mode mode))
  · exact exec_of_halt idle (bodyOf_queue class_ (requireSwd_fault mode))
  · rcases batch_cases (batchOf i) s with ⟨-, h⟩ | ⟨swd, -⟩ | ⟨swd, -⟩
    · exact exec_of_halt idle (bodyOf_batch class_ h)
    · exact absurd swd mode
    · exact absurd swd mode

/-- Settles O42: the state checks come right after the mode, before any operand is looked at. -/
theorem stateChecksFault : Obligations.StateChecksFault := by
  refine fun i s idle => ⟨fun class_ mode tap => ?_, fun class_ mode queued => ?_⟩
  · exact exec_of_halt idle (bodyOf_scan class_ (requireIdle_of_tap mode tap))
  · rcases batch_cases (batchOf i) s with ⟨other, -⟩ | ⟨-, -, h⟩ | ⟨-, sq, rq⟩
    · exact absurd mode other
    · exact exec_of_halt idle (bodyOf_batch class_ h)
    · exact absurd queued (by simp [sq, rq])

/-- Settles O43: of lengths a scan and a push check theirs, and of offsets an access and a push. -/
theorem argumentChecksFault : Obligations.ArgumentChecksFault := by
  refine ⟨?_, ?_, ?_, ?_, ?_⟩
  · intro value length s ⟨idle, _, mode, tap⟩ h
    exact ⟨exec_of_halt (i := .writeIr value length) idle (bind_of_halt (scan_of_length mode tap h)),
      exec_of_halt (i := .writeDr value length) idle (bind_of_halt (scan_of_length mode tap h))⟩
  · intro nbits bytes s idle mode h
    have refused : subLengthOk (.rawSequence nbits bytes) = false := by
      rw [subLengthOk, Bool.eq_false_iff]
      intro accepted
      obtain ⟨some, len, unused⟩ := rawAccepted_bit accepted
      rcases h with none | other | ⟨i, low, high, bit⟩
      · exact some none
      · exact other len
      · rw [unused i low high] at bit
        cases bit
    exact exec_of_halt (i := .push _) idle (bind_of_halt (pushSub_of_not_lengthOk mode rfl refused))
  · intro addr value s ⟨idle, _, mode, tap⟩ h
    refine exec_of_halt (i := .accessRegister addr value) idle ?_
    rw [bodyOf, accessRegister, bind_of_ok (requireIdle_of mode tap), bind_faultIf_stop (by rw [not_aligned h]; rfl)]
  · intro addr data s idle mode h
    exact ⟨exec_of_halt (i := .push _) idle (bind_of_halt (pushSub_of_not_aligned mode (not_aligned h))),
      exec_of_halt (i := .push _) idle (bind_of_halt (pushSub_of_not_aligned mode (not_aligned h)))⟩
  · intro off isAp data s ready h
    have misaligned : aligned (regOf off isAp).off = false := by rw [regOf_off, not_aligned h]
    exact ⟨exec_of_halt (i := .readRegister off isAp) ready.1 (bind_of_halt (single_of_not_aligned ready misaligned)),
      exec_of_halt (i := .writeRegister off isAp data) ready.1 (bind_of_halt (single_of_not_aligned ready misaligned))⟩

end Sys2Proof.Proofs
end

section
/-! PROOFS. Where a frame does not fit, a transfer fails, or an answer is malformed, the operation ends there (R301, R304, R306,
R313): once for the flush of each queue, and then for every instruction that comes to one. -/

namespace Sys2Proof.Proofs

open Sys2Proof.Machine Sys2Proof.Laws

/-! ### The header of an answer -/

theorem answerHeaderOk_of_bad {op : Byte} {n : Nat} {a : List Byte}
    (h : a.getD 0 0 ≠ op ∨ (a.getD 1 0).toNat + 256 * (a.getD 2 0).toNat ≠ n) : answerHeaderOk op n a = false := by
  rw [answerHeaderOk, Bool.and_eq_false_iff, beq_eq_false_iff_ne, beq_eq_false_iff_ne]
  exact h

/-! ### The clock queue's flush -/

theorem jtagFlush_of_not_fits {s : State} (ne : s.cq ≠ []) (big : ¬ Fits s (2 * s.cq.length)) :
    jtagFlush s = (.err (overflowError s.par (2 * s.cq.length)), s.overflowed) := by
  rw [jtagFlush, if_neg (mt List.length_eq_zero_iff.1 ne), if_pos (overflows_of_not_fits big)]

theorem jtagFlush_of_fits {s : State} (ne : s.cq ≠ []) (fits : Fits s (2 * s.cq.length)) :
    jtagFlush s = Act.bind (transferring (xfer (clocks s.cq) (3 + s.cq.length)))
      (fun a t =>
        if clockAnswerOk t.cq.length a then (.ok (), t.captured (capturedBits t.par.tdoBit t.cq (a.drop 3)))
        else (.halt .malformedResponse, t)) s := by
  rw [jtagFlush, if_neg (mt List.length_eq_zero_iff.1 ne), overflows_of_fits fits]
  rfl

theorem transferring_of_failure {x : State → Except LinkFail (List Byte) × State} {s t : State} {l : LinkFail}
    (h : x s = (.error l, t)) : transferring x s = (.err (.transport l), t.lose) := by
  rw [transferring, h]
  rfl

theorem transferring_of_answer {x : State → Except LinkFail (List Byte) × State} {s t : State} {a : List Byte}
    (h : x s = (.ok a, t)) : transferring x s = (.ok a, t) := by
  rw [transferring, h]

theorem jtagFlush_of_failure {s t : State} {l : LinkFail} (ne : s.cq ≠ []) (fits : Fits s (2 * s.cq.length))
    (h : xfer (clocks s.cq) (3 + s.cq.length) s = (.error l, t)) : jtagFlush s = (.err (.transport l), t.lose) := by
  rw [jtagFlush_of_fits ne fits, bind_of_err (transferring_of_failure h)]

theorem jtagFlush_of_malformed {s : State} {a : List Byte} (ne : s.cq ≠ []) (fits : Fits s (2 * s.cq.length))
    (len : a.length = 3 + s.cq.length) (answer : answered [(clocks s.cq, a)] s = true)
    (bad : clockAnswerOk s.cq.length a = false) :
    jtagFlush s = (.halt .malformedResponse, s.exchanged [(clocks s.cq, a)]) := by
  have x := xfer_of_answered answer
  rw [len] at x
  rw [jtagFlush_of_fits ne fits, bind_of_ok (transferring_of_answer x)]
  exact if_neg (by simp [State.exchanged, bad])

/-- The check of a scan's size does what the flush of the scan would. -/
theorem scanFits_of_not_fits {kind : ScanKind} {n : Nat} {s : State}
    (big : ¬ Fits s (2 * (entryLength kind + s.leading kind + n + s.trailing kind + 2))) :
    scanFits kind n s = (.err (overflowError s.par (2 * (entryLength kind + s.leading kind + n + s.trailing kind + 2))),
      s.overflowed) := by
  have size := scanSize_eq s kind 0 n
  rw [scanUnits_length] at size
  rw [scanFits, size, if_pos (overflows_of_not_fits big)]

/-! ### The next frame of a JTAG instruction -/

/-- The state in which the flush of the next frame stands: its units queued, after the exchanges so far. -/
def flushing (s : State) (talk : List Exchange) (T : List TapState) (us : List ClockUnit) : State :=
  { s.exchanged talk with cq := us, tap := deltaSeq T (us.map ClockUnit.tms), prog := none }

section
variable {s : State} {run : Run} {talk : List Exchange} {T : List TapState} {us : List ClockUnit}

theorem flushing_sameEnv : SameEnv (s.exchanged talk) (flushing s talk T us) := ⟨rfl, rfl, rfl⟩

/-- Where that flush stops, what runs stops. -/
theorem outcome_of_flushing {u : State} {x : Stop} (next : NextClocks s run talk T us) (done : Exchanged s talk)
    (h : jtagFlush (flushing s talk T us) = (x.res, u)) : run.outcome s = .next (conclude (x.res, u)) := by
  refine nextClocks_stops next done ?_
  have cq : s.cq = [] := (nextClocks_ready next).2.1
  rw [State.emitAll_eq]
  simp only [State.exchanged, cq, List.nil_append]
  exact h

end

/-! ### The batch queue's flush -/

theorem flushBatch_of_failure {s t : State} {l : LinkFail} (mode : s.mode = .swd) (ne : s.sq ≠ [])
    (h : xfer (frameE8 s.sq) (3 + answerTotal s.sq) s = (.error l, t)) :
    flushBatch s = (.err (.transport l), t.lose) := by
  rw [flushBatch, bind_of_ok (requireSwd_of mode), if_neg (mt List.length_eq_zero_iff.1 ne), bind_of_err (transferring_of_failure h)]

/-- An answer with a wrong first byte or length field, or with a slice that does not parse. -/
def BadBatchAnswer (gs : List Subcmd) (a : List Byte) : Prop :=
  a.getD 0 0 ≠ 0xE8 ∨ (a.getD 1 0).toNat + 256 * (a.getD 2 0).toNat ≠ answerTotal gs ∨ parseSlices gs (a.drop 3) = none

theorem flushBatch_of_malformed {s : State} {a : List Byte} (mode : s.mode = .swd) (ne : s.sq ≠ [])
    (len : a.length = 3 + answerTotal s.sq) (bad : BadBatchAnswer s.sq a) (answer : answered [(frameE8 s.sq, a)] s = true) :
    flushBatch s = (.halt .malformedResponse, s.exchanged [(frameE8 s.sq, a)]) := by
  have x := xfer_of_answered answer
  rw [len] at x
  have sq : (s.exchanged [(frameE8 s.sq, a)]).sq = s.sq := rfl
  rw [flushBatch, bind_of_ok (requireSwd_of mode), if_neg (mt List.length_eq_zero_iff.1 ne),
    bind_of_ok (transferring_of_answer x), sq]
  by_cases head : batchAnswerOk (answerTotal s.sq) a = true
  · have slices : parseSlices s.sq (a.drop 3) = none := by
      rcases bad with first | length | slices
      · rw [batchAnswerOk, answerHeaderOk_of_bad (.inl first)] at head
        cases head
      · rw [batchAnswerOk, answerHeaderOk_of_bad (.inr length)] at head
        cases head
      · exact slices
    rw [if_pos head, slices]
  · rw [if_neg head]

theorem pushSub_of_not_fits {g : Subcmd} {s : State} (mode : s.mode = .swd) (aligned : subAligned g = true)
    (length : subLengthOk g = true) (big : ¬ Fits s (batchPayload (s.sq ++ [g])).length) :
    pushSub g s = (.err (overflowError s.par (batchPayload (s.sq ++ [g])).length), s) := by
  rw [pushSub, bind_of_ok (requireSwd_of mode), bind_faultIf_pass (by rw [aligned]; rfl),
    bind_faultIf_pass (by rw [length]; rfl), if_pos (overflows_of_not_fits big)]

/-- Where the flush of its subcommands stops, an instruction that is a batch stops. -/
theorem exec_of_flush_stops {i : Instr} {s u : State} {x : Stop} (ready : SwdReady s) (ne : batchOf i ≠ [])
    (ok : Pushable (batchOf i)) (fits : Fits s (batchPayload (batchOf i)).length)
    (h : flushBatch { s with sq := batchOf i } = (x.res, u)) : exec i s = .next (conclude (x.res, u)) := by
  refine batch_stops ready.1 ne ?_
  rw [batch_flush ready ok fits, bind_of_stop h]

/-- Where a push of its subcommands does not fit, an instruction that is a batch ends, with the subcommands before it queued. -/
theorem batch_of_not_fits {before after : List Subcmd} {g : Subcmd} {s : State} (ready : SwdReady s)
    (ok : Pushable (before ++ [g])) (fits : Fits s (batchPayload before).length)
    (big : ¬ Fits s (batchPayload (before ++ [g])).length) :
    batch (before ++ g :: after) s
      = (.err (overflowError s.par (batchPayload (before ++ [g])).length), { s with sq := before }) := by
  obtain ⟨-, mode, sq, rq⟩ := ready
  have okBefore : Pushable before := fun b h => ok b (List.mem_append_left _ h)
  have pushed : pushAll before s = (.ok (), { s with sq := before }) := by
    have := pushAll_fits mode okBefore (by rw [sq]; exact fits)
    rwa [sq] at this
  have okG := ok g (by simp)
  have stop : pushSub g { s with sq := before }
      = (.err (overflowError s.par (batchPayload (before ++ [g])).length), { s with sq := before }) :=
    pushSub_of_not_fits mode okG.1 okG.2 big
  rw [batch, bind_of_ok (requireSwd_of mode), bind_faultIf_pass (by simp [sq, rq]), bind_of_err]
  rw [pushAll_append, bind_of_ok pushed, pushAll, bind_of_err stop]

/-! ### The init exchange -/

/-- A failed init exchange leaves the results and the position. -/
theorem exchange_keeps {f : List Byte} {s t : State} {l : LinkFail} (h : exchange f linkReadAny s = (.error l, t)) :
    t.results = s.results ∧ t.pc = s.pc := by
  have ended := transferring_of_failure h
  rcases initExchange_cases f s with ⟨a, e, other⟩ | ⟨k, e, lost⟩
  · rw [initExchange, ended] at other
    cases other
  · rw [initExchange, ended] at lost
    have results := congrArg (fun x => x.2.results) lost
    have pc := congrArg (fun x => x.2.pc) lost
    exact ⟨by simpa using results, by simpa using pc⟩

/-- An init whose exchange fails ends with that failure, whatever it would have left. -/
theorem operate_init_of_failure {f : List Byte} {k : List Byte → Act Value} {s t : State} {l : LinkFail} (idle : Idle s)
    (h : exchange f linkReadAny s = (.error l, t)) :
    operate (Act.bind (initExchange f) k) s
      = .next { t.lose with results := s.results ++ [.err (.transport l)], pc := s.pc + 1 } := by
  obtain ⟨results, pc⟩ := exchange_keeps h
  rw [operate_of_idle idle, initExchange, bind_of_err (transferring_of_failure h), ← results, ← pc]
  rfl

/-! ### The obligations -/

/-- Settles O37: each flush ends with the failure of its transfer, and the instruction with its flush. -/
theorem failedTransferEnds : Obligations.FailedTransferEnds := by
  refine ⟨?_, ?_, ?_, ?_⟩
  · intro s t run talk T us l next done fits h
    obtain ⟨left, failed⟩ := xfer_of_failure (flushing_sameEnv (T := T) (us := us)) h
    rw [outcome_of_flushing (x := .err (.transport l)) next done
      (jtagFlush_of_failure (nextClocks_ready next).1 fits failed), left]
    rfl
  · intro i s t l ready ne ok fits h
    obtain ⟨left, failed⟩ := xfer_of_failure (s := s) (s' := { s with sq := batchOf i }) ⟨rfl, rfl, rfl⟩ h
    rw [exec_of_flush_stops (x := .err (.transport l)) ready ne ok fits (flushBatch_of_failure ready.2.1 ne failed), left]
    rfl
  · intro speed s t l idle lost
    exact ⟨fun h => ⟨operate_init_of_failure idle h, operate_init_of_failure idle h⟩,
      fun h => ⟨operate_init_of_failure idle h, operate_init_of_failure idle h⟩⟩
  · intro s t l idle mode ne h
    obtain ⟨left, -⟩ := xfer_of_failure (s' := s) ⟨rfl, rfl, rfl⟩ h
    rw [exec_eq_operate, operate_of_idle idle, bodyOf, bind_of_err (flushBatch_of_failure mode ne h), left]
    rfl

/-- Settles O40: each flush and each push ends with the error of its check, and the instruction with it. -/
theorem bufferOverflow : Obligations.BufferOverflow := by
  refine ⟨?_, ?_, ?_, ?_⟩
  · intro s run talk T us next done big
    obtain ⟨ne, buffers⟩ := nextClocks_ready next
    rw [outcome_of_flushing (x := .err _) next done (jtagFlush_of_not_fits ne big)]
    simp only [conclude, State.returned, State.overflowed, flushing, Stop.res, ← buffers.1]
    rfl
  · intro addr value s start fitsIr bigDr
    have ir : scanFits .ir 4 s = (.ok (), s) := scanFits_pass 0 (by rwa [scanUnits_length])
    have dr := scanFits_of_not_fits (kind := .dr) (n := Config.drAccBits) bigDr
    rw [exec_eq_operate, operate_of_idle start.idle, bodyOf, accessRegister,
      bind_of_ok (requireIdle_of start.mode (start.tracker rfl)),
      bind_faultIf_pass (by rw [aligned_of start.operands]; rfl), bind_of_ok ir, bind_of_err dr]
    simp only [conclude, State.returned, State.overflowed, ← start.buffers.1]
    rfl
  · intro i before after g s ready batch_ ok fits big
    have stop := batch_of_not_fits (after := after) ready ok fits big
    rw [← batch_] at stop
    rw [batch_stops (x := .err _) ready.1 (by simp [batch_]) stop]
    rfl
  · intro g s idle mode aligned length big
    rw [exec_eq_operate, operate_of_idle idle, bodyOf, bind_of_err (pushSub_of_not_fits mode aligned length big)]
    rfl

/-- Settles O44: each flush ends with the fault of its answer, and the instruction with its flush. -/
theorem malformedResponse : Obligations.MalformedResponse := by
  refine ⟨?_, ?_, ?_⟩
  · intro s run talk T us a next done len bad
    obtain ⟨before, fits, answer, talked⟩ := exchanged_last done
    have same := flushing_sameEnv (s := s) (talk := talk) (T := T) (us := us)
    rw [outcome_of_flushing (x := .halt .malformedResponse) next before (jtagFlush_of_malformed (nextClocks_ready next).1
      fits len ((answered_congr _ same).trans answer) (answerHeaderOk_of_bad bad)), talked]
    simp only [conclude, State.faulted, Stop.res, State.exchanged, envAfter_congr _ same]
    rfl
  · intro i s a ready ne ok fits len bad answer
    have same : SameEnv s { s with sq := batchOf i } := ⟨rfl, rfl, rfl⟩
    rw [exec_of_flush_stops (x := .halt .malformedResponse) ready ne ok fits
      (flushBatch_of_malformed ready.2.1 ne len bad ((answered_congr _ same).trans answer))]
    simp only [conclude, State.faulted, Stop.res, State.exchanged, envAfter_congr _ same]
  · intro a s idle mode ne len bad answer
    rw [exec_eq_operate, operate_of_idle idle, bodyOf, bind_of_halt (flushBatch_of_malformed mode ne len bad answer)]
    rfl

end Sys2Proof.Proofs
end

section
/-! PROOFS. The reference target (20_memory.md section 3): where bits come to lie in a scan path, and the SWD access pipeline. -/

namespace Sys2Proof.Proofs

open Sys2Proof.Machine Sys2Proof.Laws

/-! ### Bits shifted through a path -/

/-- The path, and the samples, after these bits have been shifted in. -/
def shiftAll : List Bool → List (List Bool) → List (List Bool) × List Bool
  | [], path => (path, [])
  | tdi :: bits, path =>
    ((shiftAll bits (shiftThrough tdi path)).1, tdoBitOf tdi path :: (shiftAll bits (shiftThrough tdi path)).2)

theorem foldl_shift (bits : List Bool) (path : List (List Bool)) (got : List Bool) :
    bits.foldl (fun (x : List (List Bool) × List Bool) tdi => (shiftThrough tdi x.1, x.2 ++ [tdoBitOf tdi x.1])) (path, got)
      = ((shiftAll bits path).1, got ++ (shiftAll bits path).2) := by
  induction bits generalizing path got with
  | nil => simp [shiftAll]
  | cons tdi bits ih => rw [List.foldl_cons, ih, List.append_assoc]; rfl

/-- One shift: the bit at the TDO end leaves, and the bit shifted in comes to lie at the TDI end. -/
theorem shiftThrough_flatten (tdi : Bool) {path : List (List Bool)} (h : ∀ r ∈ path, r ≠ []) :
    (shiftThrough tdi path).flatten = (path.flatten ++ [tdi]).drop 1 ∧ [tdoBitOf tdi path] = (path.flatten ++ [tdi]).take 1 := by
  induction path with
  | nil => exact ⟨rfl, rfl⟩
  | cons r path ih =>
    obtain ⟨b, r, rfl⟩ := List.exists_cons_of_ne_nil (h r (by simp))
    refine ⟨?_, rfl⟩
    cases path with
    | nil => simp [shiftThrough]
    | cons r' path =>
      obtain ⟨b', r', rfl⟩ := List.exists_cons_of_ne_nil (h r' (by simp))
      have later := (ih fun r hr => h r (by simp [hr])).1
      simp only [List.flatten_cons, List.cons_append, List.drop_succ_cons, List.drop_zero] at later ⊢
      rw [shiftThrough, List.flatten_cons, later]
      simp

theorem shiftThrough_ne_nil (tdi : Bool) {path : List (List Bool)} (h : ∀ r ∈ path, r ≠ []) :
    ∀ r ∈ shiftThrough tdi path, r ≠ [] := by
  rintro r hr rfl
  have short : 0 ∈ (shiftThrough tdi path).map List.length := List.mem_map_of_mem (f := List.length) hr
  rw [shiftThrough_lengths tdi h] at short
  obtain ⟨r, hr, empty⟩ := List.mem_map.1 short
  exact h r hr (List.length_eq_zero_iff.1 empty)

theorem shiftAll_lengths (bits : List Bool) {path : List (List Bool)} (h : ∀ r ∈ path, r ≠ []) :
    (shiftAll bits path).1.map List.length = path.map List.length := by
  induction bits generalizing path with
  | nil => rfl
  | cons tdi bits ih => rw [shiftAll, ih (shiftThrough_ne_nil tdi h), shiftThrough_lengths tdi h]

/-- The bits of the path go out in front of the bits shifted in; what has not come out is what the path then holds. -/
theorem shiftAll_bits (bits : List Bool) {path : List (List Bool)} (h : ∀ r ∈ path, r ≠ []) :
    (shiftAll bits path).1.flatten = (path.flatten ++ bits).drop bits.length
      ∧ (shiftAll bits path).2 = (path.flatten ++ bits).take bits.length := by
  induction bits generalizing path with
  | nil => simp [shiftAll]
  | cons tdi bits ih =>
    obtain ⟨held, out⟩ := ih (shiftThrough_ne_nil tdi h)
    obtain ⟨kept, first⟩ := shiftThrough_flatten tdi h
    have rest : (path.flatten ++ [tdi]).drop 1 ++ bits = (path.flatten ++ tdi :: bits).drop 1 := by
      rw [← List.drop_append_of_le_length (by simp), List.append_assoc, List.singleton_append]
    have head : [tdoBitOf tdi path] = (path.flatten ++ tdi :: bits).take 1 := by
      rw [first]
      cases path.flatten <;> rfl
    rw [shiftAll, held, out, kept, rest]
    refine ⟨?_, ?_⟩
    · rw [List.drop_drop, List.length_cons, Nat.add_comm]
    · rw [List.length_cons, Nat.add_comm, List.take_add, ← head]
      rfl

/-- Settles O58: by induction on the bits, one shift at a time. -/
theorem chainPositions : Obligations.ChainPositions := by
  intro path bits h run
  have all : run = (shiftAll bits path) := by
    simp only [run, foldl_shift, List.nil_append]
  rw [all]
  exact ⟨shiftAll_lengths bits h, shiftAll_bits bits h⟩

/-! ### A batch whose result is known -/

/-- An instruction that is a batch and returned a value: its batch gave results, and it made the value of them. -/
theorem batch_of_returned {i : Instr} {gs : List Subcmd} {k : List SResult → Act Value} {s t : State} {v : Value}
    (body : bodyOf i = Act.bind (batch gs) k) (ready : SwdReady s) (h : exec i s = .next t)
    (returned : t.results = s.results ++ [.ok v]) :
    ∃ rs u, batch gs s = (.ok rs, u) ∧ u.results = s.results ∧ t = conclude (k rs u) := by
  rw [exec_eq_operate, operate_eq_next, body] at h
  obtain ⟨-, rfl⟩ := h
  have ends := end_batch (gs := gs) (queueOk_nil ready.2.2.1)
  rcases e : batch gs s with ⟨r, u⟩
  rw [e] at ends
  cases ends with
  | ok done =>
    rename_i rs
    exact ⟨rs, u, rfl, done.1.results, by rw [bind_of_ok e]⟩
  | lost lost _ =>
    rw [bind_of_err e] at returned
    simp [conclude, State.returned] at returned
  | err _ _ _ =>
    rw [bind_of_err e] at returned
    simp [conclude, State.returned] at returned
  | halt same _ =>
    have keeps : u.results = s.results := same.results
    rw [bind_of_halt e] at returned
    simp [conclude, State.faulted, keeps] at returned

/-- read_register that returned a word: its batch read that word (R223). -/
theorem readResult_of_returned {rs : List SResult} {u : State} {w : Word}
    (h : (conclude (readResult rs u)).results = u.results ++ [.ok (.word w)]) :
    rs = [.readOk w] ∧ (conclude (readResult rs u)).env = u.env := by
  unfold readResult at h ⊢
  split at h
  · simp only [conclude, State.returned, ret_apply, List.append_cancel_left_eq, List.cons.injEq, OpResult.ok.injEq,
      Value.word.injEq, and_true] at h
    exact ⟨by rw [h], rfl⟩
  · simp [conclude, State.returned] at h
  · simp [conclude, State.faulted] at h

/-! ### The reference target answers -/

/-- The answer of a reference target. -/
def targetAnswer (s : State) (f : List Byte) (g : Target) : List Byte :=
  (performFrame s.par.tdoBit s.link f g s.env.draws).2.1

/-- What is read of that answer: as R65 binds it. -/
def targetRead (s : State) (f : List Byte) (g : Target) : List Byte :=
  (boundAnswer s.link (askedBy f) s.env.swd (targetAnswer s f g)).2

/-- A reference target takes every frame and has its answer ready. -/
theorem linkWrite_of_reference {f : List Byte} {s : State} {g : Target} (tx : s.env.tx = []) (ref : s.env.reference = some g) :
    linkWrite f s = (none, s.traffic [.out f] (performed s.par.tdoBit s.link f s.env)) := by
  simp only [linkWrite, drawWrite, tx, ref]

/-- Where the answer of a reference target is as long as what is read, it is what is drawn. -/
theorem drawRead_of_reference {e : Env} {g : Target} (rx : e.rx = []) (ref : e.reference = some g) (some : e.inbox ≠ []) :
    drawRead e e.inbox.length = (.ok e.inbox, { e with rx := [], inbox := [], draws := e.draws + 1 }) := by
  obtain ⟨n, len⟩ := Nat.exists_eq_add_one_of_ne_zero (mt List.length_eq_zero_iff.1 some)
  have all : e.inbox.take (n + 1) = e.inbox := List.take_of_length_le (by omega)
  simp [len, drawRead, rx, gather, drawRest, ref, all, freeBytes]

theorem performed_of_reference {f : List Byte} {s : State} {g : Target} (ref : s.env.reference = some g) :
    performed s.par.tdoBit s.link f s.env = { s.env with
      target := (performFrame s.par.tdoBit s.link f g s.env.draws).1, inbox := targetAnswer s f g
      draws := (performFrame s.par.tdoBit s.link f g s.env.draws).2.2, asked := askedBy f } := by
  simp only [performed, ref]
  rfl

/-- An exchange with a reference target, where all of its answer is read. -/
theorem xfer_of_reference {f : List Byte} {s : State} {g : Target} (tx : s.env.tx = []) (rx : s.env.rx = [])
    (ref : s.env.reference = some g) (some : targetAnswer s f g ≠ []) :
    ∃ e : Env, xfer f (targetAnswer s f g).length s
        = (.ok (targetRead s f g), s.traffic [.out f, .inn (targetRead s f g)] e)
      ∧ e.tx = [] ∧ e.rx = [] ∧ e.target = (performFrame s.par.tdoBit s.link f g s.env.draws).1 := by
  have write := linkWrite_of_reference (f := f) tx ref
  have after := performed_reference s.par.tdoBit s.link f ref
  have env := performed_of_reference (f := f) ref
  generalize performed s.par.tdoBit s.link f s.env = e at write after env
  have inbox : e.inbox = targetAnswer s f g := by rw [env]
  have asked : e.asked = askedBy f := by rw [env]
  have swd : e.swd = s.env.swd := by rw [env]
  have read := drawRead_of_reference (by rw [env]; exact rx) after (by rw [inbox]; exact some)
  rw [inbox] at read
  refine ⟨(Env.answer s.link (targetAnswer s f g) { e with rx := [], inbox := [], draws := e.draws + 1 }).2, ?_, ?_, rfl, ?_⟩
  · simp only [xfer, exchange, write, linkRead, State.traffic_env, read, recordRead, Env.answer, asked, swd, State.traffic_link,
      State.traffic_traffic, targetRead, List.cons_append, List.nil_append]
  · simp only [Env.answer, env, tx]
  · simp only [Env.answer, env]

theorem answered_of_reference {f : List Byte} {s : State} {g : Target} (tx : s.env.tx = []) (rx : s.env.rx = [])
    (ref : s.env.reference = some g) (some : targetAnswer s f g ≠ []) :
    answered [(f, targetRead s f g)] s = true := by
  obtain ⟨e, x, -⟩ := xfer_of_reference tx rx ref some
  have len : (targetRead s f g).length = (targetAnswer s f g).length := boundAnswer_length ..
  exact answered_single (by rw [len, x])

theorem reference_of_wf {e : Env} {g : Target} (target : e.target = some g) (wf : g.wf = true) : e.reference = some g := by
  simp only [Env.reference, target, wf, if_true]

/-! ### Register reads on a Ready line -/

/-- The ack of a transaction that is OK, whatever is drawn beside it (R114). -/
theorem swdAck_okByte (d : Nat) : swdAckIsOk (swdAck (okByte d)) = true := by
  rw [swdAckIsOk_eq_true, swdAck, okByte, BitVec.extractLsb'_append_eq_right]
  rfl

theorem parseSlice_readWord (addr : RegAddr) {ab : Byte} (ok : swdAckIsOk (swdAck ab) = true) (w : Word) (pb : Byte) :
    parseSlice (.registerRead addr) ([0xA2, ab] ++ le32 w ++ [pb]) = some (.readOk w) := by
  simpa [le32, parseSlice, ok] using ofLe32_le32 w

/-- The answer to one OK read, as R65 binds it. -/
theorem boundAnswer_read (addr : RegAddr) (p : DebugPort) {ab : Byte} (ok : swdAckIsOk (swdAck ab) = true)
    (d0 d1 d2 d3 pb : Byte) :
    (boundAnswer .ready [.registerRead addr] p (batchAnswer [[0xA2, ab, d0, d1, d2, d3, pb]])).2
      = batchAnswer [[0xA2, ab] ++ le32 (swdRead p addr (ofLe32 d0 d1 d2 d3)).2 ++ [pb]] := by
  simp [boundAnswer, batchAnswerOk, answerHeaderOk, ofLe16, answerTotal, answerLength, boundSlices,
    boundSlice, parseSlice, ok, batchAnswer, le16, le32]

/-- A reference target on a Ready line answers a register read with the ack OK (R66). -/
theorem answered_read {s : State} {g : Target} (addr : RegAddr) (tx : s.env.tx = []) (rx : s.env.rx = [])
    (ref : s.env.reference = some g) (ready : s.link = .ready) :
    ∃ slice w, parseSlice (.registerRead addr) slice = some (.readOk w)
      ∧ answered [(frameE8 [.registerRead addr], batchAnswer [slice])] s = true := by
  have sent : decodeFrame (frameE8 [.registerRead addr]) = .ok (.e8 [sentSub (.registerRead addr)], []) :=
    decodeFrame_sent (by simp) (by simp [subLengthOk]) (by simp [batchPayload, encodeSub])
  have asked : askedBy (frameE8 [.registerRead addr]) = [sentSub (.registerRead addr)] := by
    simp only [askedBy, sent]
    rfl
  have answer : targetAnswer s (frameE8 [.registerRead addr]) g = batchAnswer [[0xA2, okByte s.env.draws,
      Config.freeByte s.env.draws 1, Config.freeByte s.env.draws 2, Config.freeByte s.env.draws 3,
      Config.freeByte s.env.draws 4, Config.freeByte s.env.draws 5]] := by
    simp only [targetAnswer, performFrame, sent, ready]
    rfl
  have all := answered_of_reference (f := frameE8 [.registerRead addr]) tx rx ref (by rw [answer]; simp [batchAnswer])
  have bound := boundAnswer_sent [.registerRead addr] .ready s.env.swd
  simp only [List.map_cons, List.map_nil] at bound
  rw [targetRead, answer, asked, ready, bound, boundAnswer_read addr _ (swdAck_okByte s.env.draws)] at all
  exact ⟨_, _, parseSlice_readWord addr (swdAck_okByte _) _ _, all⟩

/-- What one OK read on a Ready line leaves of the port, and the word it returned (R65). -/
theorem readRegister_port {off : Byte} {isAp : Bool} {s t : State} {w : Word} (ready : SwdReady s) (line : s.link = .ready)
    (h : exec (.readRegister off isAp) s = .next t) (returned : t.results = s.results ++ [.ok (.word w)]) :
    ∃ v, (swdRead s.env.swd (regOf off isAp) v).2 = w ∧ t.env.swd = (swdRead s.env.swd (regOf off isAp) v).1 := by
  obtain ⟨rs, u, batched, results, rfl⟩ := batch_of_returned (i := .readRegister off isAp) rfl ready h returned
  rw [← results] at returned
  obtain ⟨rfl, env⟩ := readResult_of_returned returned
  obtain ⟨bytes, parsed, port⟩ := batch_ok ready (by simp) batched
  rw [line] at parsed port
  obtain ⟨v, word, rest, -⟩ := boundSlices_read parsed
  exact ⟨v, word, by rw [env, port, rest]; rfl⟩

theorem swdRead_rdbuff (p : DebugPort) {off : Byte} (h : addrA off = 3) (v : Word) :
    swdRead p (.dp off) v = ({ p with rdbuff := some (p.rdbuff.getD v) }, p.rdbuff.getD v) := by
  simp [swdRead, readDp, dpRead, h]

theorem swdRead_dp (p : DebugPort) {off : Byte} (h : addrA off ≠ 3) (v : Word) :
    swdRead p (.dp off) v = (afterDpRead p, (dpRead p (addrA off)).getD v) := by
  simp only [swdRead, readDp, if_neg h]

/-- An AP read of a port with a latched result returns that result, once it is known. -/
theorem swdRead_ap_latched {p : DebugPort} {w : Word} (latched : p.apLatched = true) (known : p.rdbuff = some w) (off : Byte)
    (v : Word) : (swdRead p (.ap off) v).2 = w := by
  simp [swdRead, latched, known]

/-- Settles O60: R65's rule for each kind of read, read off the port after it. -/
theorem swdPipeline : Obligations.SwdPipeline := by
  intro s ready line
  refine ⟨?_, ?_, ?_⟩
  · intro off isAp t w h returned p
    obtain ⟨v, rfl, port⟩ := readRegister_port ready line h returned
    refine ⟨?_, ?_, ?_⟩
    · rintro rfl
      exact ⟨fun latched w known => swdRead_ap_latched latched known off v, port⟩
    · rintro rfl rdbuff
      rw [show regOf off false = .dp off from rfl, swdRead_rdbuff _ rdbuff] at port ⊢
      exact ⟨fun w known => by rw [show s.env.swd.rdbuff = some w from known]; rfl, port⟩
    · rintro rfl other
      rw [show regOf off false = .dp off from rfl, swdRead_dp _ other] at port ⊢
      exact ⟨fun w known => by rw [show dpRead s.env.swd (addrA off) = some w from known]; rfl, by rw [port]; rfl,
        by rw [port]; rfl⟩
  · intro off off' t w₁ w₂ w₃ w₄ w₅ h returned
    obtain ⟨rs, u, batched, results, rfl⟩ := batch_of_returned (i := .e8 _) rfl ready h returned
    obtain rfl : rs = [.readOk w₁, .readOk w₂, .readOk w₃, .readOk w₄, .readOk w₅] := by
      simpa [conclude, State.returned, results] using returned
    obtain ⟨bytes, parsed, -⟩ := batch_ok ready (by simp) batched
    rw [line] at parsed
    have rdbuff : addrA 0x0C = 3 := by decide
    obtain ⟨v₁, -, -, parsed⟩ := boundSlices_read parsed
    obtain ⟨v₂, word₂, -, parsed⟩ := boundSlices_read parsed
    obtain ⟨v₃, word₃, -, parsed⟩ := boundSlices_read parsed
    obtain ⟨v₄, word₄, -, parsed⟩ := boundSlices_read parsed
    obtain ⟨v₅, word₅, -, -⟩ := boundSlices_read parsed
    rw [swdRead_rdbuff _ rdbuff] at word₂ word₃ word₄ word₅
    rw [swdRead_rdbuff _ rdbuff] at word₄ word₅
    refine ⟨?_, ?_⟩
    · exact (swdRead_ap_latched rfl (congrArg some word₂) off' v₃).symm.trans word₃
    · exact word₄.symm.trans word₅
  · intro off isAp g tx rx target wf fits bit0 bit1
    obtain ⟨slice, w, parsed, answer⟩ := answered_read (regOf off isAp) tx rx (reference_of_wf target wf) line
    have done := exec_of_single_answered (i := .readRegister off isAp) rfl ready
      (by rw [subAligned, regOf_off, aligned_of_bits bit0 bit1]) rfl fits parsed answer
    exact ⟨_, w, done, rfl⟩

end Sys2Proof.Proofs
end

section
/-! PROOFS. The loopback fixture (R67): what the clock units of a DR scan do to a chain whose other TAPs are in BYPASS. -/

namespace Sys2Proof.Proofs

open Sys2Proof.Machine Sys2Proof.Laws

/-! ### A chain that shifts -/

/-- These TAPs with these DR shift registers. -/
def setDrs (ts : List Tap) (path : List (List Bool)) : List Tap := List.zipWith (fun t r => { t with drsh := r }) ts path

theorem setDrs_drsh {ts : List Tap} {path : List (List Bool)} (h : path.length = ts.length) :
    (setDrs ts path).map Tap.drsh = path := by
  induction ts generalizing path with
  | nil => rw [List.length_eq_zero_iff.1 h]; rfl
  | cons t ts ih =>
    obtain ⟨r, path, rfl⟩ := List.exists_cons_of_length_eq_add_one h
    exact congrArg (r :: ·) (ih (by simpa using h))

theorem setDrs_setDrs {ts : List Tap} {path : List (List Bool)} (h : path.length = ts.length) (path' : List (List Bool)) :
    setDrs (setDrs ts path) path' = setDrs ts path' := by
  induction ts generalizing path path' with
  | nil => rfl
  | cons t ts ih =>
    obtain ⟨r, path, rfl⟩ := List.exists_cons_of_length_eq_add_one h
    cases path' with
    | nil => rfl
    | cons r' path' => exact congrArg (_ :: ·) (ih (by simpa using h) path')

theorem setDrs_replicate (ts : List Tap) (r : List Bool) :
    setDrs ts (List.replicate ts.length r) = ts.map fun t => { t with drsh := r } := by
  induction ts with
  | nil => rfl
  | cons t ts ih => exact congrArg (_ :: ·) ih

theorem shiftThrough_length (tdi : Bool) (path : List (List Bool)) : (shiftThrough tdi path).length = path.length := by
  induction path with
  | nil => rfl
  | cons r path ih =>
    cases path with
    | nil => rfl
    | cons r' path => exact congrArg (· + 1) ih

/-- Units that stay in Shift-DR and leave it with the last of them shift their TDI bits through the chain (R61, R167). -/
theorem clockUnits_shift {us : List WireUnit} {k : Nat} (tms : us.map WireUnit.tms = List.replicate k false ++ [true])
    (ts : List Tap) (d : Nat) :
    clockUnits us .shDR ts d = (.ex1DR, setDrs ts (shiftAll (us.map WireUnit.tdi) (ts.map Tap.drsh)).1,
      (shiftAll (us.map WireUnit.tdi) (ts.map Tap.drsh)).2, d) := by
  induction k generalizing us ts with
  | zero =>
    obtain ⟨⟨_, tdi⟩, rfl, rfl⟩ : ∃ u, us = [u] ∧ u.tms = true := by
      cases us with
      | nil => simp at tms
      | cons u us => simp at tms; exact ⟨u, by rw [tms.2], tms.1⟩
    rfl
  | succ k ih =>
    obtain ⟨⟨_, tdi⟩, us, rfl, rfl, later⟩ : ∃ u us', us = u :: us' ∧ u.tms = false
        ∧ us'.map WireUnit.tms = List.replicate k false ++ [true] := by
      cases us with
      | nil => simp [List.replicate_succ] at tms
      | cons u us => simp [List.replicate_succ] at tms; exact ⟨u, us, rfl, tms.1, by simpa using tms.2⟩
    have len : (shiftThrough tdi (ts.map Tap.drsh)).length = ts.length := by
      rw [shiftThrough_length, List.length_map]
    have rest := ih later (setDrs ts (shiftThrough tdi (ts.map Tap.drsh)))
    rw [setDrs_drsh len, setDrs_setDrs len] at rest
    have step : clockUnits (⟨false, tdi⟩ :: us) .shDR ts d
        = (let y := clockUnits us .shDR (setDrs ts (shiftThrough tdi (ts.map Tap.drsh))) d
          (y.1, y.2.1, tdoBitOf tdi (ts.map Tap.drsh) :: y.2.2.1, y.2.2.2)) := rfl
    rw [step, rest]
    rfl

theorem clockUnits_append (us vs : List WireUnit) (q : TapState) (ts : List Tap) (d : Nat) :
    clockUnits (us ++ vs) q ts d
      = (let x := clockUnits us q ts d
        let y := clockUnits vs x.1 x.2.1 x.2.2.2
        (y.1, y.2.1, x.2.2.1 ++ y.2.2.1, y.2.2.2)) := by
  induction us generalizing q ts d with
  | nil => rfl
  | cons u us ih => simp only [List.cons_append, clockUnits, ih]

theorem eachTap_map {f : Tap → Nat → Tap × Nat} {g : Tap → Tap} {ts : List Tap} (h : ∀ t ∈ ts, ∀ d, f t d = (g t, d)) (d : Nat) :
    eachTap f ts d = (ts.map g, d) := by
  induction ts generalizing d with
  | nil => rfl
  | cons t ts ih =>
    simp only [eachTap, h t (by simp), ih fun t ht => h t (by simp [ht]), List.map_cons]

theorem eachTap_append (f : Tap → Nat → Tap × Nat) (ts us : List Tap) (d : Nat) :
    eachTap f (ts ++ us) d
      = ((eachTap f ts d).1 ++ (eachTap f us (eachTap f ts d).2).1, (eachTap f us (eachTap f ts d).2).2) := by
  induction ts generalizing d with
  | nil => rfl
  | cons t ts ih => simp only [List.cons_append, eachTap, ih]

/-! ### A TAP in BYPASS, and one with the loopback register -/

theorem captureDr_bypass {t : Tap} (h : selectedDr t = none) (d : Nat) : captureDr t d = ({ t with drsh := [false] }, d) := by
  simp only [captureDr, h]

theorem captureDr_loopback {t : Tap} {r : DataReg} (h : selectedDr t = some r) (kind : r.kind = .loopback) (d : Nat) :
    captureDr t d = ({ t with drsh := r.cell }, d) := by
  simp only [captureDr, h, kind]

theorem updateDr_bypass {t : Tap} (h : selectedDr t = none) (d : Nat) : updateDr t d = (t, d) := by
  simp only [updateDr, h]

/-- The selected register written from the shift register. -/
def written (t : Tap) : Tap := { t with drs := t.drs.map fun x => if x.code == t.ir then { x with cell := t.drsh } else x }

theorem updateDr_loopback {t : Tap} {r : DataReg} (h : selectedDr t = some r) (kind : r.kind = .loopback) (d : Nat) :
    updateDr t d = (written t, d) := by
  simp only [updateDr, h, kind, written]

/-- What a register list finds under a code, after the registers of that code have been written. -/
theorem find_written {code cell : List Bool} {drs : List DataReg} :
    (drs.map fun x => if x.code == code then { x with cell := cell } else x).find? (fun r => r.code == code)
      = (drs.find? fun r => r.code == code).map fun r => { r with cell := cell } := by
  rw [List.find?_map]
  have same : ((fun r : DataReg => r.code == code) ∘ fun x => if x.code == code then { x with cell := cell } else x)
      = fun r => r.code == code := by
    funext x
    cases h : x.code == code <;> simp only [Function.comp, h, if_true, Bool.false_eq_true, if_false]
  rw [same]
  cases e : drs.find? (fun r => r.code == code) with
  | none => rfl
  | some r => exact congrArg some (if_pos (List.find?_some e))

theorem selectedDr_written {t : Tap} {r : DataReg} (h : selectedDr t = some r) :
    selectedDr (written t) = some { r with cell := t.drsh } := by
  unfold selectedDr at h ⊢
  split at h
  · cases h
  · next ones => rw [written, if_neg ones, find_written, h]; rfl

/-- A chain whose other TAPs are in BYPASS, and whose selected TAP selects a loopback register that holds `cell`. -/
def LoopChain (pre pos : Nat) (cell : List Bool) (ts : List Tap) : Prop :=
  ∃ (nearTdo nearTdi : List Tap) (tap : Tap) (reg : DataReg), ts = nearTdo ++ tap :: nearTdi ∧ nearTdo.length = pre
    ∧ nearTdi.length = pos ∧ (∀ t ∈ nearTdo ++ nearTdi, selectedDr t = none) ∧ selectedDr tap = some reg
    ∧ reg.kind = .loopback ∧ reg.cell = cell

section
variable {pre pos : Nat} {cell : List Bool} {ts : List Tap}

/-- Bits that replace all that a chain holds: what was there comes out, and each register holds its part of them. -/
theorem shiftAll_replaces {path path' : List (List Bool)} (some : ∀ r ∈ path, r ≠ [])
    (lengths : path'.map List.length = path.map List.length) :
    shiftAll path'.flatten path = (path', path.flatten) := by
  have len : path'.flatten.length = path.flatten.length := by rw [List.length_flatten, List.length_flatten, lengths]
  obtain ⟨held, out⟩ := shiftAll_bits path'.flatten some
  rw [len] at held out
  refine Prod.ext (List.eq_iff_flatten_eq.2 ⟨?_, ?_⟩) ?_
  · rw [held, List.drop_left]
  · rw [shiftAll_lengths _ some, lengths]
  · rw [out, List.take_left]

/-- The DR shift registers of such a chain, with this much in the selected one and this bit in each of the others. -/
def loopPath (pre pos : Nat) (bit : Bool) (bits : List Bool) : List (List Bool) :=
  List.replicate pre [bit] ++ bits :: List.replicate pos [bit]

theorem loopPath_flatten (pre pos : Nat) (bit : Bool) (bits : List Bool) :
    (loopPath pre pos bit bits).flatten = List.replicate pre bit ++ bits ++ List.replicate pos bit := by
  simp [loopPath]

theorem loopPath_lengths (pre pos : Nat) (bit : Bool) (bits : List Bool) :
    (loopPath pre pos bit bits).map List.length = List.replicate pre 1 ++ bits.length :: List.replicate pos 1 := by
  simp [loopPath]

theorem loopPath_length (pre pos : Nat) (bit : Bool) (bits : List Bool) :
    (loopPath pre pos bit bits).length = pre + 1 + pos := by
  simp [loopPath]
  omega

theorem loopChain_length (h : LoopChain pre pos cell ts) : ts.length = pre + 1 + pos := by
  obtain ⟨nearTdo, nearTdi, tap, reg, rfl, rfl, rfl, -⟩ := h
  simp
  omega

/-- A TAP with this DR shift register: it selects as before. -/
def withDr (r : List Bool) (t : Tap) : Tap := { t with drsh := r }

theorem selectedDr_withDr (r : List Bool) (t : Tap) : selectedDr (withDr r t) = selectedDr t := rfl

theorem setDrs_loopPath (nearTdo nearTdi : List Tap) (tap : Tap) (bit : Bool) (bits : List Bool) :
    setDrs (nearTdo ++ tap :: nearTdi) (loopPath nearTdo.length nearTdi.length bit bits)
      = nearTdo.map (withDr [bit]) ++ withDr bits tap :: nearTdi.map (withDr [bit]) := by
  rw [setDrs, loopPath, List.zipWith_append (by simp), List.zipWith_cons_cons]
  exact congrArg₂ (· ++ withDr bits tap :: ·) (setDrs_replicate nearTdo [bit]) (setDrs_replicate nearTdi [bit])

theorem bypass_withDr {near : List Tap} (h : ∀ t ∈ near, selectedDr t = none) (r : List Bool) :
    ∀ t ∈ near.map (withDr r), selectedDr t = none := by
  simp only [List.mem_map]
  rintro _ ⟨t, ht, rfl⟩
  exact h t ht

theorem loopChain_setDrs (h : LoopChain pre pos cell ts) (bit : Bool) (bits : List Bool) :
    LoopChain pre pos cell (setDrs ts (loopPath pre pos bit bits)) := by
  obtain ⟨nearTdo, nearTdi, tap, reg, rfl, rfl, rfl, bypass, selected, kind, holds⟩ := h
  refine ⟨nearTdo.map (withDr [bit]), nearTdi.map (withDr [bit]), withDr bits tap, reg,
    setDrs_loopPath nearTdo nearTdi tap bit bits, by simp, by simp, ?_, selected, kind, holds⟩
  rw [← List.map_append]
  exact bypass_withDr bypass [bit]

/-- Capture-DR: the selected TAP's register, and a 0 in each of the others. -/
theorem capture_loopChain (h : LoopChain pre pos cell ts) (d : Nat) :
    eachTap captureDr ts d = (setDrs ts (loopPath pre pos false cell), d) := by
  obtain ⟨nearTdo, nearTdi, tap, reg, rfl, rfl, rfl, bypass, selected, kind, rfl⟩ := h
  have near {part : List Tap} (h : ∀ t ∈ part, t ∈ nearTdo ++ nearTdi) (d : Nat) :
      eachTap captureDr part d = (part.map (withDr [false]), d) :=
    eachTap_map (fun t ht d => captureDr_bypass (bypass t (h t ht)) d) d
  rw [eachTap_append, near (by simp +contextual), eachTap, captureDr_loopback selected kind, near (by simp +contextual),
    setDrs_loopPath]
  rfl

/-- Update-DR: the selected TAP's register takes what its shift register holds. -/
theorem update_loopChain (h : LoopChain pre pos cell ts) (bits : List Bool) (d : Nat) :
    ∃ ts', eachTap updateDr (setDrs ts (loopPath pre pos true bits)) d = (ts', d) ∧ LoopChain pre pos bits ts' := by
  obtain ⟨nearTdo, nearTdi, tap, reg, rfl, rfl, rfl, bypass, selected, kind, rfl⟩ := h
  have near {part : List Tap} (h : ∀ t ∈ part, t ∈ nearTdo ++ nearTdi) (d : Nat) :
      eachTap updateDr (part.map (withDr [true])) d = (part.map (withDr [true]), d) := by
    have each := eachTap_map (f := updateDr) (g := id) (ts := part.map (withDr [true]))
      (fun t ht d => updateDr_bypass (bypass_withDr (fun t ht => bypass t (h t ht)) [true] t ht) d) d
    rwa [List.map_id] at each
  refine ⟨nearTdo.map (withDr [true]) ++ written (withDr bits tap) :: nearTdi.map (withDr [true]), ?_, ?_⟩
  · rw [setDrs_loopPath, eachTap_append, near (by simp +contextual), eachTap,
      updateDr_loopback (t := withDr bits tap) selected kind, near (by simp +contextual)]
  · refine ⟨_, _, _, { reg with cell := bits }, rfl, by simp, by simp, ?_, selectedDr_written selected, kind, rfl⟩
    rw [← List.map_append]
    exact bypass_withDr bypass [true]

end

/-! ### A DR scan of such a chain -/

theorem wire_tms (us : List ClockUnit) : (us.map ClockUnit.wire).map WireUnit.tms = us.map ClockUnit.tms := by
  simp [ClockUnit.wire]

theorem wire_tdi (us : List ClockUnit) : (us.map ClockUnit.wire).map WireUnit.tdi = us.map ClockUnit.tdi := by
  simp [ClockUnit.wire]

/-- The units of a scan that shift (R185). -/
def shiftUnits (v : BitVec 64) (n p q : Nat) : List ClockUnit :=
  List.replicate p (nav false) ++ dataUnits v n q ++ trailingUnits q

theorem scanUnits_dr (v : BitVec 64) (n p q : Nat) :
    Machine.scanUnits .dr v n p q = enterShiftDR ++ (shiftUnits v n p q ++ leaveExit1) := by
  simp [Machine.scanUnits, shiftUnits]

/-- Only the last of them has TMS=1. -/
theorem shiftUnits_tms (v : BitVec 64) {n : Nat} (pos : 1 ≤ n) (p q : Nat) :
    (shiftUnits v n p q).map ClockUnit.tms = List.replicate (p + (n - 1) + q) false ++ [true] := by
  have lead : (List.replicate p (nav false)).map ClockUnit.tms = List.replicate p false := by simp [nav]
  rw [shiftUnits, List.map_append, List.map_append, lead, dataUnits_tms v pos, List.replicate_add,
    List.replicate_add]
  cases q with
  | zero => simp [trailingUnits, -List.replicate_append_replicate]
  | succ q => simp [trailingUnits_tms, List.replicate_succ, -List.replicate_append_replicate]

theorem shiftUnits_tdi (v : BitVec 64) (n p q : Nat) :
    (shiftUnits v n p q).map ClockUnit.tdi = (loopPath p q true (bitsOf n v)).flatten := by
  rw [loopPath_flatten]
  simp [shiftUnits, nav, dataUnits, trailingUnits, bitsOf, Function.comp_def]

/-- The navigation into Shift-DR, from Run-Test/Idle: the registers are captured on the way (R61, R163). -/
theorem clockUnits_enter (ts : List Tap) (d : Nat) :
    ∃ a b c, clockUnits (enterShiftDR.map ClockUnit.wire) .rti ts d
      = (.shDR, (eachTap captureDr ts (d + 3)).1, [a, b, c], (eachTap captureDr ts (d + 3)).2) := ⟨_, _, _, rfl⟩

/-- The navigation out of Exit1-DR, to Run-Test/Idle: the registers are updated on the way. -/
theorem clockUnits_leave (ts : List Tap) (d : Nat) :
    ∃ a b, clockUnits (leaveExit1.map ClockUnit.wire) .ex1DR ts d
      = (.rti, (eachTap updateDr ts (d + 1)).1, [a, b], (eachTap updateDr ts (d + 1)).2 + 1) := ⟨_, _, rfl⟩

/-- A DR scan of a loopback chain: the register's value comes out at the data units, and the register takes the value shifted
in (R67). -/
theorem clockUnits_loopChain {pre pos n : Nat} {cell : List Bool} {ts : List Tap} (h : LoopChain pre pos cell ts)
    (len : cell.length = n) (some : 1 ≤ n) (v : BitVec 64) (d : Nat) :
    ∃ ts' before after d', clockUnits ((Machine.scanUnits .dr v n pre pos).map ClockUnit.wire) .rti ts d
        = (.rti, ts', before ++ cell ++ after, d')
      ∧ before.length = 3 + pre ∧ after.length = pos + 2 ∧ LoopChain pre pos (bitsOf n v) ts' := by
  obtain ⟨a, b, c, enter⟩ := clockUnits_enter ts d
  rw [capture_loopChain h] at enter
  have length (bit : Bool) (bits : List Bool) : (loopPath pre pos bit bits).length = ts.length := by
    rw [loopPath_length, loopChain_length h]
  have lengths : (loopPath pre pos true (bitsOf n v)).map List.length = (loopPath pre pos false cell).map List.length := by
    rw [loopPath_lengths, loopPath_lengths, len, bitsOf, List.length_map, List.length_range]
  have registers : ∀ r ∈ loopPath pre pos false cell, r ≠ [] := by
    have : cell ≠ [] := List.ne_nil_of_length_pos (by omega)
    simp only [loopPath, List.mem_append, List.mem_cons, List.mem_replicate]
    rintro r (⟨-, rfl⟩ | rfl | ⟨-, rfl⟩)
    · exact List.cons_ne_nil _ _
    · exact this
    · exact List.cons_ne_nil _ _
  have shift := clockUnits_shift (us := (shiftUnits v n pre pos).map ClockUnit.wire)
    (by rw [wire_tms, shiftUnits_tms v some]) (setDrs ts (loopPath pre pos false cell)) (d + 3)
  rw [wire_tdi, shiftUnits_tdi, setDrs_drsh (length _ _), setDrs_setDrs (length _ _), shiftAll_replaces registers lengths,
    loopPath_flatten] at shift
  obtain ⟨e, f, leave⟩ := clockUnits_leave (setDrs ts (loopPath pre pos true (bitsOf n v))) (d + 3)
  obtain ⟨ts', update, after⟩ := update_loopChain h (bitsOf n v) (d + 3 + 1)
  rw [update] at leave
  refine ⟨ts', [a, b, c] ++ List.replicate pre false, List.replicate pos false ++ [e, f], d + 3 + 1 + 1, ?_,
    by simp; omega, by simp, after⟩
  rw [scanUnits_dr, List.map_append, List.map_append, clockUnits_append, enter]
  simp only [clockUnits_append, shift, leave, List.append_assoc]

/-! ### The exchange -/

theorem tdoByte_bit (tdoBit : Fin 8) (tdo : Bool) (other : Byte) : (tdoByte tdoBit tdo other).getLsbD tdoBit.val = tdo := by
  cases tdo <;> simp [tdoByte]

/-- The answer to a clock batch, and the samples in it (R104). -/
theorem answerD2_eq (s : State) (tdos : List Bool) (d : Nat) :
    ∃ samples, answerD2 s.par.tdoBit tdos d = clockAnswer samples ∧ samples.map s.tdoOf = tdos := by
  refine ⟨tdos.zipIdx.map fun p => tdoByte s.par.tdoBit p.1 (Config.freeByte d p.2), ?_, ?_⟩
  · rw [answerD2, clockAnswer, List.length_map, List.length_zipIdx]
  · rw [List.map_map]
    have sample : (s.tdoOf ∘ fun p : Bool × Nat => tdoByte s.par.tdoBit p.1 (Config.freeByte d p.2)) = Prod.fst := by
      funext p
      exact tdoByte_bit _ _ _
    rw [sample, List.zipIdx_map_fst]

/-- A reference target answers a clock batch with the samples of its chain, and stays one (R58, R59). -/
theorem answered_clocks {s : State} {g : Target} {us : List ClockUnit} {q : TapState} {ts : List Tap} {tdos : List Bool}
    {d : Nat} (tx : s.env.tx = []) (rx : s.env.rx = []) (target : s.env.target = some g) (wf : g.wf = true) (ne : us ≠ [])
    (fits : Fits s (2 * us.length))
    (clocked : clockUnits (us.map ClockUnit.wire) g.q g.chain s.env.draws = (q, ts, tdos, d)) :
    ∃ samples, samples.map s.tdoOf = tdos ∧ answered [(clocks us, clockAnswer samples)] s = true
      ∧ (s.exchanged [(clocks us, clockAnswer samples)]).env.tx = []
      ∧ (s.exchanged [(clocks us, clockAnswer samples)]).env.rx = []
      ∧ (s.exchanged [(clocks us, clockAnswer samples)]).env.target = some ⟨q, ts⟩
      ∧ Target.wf ⟨q, ts⟩ = true := by
  have decoded : decodeFrame (clocks us) = .ok (.d2 (us.map ClockUnit.wire), []) := by
    have := decodeFrame_frameD2 (us := us.map ClockUnit.wire) (by simpa using ne)
      (by rw [List.length_map]; have := fits.1; omega) []
    rwa [List.append_nil] at this
  have performed : performFrame s.par.tdoBit s.link (clocks us) g s.env.draws
      = (⟨q, ts⟩, answerD2 s.par.tdoBit tdos d, d + 1) := by
    simp only [performFrame, decoded, clocked]
  obtain ⟨samples, answer, bits⟩ := answerD2_eq s tdos d
  have drawn : targetAnswer s (clocks us) g = clockAnswer samples := by rw [targetAnswer, performed, answer]
  have read : targetRead s (clocks us) g = clockAnswer samples := by
    rw [targetRead, drawn, show askedBy (clocks us) = [] from rfl, boundAnswer_nil]
  have ref := reference_of_wf target wf
  have some : targetAnswer s (clocks us) g ≠ [] := by rw [drawn]; simp [clockAnswer]
  obtain ⟨e, x, tx', rx', target'⟩ := xfer_of_reference tx rx ref some
  have env : (s.exchanged [(clocks us, clockAnswer samples)]).env = e := by
    show (xfer (clocks us) (clockAnswer samples).length s).2.env = e
    rw [← drawn, x]
    rfl
  rw [performed] at target'
  have stays := performFrame_wf s.par.tdoBit s.link (clocks us) s.env.draws wf
  rw [performed] at stays
  refine ⟨samples, bits, read ▸ answered_of_reference tx rx ref some, ?_, ?_, ?_, stays⟩
  · rw [env, tx']
  · rw [env, rx']
  · rw [env, target']

/-- A state ready for a scan of a reference target whose chain is a loopback chain that holds `cell`. -/
structure Looped (s : State) (cell : List Bool) : Prop where
  ready : JtagReady s
  tx : s.env.tx = []
  rx : s.env.rx = []
  target : ∃ g, s.env.target = some g ∧ g.wf = true ∧ g.q = .rti ∧ LoopChain s.pre s.pos cell g.chain

/-- One write_dr of a loopback register: it returns the register's value, and leaves its own (R67). -/
theorem writeDr_looped {s : State} {cell : List Bool} {n : Nat} (h : Looped s cell) (len : cell.length = n) (pos : 1 ≤ n)
    (max : n ≤ 64) (fits : Fits s (2 * (3 + s.pre + n + s.pos + 2))) (v : BitVec 64) :
    ∃ t, exec (.writeDr v n) s = .next t ∧ t.results = s.results ++ [.ok (.bits cell)] ∧ Looped t (bitsOf n v)
      ∧ Fits t (2 * (3 + t.pre + n + t.pos + 2)) := by
  obtain ⟨⟨idle, buffers, mode, tap⟩, tx, rx, g, target, wf, rti, chain⟩ := h
  obtain ⟨ts, before, after, d, clocked, lenBefore, lenAfter, chain'⟩ := clockUnits_loopChain chain len pos v s.env.draws
  rw [← rti] at clocked
  have units := scanUnits_length .dr v n s.pre s.pos
  obtain ⟨samples, bits, answer, tx', rx', target', wf'⟩ := answered_clocks tx rx target wf
    (us := Machine.scanUnits .dr v n s.pre s.pos) (List.ne_nil_of_length_pos (by omega)) (by rw [units]; exact fits)
    clocked
  obtain ⟨front, samplesAfter, rfl, frontBits, afterBits⟩ := List.map_eq_append_iff.1 bits
  obtain ⟨samplesBefore, data, rfl, beforeBits, dataBits⟩ := List.map_eq_append_iff.1 frontBits
  have scanned := scan_answered (kind := .dr) mode tap buffers pos max (before := samplesBefore) (data := data)
    (after := samplesAfter) (by rw [← List.length_map s.tdoOf, beforeBits]; exact lenBefore)
    (by rw [← List.length_map s.tdoOf, dataBits]; exact len)
    (by rw [← List.length_map s.tdoOf, afterBits]; exact lenAfter) fits answer
  refine ⟨(s.exchanged _).returned (.ok (.bits (data.map s.tdoOf))), ?_, by rw [dataBits]; rfl,
    ⟨⟨idle, buffers, mode, tap⟩, tx', rx', _, target', wf', rti, chain'⟩, fits⟩
  rw [exec_eq_operate, operate_of_idle idle, bodyOf, bind_of_ok scanned]
  rfl

/-- Settles O59: the second write_dr finds what the first left. -/
theorem loopbackReturnsValue : Obligations.LoopbackReturnsValue := by
  intro s g nearTdo nearTdi tap reg v w n ready tx rx target wf rti chain lenTdo lenTdi bypass selected kind len pos max fits
  have looped : Looped s reg.cell := ⟨ready, tx, rx, g, target, wf, rti,
    nearTdo, nearTdi, tap, reg, chain, lenTdo, lenTdi, bypass, selected, kind, rfl⟩
  obtain ⟨t, first, results, looped', fits'⟩ := writeDr_looped looped len pos max fits v
  obtain ⟨u, second, results', -⟩ := writeDr_looped looped' (by simp [bitsOf]) pos max fits' w
  refine ⟨t, u, first, second, results, ?_⟩
  rw [results', results, List.append_assoc]
  rfl

end Sys2Proof.Proofs
end

section
/-! PROOFS. The operands and the tracker: the fields of an access request (R116), the clock units of a scan (R185), the moves of the
tracker (R160, R163) and of the line state (R215). -/

namespace Sys2Proof.Proofs

open Sys2Proof.Machine Sys2Proof.Laws

/-! ### The access request -/

/-- RnW, A[2] and A[3], and the data above them (R116). -/
theorem accessReq_fields (rnw : Bool) (off : Byte) (d : Word) :
    (accessReq rnw off d).getLsbD 0 = rnw ∧ (accessReq rnw off d).getLsbD 1 = off.getLsbD 2
      ∧ (accessReq rnw off d).getLsbD 2 = off.getLsbD 3 ∧ (accessReq rnw off d).extractLsb' 3 32 = d := by
  refine ⟨by simp [accessReq], by simp [accessReq, addrA], by simp [accessReq, addrA], ?_⟩
  refine BitVec.eq_of_getLsbD_eq fun i hi => ?_
  have inside : 3 + i < 35 := by omega
  simp [accessReq, addrA, hi, inside]

/-! ### The units of a scan -/

/-- The units that enter a shift state navigate: no data and no capture (R163, R164). -/
def entryUnits : ScanKind → List ClockUnit
  | .ir => enterShiftIR
  | .dr => enterShiftDR

theorem scanUnits_eq (kind : ScanKind) (value : BitVec 64) (n p q : Nat) :
    scanUnits kind value n p q
      = entryUnits kind ++ List.replicate p (nav false) ++ dataUnits value n q ++ trailingUnits q ++ leaveExit1 := by
  cases kind <;> rfl

theorem dataUnits_cap (value : BitVec 64) (n q : Nat) : (dataUnits value n q).map ClockUnit.cap = List.replicate n true := by
  simp [dataUnits, Function.comp_def]

theorem trailingUnits_tdi (q : Nat) : (trailingUnits q).map ClockUnit.tdi = List.replicate q true := by
  simp [trailingUnits, nav, Function.comp_def]

theorem trailingUnits_cap (q : Nat) : (trailingUnits q).map ClockUnit.cap = List.replicate q false := by
  simp [trailingUnits, nav, Function.comp_def]

/-- TMS is 1 on the last unit of the shift, data or padding, and on no other (R185). -/
theorem shift_tms (value : BitVec 64) {n : Nat} (h : 1 ≤ n) (p q : Nat) :
    (List.replicate p (nav false)).map ClockUnit.tms ++ (dataUnits value n q).map ClockUnit.tms
      ++ (trailingUnits q).map ClockUnit.tms = List.replicate (p + n + q - 1) false ++ [true] := by
  rw [dataUnits_tms value h, List.map_replicate]
  cases q with
  | zero =>
    rw [show p + n + 0 - 1 = p + (n - 1) by omega]
    simp [trailingUnits, nav, ← List.append_assoc]
  | succ q =>
    rw [trailingUnits_tms (by omega), show p + n + (q + 1) - 1 = p + (n - 1 + 1 + q) by omega]
    simp [nav, List.replicate_add]

/-! ### The line state -/

theorem all_rawBits (nbits : BitVec 16) (bytes : List Byte) (p : Bool → Bool) :
    (rawBits nbits bytes).all p = true ↔ ∀ i < nbits.toNat, p ((bytes.getD (i / 8) 0).getLsbD (i % 8)) = true := by
  simp [rawBits]

/-! ### The obligations -/

/-- Settles O9: the request of a read has the data 0, that of a write its word. -/
theorem accessRequest : Obligations.AccessRequest := by
  intro off value
  cases value with
  | none => exact accessReq_fields true off 0
  | some d => exact accessReq_fields false off d

/-- Settles O12: the units part by part; TMS is 1 on the last data unit, or on the last padding unit if there is one. -/
theorem scanUnits : Obligations.ScanUnits := by
  intro kind value length leading trailing h entry us
  have tms : us.map ClockUnit.tms = (entryUnits kind).map ClockUnit.tms
      ++ ((List.replicate leading (nav false)).map ClockUnit.tms ++ (dataUnits value length trailing).map ClockUnit.tms
        ++ (trailingUnits trailing).map ClockUnit.tms) ++ leaveExit1.map ClockUnit.tms := by
    simp only [us, scanUnits_eq, List.map_append, List.append_assoc]
  have twoMore (b : Bool) : List.replicate (trailing + 2) b = List.replicate trailing b ++ [b, b] := List.replicate_add ..
  refine ⟨?_, ?_, ?_⟩
  · rw [tms, shift_tms value h]
    cases kind <;> simp [entry, entryUnits, enterShiftIR, enterShiftDR, leaveExit1, nav]
  · simp only [us, scanUnits_eq, List.map_append, dataUnits_tdi, trailingUnits_tdi, twoMore]
    cases kind <;> simp [entry, entryUnits, enterShiftIR, enterShiftDR, leaveExit1, nav, List.replicate_add]
  · simp only [us, scanUnits_eq, List.map_append, dataUnits_cap, trailingUnits_cap, twoMore]
    cases kind <;> simp [entry, entryUnits, enterShiftIR, enterShiftDR, leaveExit1, nav, List.replicate_add]

/-- Settles O13: the next set is the image by definition; each navigation sequence is run. -/
theorem trackerMoves : Obligations.TrackerMoves :=
  ⟨fun _ _ _ => mem_deltaSet, by decide, by decide, by decide, by decide, by decide, by decide, by decide, by decide⟩

/-- Settles O19: the two tests of `lnk` are tests of every bit, and an accepted sequence has a bit, so not both hold (R215). -/
theorem lineStateMoves : Obligations.LineStateMoves := by
  refine ⟨fun _ _ _ => ⟨rfl, rfl⟩, fun l nbits bytes ok => ?_⟩
  intro bit
  have ones : (rawBits nbits bytes).all (fun b => b) = true ↔ ∀ i < nbits.toNat, bit i = true := all_rawBits ..
  have zeros : (rawBits nbits bytes).all (fun b => !b) = true ↔ ∀ i < nbits.toNat, bit i = false := by
    rw [all_rawBits]
    simp [bit]
  have min : Config.swdResetMin = 50 := rfl
  simp only [lineNext, ones, zeros, min]
  refine ⟨fun reset => if_pos reset, fun live idle => ?_, fun noReset noIdle => ?_⟩
  · have nonempty : nbits.toNat ≠ 0 := fun h => by simp [rawAccepted, BitVec.toNat_eq, h] at ok
    have noReset : ¬ (50 ≤ nbits.toNat ∧ ∀ i < nbits.toNat, bit i = true) := fun h => by
      have := h.2 0 (by omega)
      rw [idle 0 (by omega)] at this
      cases this
    rw [if_neg noReset, if_pos idle]
    rcases live with rfl | rfl <;> rfl
  · rw [if_neg noReset]
    split
    · next idle =>
      cases l with
      | unknown => rfl
      | lineReset => exact absurd ⟨.inl rfl, idle⟩ noIdle
      | ready => exact absurd ⟨.inr rfl, idle⟩ noIdle
    · rfl

end Sys2Proof.Proofs
end
